-- ==== Sys2Proof/Word.lean ====
section
/-! DEFINITION. The words of the OWM-DS18B20 core: bytes, request words, line levels, ROM codes. -/

namespace Sys2Proof

/-! Sizes of 00_scope.md rule R9. -/

/-- `ROM_BYTES`: bytes in a ROM code. -/
abbrev Config.romBytes : Nat := 8
/-- `SP_BYTES`: bytes in a scratchpad. -/
abbrev Config.spBytes : Nat := 9
/-- `PIN_BITS`: width of a pin identifier. -/
abbrev Config.pinBits : Nat := 8

/-- A byte, 8 bits (00_scope.md rule R11). -/
abbrev Byte := BitVec 8

/-- A pin identifier (00_scope.md rule R9, `PIN_BITS`). -/
abbrev Pin := BitVec Config.pinBits

/-- A request word: OP in [15:8], ARG in [7:0] (30_encoding.md rule R100). -/
abbrev ReqWord := BitVec 16

/-- A level of the line (00_scope.md rule R11): `high` reads as 1, `low` reads as 0. -/
inductive Level where
  | high
  | low
  deriving DecidableEq, Repr, Inhabited

/-- A 64-bit ROM code as its eight bytes in index order (20_memory.md rule R76). -/
abbrev Rom := Vector Byte Config.romBytes

end Sys2Proof
end

