-- ==== Sys2Proof/Syntax.lean ====
section
/-! DEFINITION. The instructions: the 19 request operations of 30_encoding.md rule R102, which the engine decodes, and the 11
wire command bytes of rule R110, which a device decodes. -/

namespace Sys2Proof

/-- The addressing choice A of a function command (30_encoding.md rule R101, 42_rom_commands.md rule R231). -/
inductive Addressing where
  | skipRom   -- A = 0
  | matchRom  -- A = 1: Match ROM with ROM_IN
  deriving DecidableEq, Repr, Inhabited

/-- One constructor per row of spec/opcode_table.json. -/
inductive Instr where
  -- Bus Driver requests (41_bus_driver.md)
  | init (pin : Pin)
  | driveLow
  | release
  | resetPulse
  | writeBit (b : Bool)
  | readBit
  | writeByte (data : Byte)
  | readByte
  -- ROM-command requests (42_rom_commands.md)
  | readRom
  | matchRom
  | skipRom
  | alarmSearch
  | searchRom
  -- function-command requests (43_function_commands.md)
  | convertT (a : Addressing)
  | writeScratchpad (a : Addressing)
  | readScratchpad (a : Addressing)
  | copyScratchpad (a : Addressing)
  | recallEeprom (a : Addressing)
  | readPowerSupply (a : Addressing)
  -- wire command bytes, decoded by a device (45_reference_device.md rules R313, R319 to R326)
  | wReadRom
  | wMatchRom
  | wSkipRom
  | wAlarmSearch
  | wSearchRom
  | wConvertT
  | wWriteScratchpad
  | wReadScratchpad
  | wCopyScratchpad
  | wRecallEeprom
  | wReadPowerSupply
  deriving DecidableEq, Repr, Inhabited

/-- Is this one of the 19 requests of 30_encoding.md rule R102 (and not a wire command byte)? -/
def Instr.isRequest : Instr → Bool
  | .init _ | .driveLow | .release | .resetPulse | .writeBit _ | .readBit | .writeByte _ | .readByte => true
  | .readRom | .matchRom | .skipRom | .alarmSearch | .searchRom => true
  | .convertT _ | .writeScratchpad _ | .readScratchpad _ | .copyScratchpad _ | .recallEeprom _ | .readPowerSupply _ => true
  | .wReadRom | .wMatchRom | .wSkipRom | .wAlarmSearch | .wSearchRom | .wConvertT | .wWriteScratchpad => false
  | .wReadScratchpad | .wCopyScratchpad | .wRecallEeprom | .wReadPowerSupply => false

end Sys2Proof
end

