-- ==== Sys2Proof/Machine/DeviceState.lean ====
section
/-! DEFINITION. What a device on the line holds: the reference DS18B20 of 45_reference_device.md, and the harness devices of
its rules R335 and R336. Plain data; the device's behaviour is in Machine/Device.lean and Machine/Wire.lean. -/

namespace Sys2Proof.Machine

/-- The power mode of a device (45_reference_device.md rule R300). -/
inductive Power where
  | ext
  | parasite
  deriving DecidableEq, Repr, Inhabited

/-- Scratchpad bytes 0 to 7 (20_memory.md rule R75). Byte 8 is the CRC of these (45_reference_device.md rule R301). -/
structure Scratchpad where
  tempLsb : Byte
  tempMsb : Byte
  th : Byte
  tl : Byte
  config : Byte
  res5 : Byte
  res6 : Byte
  res7 : Byte
  deriving DecidableEq, Repr, Inhabited

/-- The EEPROM copy (45_reference_device.md rule R302). -/
structure Eeprom where
  th : Byte
  tl : Byte
  cfg : Byte
  deriving DecidableEq, Repr, Inhabited

/-- What a device in a TX position sends, bit by bit: its 64 ROM bits, its 72 scratchpad bits or its power bit
(45_reference_device.md rules R315, R320, R325). -/
inductive TxSource where
  | rom
  | scratchpad
  | power
  deriving DecidableEq, Repr, Inhabited

/-- The protocol position (45_reference_device.md rule R303). `tx src k` is TX with bit `k` of `src` next. In `waitRom` and
`waitFn` a count of 8 means that the command byte is complete and is to be decoded. -/
inductive Pos where
  | waitRom (acc : Byte) (n : Nat)
  | matching (k : Nat) (ok : Bool)
  | waitFn (acc : Byte) (n : Nat)
  | rxWsp (acc : BitVec 24) (n : Nat)
  | tx (src : TxSource) (k : Nat)
  | search
  | ignore
  | unknown
  deriving DecidableEq, Repr, Inhabited

/-- The internal activity (45_reference_device.md rule R304). A conversion carries the temperature it will store. -/
inductive Act where
  | none
  | converting (tDone : Nat) (raw : BitVec 16)
  | copying (tDone : Nat)
  deriving DecidableEq, Repr, Inhabited

/-- `CRC_d`, the CRC function the environment supplies (45_reference_device.md rule R301): a free function, or the usual
1-Wire CRC8 of 93_implementation_defined.md G6 (log entry 17). -/
inductive CrcModel where
  | free
  | usual
  deriving DecidableEq, Repr, Inhabited

/-- What the environment fixes for a device: a simulated sensor's configured value, a known conversion or commit time (`none`
leaves the draw free; log entry 16), and the CRC function. -/
structure Script where
  raw : Option (BitVec 16)
  conversion : Option Nat
  copy : Option Nat
  crc : CrcModel
  deriving DecidableEq, Repr, Inhabited

/-- A reference DS18B20 (45_reference_device.md rules R300 to R306). `slotEnd` is the end of the last slot it saw, `draws`
the number of free values it has taken. -/
structure Ds18b20 where
  rom : Rom
  power : Power
  sp : Scratchpad
  ee : Eeprom
  pos : Pos
  act : Act
  slotEnd : Nat
  draws : Nat
  script : Script
  deriving DecidableEq, Repr

/-- The phase of an echo device (45_reference_device.md rule R335): before its first reset, receiving a byte, or sending
bit `k` of the byte it received. -/
inductive Echo where
  | idle
  | receiving (acc : Byte) (n : Nat)
  | sending (e : Byte) (k : Nat)
  deriving DecidableEq, Repr, Inhabited

/-- The kinds of device the spec describes. -/
inductive DeviceKind where
  | ds18b20 (d : Ds18b20)
  | echo (e : Echo)
  | presenceOnly
  deriving DecidableEq, Repr

/-- A device on the line of pin `pin`. `presence` is the rising edge of the last bus reset it saw (rule R308), `hold` the
window [from, until) in which it drives the current slot low (rule R311). -/
structure Device where
  pin : Pin
  presence : Option Nat
  hold : Option (Nat × Nat)
  kind : DeviceKind
  deriving DecidableEq, Repr

/-- A DS18B20 as the environment builds it (45_reference_device.md rule R306): position IGNORE, no activity, TH, TL and
CONFIG from the EEPROM copy, and the temperature and reserved bytes the environment gives. -/
def Device.powerUp (pin : Pin) (rom : Rom) (power : Power) (ee : Eeprom) (tempLsb tempMsb res5 res6 res7 : Byte)
    (script : Script) : Device where
  pin := pin
  presence := none
  hold := none
  kind := .ds18b20
    { rom := rom, power := power, ee := ee, pos := .ignore, act := .none, slotEnd := 0, draws := 0, script := script
      sp := { tempLsb := tempLsb, tempMsb := tempMsb, th := ee.th, tl := ee.tl, config := ee.cfg
              res5 := res5, res6 := res6, res7 := res7 } }

end Sys2Proof.Machine
end

