-- ==== Sys2Proof/Config.lean ====
section
/-! DEFINITION. The implementation parameters of 00_scope.md rule R9, and the free values: constants without a body for
everything the spec leaves open, so that no proof can see what they are. -/

namespace Sys2Proof

/-- The parameters of 00_scope.md rule R9 that have a value. The times are in µs, `tConvMs` and `tCopyMs` in ms. The three sizes
are the ones the types of Word.lean are made with. The OPEN parameters are arguments: `T_JIT`, `VALID_PIN` and `IRQ_AT_RESET`
stand in `Env`, and `N_DEV` is the length of the device list that `State.powerOn` takes (Machine/State.lean). -/
structure Params where
  tRstl : Nat
  tPds : Nat
  tRstr : Nat
  tSlot : Nat
  tLow1 : Nat
  tLow0 : Nat
  tRl : Nat
  tMsr : Nat
  tRec : Nat
  tConvMs : Nat
  tCopyMs : Nat
  romBytes : Nat
  spBytes : Nat
  pinBits : Nat
  deriving DecidableEq, Repr

namespace Config

/-- The value column of 00_scope.md rule R9. -/
def params : Params where
  tRstl := 480
  tPds := 60
  tRstr := 420
  tSlot := 70
  tLow1 := 6
  tLow0 := 70
  tRl := 6
  tMsr := 15
  tRec := 1
  tConvMs := 750
  tCopyMs := 10
  romBytes := Config.romBytes
  spBytes := Config.spBytes
  pinBits := Config.pinBits

/-- `T_RSTL`: the reset pulse's low time. -/
def tRstl : Nat := params.tRstl
/-- `T_PDS`: from release to the presence sample. -/
def tPds : Nat := params.tPds
/-- `T_RSTR`: from the presence sample to the end of the reset. -/
def tRstr : Nat := params.tRstr
/-- `T_SLOT`: from the falling edge to the end of the slot, without recovery. -/
def tSlot : Nat := params.tSlot
/-- `T_LOW1`: low time of a written 1. -/
def tLow1 : Nat := params.tLow1
/-- `T_LOW0`: low time of a written 0. -/
def tLow0 : Nat := params.tLow0
/-- `T_RL`: low time of a read slot. -/
def tRl : Nat := params.tRl
/-- `T_MSR`: from the falling edge of a read slot to its sample. -/
def tMsr : Nat := params.tMsr
/-- `T_REC`: recovery after every slot. -/
def tRec : Nat := params.tRec
/-- `T_CONV` in µs: the longest conversion. -/
def tConv : Nat := 1000 * params.tConvMs
/-- `T_COPY` in µs: the longest EEPROM commit. -/
def tCopy : Nat := 1000 * params.tCopyMs
/-- `T_BIT = T_SLOT + T_REC`: one bit operation (00_scope.md rule R9). -/
def tBit : Nat := tSlot + tRec
/-- `T_RST`: one whole reset (00_scope.md rule R9). -/
def tRst : Nat := tRstl + tPds + tRstr

/-! The reference device's windows (45_reference_device.md rules R307, R308, R309, R311, decision D26). -/

/-- A low period this long or longer is a bus reset (rule R307). -/
def resetThreshold : Nat := 480
/-- The presence pulse begins this long after the rising edge that ends a reset (rule R308). -/
def presenceFrom : Nat := 30
/-- The presence pulse ends this long after that edge (rule R308). -/
def presenceUntil : Nat := 150
/-- A slot whose low period is shorter than this is a 1, otherwise a 0 (rule R309). -/
def bitThreshold : Nat := 15
/-- A device sending 0 holds the line low until this long after the falling edge (rule R311). -/
def zeroHold : Nat := 45

/-! OPEN parameters of rule R9 that State.reset takes: implementation constants without a body. -/

/-- The pin identifiers the platform accepts, `VALID_PIN` as a list (rule R9, OPEN; log entry 4). -/
opaque validPins : List Pin
/-- `IRQ_AT_RESET` (rule R9, OPEN; log entry 3). -/
opaque irqAtReset : Bool
/-- `T_JIT` of a general platform (rule R9, OPEN; log entry 5). -/
opaque tJit : Nat

/-! Free values (draws): each is an uninterpreted function of a draw counter (log entries 5, 16, 17). -/

/-- The gap between two primitives outside a critical section (40_shim_interface.md rule R158). -/
opaque freeGap : Nat → Nat
/-- The excess of a `delay_us`, before it is limited to `T_JIT` (40_shim_interface.md rule R153). -/
opaque freeJitter : Nat → Nat
/-- The excess of a `delay_ms` (40_shim_interface.md rule R154). -/
opaque freeSleep : Nat → Nat
/-- The level a sample reads in a general model (10_state.md rule R41). -/
opaque freeLevel : Nat → Level
/-- `CRC_d` of a device: the CRC8 byte of its scratchpad bytes 0..7 (45_reference_device.md rule R301). -/
opaque crc8 : Rom → Machine.Scratchpad → Byte
/-- A conversion's duration, before it is limited to (0, T_CONV] (45_reference_device.md rule R321). -/
opaque freeConversion : Rom → Nat → Nat
/-- A commit's duration, before it is limited to (0, T_COPY] (45_reference_device.md rule R323). -/
opaque freeCopy : Rom → Nat → Nat
/-- The temperature a conversion stores (45_reference_device.md rule R304). -/
opaque freeSensor : Rom → Nat → BitVec 16
/-- A temperature bit read while the device converts (45_reference_device.md rule R321). -/
opaque freeTempBit : Rom → Nat → Bool
/-- How long a device in SEARCH, in UNKNOWN or committing drives the slot low, before it is limited to the slot
(45_reference_device.md rules R318, R323, R329). -/
opaque freeHold : Rom → Nat → Nat
/-- The position a committing device takes after a slot (45_reference_device.md rule R323). -/
opaque freePosition : Rom → Nat → Machine.Pos

end Config

end Sys2Proof
end

