-- ==== Sys2Proof/WellFormed.lean ====
section
/-! DEFINITION. What is well formed: a parameter set (00_scope.md rule R10), an instruction, a device list (45_reference_device.md
rule R300). -/

namespace Sys2Proof

/-- 00_scope.md rule R10, condition by condition in the rule's order. -/
def Params.wellFormed (p : Params) : Bool :=
  decide (0 < p.tLow1) && decide (p.tLow1 < p.tMsr) && decide (p.tMsr < p.tSlot)
    && decide (0 < p.tRl) && decide (p.tRl < p.tMsr)
    && decide (p.tLow1 < 15)
    && decide (p.tLow0 = p.tSlot) && decide (p.tLow0 ≥ p.tMsr)
    && decide (p.tPds + p.tRstr ≥ 480)
    && decide (p.tRec ≥ 1)

/-- An instruction is well formed when each operand fits its field: PIN and DATA are ARG[7:0], B and A are ARG[0]
(30_encoding.md rule R101). The operands' types see to it, so every term of `Instr` is well formed
(`Instr.wellFormed_all` in Laws/Encoding.lean). -/
def Instr.WellFormed : Instr → Bool
  | .init pin => decide (pin.toNat < 2 ^ Config.pinBits)
  | .writeByte data => decide (data.toNat < 2 ^ 8)
  | .writeBit b => decide (b.toNat < 2)
  | _ => true

namespace Machine

/-- The ROM code of a device, where it has one. -/
def Device.romCode? (d : Device) : Option Rom :=
  match d.kind with
  | .ds18b20 x => some x.rom
  | _ => none

/-- No two DS18B20 of one line have the same ROM code (45_reference_device.md rule R300). -/
def romsDistinct : List Device → Bool
  | [] => true
  | d :: ds => (d.romCode?.isNone || ds.all (fun e => !(e.pin == d.pin && e.romCode? == d.romCode?))) && romsDistinct ds

end Machine

end Sys2Proof
end

