-- ==== Sys2Proof/Decode.lean ====
section
/-! DEFINITION. The two decoders (30_encoding.md): the engine's, total on the 65,536 request words (rules R100 to R104), and a
device's, total on the 256 wire bytes (rules R110, R313, R326). Then the encoder, and the opcode rows as masks. -/

namespace Sys2Proof

/-- Why a word or a byte is no instruction. -/
inductive DecodeError where
  | illegalRequest (w : ReqWord)  -- no row of rule R102 matches (rule R103)
  | notACommand (b : Byte)        -- no wire command byte of rule R110
  deriving DecidableEq, Repr

/-- What is to be decoded: a request word the host delivered, or a byte a device has received. -/
inductive Code where
  | request (w : ReqWord)
  | wire (b : Byte)
  deriving DecidableEq, Repr

/-- OP = word[15:8] (rule R100). -/
def opField (w : ReqWord) : Byte := w.extractLsb' 8 8
/-- ARG = word[7:0] (rule R100). -/
def argField (w : ReqWord) : Byte := w.extractLsb' 0 8
/-- A request word from its two fields (rule R100). -/
def opWord (op arg : Byte) : ReqWord := op ++ arg

/-- ARG must be 0x00 (rule R101, last class). -/
def argNone (w : ReqWord) (i : Instr) : Except DecodeError Instr :=
  if argField w = 0 then .ok i else .error (.illegalRequest w)

/-- ARG[0] is the operand and ARG[7:1] must be 0 (rule R101). -/
def argBit (w : ReqWord) (f : Bool → Instr) : Except DecodeError Instr :=
  if (argField w).extractLsb' 1 7 = 0 then .ok (f ((argField w).getLsbD 0)) else .error (.illegalRequest w)

/-- A = 0 is Skip ROM, A = 1 is Match ROM (rule R101). -/
def addressingOf (a : Bool) : Addressing := if a then .matchRom else .skipRom
/-- The addressing bit of an addressing choice. -/
def addressingBit (a : Addressing) : Bool := decide (a = .matchRom)

/-- The engine's decoder (30_encoding.md rules R102 to R104). -/
def decodeRequest (w : ReqWord) : Except DecodeError Instr :=
  match (opField w).toNat with
  | 0x01 => .ok (.init (argField w))
  | 0x02 => argNone w .driveLow
  | 0x03 => argNone w .release
  | 0x04 => argNone w .resetPulse
  | 0x05 => argBit w .writeBit
  | 0x06 => argNone w .readBit
  | 0x07 => .ok (.writeByte (argField w))
  | 0x08 => argNone w .readByte
  | 0x33 => argNone w .readRom
  | 0x55 => argNone w .matchRom
  | 0xCC => argNone w .skipRom
  | 0xEC => argNone w .alarmSearch
  | 0xF0 => argNone w .searchRom
  | 0x44 => argBit w (fun a => .convertT (addressingOf a))
  | 0x4E => argBit w (fun a => .writeScratchpad (addressingOf a))
  | 0xBE => argBit w (fun a => .readScratchpad (addressingOf a))
  | 0x48 => argBit w (fun a => .copyScratchpad (addressingOf a))
  | 0xB8 => argBit w (fun a => .recallEeprom (addressingOf a))
  | 0xB4 => argBit w (fun a => .readPowerSupply (addressingOf a))
  | _ => .error (.illegalRequest w)

/-- A device's decoder of a complete command byte (30_encoding.md rule R110). -/
def decodeWire (b : Byte) : Except DecodeError Instr :=
  match b.toNat with
  | 0x33 => .ok .wReadRom
  | 0x55 => .ok .wMatchRom
  | 0xCC => .ok .wSkipRom
  | 0xEC => .ok .wAlarmSearch
  | 0xF0 => .ok .wSearchRom
  | 0x44 => .ok .wConvertT
  | 0x4E => .ok .wWriteScratchpad
  | 0xBE => .ok .wReadScratchpad
  | 0x48 => .ok .wCopyScratchpad
  | 0xB8 => .ok .wRecallEeprom
  | 0xB4 => .ok .wReadPowerSupply
  | _ => .error (.notACommand b)

/-- Both decoders. -/
def decode : Code → Except DecodeError Instr
  | .request w => decodeRequest w
  | .wire b => decodeWire b

/-- The OP byte of a request (rule R102), and the byte itself of a wire command (rule R110). -/
def opByte : Instr → Byte
  | .init _ => 0x01
  | .driveLow => 0x02
  | .release => 0x03
  | .resetPulse => 0x04
  | .writeBit _ => 0x05
  | .readBit => 0x06
  | .writeByte _ => 0x07
  | .readByte => 0x08
  | .readRom => 0x33
  | .matchRom => 0x55
  | .skipRom => 0xCC
  | .alarmSearch => 0xEC
  | .searchRom => 0xF0
  | .convertT _ => 0x44
  | .writeScratchpad _ => 0x4E
  | .readScratchpad _ => 0xBE
  | .copyScratchpad _ => 0x48
  | .recallEeprom _ => 0xB8
  | .readPowerSupply _ => 0xB4
  | .wReadRom => 0x33
  | .wMatchRom => 0x55
  | .wSkipRom => 0xCC
  | .wAlarmSearch => 0xEC
  | .wSearchRom => 0xF0
  | .wConvertT => 0x44
  | .wWriteScratchpad => 0x4E
  | .wReadScratchpad => 0xBE
  | .wCopyScratchpad => 0x48
  | .wRecallEeprom => 0xB8
  | .wReadPowerSupply => 0xB4

/-- The ARG byte an instruction carries (30_encoding.md rule R101); a wire command byte has none. -/
def argByte : Instr → Byte
  | .init pin => pin
  | .writeBit b => if b then 1 else 0
  | .writeByte data => data
  | .convertT a | .writeScratchpad a | .readScratchpad a | .copyScratchpad a | .recallEeprom a | .readPowerSupply a =>
    if addressingBit a then 1 else 0
  | _ => 0

/-- The request word of an operation with its operands (rules R101, R102). -/
def requestWord (i : Instr) : ReqWord := opWord (opByte i) (argByte i)

/-- The encoder: the word or the byte of an instruction. -/
def encode (i : Instr) : Code :=
  if i.isRequest then .request (requestWord i) else .wire (opByte i)

/-- A row of rule R102: the words `w` with `w &&& mask = pattern`. -/
structure Row where
  mnemonic : String
  pattern : ReqWord
  mask : ReqWord
  deriving DecidableEq, Repr

/-- A word matches a row under its mask (rule R103). -/
def Row.admits (r : Row) (w : ReqWord) : Bool := decide (w &&& r.mask = r.pattern)

/-- The 19 rows of rule R102, as the rule's table gives match and mask. -/
def requestRows : List Row :=
  [⟨"INIT", 0x0100, 0xFF00⟩, ⟨"DRIVE_LOW", 0x0200, 0xFFFF⟩, ⟨"RELEASE", 0x0300, 0xFFFF⟩, ⟨"RESET_PULSE", 0x0400, 0xFFFF⟩,
   ⟨"WRITE_BIT", 0x0500, 0xFFFE⟩, ⟨"READ_BIT", 0x0600, 0xFFFF⟩, ⟨"WRITE_BYTE", 0x0700, 0xFF00⟩, ⟨"READ_BYTE", 0x0800, 0xFFFF⟩]
  ++ [⟨"READ_ROM", 0x3300, 0xFFFF⟩, ⟨"MATCH_ROM", 0x5500, 0xFFFF⟩, ⟨"SKIP_ROM", 0xCC00, 0xFFFF⟩,
   ⟨"ALARM_SEARCH", 0xEC00, 0xFFFF⟩, ⟨"SEARCH_ROM", 0xF000, 0xFFFF⟩]
  ++ [⟨"CONVERT_T", 0x4400, 0xFFFE⟩, ⟨"WRITE_SCRATCHPAD", 0x4E00, 0xFFFE⟩, ⟨"READ_SCRATCHPAD", 0xBE00, 0xFFFE⟩,
   ⟨"COPY_SCRATCHPAD", 0x4800, 0xFFFE⟩, ⟨"RECALL_EEPROM", 0xB800, 0xFFFE⟩, ⟨"READ_POWER_SUPPLY", 0xB400, 0xFFFE⟩]

/-- What `Except` gives, as an option. -/
def okOf (r : Except DecodeError Instr) : Option Instr :=
  match r with
  | .ok i => some i
  | .error _ => none

/-- The instruction the decoders read from an opcode-table row's bits: 16 bits are a request word, 8 bits a wire byte. -/
def decodeTableWord (nbits w : Nat) : Option Instr :=
  match nbits with
  | 16 => okOf (decode (.request (BitVec.ofNat 16 w)))
  | 8 => okOf (decode (.wire (BitVec.ofNat 8 w)))
  | _ => none

end Sys2Proof
end

