-- ==== Sys2Proof/Machine/State.lean ====
section
/-! DEFINITION. The state of the machine (10_state.md rules R30 to R49), as plain data: the engine record, the platform state,
the host buffers, the clock and the trace, the line, the devices, and the inputs that wait for the machine. -/

namespace Sys2Proof.Machine

/-- The engine's own drive of the line (10_state.md rule R32). -/
inductive Drive where
  | released
  | drivenLow
  deriving DecidableEq, Repr, Inhabited

/-- The micro-sequencer position (10_state.md rule R36): IDLE, or the operation in flight and how many shim primitives it has
executed. -/
inductive Upc where
  | idle
  | running (op : Instr) (k : Nat)
  deriving DecidableEq, Repr, Inhabited

/-- The model faults the spec gives the engine (60_exceptions.md rule R350). They are values of the state's `fault` field. -/
inductive FaultCode where
  | none
  | illegalRequest
  | notBound
  | concurrentRequest
  | badPin
  | undefinedInput
  | undefinedOutput
  | copyHazard
  | msWaitInCritical
  | critUnderflow
  deriving DecidableEq, Repr, Inhabited

/-- The status of a response (30_encoding.md rule R105). -/
inductive Status where
  | ok
  | noPresence
  deriving DecidableEq, Repr, Inhabited

/-- `rstat`: the status of the last completed request, or NONE_YET (10_state.md rule R39). -/
inductive RStat where
  | noneYet
  | last (st : Status)
  deriving DecidableEq, Repr, Inhabited

/-- A buffer of `n` cells, each a byte or unwritten (10_state.md rule R43). -/
abbrev Buffer (n : Nat) := Vector (Option Byte) n

/-- The input buffer WDATA (10_state.md rule R43). -/
structure WData where
  th : Option Byte
  tl : Option Byte
  cfg : Option Byte
  deriving DecidableEq, Repr, Inhabited

/-- The output cells a response carries (30_encoding.md rule R105). -/
inductive Outputs where
  | none
  | bit (b : Option Bool)
  | byte (v : Option Byte)
  | rom (cells : Buffer Config.romBytes)
  | scratchpad (cells : Buffer Config.spBytes)
  deriving DecidableEq, Repr

/-- A response (30_encoding.md rule R105). -/
structure Response where
  status : Status
  outputs : Outputs
  deriving DecidableEq, Repr

/-- The events of a trace (00_scope.md rule R13). -/
inductive Event where
  | low
  | rel
  | smp (l : Level)
  | critOn
  | critOff
  | sleep (ms : Nat)
  | req (w : ReqWord)
  | resp (r : Response)
  deriving DecidableEq, Repr

/-- The platform's timing: the reference timing with a fixed gap before every reset and slot and exact delays
(40_shim_interface.md rules R153 and R158; the test vectors take the gap as 0), or the general one, where gaps are free values
and each delay may exceed its argument by up to `tJit`. -/
inductive Timing where
  | reference (gap : Nat)
  | general (tJit : Nat)
  deriving DecidableEq, Repr, Inhabited

/-- What a sample of a released line reads (10_state.md rule R41): the wired-AND of the devices in the state with an ideal
pull-up, or a free value. -/
inductive LineModel where
  | reference
  | general
  deriving DecidableEq, Repr, Inhabited

/-- The OPEN parameters of 00_scope.md rule R9 and the environment the machine stands in; no step changes it. -/
structure Env where
  validPins : List Pin
  irqAtReset : Bool
  timing : Timing
  line : LineModel
  deriving DecidableEq, Repr

/-- What the host does, in order: it delivers a request word, writes its input buffers, reads outputs, the temperature or the
status view, waits (30_encoding.md rule R131), or uses the shim itself (60_exceptions.md rule R359); and the event of a block
reset (70_reset_and_hazards.md rule R400). -/
inductive HostAction where
  | request (w : ReqWord)
  | writeRomIn (k : Fin Config.romBytes) (v : Byte)
  | writeTh (v : Byte)
  | writeTl (v : Byte)
  | writeCfg (v : Byte)
  | readRomOut (k : Fin Config.romBytes)
  | readSpOut (k : Fin Config.spBytes)
  | readBitOut
  | readByteOut
  | readTemperature
  | readStatus (offset : Nat)
  | waitUs (n : Nat)
  | waitMs (n : Nat)
  | enterCritical
  | exitCritical
  | setIrqMask (b : Bool)
  | blockReset
  deriving DecidableEq, Repr

/-- What the host's last read action returned (log entry 19). A temperature is a count of 1/16 °C. -/
inductive Answer where
  | byte (v : Byte)
  | bit (b : Bool)
  | temperature (raw : Int)
  deriving DecidableEq, Repr

/-- A read of the status view that another execution context has made: when, which offset, and the byte it returned (10_state.md rule
R45, log entry 38). -/
structure Viewed where
  time : Nat
  offset : Nat
  value : Byte
  deriving DecidableEq, Repr

/-- The agents (00_scope.md rule R8). Whose turn it is, `State.turn` says. The line is no agent that steps: its level is a function
of every driver's state (10_state.md rule R40). The time base and the interrupt system are the platform's. -/
inductive Agent where
  | host
  | engine
  | line
  | device
  | platform
  deriving DecidableEq, Repr

/-- What has become of the last request word delivered (70_reset_and_hazards.md rule R430, log entry 37): it has its response, or there
was none; its caller is blocked in the call (60_exceptions.md rule R357); or a block reset has ended it with no response
(70_reset_and_hazards.md rule R400). -/
inductive Call where
  | answered
  | waiting
  | cut
  deriving DecidableEq, Repr, Inhabited

/-- The machine's state. Every field is listed with its rule and its reset value in INVENTORY.md, '## State'. -/
structure State where
  -- the engine record of 10_state.md rule R30
  bound : Bool
  pin : Pin
  drive : Drive
  busy : Bool
  upc : Upc
  fault : FaultCode
  faultWord : ReqWord
  shift : Option Byte
  bitcnt : Option Nat
  byteidx : Option Nat
  pres : Option Bool
  smpl : Option Level
  copyUntil : Option Nat
  rstat : RStat
  -- platform state (rule R42)
  irqMasked : Bool
  critStack : List Bool
  -- host buffers (rule R43)
  romIn : Buffer Config.romBytes
  wdata : WData
  romOut : Buffer Config.romBytes
  spOut : Buffer Config.spBytes
  bitOut : Option Bool
  byteOut : Option Byte
  -- clock and trace, newest event first (00_scope.md rules R13, R14)
  now : Nat
  trace : List (Nat × Event)
  -- the line and the devices on it (rules R40, R47): since when the line has been low without a break, where a low period has
  -- begun that is still to be a slot or a reset (45_reference_device.md rules R307, R309; log entry 14)
  lineLow : Option Nat
  devices : List Device
  -- the environment and the inputs that wait (the model's own, log entries 3 to 5, 8 to 10, 19, 37, 38); `call` says what
  -- has become of the last request word delivered (60_exceptions.md rule R357, 70_reset_and_hazards.md rule R430)
  env : Env
  inbox : List HostAction
  intruders : List (Nat × ReqWord)
  resetsAt : List Nat
  draws : Nat
  answer : Option Answer
  call : Call
  viewReads : List (Nat × Nat)
  viewed : List Viewed
  deriving DecidableEq, Repr

/-- Why a step can stop with a fault. The faults of 60_exceptions.md are not among these: they are values of `State.fault`. -/
inductive Fault where
  /-- Raised by `step` alone, when the engine is faulted with `code` and nothing more can happen (the host has no action left, or
  waits for a response that never comes): the stuck state of 60_exceptions.md rule R357 and 70_reset_and_hazards.md rule R430. Safe: nothing can be proved of a later state. -/
  | stuck (code : FaultCode)
  deriving DecidableEq, Repr

/-- Why a step can be refused. -/
inductive Refusal where
  /-- An instruction whose arm in Machine/Dispatch.lean gives it no meaning yet. No arm does. Safe. -/
  | notModelled (mnemonic : String)
  /-- Raised by `step` alone, when the parameter set of Config breaks a condition of 00_scope.md rule R10 ("A model refuses a
  parameter set that breaks one"). The shipped parameter set breaks none. Safe. -/
  | illFormedParameters
  deriving DecidableEq, Repr

/-- The general environment, with the OPEN parameters of 00_scope.md rule R9 as opaque constants (log entries 3 to 5). -/
def Env.open : Env where
  validPins := Config.validPins
  irqAtReset := Config.irqAtReset
  timing := .general Config.tJit
  line := .general

/-- The machine right after block reset as the first event of a run (10_state.md rule R49, 70_reset_and_hazards.md rule R400), in
the environment `env` with the devices `devices` on the lines: the OPEN parameters of 00_scope.md rule R9 are arguments, `N_DEV`
being `devices.length`. `pin` is the model's choice (log entry 2), and no input waits. -/
def State.powerOn (env : Env) (devices : List Device) : State where
  bound := false
  pin := 0
  drive := .released
  busy := false
  upc := .idle
  fault := .none
  faultWord := 0
  shift := none
  bitcnt := none
  byteidx := none
  pres := none
  smpl := none
  copyUntil := none
  rstat := .noneYet
  irqMasked := env.irqAtReset
  critStack := []
  romIn := Vector.replicate Config.romBytes none
  wdata := { th := none, tl := none, cfg := none }
  romOut := Vector.replicate Config.romBytes none
  spOut := Vector.replicate Config.spBytes none
  bitOut := none
  byteOut := none
  now := 0
  trace := []
  lineLow := none
  devices := devices
  env := env
  inbox := []
  intruders := []
  resetsAt := []
  draws := 0
  answer := none
  call := .answered
  viewReads := []
  viewed := []

/-- The machine after reset that the host's interface names: the general environment with its OPEN parameters opaque, and no
device (log entry 6). Statements about reset take `State.powerOn`, with any environment and any devices. -/
def State.reset : State := State.powerOn Env.open []

end Sys2Proof.Machine
end

