-- ==== Sys2Proof/Machine/Device.lean ====
section
/-! DEFINITION. How a device behaves (45_reference_device.md): what it drives, how a slot moves its position, what each command
byte does to it, bus reset, and the completion of conversions and commits. -/

namespace Sys2Proof.Machine

/-! ### What a DS18B20 sends -/

/-- Bit `k` of a ROM code, byte 0 first and each byte least-significant bit first (rules R315, R316). -/
def romBit (rom : Rom) (k : Nat) : Bool := (rom[k / 8]?.getD 0).getLsbD (k % 8)

/-- One bit of the usual 1-Wire CRC8, x^8 + x^5 + x^4 + 1 in reflected form (93_implementation_defined.md G6). -/
def crcShift (crc : Byte) : Byte := if crc.getLsbD 0 then (crc >>> 1) ^^^ 0x8C else crc >>> 1

/-- The usual 1-Wire CRC8 of some bytes (93_implementation_defined.md G6). -/
def usualCrc8 (bytes : List Byte) : Byte :=
  bytes.foldl (fun crc b => (List.range 8).foldl (fun c _ => crcShift c) (crc ^^^ b)) 0

/-- `CRC_d(SP_d[0..7])` (rule R301), over the bytes the device stores. While it converts these are the old temperature bytes, though
rule R321 makes the temperature bits it sends free values (DESIGN CHOICE, log entry 17). -/
def Ds18b20.crcByte (d : Ds18b20) : Byte :=
  match d.script.crc with
  | .free => Config.crc8 d.rom d.sp
  | .usual =>
    usualCrc8 [d.sp.tempLsb, d.sp.tempMsb, d.sp.th, d.sp.tl, d.sp.config, d.sp.res5, d.sp.res6, d.sp.res7]

/-- Scratchpad byte `k` (20_memory.md rule R75); byte 8 is the CRC of bytes 0 to 7 (rule R301). -/
def Ds18b20.spByte (d : Ds18b20) : Nat → Byte
  | 0 => d.sp.tempLsb
  | 1 => d.sp.tempMsb
  | 2 => d.sp.th
  | 3 => d.sp.tl
  | 4 => d.sp.config
  | 5 => d.sp.res5
  | 6 => d.sp.res6
  | 7 => d.sp.res7
  | _ => d.crcByte

/-- Is the device converting (rule R304)? -/
def Ds18b20.converting (d : Ds18b20) : Bool :=
  match d.act with
  | .converting _ _ => true
  | _ => false

/-- Is the device committing to EEPROM (rule R304)? -/
def Ds18b20.copying (d : Ds18b20) : Bool :=
  match d.act with
  | .copying _ => true
  | _ => false

/-- How many bits a TX position sends (rules R315, R320, R325). -/
def TxSource.bits : TxSource → Nat
  | .rom => 8 * Config.romBytes
  | .scratchpad => 8 * Config.spBytes
  | .power => 1

/-- The position after the last bit of a TX (rules R315, R320, R325). -/
def TxSource.next : TxSource → Pos
  | .rom => .waitFn 0 0
  | .scratchpad => .ignore
  | .power => .ignore

/-- Bit `k` of what a TX position sends. The scratchpad is read at the moment the bit is sent (rule R320); while the device
converts, the sixteen temperature bits are free values (rule R321). -/
def Ds18b20.txBit (d : Ds18b20) (src : TxSource) (k : Nat) : Bool :=
  match src with
  | .rom => romBit d.rom k
  | .scratchpad =>
    if d.converting && decide (k < 16) then Config.freeTempBit d.rom d.draws
    else (d.spByte (k / 8)).getLsbD (k % 8)
  | .power => decide (d.power = .ext)

/-! ### Command bytes (rules R313, R315 to R326) -/

/-- The complete command byte a receiving position holds: "When WAIT_ROM has 8 bits, the device decodes acc" (rule R313), and
the same in WAIT_FN. -/
def Pos.command? : Pos → Option Byte
  | .waitRom acc n => if 8 ≤ n then some acc else none
  | .waitFn acc n => if 8 ≤ n then some acc else none
  | _ => none

/-- A ROM command: `next` in WAIT_ROM; in WAIT_FN the byte is no function command (rule R326). -/
def Ds18b20.romCommand (next : Pos) (d : Ds18b20) : Ds18b20 :=
  match d.pos with
  | .waitRom _ _ => { d with pos := next }
  | .waitFn _ _ => { d with pos := .unknown }
  | _ => d

/-- A function command: `f` in WAIT_FN; in WAIT_ROM the byte is no ROM command (rule R313, "other"). -/
def Ds18b20.fnCommand (f : Ds18b20 → Ds18b20) (d : Ds18b20) : Ds18b20 :=
  match d.pos with
  | .waitRom _ _ => { d with pos := .unknown }
  | .waitFn _ _ => f d
  | _ => d

/-- Read ROM (rule R315). -/
def Ds18b20.takeReadRom (d : Ds18b20) : Ds18b20 := d.romCommand (.tx .rom 0)
/-- Match ROM (rule R316). -/
def Ds18b20.takeMatchRom (d : Ds18b20) : Ds18b20 := d.romCommand (.matching 0 true)
/-- Skip ROM (rule R317). -/
def Ds18b20.takeSkipRom (d : Ds18b20) : Ds18b20 := d.romCommand (.waitFn 0 0)
/-- Alarm Search (rule R318). -/
def Ds18b20.takeAlarmSearch (d : Ds18b20) : Ds18b20 := d.romCommand .search
/-- Search ROM (rule R318). -/
def Ds18b20.takeSearchRom (d : Ds18b20) : Ds18b20 := d.romCommand .search

/-- The duration `c` of a conversion, `0 < c ≤ T_CONV` (rule R321): the environment's, or a free value. -/
def Ds18b20.conversionTime (d : Ds18b20) : Nat :=
  1 + (d.script.conversion.map (· - 1)).getD (Config.freeConversion d.rom d.draws) % Config.tConv
/-- The temperature a conversion stores (rule R304): the environment's, or a free value. -/
def Ds18b20.sensor (d : Ds18b20) : BitVec 16 := d.script.raw.getD (Config.freeSensor d.rom d.draws)
/-- The duration `e` of a commit, `0 < e ≤ T_COPY` (rule R323): the environment's, or a free value. -/
def Ds18b20.copyTime (d : Ds18b20) : Nat :=
  1 + (d.script.copy.map (· - 1)).getD (Config.freeCopy d.rom d.draws) % Config.tCopy

/-- Write Scratchpad (rule R319). -/
def Ds18b20.takeWriteScratchpad (d : Ds18b20) : Ds18b20 :=
  d.fnCommand (fun d => { d with pos := .rxWsp 0 0 })
/-- Read Scratchpad (rule R320). -/
def Ds18b20.takeReadScratchpad (d : Ds18b20) : Ds18b20 :=
  d.fnCommand (fun d => { d with pos := .tx .scratchpad 0 })
/-- Convert T (rules R321, R322): the conversion runs from the end of the command's last slot; a second one restarts it. -/
def Ds18b20.takeConvertT (d : Ds18b20) : Ds18b20 :=
  d.fnCommand (fun d => { d with
    pos := .ignore, act := .converting (d.slotEnd + d.conversionTime) d.sensor, draws := d.draws + 1 })
/-- Copy Scratchpad (rule R323): the commit runs from the end of the command's last slot. -/
def Ds18b20.takeCopyScratchpad (d : Ds18b20) : Ds18b20 :=
  d.fnCommand (fun d => { d with
    pos := .ignore, act := .copying (d.slotEnd + d.copyTime), draws := d.draws + 1 })
/-- Recall EEPROM (rule R324). -/
def Ds18b20.takeRecallEeprom (d : Ds18b20) : Ds18b20 :=
  d.fnCommand (fun d => { d with
    pos := .ignore, sp := { d.sp with th := d.ee.th, tl := d.ee.tl, config := d.ee.cfg } })
/-- Read Power Supply (rule R325). -/
def Ds18b20.takeReadPowerSupply (d : Ds18b20) : Ds18b20 :=
  d.fnCommand (fun d => { d with pos := .tx .power 0 })
/-- A byte that is no command (rules R313, R326, R329). -/
def Ds18b20.takeUnknown (d : Ds18b20) : Ds18b20 := { d with pos := .unknown }

/-- What a wire command does to a device that has just gathered its byte. -/
def Ds18b20.take (i : Instr) (d : Ds18b20) : Ds18b20 :=
  match i with
  | .wReadRom => d.takeReadRom
  | .wMatchRom => d.takeMatchRom
  | .wSkipRom => d.takeSkipRom
  | .wAlarmSearch => d.takeAlarmSearch
  | .wSearchRom => d.takeSearchRom
  | .wConvertT => d.takeConvertT
  | .wWriteScratchpad => d.takeWriteScratchpad
  | .wReadScratchpad => d.takeReadScratchpad
  | .wCopyScratchpad => d.takeCopyScratchpad
  | .wRecallEeprom => d.takeRecallEeprom
  | .wReadPowerSupply => d.takeReadPowerSupply
  | _ => d

/-- The device decodes a complete command byte and takes it (rules R313, R326). -/
def Ds18b20.decodeCommand (d : Ds18b20) : Ds18b20 :=
  match d.pos.command? with
  | none => d
  | some b =>
    match decodeWire b with
    | .ok i => d.take i
    | .error _ => d.takeUnknown

/-! ### Slots -/

/-- A received bit as a number to place at position `n`. -/
def bitAt (w : Nat) (b : Bool) (n : Nat) : BitVec w := (if b then 1#w else 0#w) <<< n

/-- Write Scratchpad stores each byte when its eighth bit arrives (rule R319, decision D41). -/
def Ds18b20.storeWsp (d : Ds18b20) (acc : BitVec 24) (n : Nat) : Ds18b20 :=
  if n = 8 then { d with sp := { d.sp with th := acc.extractLsb' 0 8 }, pos := .rxWsp acc n }
  else if n = 16 then { d with sp := { d.sp with tl := acc.extractLsb' 8 8 }, pos := .rxWsp acc n }
  else if 24 ≤ n then { d with sp := { d.sp with config := acc.extractLsb' 16 8 }, pos := .ignore }
  else { d with pos := .rxWsp acc n }

/-- One slot moves the position by one bit (rules R310, R311, R316, R318, R319, R328, R329). -/
def Ds18b20.moveBit (d : Ds18b20) (bit : Bool) : Ds18b20 :=
  match d.pos with
  | .waitRom acc n => { d with pos := .waitRom (acc ||| bitAt 8 bit n) (n + 1) }
  | .waitFn acc n => { d with pos := .waitFn (acc ||| bitAt 8 bit n) (n + 1) }
  | .matching k ok =>
    let ok' := ok && decide (bit = romBit d.rom k)
    if 8 * Config.romBytes ≤ k + 1 then { d with pos := if ok' then .waitFn 0 0 else .ignore }
    else { d with pos := .matching (k + 1) ok' }
  | .rxWsp acc n => d.storeWsp (acc ||| bitAt 24 bit n) (n + 1)
  | .tx src k => { d with pos := if src.bits ≤ k + 1 then src.next else .tx src (k + 1) }
  | .search => d
  | .ignore => d
  | .unknown => d

/-- The positions a device can be in after a slot: a complete command byte has been decoded (rule R313). -/
def Pos.settled (p : Pos) : Pos := if p.command?.isSome then .unknown else p

/-- A slot at a DS18B20. While it commits, its position is a free value (rule R323). A slot counts as one that arrives while the
device commits when the device still commits at the slot's rising edge, whatever it did at the falling edge (DESIGN CHOICE, log
entry 35). Not every position of rule R303 is drawn: a TX sends the device's own ROM, scratchpad or power bit, never another list of
bits, and a complete command byte becomes UNKNOWN (DESIGN CHOICE, log entry 16). The command that a slot completes takes effect at the slot's rising edge, also where the end of the slot, from which its
time runs, is later (DESIGN CHOICE, log entry 15). -/
def Ds18b20.slot (slotEnd : Nat) (bit : Bool) (d : Ds18b20) : Ds18b20 :=
  if d.copying then
    { d with slotEnd := slotEnd, pos := (Config.freePosition d.rom d.draws).settled, draws := d.draws + 1 }
  else ({ d with slotEnd := slotEnd }.moveBit bit).decodeCommand

/-- A slot at an echo device: it receives eight slots, then sends the byte over the next eight (rule R335). -/
def Echo.slot (bit : Bool) : Echo → Echo
  | .idle => .idle
  | .receiving acc n =>
    let acc' := acc ||| bitAt 8 bit n
    if 8 ≤ n + 1 then .sending acc' 0 else .receiving acc' (n + 1)
  | .sending e k => if 8 ≤ k + 1 then .receiving 0 0 else .sending e (k + 1)

/-- Does the presence pulse of `d` overlap the low period [from, until)? Such a low period is no slot (rule R308). -/
def Device.presenceOverlaps (start until' : Nat) (d : Device) : Bool :=
  match d.presence with
  | none => false
  | some e => decide (e + Config.presenceFrom < until') && decide (start < e + Config.presenceUntil)

/-- A low period of the line shorter than 480 µs, from `start` to `lineEnd`: one slot for every device outside its presence window
(rules R309, R310). The received bit is 1 when the low period is shorter than 15 µs. -/
def Device.slot (start lineEnd : Nat) (d : Device) : Device :=
  if d.presenceOverlaps start lineEnd then d
  else
    let bit := decide (lineEnd - start < Config.bitThreshold)
    let slotEnd := max (start + Config.tBit) lineEnd
    match d.kind with
    | .ds18b20 x => { d with kind := .ds18b20 (x.slot slotEnd bit) }
    | .echo e => { d with kind := .echo (e.slot bit) }
    | .presenceOnly => d

/-- A bus reset whose rising edge is at `edge` (rules R307, R308): the transaction ends and the presence pulse follows. -/
def Device.busReset (edge : Nat) (d : Device) : Device :=
  { d with
    presence := some edge
    hold := none
    kind := match d.kind with
      | .ds18b20 x => .ds18b20 { x with pos := .waitRom 0 0 }
      | .echo _ => .echo (.receiving 0 0)
      | .presenceOnly => .presenceOnly }

/-- The window in which a device that sends `bit` drives the slot that falls at `t` (rule R311). -/
def sendWindow (t : Nat) (bit : Bool) : Option (Nat × Nat) :=
  if bit then none else some (t, t + Config.zeroHold)

/-- The window of a device whose drive in the slot is a free value, limited to the slot (rules R318, R323, R329). -/
def drawnWindow (t h : Nat) : Option (Nat × Nat) :=
  if h % (Config.tSlot + 1) = 0 then none else some (t, t + h % (Config.tSlot + 1))

/-- What a DS18B20 drives in the slot whose falling edge is at `t`, and the free values it takes for it. -/
def Ds18b20.fall (t : Nat) (d : Ds18b20) : Option (Nat × Nat) × Ds18b20 :=
  let drawn := (drawnWindow t (Config.freeHold d.rom d.draws), { d with draws := d.draws + 1 })
  if d.copying then drawn
  else
    match d.pos with
    | .tx src k => (sendWindow t (d.txBit src k), { d with draws := d.draws + 1 })
    | .search => drawn
    | .unknown => drawn
    | _ => (none, d)

/-- A falling edge of the line at `t`: each device that sends starts to drive (rule R311). -/
def Device.fall (t : Nat) (d : Device) : Device :=
  match d.kind with
  | .ds18b20 x => { d with hold := (x.fall t).1, kind := .ds18b20 (x.fall t).2 }
  | .echo (.sending e k) => { d with hold := sendWindow t (e.getLsbD k) }
  | .echo _ => { d with hold := none }
  | .presenceOnly => { d with hold := none }

/-! ### What a device drives -/

/-- If the device's presence pulse covers `t`, since when (rule R308). -/
def Device.presenceSince (t : Nat) (d : Device) : Option Nat :=
  match d.presence with
  | some e => if e + Config.presenceFrom ≤ t ∧ t < e + Config.presenceUntil then some (e + Config.presenceFrom) else none
  | none => none

/-- If the device holds the current slot low at `t`, since when (rule R311). -/
def Device.holdSince (t : Nat) (d : Device) : Option Nat :=
  match d.hold with
  | some (a, b) => if a ≤ t ∧ t < b then some a else none
  | none => none

/-- If the device drives the line low at `t`, since when: its presence pulse or the current slot. -/
def Device.lowSince (t : Nat) (d : Device) : Option Nat :=
  match d.presenceSince t with
  | some a => some a
  | none => d.holdSince t

/-- Does the device drive the line low at `t`? -/
def Device.drivesLow (t : Nat) (d : Device) : Bool := (d.lowSince t).isSome

/-- The times at which the device stops driving the line low: the ends of its presence pulse and of its current slot. -/
def Device.driveEnds (d : Device) : List Nat :=
  (d.presence.map (· + Config.presenceUntil)).toList ++ (d.hold.map Prod.snd).toList

/-! ### Time -/

/-- What has completed by time `t` (rules R322, R323): a conversion stores its temperature, a commit copies TH, TL, CONFIG. -/
def Ds18b20.settle (t : Nat) (d : Ds18b20) : Ds18b20 :=
  match d.act with
  | .none => d
  | .converting tDone raw =>
    if tDone ≤ t then
      { d with act := .none, sp := { d.sp with tempLsb := raw.extractLsb' 0 8, tempMsb := raw.extractLsb' 8 8 } }
    else d
  | .copying tDone =>
    if tDone ≤ t then { d with act := .none, ee := { th := d.sp.th, tl := d.sp.tl, cfg := d.sp.config } } else d

/-- What has completed in a device by time `t`. -/
def Device.settle (t : Nat) (d : Device) : Device :=
  match d.kind with
  | .ds18b20 x => { d with kind := .ds18b20 (x.settle t) }
  | _ => d

/-! ### Command bytes as instructions, and lines that are left -/

/-- The complete command byte a device is to decode. -/
def Device.command? (d : Device) : Option Byte :=
  match d.kind with
  | .ds18b20 x => x.pos.command?
  | _ => none

/-- Apply `f` to a DS18B20 whose complete command byte is `b`. -/
def Device.onCommand (b : Byte) (f : Ds18b20 → Ds18b20) (d : Device) : Device :=
  match d.kind with
  | .ds18b20 x => if x.pos.command? = some b then { d with kind := .ds18b20 (f x) } else d
  | _ => d

/-- A device on a line that the engine was retargeted away from: its position is UNKNOWN from then on, since the level of that
line is outside the spec (41_bus_driver.md rule R181). The unknown level does nothing else to it, at that time or later: its
scratchpad, EEPROM, presence window and a slot that it holds stay, and its activity goes on to its end, though a low that the engine
left there could complete a bit, a byte, a command or a reset (DESIGN CHOICE, log entry 12). -/
def Device.abandon (d : Device) : Device :=
  match d.kind with
  | .ds18b20 x => { d with kind := .ds18b20 x.takeUnknown }
  | _ => d

end Sys2Proof.Machine
end

