-- ==== Sys2Proof/Machine/Flags.lean ====
section
/-! DEFINITION. What the host sees of the engine: the block has no stored flags (10_state.md rule R46), only the read-only
status view of six bytes (rule R45), and the modes that are read off the state (60_exceptions.md rule R380). -/

namespace Sys2Proof.Machine

/-- The code of a model fault (60_exceptions.md rule R350). -/
def FaultCode.code : FaultCode → Byte
  | .none => 0x00
  | .illegalRequest => 0x01
  | .notBound => 0x02
  | .concurrentRequest => 0x03
  | .badPin => 0x04
  | .undefinedInput => 0x05
  | .undefinedOutput => 0x06
  | .copyHazard => 0x07
  | .msWaitInCritical => 0x08
  | .critUnderflow => 0x09

/-- The code of a status (30_encoding.md rule R105). -/
def Status.code : Status → Byte
  | .ok => 0x00
  | .noPresence => 0x01

/-- RSTAT (10_state.md rule R45). -/
def RStat.code : RStat → Byte
  | .noneYet => 0xFF
  | .last st => st.code

/-- STAT: [0] BOUND, [1] DRV, [2] BUSY, [3] FLT, [7:4] read 0 (10_state.md rule R45). -/
def statByte (s : State) : Byte :=
  bitAt 8 s.bound 0 ||| bitAt 8 (decide (s.drive = .drivenLow)) 1 ||| bitAt 8 s.busy 2 ||| bitAt 8 (decide (s.fault ≠ .none)) 3

/-- The status view (10_state.md rule R45). A read of an offset above 0x5 returns 0x00, and no read has a side effect. -/
def statusView (s : State) : Nat → Byte
  | 0 => statByte s
  | 1 => if s.bound then s.pin else 0
  | 2 => s.fault.code
  | 3 => s.rstat.code
  | 4 => s.faultWord.extractLsb' 0 8
  | 5 => s.faultWord.extractLsb' 8 8
  | _ => 0

/-- The engine's operating states (60_exceptions.md rule R380). -/
inductive Mode where
  | unbound
  | idle
  | busy
  | faulted
  deriving DecidableEq, Repr

/-- The mode a state is in (60_exceptions.md rule R380). -/
def State.mode (s : State) : Mode :=
  if s.fault ≠ .none then .faulted
  else if s.busy then .busy
  else if s.bound then .idle
  else .unbound

end Sys2Proof.Machine
end

