-- ==== Sys2Proof/Machine/Ops.lean ====
section
/-! DEFINITION. The shared operations: time, the line, the shim primitives of 40_shim_interface.md, the host buffers, fault entry
(60_exceptions.md rule R356), block reset (70_reset_and_hazards.md rule R400), and the prologue and the response of every
request (41_bus_driver.md rule R184, 30_encoding.md rule R105). -/

namespace Sys2Proof.Machine

/-! ### The trace and fault entry -/

/-- Append an event at the current time to the trace (00_scope.md rules R12, R13). -/
def State.emit (e : Event) (s : State) : State := { s with trace := (s.now, e) :: s.trace }

/-- `raise F(info)` (60_exceptions.md rule R356): taking a model fault. The first fault is recorded with its word, nothing else
changes, and a fault already recorded stays. There is no return from it but block reset (rules R357, R376). -/
def raiseFault (f : FaultCode) (w : ReqWord) (s : State) : State :=
  if s.fault = .none then { s with fault := f, faultWord := w } else s

/-- The engine is in mode Busy (60_exceptions.md rule R380): a request is in flight and its micro-program goes on. -/
def State.running (s : State) : Bool := s.busy && decide (s.fault = .none)

/-! ### The line -/

/-- Apply `f` to every device on the bound line (40_shim_interface.md rule R160). -/
def State.onLine (f : Device → Device) (s : State) : State :=
  { s with devices := s.devices.map (fun d => if d.pin = s.pin then f d else d) }

/-- The devices on the bound line. -/
def State.lineDevices (s : State) : List Device := s.devices.filter (fun d => d.pin == s.pin)

/-- Since when the devices hold the bound line low, if they do at `t`. -/
def State.devicesLowSince (s : State) (t : Nat) : Option Nat := (s.lineDevices.filterMap (Device.lowSince t)).min?

/-- The level of the line while the engine releases it: the wired-AND of the devices with an ideal pull-up, or a free value
(10_state.md rules R40, R41). -/
def State.releasedLevel (s : State) : Level :=
  match s.env.line with
  | .reference => if (s.devicesLowSince s.now).isSome then .low else .high
  | .general => Config.freeLevel s.draws

/-- The level of the line (10_state.md rules R40, R41): low under every environment while the engine drives it low. -/
def State.lineLevel (s : State) : Level :=
  match s.drive with
  | .drivenLow => .low
  | .released => s.releasedLevel

/-- The engine starts to drive the line low. Where the line is high this is a falling edge, a low period begins, and the devices
that send begin to drive. Where the line is low already there is no edge and the low period goes on: one that is tracked, or a
presence pulse (70_reset_and_hazards.md rule R412; log entry 14). A driver that stops in this microsecond has stopped before, so
that the edge is seen (DESIGN CHOICE, log entry 36). -/
def beginLow (s : State) : State :=
  match s.lineLow with
  | some _ => s
  | none =>
    match s.devicesLowSince s.now with
    | none => { s with lineLow := some s.now }.onLine (Device.fall s.now)
    | some t => { s with lineLow := some t }

/-- The line rises now, and the low period that began at `start` ends: a bus reset when it lasted 480 µs or more, otherwise one slot
(45_reference_device.md rules R307, R309). One of 0 µs, which DRIVE_LOW and RELEASE at one time make, is a slot too, whose bit is 1
(DESIGN CHOICE, log entry 36). -/
def endLow (start : Nat) (s : State) : State :=
  let s' := { s with lineLow := none }
  if Config.resetThreshold ≤ s.now - start then s'.onLine (Device.busReset s.now)
  else s'.onLine (Device.slot start s.now)

/-- The engine releases a line that has been low since `start`. The line rises at once, unless a device holds it: then the low
period goes on (10_state.md rule R40). No device holds a line that has been low for 480 µs, as a slot's hold and a presence pulse
are shorter. -/
def endDrive (start : Nat) (s : State) : State :=
  if Config.resetThreshold ≤ s.now - start ∨ s.devicesLowSince s.now = none then endLow start s else s

/-- The first time from now on at which no device of the bound line drives it low: now, or the end of some device's drive. -/
def State.lineRise? (s : State) : Option Nat :=
  ((s.now :: s.lineDevices.flatMap Device.driveEnds).filter
    (fun r => decide (s.now ≤ r) && decide (s.devicesLowSince r = none))).min?

/-! ### Block reset -/

/-- Block reset (70_reset_and_hazards.md rules R400 to R403): every engine, platform and buffer field takes the value of
10_state.md rule R49, but for `pin`, which the rule leaves unspecified and which keeps its value (log entry 2); a line that was
held low is released, with its event. The clock and the trace go on. Block reset and the devices are independent (rule R403): no
device is touched, and a low period that a device still holds goes on. Where the engine's release would end one, no device takes
it as a slot or a reset (45_reference_device.md rule R306; DESIGN CHOICE, log entry 9). A call that waits for its response is cut. -/
def blockReset (s : State) : State :=
  { s with
    bound := false, drive := .released, busy := false, upc := .idle, fault := .none, faultWord := 0
    shift := none, bitcnt := none, byteidx := none, pres := none, smpl := none, copyUntil := none, rstat := .noneYet
    irqMasked := s.env.irqAtReset, critStack := []
    romIn := Vector.replicate Config.romBytes none, wdata := { th := none, tl := none, cfg := none }
    romOut := Vector.replicate Config.romBytes none, spOut := Vector.replicate Config.spBytes none, bitOut := none, byteOut := none
    trace := if s.drive = .drivenLow then (s.now, .rel) :: s.trace else s.trace
    lineLow := if s.devicesLowSince s.now = none then none else s.lineLow
    call := if s.call = .waiting then .cut else s.call }

/-! ### Time -/

/-- The clock reaches `t`, and everything that completes in a device by then has completed. -/
def settleTo (t : Nat) (s : State) : State :=
  { s with now := t, devices := s.devices.map (Device.settle t) }

/-- When the line rises by itself: the engine releases it, a low period is tracked, and the devices stop driving
(45_reference_device.md rules R307, R309, R311). -/
def State.riseBy? (t : Nat) (s : State) : Option (Nat × Nat) :=
  match s.drive, s.lineLow, s.lineRise? with
  | .released, some start, some r => if r ≤ t then some (start, r) else none
  | _, _, _ => none

/-- Time passes to `t`. Where a low period that a device holds ends by then, it ends at its time: also at `t` itself, before
anything else happens there, so that the engine's next drive at `t` begins a new one (DESIGN CHOICE, log entry 36). -/
def passTo (t : Nat) (s : State) : State :=
  match s.riseBy? t with
  | some (start, r) => settleTo t (endLow start (settleTo r s))
  | none => settleTo t s

/-- The reads of the status view by other execution contexts that are due now, in their order. Contexts run only while interrupts are
not masked (60_exceptions.md rule R373), so that while a request is in flight these are the reads in its gaps. -/
def State.dueViews (s : State) : List (Nat × Nat) :=
  if s.irqMasked then [] else s.viewReads.takeWhile (fun p => decide (p.1 ≤ s.now))

/-- Time has passed since `start`. Each read of the status view that is due by now has returned its byte, at its own time where that is
later than `start`, and with no other effect (10_state.md rule R45). No field that the view shows has changed since `start`. -/
def readViews (start : Nat) (s : State) : State :=
  { s with
    viewReads := s.viewReads.drop s.dueViews.length
    viewed := (s.dueViews.map (fun p => ⟨max start p.1, p.2, statusView s p.2⟩)).reverse ++ s.viewed }

/-- Time passes to `t`, and the reads of the status view that are due by then are made. -/
def pass (t : Nat) (s : State) : State := readViews s.now (passTo t s)

/-- `d` µs pass. The next scheduled block reset, where it falls within them, happens at its time and ends the passing: the rest of a
delay or a gap of the request, and also the rest of a wait of the host, which goes on at the block reset. It comes before everything
that the request, another context or the host does in its microsecond after that, the RESP included, and nowhere else, so that a
request that passes no time (INIT, DRIVE_LOW, RELEASE) is never cut (DESIGN CHOICE in both, log entry 9). -/
def advance (d : Nat) (s : State) : State :=
  match s.resetsAt with
  | [] => pass (s.now + d) s
  | t :: rest =>
    if t ≤ s.now + d then blockReset (pass (max s.now t) { s with resetsAt := rest })
    else pass (s.now + d) s

/-- How long a `delay_us(n)` lasts: between `n` and `n + T_JIT` (40_shim_interface.md rule R153). -/
def State.delayTime (s : State) (n : Nat) : Nat :=
  match s.env.timing with
  | .reference _ => n
  | .general tJit => n + Config.freeJitter s.draws % (tJit + 1)

/-- How long the gap before a reset or a slot lasts (40_shim_interface.md rule R158). -/
def State.gapTime (s : State) : Nat :=
  match s.env.timing with
  | .reference g => g
  | .general _ => Config.freeGap s.draws

/-- How long a `delay_ms(n)` lasts: at least `1000 n` (40_shim_interface.md rule R154). -/
def State.sleepTime (s : State) (n : Nat) : Nat :=
  match s.env.timing with
  | .reference _ => 1000 * n
  | .general _ => 1000 * n + Config.freeSleep s.draws

/-! ### The shim primitives (40_shim_interface.md) -/

/-- `set_line_low()` (rule R150). -/
def setLineLow (s : State) : State :=
  let s := match s.drive with
    | .drivenLow => s
    | .released => beginLow { s with drive := .drivenLow }
  s.emit .low

/-- `release_line()` (rule R151). -/
def releaseLine (s : State) : State :=
  let s := { s with drive := .released }
  let s := match s.lineLow with
    | none => s
    | some start => endDrive start s
  s.emit .rel

/-- `sample_line()` (rule R152). -/
def sampleLine (s : State) : State :=
  let l := s.lineLevel
  { s with smpl := some l, draws := s.draws + 1 }.emit (.smp l)

/-- `delay_us(n)` (rule R153). -/
def delayUs (n : Nat) (s : State) : State :=
  advance (s.delayTime n) { s with draws := s.draws + 1 }

/-- `enter_critical()` (rule R155). -/
def enterCritical (s : State) : State :=
  { s with critStack := s.irqMasked :: s.critStack, irqMasked := true }.emit .critOn

/-- The word of the request in flight, or 0x0000 (60_exceptions.md rule R350). -/
def State.wordInFlight (s : State) : ReqWord :=
  match s.upc with
  | .idle => 0
  | .running op _ => requestWord op

/-- `exit_critical()` (rule R156). -/
def exitCritical (s : State) : State :=
  match s.critStack with
  | [] => raiseFault .critUnderflow s.wordInFlight s
  | m :: rest => { s with critStack := rest, irqMasked := m }.emit .critOff

/-- `delay_ms(n)` (rule R154): the sleep event, then the time; inside a critical section it is a fault instead. The whole sleep
passes at once, and a request of another context that becomes due in it is delivered at its end (DESIGN CHOICE, log entry 8). -/
def delayMs (n : Nat) (s : State) : State :=
  match s.critStack with
  | [] => advance (s.sleepTime n) ({ s with draws := s.draws + 1 }.emit (.sleep n))
  | _ :: _ => raiseFault .msWaitInCritical s.wordInFlight s

/-- A request of another execution context that is due now and can be delivered: contexts run only while interrupts are not
masked (60_exceptions.md rule R373). -/
def State.dueIntruder? (s : State) : Option (ReqWord × List (Nat × ReqWord)) :=
  match s.intruders with
  | (t, w) :: rest => if t ≤ s.now ∧ s.irqMasked = false then some (w, rest) else none
  | [] => none

/-- `gap()` (rule R158): the time between two primitives outside a critical section. A second request can be delivered in it,
and is the fault CONCURRENT_REQUEST (60_exceptions.md rules R352, R373). The whole gap passes first, a block reset within it
included, and a request that is due by its end is recorded at its end (DESIGN CHOICE, log entry 8). -/
def passGap (s : State) : State :=
  let s := advance s.gapTime { s with draws := s.draws + 1 }
  if s.running then
    match s.dueIntruder? with
    | some (w, rest) => raiseFault .concurrentRequest w { s with intruders := rest }
    | none => s
  else s

/-! ### Counting primitives -/

/-- `upc` moves on by one shim primitive (10_state.md rule R36). -/
def Upc.bump : Upc → Upc
  | .idle => .idle
  | .running op k => .running op (k + 1)

/-- The operation in flight has executed one shim primitive. A primitive that the host uses itself is not counted, nor one that
a fault or a block reset has ended. -/
def State.count (s : State) : State := { s with upc := if s.running then s.upc.bump else s.upc }

/-! ### The host buffers (20_memory.md rule R70) -/

/-- `MemRead(B, k, 1)`. -/
def memRead {n : Nat} (b : Buffer n) (k : Nat) : Option Byte := b[k]?.getD none

/-- `MemWrite(B, k, 1, v)`. -/
def memWrite {n : Nat} (b : Buffer n) (k : Nat) (v : Byte) : Buffer n := b.setIfInBounds k (some v)

/-- Every cell of a buffer unwritten (10_state.md rule R44). -/
def unwritten (n : Nat) : Buffer n := Vector.replicate n none

/-! ### The prologue and the response of a request -/

/-- Does the operation drive the line? Every one but INIT and RELEASE (41_bus_driver.md rule R184). -/
def drivesLine : Instr → Bool
  | .init _ => false
  | .release => false
  | _ => true

/-- Does the operation need a bound line? Every one but INIT (60_exceptions.md rule R351). -/
def needsBinding : Instr → Bool
  | .init _ => false
  | _ => true

/-- Does the operation send ROM_IN (60_exceptions.md rule R355)? -/
def readsRomIn : Instr → Bool
  | .matchRom => true
  | .convertT a | .writeScratchpad a | .readScratchpad a | .copyScratchpad a | .recallEeprom a | .readPowerSupply a =>
    decide (a = .matchRom)
  | _ => false

/-- Does the operation send WDATA (60_exceptions.md rule R355)? -/
def readsWdata : Instr → Bool
  | .writeScratchpad _ => true
  | _ => false

/-- Every cell of ROM_IN holds a byte. -/
def State.romInWritten (s : State) : Bool := s.romIn.toList.all Option.isSome
/-- Every cell of WDATA holds a byte. -/
def State.wdataWritten (s : State) : Bool := s.wdata.th.isSome && s.wdata.tl.isSome && s.wdata.cfg.isSome

/-- The request reads an input cell that is unwritten (60_exceptions.md rule R355). -/
def State.inputMissing (s : State) (op : Instr) : Bool :=
  (readsRomIn op && !s.romInWritten) || (readsWdata op && !s.wdataWritten)

/-- A Copy Scratchpad commit is still pending (70_reset_and_hazards.md rule R410). -/
def State.copyPending (s : State) : Bool :=
  match s.copyUntil with
  | some t => decide (s.now < t)
  | none => false

/-- The first request at or after `copy_until` clears it (70_reset_and_hazards.md rule R410; log entry 13). -/
def clearCopy (s : State) : State :=
  match s.copyUntil with
  | some t => if t ≤ s.now then { s with copyUntil := none } else s
  | none => s

/-- The request is accepted: the end of the prologue (41_bus_driver.md rule R184). -/
def accept (op : Instr) (s : State) : State :=
  { s with busy := true, upc := .running op 0 }.emit (.req (requestWord op))

/-- The prologue of every request, its checks in the order of 41_bus_driver.md rule R184, which is the priority of
60_exceptions.md rule R353. The word is the request's own, so the decode check is `rejectWord`'s. -/
def prologue (op : Instr) (s : State) : State :=
  if s.fault ≠ .none then s
  else if s.busy then raiseFault .concurrentRequest (requestWord op) s
  else if needsBinding op && !s.bound then raiseFault .notBound (requestWord op) s
  else if drivesLine op && s.copyPending then raiseFault .copyHazard (requestWord op) s
  else if (clearCopy s).inputMissing op then raiseFault .undefinedInput (requestWord op) (clearCopy s)
  else accept op (clearCopy s)

/-- The prologue of a word that decodes to no operation (41_bus_driver.md rule R184, 60_exceptions.md rules R353, R354). -/
def rejectWord (w : ReqWord) (s : State) : State :=
  if s.fault ≠ .none then s
  else if s.busy then raiseFault .concurrentRequest w s
  else raiseFault .illegalRequest w s

/-- `respond(r)` (30_encoding.md rule R105): the host has its response (70_reset_and_hazards.md rule R430). -/
def respond (r : Response) (s : State) : State :=
  { s with rstat := .last r.status, busy := false, upc := .idle, call := .answered }.emit (.resp r)

/-- Go on with `f` while the request is in flight; a fault or a block reset has ended it otherwise. -/
def whileRunning (f : State → State) (s : State) : State := if s.running then f s else s

/-- A request: its prologue, then its body (41_bus_driver.md, before rule R180). -/
def request (op : Instr) (body : State → State) (s : State) : State := whileRunning body (prologue op s)

end Sys2Proof.Machine
end

