-- ==== Sys2Proof/Machine/Operands.lean ====
section
/-! DEFINITION. Operand forms: bits of bytes (30_encoding.md rules R122, R123), the input bytes a request sends (rules R124, R125,
42_rom_commands.md rule R231), threshold bytes, and the temperature (43_function_commands.md rules R275 to R277). -/

namespace Sys2Proof.Machine

/-- `v[k]`, the bit that travels in slot `k` of a byte (30_encoding.md rule R122, 20_memory.md rule R72). -/
def sentBit (v : Byte) (k : Nat) : Bool := v.getLsbD k

/-- `shift <- shift | (b << k)` on the receive side (30_encoding.md rule R122). -/
def collectBit (shift : Byte) (b : Bool) (k : Nat) : Byte := shift ||| bitAt 8 b k

/-- `read_bit`: 1 when the sample is high, 0 when it is low (30_encoding.md rule R123). -/
def bitOfLevel : Level → Bool
  | .high => true
  | .low => false

/-- `reset_pulse`: presence is asserted when the sample is low (30_encoding.md rule R123). -/
def presenceOfLevel : Level → Bool
  | .high => false
  | .low => true

/-- The eight bytes a Match ROM sends, in index order (30_encoding.md rule R125). The prologue has seen that each cell holds a
byte. -/
def State.romInBytes (s : State) : List Byte := s.romIn.toList.map (fun c => c.getD 0)

/-- TH, TL and CONFIG, the bytes a Write Scratchpad sends, in this order (30_encoding.md rule R124). -/
def State.wdataBytes (s : State) : List Byte := [s.wdata.th.getD 0, s.wdata.tl.getD 0, s.wdata.cfg.getD 0]

/-- A signed threshold as its two's-complement byte (30_encoding.md rule R124, decision D29). -/
def thresholdByte (v : Int) : Byte := BitVec.ofInt 8 v

/-- `raw = sext_16({SP[1], SP[0]})`, a signed count of 1/16 °C (20_memory.md rule R74, 30_encoding.md rule R126). -/
def rawTemperature (msb lsb : Byte) : Int := (msb ++ lsb : BitVec 16).toInt

/-- The temperature in °C, as the exact rational `raw / 16` (43_function_commands.md rules R275, R277). -/
def celsius (raw : Int) : ℚ := (raw : ℚ) / 16

/-- `decode_temp(SP)`: none where SP[0] or SP[1] is unwritten (43_function_commands.md rule R275). -/
def decodeTemp (sp : Buffer Config.spBytes) : Option ℚ :=
  match memRead sp 0, memRead sp 1 with
  | some lsb, some msb => some (celsius (rawTemperature msb lsb))
  | _, _ => none

end Sys2Proof.Machine
end

