-- ==== Sys2Proof/Machine/Micro.lean ====
section
/-! DEFINITION. The engine's micro-programs (41_bus_driver.md): the micro-operations, the interpreter, and the subroutines RSTP,
WB, RB, WBY, RBY and ADDR as lists of micro-operations. The bits and bytes a request sends are fixed when it is accepted, so
each program is a list. -/

namespace Sys2Proof.Machine

/-- A micro-operation: one of the seven shim primitives, the gap, or a write of a working register or an output cell. -/
inductive Micro where
  -- shim primitives (40_shim_interface.md)
  | setLow
  | release
  | sample
  | delay (us : Nat)
  | enter
  | exit
  -- gap() (rule R158)
  | gap
  -- working registers (10_state.md rule R37)
  | presence
  | loadByte (v : Byte)
  | bitSent (k : Nat)
  | collect (k : Nat)
  | byteIndex (k : Nat)
  -- output cells (10_state.md rule R43)
  | storePresence
  | storeBit
  | storeByte
  | storeRom (k : Nat)
  | storeSp (k : Nat)
  -- copy_until <- now + T_COPY (43_function_commands.md rule R268)
  | startCopy
  deriving DecidableEq, Repr

/-- The bit of the last sample (30_encoding.md rule R123). -/
def State.sampledBit (s : State) : Bool := bitOfLevel (s.smpl.getD .low)
/-- The presence the last sample shows (30_encoding.md rule R123). -/
def State.sampledPresence (s : State) : Bool := presenceOfLevel (s.smpl.getD .high)

/-- What one micro-operation does. -/
def Micro.exec (m : Micro) (s : State) : State :=
  match m with
  | .setLow => (setLineLow s).count
  | .release => (releaseLine s).count
  | .sample => (sampleLine s).count
  | .delay us => (delayUs us s).count
  | .enter => (enterCritical s).count
  | .exit => (exitCritical s).count
  | .gap => passGap s
  | .presence => { s with pres := some s.sampledPresence }
  | .loadByte v => { s with shift := some v, bitcnt := some 0 }
  | .bitSent k => { s with bitcnt := some (k + 1) }
  | .collect k => { s with shift := some (collectBit (s.shift.getD 0) s.sampledBit k), bitcnt := some (k + 1) }
  | .byteIndex k => { s with byteidx := some k }
  | .storePresence => { s with bitOut := s.pres }
  | .storeBit => { s with bitOut := some s.sampledBit }
  | .storeByte => { s with byteOut := s.shift }
  | .storeRom k => { s with romOut := memWrite s.romOut k (s.shift.getD 0) }
  | .storeSp k => { s with spOut := memWrite s.spOut k (s.shift.getD 0) }
  | .startCopy => { s with copyUntil := some (s.now + Config.tCopy) }

/-- Run a micro-program. It stops where a fault or a block reset ends the request (60_exceptions.md rule R356,
70_reset_and_hazards.md rule R400). -/
def run : List Micro → State → State
  | [], s => s
  | m :: ms, s => if s.running then run ms (m.exec s) else s

/-- RSTP (rule R185). -/
def resetProgram : List Micro :=
  [.gap, .enter, .setLow, .delay Config.tRstl, .release, .delay Config.tPds, .sample, .delay Config.tRstr, .exit, .presence]

/-- WB (rule R190). -/
def writeSlot (b : Bool) : List Micro :=
  match b with
  | true => [.gap, .enter, .setLow, .delay Config.tLow1, .release, .delay (Config.tSlot - Config.tLow1), .delay Config.tRec, .exit]
  | false => [.gap, .enter, .setLow, .delay Config.tLow0, .release, .delay Config.tRec, .exit]

/-- RB (rule R194). -/
def readSlot : List Micro :=
  [.gap, .enter, .setLow, .delay Config.tRl, .release, .delay (Config.tMsr - Config.tRl), .sample,
   .delay (Config.tSlot - Config.tMsr), .delay Config.tRec, .exit]

/-- WBY (rule R197): the eight bits, least significant first. -/
def writeByteProgram (v : Byte) : List Micro :=
  .loadByte v :: (List.range 8).flatMap (fun k => writeSlot (sentBit v k) ++ [.bitSent k])

/-- RBY (rule R199). -/
def readByteProgram : List Micro :=
  .loadByte 0 :: (List.range 8).flatMap (fun k => readSlot ++ [.collect k])

/-- ADDR (42_rom_commands.md rule R231), for the ROM bytes of ROM_IN. -/
def addressProgram (rom : List Byte) : Addressing → List Micro
  | .skipRom => writeByteProgram 0xCC
  | .matchRom => writeByteProgram 0x55 ++ rom.flatMap writeByteProgram

/-- Bytes sent with `byteidx` counting them from `k` (42_rom_commands.md rule R238, 43_function_commands.md rule R264). -/
def sendBytes (k : Nat) : List Byte → List Micro
  | [] => []
  | v :: vs => .byteIndex k :: writeByteProgram v ++ sendBytes (k + 1) vs

/-- Is the micro-operation a shim primitive, which `upc` counts (70_reset_and_hazards.md rule R421)? -/
def Micro.isPrimitive : Micro → Bool
  | .setLow | .release | .sample | .delay _ | .enter | .exit => true
  | _ => false

/-- How many shim primitives a program runs (70_reset_and_hazards.md rule R421). -/
def primitives (p : List Micro) : Nat := p.countP Micro.isPrimitive

/-- The time a micro-operation takes in the reference timing, with gaps of `g` (30_encoding.md rule R112). -/
def Micro.time (g : Nat) : Micro → Nat
  | .delay us => us
  | .gap => g
  | _ => 0

/-- The duration of a program in the reference timing, with gaps of `g` (70_reset_and_hazards.md rule R420). -/
def duration (g : Nat) (p : List Micro) : Nat := (p.map (Micro.time g)).sum

end Sys2Proof.Machine
end

