-- ==== Sys2Proof/Machine/BusDriver.lean ====
section
/-! DEFINITION. The eight Bus Driver operations (41_bus_driver.md rules R180 to R199). -/

namespace Sys2Proof.Machine

/-- The platform accepts the pin identifier: `VALID_PIN` (00_scope.md rule R9, decision D10). -/
def State.validPin (s : State) (pin : Pin) : Bool := s.env.validPins.contains pin

/-- `bound <- true; pin <- PIN` (rule R180). A different pin retargets the engine (rule R181): a low period of the old line is no
longer tracked, and the devices of the old line are left in a position the model does not know (log entry 12). After a block
reset this is so only where a device still holds the old line. -/
def bindPin (pin : Pin) (s : State) : State :=
  if s.pin = pin then { s with bound := true }
  else
    { s with
      bound := true, pin := pin, lineLow := none
      devices := if s.bound || s.lineLow.isSome then s.devices.map (fun d => if d.pin = s.pin then d.abandon else d) else s.devices }

/-- INIT (rules R180, R181). BAD_PIN is raised after the prologue and before `bound` or `pin` change (60_exceptions.md rules
R354, R358). -/
def execInit (pin : Pin) (s : State) : Host.Outcome State Fault Refusal :=
  .next (request (.init pin) (fun s =>
    if s.validPin pin then respond { status := .ok, outputs := .none } (releaseLine (bindPin pin s)).count
    else raiseFault .badPin (requestWord (.init pin)) s) s)

/-- DRIVE_LOW (rule R182). -/
def execDriveLow (s : State) : Host.Outcome State Fault Refusal :=
  .next (request .driveLow (fun s => respond { status := .ok, outputs := .none } (setLineLow s).count) s)

/-- RELEASE (rule R183). -/
def execRelease (s : State) : Host.Outcome State Fault Refusal :=
  .next (request .release (fun s => respond { status := .ok, outputs := .none } (releaseLine s).count) s)

/-- The status of a presence result (30_encoding.md rule R105). -/
def presenceStatus (p : Bool) : Status := if p then .ok else .noPresence

/-- RESET_PULSE (rule R185): `BIT_OUT` is the presence result in both outcomes. -/
def execResetPulse (s : State) : Host.Outcome State Fault Refusal :=
  .next (request .resetPulse (fun s =>
    whileRunning (fun s => respond { status := presenceStatus (s.bitOut.getD false), outputs := .bit s.bitOut } s)
      (run (resetProgram ++ [.storePresence]) s)) s)

/-- A Bus Driver request that runs a program and answers OK with its outputs (rules R190 to R199). -/
def busOperation (op : Instr) (program : List Micro) (outputs : State → Outputs) (s : State) : State :=
  request op (fun s => whileRunning (fun s => respond { status := .ok, outputs := outputs s } s) (run program s)) s

/-- WRITE_BIT (rule R190). -/
def execWriteBit (b : Bool) (s : State) : Host.Outcome State Fault Refusal :=
  .next (busOperation (.writeBit b) (writeSlot b) (fun _ => .none) s)

/-- READ_BIT (rule R194). -/
def execReadBit (s : State) : Host.Outcome State Fault Refusal :=
  .next (busOperation .readBit (readSlot ++ [.storeBit]) (fun s => .bit s.bitOut) s)

/-- WRITE_BYTE (rule R197). -/
def execWriteByte (data : Byte) (s : State) : Host.Outcome State Fault Refusal :=
  .next (busOperation (.writeByte data) (writeByteProgram data) (fun _ => .none) s)

/-- READ_BYTE (rule R199). -/
def execReadByte (s : State) : Host.Outcome State Fault Refusal :=
  .next (busOperation .readByte (readByteProgram ++ [.storeByte]) (fun s => .byte s.byteOut) s)

end Sys2Proof.Machine
end

