-- ==== Sys2Proof/Machine/RomCommands.lean ====
section
/-! DEFINITION. The ROM-command operations (42_rom_commands.md rules R230 to R247), and the transaction every Device Protocol
operation is (30_encoding.md rules R111, R132). -/

namespace Sys2Proof.Machine

/-- Which output cells a Device Protocol operation writes. -/
inductive OutCells where
  | none
  | rom
  | scratchpad
  | bit
  deriving DecidableEq, Repr

/-- The output cells as a response carries them (30_encoding.md rule R105). -/
def outputsOf (c : OutCells) (s : State) : Outputs :=
  match c with
  | .none => .none
  | .rom => .rom s.romOut
  | .scratchpad => .scratchpad s.spOut
  | .bit => .bit s.bitOut

/-- Every output cell of the operation becomes unwritten (42_rom_commands.md rule R230, 10_state.md rule R44). -/
def clearOutputs (c : OutCells) (s : State) : State :=
  match c with
  | .none => s
  | .rom => { s with romOut := unwritten Config.romBytes }
  | .scratchpad => { s with spOut := unwritten Config.spBytes }
  | .bit => { s with bitOut := none }

/-- Give the response with the operation's outputs. -/
def answerWith (st : Status) (c : OutCells) (s : State) : State := respond { status := st, outputs := outputsOf c s } s

/-- The presence gate (rule R230): after the reset, the rest of the frame when a device showed presence; otherwise the outputs
become unwritten and the operation responds NO_PRESENCE with no further slot. -/
def presenceGate (c : OutCells) (body : List Micro) (s : State) : State :=
  if s.pres.getD false then whileRunning (answerWith .ok c) (run body s)
  else answerWith .noPresence c (clearOutputs c s)

/-- A Device Protocol operation (30_encoding.md rule R111): prologue, reset, presence gate, then the frame `body`, which may
depend on the input buffers. -/
def transaction (op : Instr) (c : OutCells) (body : State → List Micro) (s : State) : State :=
  request op (fun s => whileRunning (fun t => presenceGate c (body s) t) (run resetProgram s)) s

/-- Eight bytes received into ROM_OUT (rule R235). -/
def receiveRom : List Micro :=
  (List.range Config.romBytes).flatMap (fun k => .byteIndex k :: readByteProgram ++ [.storeRom k])

/-- READ_ROM (rule R235). -/
def execReadRom (s : State) : Host.Outcome State Fault Refusal :=
  .next (transaction .readRom .rom (fun _ => writeByteProgram 0x33 ++ receiveRom) s)

/-- MATCH_ROM (rule R238). -/
def execMatchRom (s : State) : Host.Outcome State Fault Refusal :=
  .next (transaction .matchRom .none (fun s => writeByteProgram 0x55 ++ sendBytes 0 s.romInBytes) s)

/-- SKIP_ROM (rule R241). -/
def execSkipRom (s : State) : Host.Outcome State Fault Refusal :=
  .next (transaction .skipRom .none (fun _ => writeByteProgram 0xCC) s)

/-- ALARM_SEARCH (rule R243). -/
def execAlarmSearch (s : State) : Host.Outcome State Fault Refusal :=
  .next (transaction .alarmSearch .none (fun _ => writeByteProgram 0xEC) s)

/-- SEARCH_ROM (rule R246). -/
def execSearchRom (s : State) : Host.Outcome State Fault Refusal :=
  .next (transaction .searchRom .none (fun _ => writeByteProgram 0xF0) s)

end Sys2Proof.Machine
end

