-- ==== Sys2Proof/Machine/FunctionCommands.lean ====
section
/-! DEFINITION. The function-command operations (43_function_commands.md rules R260 to R273). -/

namespace Sys2Proof.Machine

/-- FN (rule R260): the transaction with the addressing phase, the command byte, and the data phase of the command. -/
def functionCommand (op : Instr) (cmd : Byte) (a : Addressing) (c : OutCells) (data : State → List Micro) (s : State) : State :=
  transaction op c (fun s => addressProgram s.romInBytes a ++ writeByteProgram cmd ++ data s) s

/-- Nine bytes received into SP_OUT (rule R266). -/
def receiveScratchpad : List Micro :=
  (List.range Config.spBytes).flatMap (fun k => .byteIndex k :: readByteProgram ++ [.storeSp k])

/-- CONVERT_T (rule R262). -/
def execConvertT (a : Addressing) (s : State) : Host.Outcome State Fault Refusal :=
  .next (functionCommand (.convertT a) 0x44 a .none (fun _ => []) s)

/-- WRITE_SCRATCHPAD (rule R264). -/
def execWriteScratchpad (a : Addressing) (s : State) : Host.Outcome State Fault Refusal :=
  .next (functionCommand (.writeScratchpad a) 0x4E a .none (fun s => sendBytes 0 s.wdataBytes) s)

/-- READ_SCRATCHPAD (rule R266). -/
def execReadScratchpad (a : Addressing) (s : State) : Host.Outcome State Fault Refusal :=
  .next (functionCommand (.readScratchpad a) 0xBE a .scratchpad (fun _ => receiveScratchpad) s)

/-- COPY_SCRATCHPAD (rule R268). -/
def execCopyScratchpad (a : Addressing) (s : State) : Host.Outcome State Fault Refusal :=
  .next (functionCommand (.copyScratchpad a) 0x48 a .none (fun _ => [.startCopy]) s)

/-- RECALL_EEPROM (rule R270). -/
def execRecallEeprom (a : Addressing) (s : State) : Host.Outcome State Fault Refusal :=
  .next (functionCommand (.recallEeprom a) 0xB8 a .none (fun _ => []) s)

/-- READ_POWER_SUPPLY (rule R272). -/
def execReadPowerSupply (a : Addressing) (s : State) : Host.Outcome State Fault Refusal :=
  .next (functionCommand (.readPowerSupply a) 0xB4 a .bit (fun _ => readSlot ++ [.storeBit]) s)

end Sys2Proof.Machine
end

