-- ==== Sys2Proof/Machine/Wire.lean ====
section
/-! DEFINITION. The eleven wire command bytes as instructions of the device agents (30_encoding.md rule R110,
45_reference_device.md rules R313 to R326): every DS18B20 that has gathered the byte in WAIT_ROM or WAIT_FN takes the command.
In a request the engine's slots give the byte and the devices decode it at once (Machine/Device.lean, `Ds18b20.decodeCommand`),
with the same meanings (log entry 11). -/

namespace Sys2Proof.Machine

/-- Every device whose complete command byte is `b` takes it. -/
def onCommand (b : Byte) (f : Ds18b20 → Ds18b20) (s : State) : State :=
  { s with devices := s.devices.map (Device.onCommand b f) }

/-- W_READ_ROM, 0x33 (rule R315). -/
def execWReadRom (s : State) : Host.Outcome State Fault Refusal := .next (onCommand 0x33 Ds18b20.takeReadRom s)
/-- W_MATCH_ROM, 0x55 (rule R316). -/
def execWMatchRom (s : State) : Host.Outcome State Fault Refusal := .next (onCommand 0x55 Ds18b20.takeMatchRom s)
/-- W_SKIP_ROM, 0xCC (rule R317). -/
def execWSkipRom (s : State) : Host.Outcome State Fault Refusal := .next (onCommand 0xCC Ds18b20.takeSkipRom s)
/-- W_ALARM_SEARCH, 0xEC (rule R318). -/
def execWAlarmSearch (s : State) : Host.Outcome State Fault Refusal := .next (onCommand 0xEC Ds18b20.takeAlarmSearch s)
/-- W_SEARCH_ROM, 0xF0 (rule R318). -/
def execWSearchRom (s : State) : Host.Outcome State Fault Refusal := .next (onCommand 0xF0 Ds18b20.takeSearchRom s)
/-- W_CONVERT_T, 0x44 (rules R321, R322). -/
def execWConvertT (s : State) : Host.Outcome State Fault Refusal := .next (onCommand 0x44 Ds18b20.takeConvertT s)
/-- W_WRITE_SCRATCHPAD, 0x4E (rule R319). -/
def execWWriteScratchpad (s : State) : Host.Outcome State Fault Refusal := .next (onCommand 0x4E Ds18b20.takeWriteScratchpad s)
/-- W_READ_SCRATCHPAD, 0xBE (rule R320). -/
def execWReadScratchpad (s : State) : Host.Outcome State Fault Refusal := .next (onCommand 0xBE Ds18b20.takeReadScratchpad s)
/-- W_COPY_SCRATCHPAD, 0x48 (rule R323). -/
def execWCopyScratchpad (s : State) : Host.Outcome State Fault Refusal := .next (onCommand 0x48 Ds18b20.takeCopyScratchpad s)
/-- W_RECALL_EEPROM, 0xB8 (rule R324). -/
def execWRecallEeprom (s : State) : Host.Outcome State Fault Refusal := .next (onCommand 0xB8 Ds18b20.takeRecallEeprom s)
/-- W_READ_POWER_SUPPLY, 0xB4 (rule R325). -/
def execWReadPowerSupply (s : State) : Host.Outcome State Fault Refusal := .next (onCommand 0xB4 Ds18b20.takeReadPowerSupply s)

/-- A complete command byte that is no command of the spec (rules R313, R326, R329). -/
def unknownCommand (b : Byte) (s : State) : State := onCommand b Ds18b20.takeUnknown s

end Sys2Proof.Machine
end

