-- ==== Sys2Proof/Machine/Dispatch.lean ====
section
/-! DEFINITION. One arm per instruction, each one call of its meaning. -/

namespace Sys2Proof.Machine

def exec (i : Instr) (s : State) : Host.Outcome State Fault Refusal :=
  match i with
  -- Bus Driver requests
  | .init pin => Sys2Proof.Machine.execInit pin s
  | .driveLow => Sys2Proof.Machine.execDriveLow s
  | .release => Sys2Proof.Machine.execRelease s
  | .resetPulse => Sys2Proof.Machine.execResetPulse s
  | .writeBit b => Sys2Proof.Machine.execWriteBit b s
  | .readBit => Sys2Proof.Machine.execReadBit s
  | .writeByte data => Sys2Proof.Machine.execWriteByte data s
  | .readByte => Sys2Proof.Machine.execReadByte s
  -- ROM-command requests
  | .readRom => Sys2Proof.Machine.execReadRom s
  | .matchRom => Sys2Proof.Machine.execMatchRom s
  | .skipRom => Sys2Proof.Machine.execSkipRom s
  | .alarmSearch => Sys2Proof.Machine.execAlarmSearch s
  | .searchRom => Sys2Proof.Machine.execSearchRom s
  -- function-command requests
  | .convertT a => Sys2Proof.Machine.execConvertT a s
  | .writeScratchpad a => Sys2Proof.Machine.execWriteScratchpad a s
  | .readScratchpad a => Sys2Proof.Machine.execReadScratchpad a s
  | .copyScratchpad a => Sys2Proof.Machine.execCopyScratchpad a s
  | .recallEeprom a => Sys2Proof.Machine.execRecallEeprom a s
  | .readPowerSupply a => Sys2Proof.Machine.execReadPowerSupply a s
  -- wire command bytes
  | .wReadRom => Sys2Proof.Machine.execWReadRom s
  | .wMatchRom => Sys2Proof.Machine.execWMatchRom s
  | .wSkipRom => Sys2Proof.Machine.execWSkipRom s
  | .wAlarmSearch => Sys2Proof.Machine.execWAlarmSearch s
  | .wSearchRom => Sys2Proof.Machine.execWSearchRom s
  | .wConvertT => Sys2Proof.Machine.execWConvertT s
  | .wWriteScratchpad => Sys2Proof.Machine.execWWriteScratchpad s
  | .wReadScratchpad => Sys2Proof.Machine.execWReadScratchpad s
  | .wCopyScratchpad => Sys2Proof.Machine.execWCopyScratchpad s
  | .wRecallEeprom => Sys2Proof.Machine.execWRecallEeprom s
  | .wReadPowerSupply => Sys2Proof.Machine.execWReadPowerSupply s

end Sys2Proof.Machine
end

