-- ==== Sys2Proof/Machine/HostActions.lean ====
section
/-! DEFINITION. What each agent's turn does: a device with a complete command byte, a request word delivered to the engine, the
host's other actions (30_encoding.md rule R131, 60_exceptions.md rules R355, R359), and the passing of time while nobody acts. -/

namespace Sys2Proof.Machine

/-- A request word is delivered to the engine: the operation it decodes to, or the prologue's rejection (41_bus_driver.md rule
R184). -/
def deliver (w : ReqWord) (s : State) : Host.Outcome State Fault Refusal :=
  match decodeRequest w with
  | .ok i => exec i s
  | .error _ => .next (rejectWord w s)

/-- A caller delivers the request word `w`; from then on it has no response until the engine gives one (70_reset_and_hazards.md rule
R430; log entry 37). -/
def callEngine (w : ReqWord) (s : State) : Host.Outcome State Fault Refusal := deliver w { s with call := .waiting }

/-- The devices that hold the complete command byte `b` decode it (45_reference_device.md rules R313, R326). -/
def deviceTurn (b : Byte) (s : State) : Host.Outcome State Fault Refusal :=
  match decodeWire b with
  | .ok i => exec i s
  | .error _ => .next (unknownCommand b s)

/-- The host reads an output cell: its value, or the fault UNDEFINED_OUTPUT with word 0x0000 where it is unwritten
(60_exceptions.md rule R355). -/
def hostRead (v : Option Answer) (s : State) : State :=
  match v with
  | some a => { s with answer := some a }
  | none => raiseFault .undefinedOutput 0 s

/-- The host's reading of the temperature in SP_OUT (43_function_commands.md rule R275). -/
def temperatureAnswer (s : State) : Option Answer :=
  match memRead s.spOut 0, memRead s.spOut 1 with
  | some lsb, some msb => some (.temperature (rawTemperature msb lsb))
  | _, _ => none

/-- One action of the host. Three of them settle what the spec leaves open (DESIGN CHOICE). `setIrqMask`: a host may have masked
interrupts before its request (40_shim_interface.md rule R156, 60_exceptions.md rule R376), and the model lets it set
`irqMasked` to any value at once, with no event and in no time, also inside a critical section (log entry 33). `waitUs`: it lasts
exactly its argument, and inside a critical section that the host itself holds the time passes with no fault (log entry 25). A
read leaves its value in `answer` (log entry 19). -/
def hostTurn (a : HostAction) (s : State) : Host.Outcome State Fault Refusal :=
  match a with
  | .request w => callEngine w s
  | .writeRomIn k v => .next { s with romIn := memWrite s.romIn k v }
  | .writeTh v => .next { s with wdata := { s.wdata with th := some v } }
  | .writeTl v => .next { s with wdata := { s.wdata with tl := some v } }
  | .writeCfg v => .next { s with wdata := { s.wdata with cfg := some v } }
  | .readRomOut k => .next (hostRead ((memRead s.romOut k).map .byte) s)
  | .readSpOut k => .next (hostRead ((memRead s.spOut k).map .byte) s)
  | .readBitOut => .next (hostRead (s.bitOut.map .bit) s)
  | .readByteOut => .next (hostRead (s.byteOut.map .byte) s)
  | .readTemperature => .next (hostRead (temperatureAnswer s) s)
  | .readStatus offset => .next { s with answer := some (.byte (statusView s offset)) }
  | .waitUs n => .next (advance n s)
  | .waitMs n => .next (delayMs n s)
  | .enterCritical => .next (enterCritical s)
  | .exitCritical => .next (exitCritical s)
  | .setIrqMask b => .next { s with irqMasked := b }
  | .blockReset => .next (blockReset s)

/-- A complete command byte that a device is to decode. -/
def State.pendingCommand? (s : State) : Option Byte := s.devices.findSome? Device.command?

/-- The next scheduled block reset is due. -/
def State.resetDue (s : State) : Bool :=
  match s.resetsAt with
  | t :: _ => decide (t ≤ s.now)
  | [] => false

/-- When the conversion or the commit that runs in a device is done (45_reference_device.md rule R304). -/
def Device.due? (d : Device) : Option Nat :=
  match d.kind with
  | .ds18b20 x =>
    match x.act with
    | .none => none
    | .converting tDone _ => some tDone
    | .copying tDone => some tDone
  | _ => none

/-- The time of the next thing that happens by itself: the next scheduled block reset, a request or a read of the status view by another context
while interrupts are not masked, the end of a conversion or a commit, the end of the commit window, the end of a low period that a device holds
(70_reset_and_hazards.md rule R430; DESIGN CHOICE, log entry 32). -/
def State.nextEvent? (s : State) : Option Nat :=
  let request := if s.irqMasked then [] else (s.intruders.map Prod.fst).take 1
  let view := if s.irqMasked then [] else (s.viewReads.map Prod.fst).take 1
  let window := if s.copyPending then s.copyUntil.toList else []
  let rise := if s.drive = .released ∧ s.lineLow.isSome = true then s.lineRise?.toList else []
  (s.resetsAt.take 1 ++ request ++ view ++ s.devices.filterMap Device.due? ++ window ++ rise).min?

/-- Nobody acts. Time passes to the next thing that happens by itself, also while the host is inside a critical section of its own,
where 40_shim_interface.md rule R157 names `delay_us` alone (DESIGN CHOICE, log entry 32); without one the engine waits for a
request, and a faulted engine is stuck (60_exceptions.md rule R357). -/
def idleTurn (s : State) : Host.Outcome State Fault Refusal :=
  match s.nextEvent? with
  | some t => .next (advance (t - s.now) s)
  | none => if s.fault = .none then .next s else .fault (.stuck s.fault)

/-- The host is blocked in a request that has not responded: one in flight, one that a fault has stopped, or one that met a faulted
engine (20_memory.md rule R81, 60_exceptions.md rule R357). Whichever context delivered it, the host of `inbox` is taken to be the
one that waits; and a block reset, which ends the request with no response (70_reset_and_hazards.md rule R400), ends the waiting
too, so that the host goes on with its next action (DESIGN CHOICE in both, log entry 19). -/
def State.hostWaits (s : State) : Bool := decide (s.call = .waiting)

/-- Can the action happen while the host waits for a response? A request can come from another context, which finds the engine
stopped; the status view can be read while `busy` (10_state.md rule R45); block reset is an outside event
(70_reset_and_hazards.md rule R400). Everything else is the waiting host's own. -/
def HostAction.fromOutside : HostAction → Bool
  | .request _ | .readStatus _ | .blockReset => true
  | .writeRomIn _ _ | .writeTh _ | .writeTl _ | .writeCfg _ => false
  | .readRomOut _ | .readSpOut _ | .readBitOut | .readByteOut | .readTemperature => false
  | .waitUs _ | .waitMs _ | .enterCritical | .exitCritical | .setIrqMask _ => false

/-- The host's next action, where it can happen now. -/
def State.nextAction? (s : State) : Option (HostAction × List HostAction) :=
  match s.inbox with
  | a :: rest => if s.hostWaits && !a.fromOutside then none else some (a, rest)
  | [] => none

/-- Whose turn it is (00_scope.md rule R8): a device with a complete command byte, then the platform when a block reset is due,
then the engine when a request of another context is due, then the host, whose request is the engine's turn, and otherwise the
platform, which lets time pass (log entries 8 to 11). The line never steps. -/
def State.turn (s : State) : Agent :=
  match s.pendingCommand? with
  | some _ => .device
  | none =>
    if s.resetDue then .platform
    else
      match s.dueIntruder?, s.nextAction? with
      | some _, _ => .engine
      | none, some (.request _, _) => .engine
      | none, some _ => .host
      | none, none => .platform

/-- The devices' turn. -/
def devicesTurn (s : State) : Host.Outcome State Fault Refusal :=
  match s.pendingCommand? with
  | some b => deviceTurn b s
  | none => .next s

/-- The engine's turn: a request of another context that is due, otherwise the host's (00_scope.md rule R8). -/
def engineTurn (s : State) : Host.Outcome State Fault Refusal :=
  match s.dueIntruder? with
  | some (w, rest) => callEngine w { s with intruders := rest }
  | none =>
    match s.inbox with
    | .request w :: rest => callEngine w { s with inbox := rest }
    | _ => .next s

/-- The host's turn: its next action. -/
def hostsTurn (s : State) : Host.Outcome State Fault Refusal :=
  match s.inbox with
  | a :: rest => hostTurn a { s with inbox := rest }
  | [] => .next s

/-- The platform's turn: a block reset that is due, otherwise time passes. -/
def platformTurn (s : State) : Host.Outcome State Fault Refusal :=
  if s.resetDue then .next (advance 0 s) else idleTurn s

/-- The agent whose turn it is acts. -/
def agentTurn (s : State) : Host.Outcome State Fault Refusal :=
  match s.turn with
  | .device => devicesTurn s
  | .engine => engineTurn s
  | .host => hostsTurn s
  | .platform => platformTurn s
  | .line => .next s

/-! ### Placing an instruction where the next step reads it -/

/-- Is the byte a function command, which a device expects in WAIT_FN (30_encoding.md rule R110)? -/
def isFunctionByte (b : Byte) : Bool :=
  match decodeWire b with
  | .ok .wConvertT | .ok .wWriteScratchpad | .ok .wReadScratchpad => true
  | .ok .wCopyScratchpad | .ok .wRecallEeprom | .ok .wReadPowerSupply => true
  | _ => false

/-- The position of a device that has just gathered the command byte `b`. -/
def commandPosition (b : Byte) : Pos := if isFunctionByte b then .waitFn b 8 else .waitRom b 8

/-- Put a DS18B20 in position `p`. -/
def Device.withPosition (p : Pos) (d : Device) : Device :=
  match d.kind with
  | .ds18b20 x => { d with kind := .ds18b20 { x with pos := p } }
  | _ => d

/-- Is the device a DS18B20? -/
def Device.isDs18b20 (d : Device) : Bool := d.romCode?.isSome

/-- A reference device with every byte zero, for a machine that has none (log entry 11). -/
def blankDevice (pin : Pin) : Device :=
  Device.powerUp pin (Vector.replicate Config.romBytes 0) .ext { th := 0, tl := 0, cfg := 0 } 0 0 0 0 0
    { raw := none, conversion := none, copy := none, crc := .free }

/-- Nothing is due before the host's next action: no complete command byte, no block reset, no request of another context. -/
def quiet (s : State) : State :=
  { s with
    devices := s.devices.map (fun d => if d.command?.isSome then d.withPosition .unknown else d)
    resetsAt := s.resetsAt.dropWhile (fun t => decide (t ≤ s.now))
    intruders := s.intruders.dropWhile (fun p => decide (p.1 ≤ s.now)) }

/-- The request word `w` is the host's next action. -/
def placeRequest (w : ReqWord) (s : State) : State := { quiet s with inbox := .request w :: s.inbox }

/-- The byte `b` is complete in every DS18B20, and in one that is added where there is none. -/
def placeCommand (b : Byte) (s : State) : State :=
  let s := quiet s
  let ds := if s.devices.any Device.isDs18b20 then s.devices else blankDevice s.pin :: s.devices
  { s with devices := ds.map (Device.withPosition (commandPosition b)) }

end Sys2Proof.Machine
end

