-- ==== Sys2Proof/Machine/Step.lean ====
section
/-! DEFINITION. One step of the machine. -/

namespace Sys2Proof.Machine

/-- One step: the agent whose turn it is acts. A parameter set that breaks 00_scope.md rule R10 is refused. -/
def step (s : State) : Host.Outcome State Fault Refusal :=
  if Config.params.wellFormed then agentTurn s else .refused .illFormedParameters

/-- `s` with an opcode-table row's bits where the next step reads its instruction: 16 bits as the host's next request word, 8
bits as a complete command byte in the devices. -/
def State.withFetchWord (s : State) (nbits w : Nat) : State :=
  match nbits with
  | 16 => placeRequest (BitVec.ofNat 16 w) s
  | 8 => placeCommand (BitVec.ofNat 8 w) s
  | _ => s

end Sys2Proof.Machine
end

