-- ==== Sys2Proof/Machine/Assembler.lean ====
section
/-! DEFINITION. Host program text (30_encoding.md rules R130 and R131, decision D24): the lines of a program, what each makes the
host do, and the reader of a line's text. -/

namespace Sys2Proof.Machine

/-- `<addr>`: `skip`, or `match <rom>` (rule R130). -/
inductive AddrText where
  | skip
  | matching (rom : Rom)
  deriving DecidableEq, Repr

/-- A line of a host program (rules R130, R131). -/
inductive HostLine where
  | empty
  | init (pin : Pin)
  | driveLow
  | release
  | resetPulse
  | writeBit (b : Bool)
  | readBit
  | writeByte (data : Byte)
  | readByte
  | readRom
  | matchRom (rom : Rom)
  | skipRom
  | alarmSearch
  | searchRom
  | convertT (a : AddrText)
  | writeScratchpad (a : AddrText) (th tl : Int) (cfg : Byte)
  | readScratchpad (a : AddrText)
  | copyScratchpad (a : AddrText)
  | recallEeprom (a : AddrText)
  | readPowerSupply (a : AddrText)
  | waitUs (n : Nat)
  | waitMs (n : Nat)
  deriving DecidableEq, Repr

/-- ROM_IN = rom. -/
def loadRom (rom : Rom) : List HostAction :=
  (List.finRange Config.romBytes).map (fun k => .writeRomIn k rom[k])

/-- The addressing choice of an `<addr>`. -/
def AddrText.addressing : AddrText → Addressing
  | .skip => .skipRom
  | .matching _ => .matchRom

/-- What an `<addr>` makes the host write before its request. -/
def AddrText.load : AddrText → List HostAction
  | .skip => []
  | .matching rom => loadRom rom

/-- The request of an instruction as a host action. -/
def requestAction (i : Instr) : List HostAction := [.request (requestWord i)]

/-- What a line makes the host do (rules R130, R131). -/
def HostLine.actions : HostLine → List HostAction
  | .empty => []
  | .init pin => requestAction (.init pin)
  | .driveLow => requestAction .driveLow
  | .release => requestAction .release
  | .resetPulse => requestAction .resetPulse
  | .writeBit b => requestAction (.writeBit b)
  | .readBit => requestAction .readBit
  | .writeByte data => requestAction (.writeByte data)
  | .readByte => requestAction .readByte
  | .readRom => requestAction .readRom
  | .matchRom rom => loadRom rom ++ requestAction .matchRom
  | .skipRom => requestAction .skipRom
  | .alarmSearch => requestAction .alarmSearch
  | .searchRom => requestAction .searchRom
  | .convertT a => a.load ++ requestAction (.convertT a.addressing)
  | .writeScratchpad a th tl cfg =>
    [.writeTh (thresholdByte th), .writeTl (thresholdByte tl), .writeCfg cfg]
      ++ a.load ++ requestAction (.writeScratchpad a.addressing)
  | .readScratchpad a => a.load ++ requestAction (.readScratchpad a.addressing)
  | .copyScratchpad a => a.load ++ requestAction (.copyScratchpad a.addressing)
  | .recallEeprom a => a.load ++ requestAction (.recallEeprom a.addressing)
  | .readPowerSupply a => a.load ++ requestAction (.readPowerSupply a.addressing)
  | .waitUs n => [.waitUs n]
  | .waitMs n => [.waitMs n]

/-- The host's actions for a program. -/
def assemble (p : List HostLine) : List HostAction := p.flatMap HostLine.actions

/-- `s` with a host program as the host's actions still to come. -/
def State.load (p : List HostLine) (s : State) : State := { s with inbox := s.inbox ++ assemble p }

/-! ### The reader of program text -/

/-- A token of a line. -/
inductive Token where
  | word (cs : List Char)
  | comma
  | lpar
  | rpar
  deriving DecidableEq, Repr

/-- Close the word being gathered (its characters are in reverse). -/
def closeWord (acc : List Char) (ts : List Token) : List Token :=
  match acc with
  | [] => ts
  | _ => .word acc.reverse :: ts

/-- The tokens of a line; a `;` begins a comment (rule R130). Words are separated by spaces alone; a tab is no separator (DESIGN
CHOICE, log entry 34). -/
def lex (acc : List Char) : List Char → List Token
  | [] => closeWord acc []
  | c :: cs =>
    if c = ';' then closeWord acc []
    else if c = ' ' then closeWord acc (lex [] cs)
    else if c = ',' then closeWord acc (.comma :: lex [] cs)
    else if c = '(' then closeWord acc (.lpar :: lex [] cs)
    else if c = ')' then closeWord acc (.rpar :: lex [] cs)
    else lex (c :: acc) cs

/-- The value of a digit in base 10 or 16. -/
def digitValue (base : Nat) (c : Char) : Option Nat :=
  let n := c.toNat
  let v :=
    if 48 ≤ n ∧ n ≤ 57 then some (n - 48)
    else if 97 ≤ n ∧ n ≤ 102 then some (n - 87)
    else if 65 ≤ n ∧ n ≤ 70 then some (n - 55)
    else none
  match v with
  | some d => if d < base then some d else none
  | none => none

/-- A non-empty run of digits. -/
def readDigits (base : Nat) (cs : List Char) : Option Nat :=
  match cs with
  | [] => none
  | _ => cs.foldl (fun r c => r.bind (fun n => (digitValue base c).map (fun d => base * n + d))) (some 0)

/-- A number in decimal or `0x` hexadecimal. -/
def readNat (cs : List Char) : Option Nat :=
  match cs with
  | '0' :: 'x' :: rest => readDigits 16 rest
  | _ => readDigits 10 cs

/-- A decimal number with an optional minus sign. -/
def readInt (cs : List Char) : Option Int :=
  match cs with
  | '-' :: rest => (readDigits 10 rest).map (fun n => -(n : Int))
  | _ => (readDigits 10 cs).map (fun n => (n : Int))

/-- `<pin>`, `<byte>` or `<cfg>`: 0 to 255 (rule R130). -/
def readByteText (cs : List Char) : Option Byte :=
  match readNat cs with
  | some n => if n < 256 then some (BitVec.ofNat 8 n) else none
  | none => none

/-- `<th>` or `<tl>`: −128 to 127 in decimal (rule R130). -/
def readThreshold (cs : List Char) : Option Int :=
  match readInt cs with
  | some n => if -128 ≤ n ∧ n ≤ 127 then some n else none
  | none => none

/-- The word tokens of an eight-byte list, with its commas. -/
def readRomBytes : Nat → List Token → Option (List Byte × List Token)
  | 0, ts => some ([], ts)
  | 1, .word w :: ts => (readByteText w).map (fun b => ([b], ts))
  | n + 1, .word w :: .comma :: ts =>
    match readByteText w, readRomBytes n ts with
    | some b, some (bs, rest) => some (b :: bs, rest)
    | _, _ => none
  | _, _ => none

/-- `rom(b0, …, b7)` and what follows it (rule R130). -/
def readRomText (ts : List Token) : Option (Rom × List Token) :=
  match ts with
  | .word w :: .lpar :: ts =>
    if w = "rom".toList then
      match readRomBytes 8 ts with
      | some ([b0, b1, b2, b3, b4, b5, b6, b7], .rpar :: rest) => some (#v[b0, b1, b2, b3, b4, b5, b6, b7], rest)
      | _ => none
    else none
  | _ => none

/-- An optional `<addr>` and what follows it; none written is `skip` (rule R130). -/
def readAddr (ts : List Token) : Option (AddrText × List Token) :=
  match ts with
  | .word w :: rest =>
    if w = "skip".toList then some (.skip, rest)
    else if w = "match".toList then (readRomText rest).map (fun p => (.matching p.1, p.2))
    else some (.skip, ts)
  | _ => some (.skip, ts)

/-- A function command that has only an `<addr>`. -/
def readAddressed (f : AddrText → HostLine) (ts : List Token) : Option HostLine :=
  match readAddr ts with
  | some (a, []) => some (f a)
  | _ => none

/-- `<th>, <tl>, <cfg>`. -/
def readThresholds (a : AddrText) (ts : List Token) : Option HostLine :=
  match ts with
  | [.word th, .comma, .word tl, .comma, .word cfg] =>
    match readThreshold th, readThreshold tl, readByteText cfg with
    | some h, some l, some c => some (.writeScratchpad a h l c)
    | _, _, _ => none
  | _ => none

/-- The operands of `write_scratchpad`: `[<addr>,] <th>, <tl>, <cfg>`. -/
def readScratchpadOperands (ts : List Token) : Option HostLine :=
  match ts with
  | .word w :: _ =>
    if w = "skip".toList ∨ w = "match".toList then
      match readAddr ts with
      | some (a, .comma :: rest) => readThresholds a rest
      | _ => none
    else readThresholds .skip ts
  | _ => none

/-- `wait <n> us` or `wait <n> ms` (rule R131), with `<n>` in decimal digits only (DESIGN CHOICE, log entry 34). -/
def readWait (ts : List Token) : Option HostLine :=
  match ts with
  | [.word n, .word unit] =>
    match readDigits 10 n with
    | some k => if unit = "us".toList then some (.waitUs k) else if unit = "ms".toList then some (.waitMs k) else none
    | none => none
  | _ => none

/-- `<line>` with no operands. -/
def readBare (l : HostLine) (ts : List Token) : Option HostLine := if ts = [] then some l else none

/-- The words that take no operand, with their lines. -/
def bareWords : List (List Char × HostLine) :=
  [("drive_low".toList, .driveLow), ("release".toList, .release), ("reset_pulse".toList, .resetPulse),
   ("read_bit".toList, .readBit), ("read_byte".toList, .readByte), ("read_rom".toList, .readRom),
   ("skip_rom".toList, .skipRom), ("alarm_search".toList, .alarmSearch), ("search_rom".toList, .searchRom)]

/-- The words that take an `<addr>` alone. -/
def addressedWords : List (List Char × (AddrText → HostLine)) :=
  [("convert_t".toList, .convertT), ("read_scratchpad".toList, .readScratchpad),
   ("copy_scratchpad".toList, .copyScratchpad), ("recall_eeprom".toList, .recallEeprom),
   ("read_power_supply".toList, .readPowerSupply)]

/-- A line that begins with the word `w`. -/
def readLineWord (w : List Char) (ts : List Token) : Option HostLine :=
  match bareWords.find? (fun p => decide (p.1 = w)), addressedWords.find? (fun p => decide (p.1 = w)) with
  | some p, _ => readBare p.2 ts
  | none, some p => readAddressed p.2 ts
  | none, none =>
    if w = "init".toList then
      match ts with
      | [.word n] => (readByteText n).map .init
      | _ => none
    else if w = "write_bit".toList then
      match ts with
      | [.word n] => if n = ['0'] then some (.writeBit false) else if n = ['1'] then some (.writeBit true) else none
      | _ => none
    else if w = "write_byte".toList then
      match ts with
      | [.word n] => (readByteText n).map .writeByte
      | _ => none
    else if w = "match_rom".toList then
      match readRomText ts with
      | some (rom, []) => some (.matchRom rom)
      | _ => none
    else if w = "write_scratchpad".toList then readScratchpadOperands ts
    else if w = "wait".toList then readWait ts
    else none

/-- Read a line of program text; none where it is no line of rule R130. -/
def readLine (text : String) : Option HostLine :=
  match lex [] text.toList with
  | [] => some .empty
  | .word w :: ts => readLineWord w ts
  | _ => none

/-- Read a program, line by line. -/
def readProgram : List String → Option (List HostLine)
  | [] => some []
  | t :: ts =>
    match readLine t, readProgram ts with
    | some l, some p => some (l :: p)
    | _, _ => none

end Sys2Proof.Machine
end

