-- ==== Sys2Proof/Safety.lean ====
section
/-! DEFINITION. The terms claims use: when a request executes normally, when a run is over, the invariants of the machine, and
the spec's tables of durations and primitive counts (70_reset_and_hazards.md rules R420, R421) as the spec writes them. -/

namespace Sys2Proof.Machine

/-! ### When a request executes -/

/-- No block reset is scheduled and no request of another context waits. -/
def Undisturbed (s : State) : Prop := s.resetsAt = [] ∧ s.intruders = []

/-- The prologue of 41_bus_driver.md rule R184 accepts the request, and nothing from outside ends it (60_exceptions.md rules
R352, R365). INIT also needs a pin the platform accepts (rule R180). -/
def Ready (i : Instr) (s : State) : Prop :=
  s.fault = .none ∧ s.busy = false ∧ (needsBinding i = true → s.bound = true)
    ∧ (drivesLine i = true → s.copyPending = false) ∧ s.inputMissing i = false ∧ Undisturbed s

/-- The request `i` was accepted in `s` and has responded with `r` in `t` (30_encoding.md rule R105). -/
def RespondedWith (r : Response) (s t : State) : Prop :=
  t.fault = .none ∧ t.busy = false ∧ t.upc = .idle ∧ t.call = .answered ∧ t.rstat = .last r.status ∧ s.now ≤ t.now
    ∧ t.trace.head? = some (t.now, .resp r)

/-- The request is accepted and nothing ends it: `Ready`, and for INIT a pin that the platform accepts (41_bus_driver.md rule
R180). -/
def Accepts (i : Instr) (s : State) : Prop := Ready i s ∧ ∀ pin, i = .init pin → s.validPin pin = true

/-- `T_JIT` of the platform (40_shim_interface.md rule R153). -/
def State.jitter (s : State) : Nat :=
  match s.env.timing with
  | .reference _ => 0
  | .general tJit => tJit

/-- The reference environment of 95_test_vectors.md on the bound line: gaps of `g`, exact delays, and the wired-AND of the devices
with an ideal pull-up (10_state.md rule R41). -/
def ReferenceEnvironment (g : Nat) (s : State) : Prop := s.env.timing = .reference g ∧ s.env.line = .reference

/-- The reference timing with gaps of `g` µs (40_shim_interface.md rules R153, R158). -/
def ReferenceTiming (g : Nat) (s : State) : Prop := s.env.timing = .reference g

/-! ### Output cells -/

/-- The output cells of an operation (30_encoding.md rule R102, column "operands"; 10_state.md rule R43). -/
def cellsOf : Instr → OutCells
  | .readRom => .rom
  | .readScratchpad _ => .scratchpad
  | .readPowerSupply _ => .bit
  | _ => .none

/-- The outputs a response of the request carries (30_encoding.md rule R105). -/
def responseOutputs (i : Instr) (t : State) : Outputs :=
  match i with
  | .resetPulse | .readBit => .bit t.bitOut
  | .readByte => .byte t.byteOut
  | i => outputsOf (cellsOf i) t

/-- Every output cell holds a value. -/
def Outputs.written : Outputs → Bool
  | .none => true
  | .bit b => b.isSome
  | .byte v => v.isSome
  | .rom cells => cells.toList.all Option.isSome
  | .scratchpad cells => cells.toList.all Option.isSome

/-- Every output cell is unwritten (10_state.md rule R44). -/
def Outputs.unwritten : Outputs → Bool
  | .none => true
  | .bit b => b.isNone
  | .byte v => v.isNone
  | .rom cells => cells.toList.all Option.isNone
  | .scratchpad cells => cells.toList.all Option.isNone

/-! ### The end of a run (70_reset_and_hazards.md rule R430) -/

/-- No conversion and no commit is pending in the device. -/
def Device.resting (d : Device) : Bool :=
  match d.kind with
  | .ds18b20 x => decide (x.act = .none)
  | _ => true

/-- The run is over: no host action left, the last request delivered has its response, not busy, no fault, no device activity
pending, no commit window open. Rule R430 names requests and waits; that every other action in `inbox` (a read, a write, a mask change,
a critical section of the host, a block reset) keeps a run from being over too, and that a scheduled block reset and a read of the status
view by another context do not, is a DESIGN CHOICE (log entry 39). -/
def State.over (s : State) : Bool :=
  s.inbox.isEmpty && s.intruders.isEmpty && decide (s.call = .answered) && !s.busy && decide (s.fault = .none)
    && s.devices.all Device.resting && !s.copyPending

/-! ### Invariants -/

/-- The trace is in time order and no event lies in the future (00_scope.md rule R13, 20_memory.md rule R82). The trace is held
newest first. -/
def traceOrdered (now : Nat) : List (Nat × Event) → Bool
  | [] => true
  | e :: es => decide (e.1 ≤ now) && traceOrdered e.1 es

/-- The trace of a state is ordered. -/
def TraceInOrder (s : State) : Prop := traceOrdered s.now s.trace = true

/-- `upc` is IDLE exactly when no request is in flight (10_state.md rules R34, R36). -/
def BusyMatchesUpc (s : State) : Prop := s.busy = false ↔ s.upc = .idle

/-- How far `upc` has counted. -/
def Upc.steps : Upc → Nat
  | .idle => 0
  | .running _ k => k

/-- `upc` never exceeds `(op, 1210)` (70_reset_and_hazards.md rule R421). -/
def UpcBounded (s : State) : Prop := s.upc.steps ≤ 1210

/-- `bitcnt` is in 0..8 and `byteidx` in 0..9 (10_state.md rule R37). -/
def CountersInRange (s : State) : Prop := s.bitcnt.getD 0 ≤ 8 ∧ s.byteidx.getD 0 ≤ 9

/-- A low period is tracked exactly while the engine drives the line low: no device holds a slot that the engine has released
(10_state.md rules R32, R40). Every request that opens a slot ends so in the reference environment, as a device's hold is over before
the slot is (45_reference_device.md rule R311). It is no invariant. -/
def LowPeriodMatchesDrive (s : State) : Prop := s.drive = .drivenLow ↔ s.lineLow.isSome = true

/-- The low period does not begin in the future (10_state.md rule R32). -/
def LowPeriodBegun (s : State) : Prop := ∀ start, s.lineLow = some start → start ≤ s.now

/-- A line that the engine drives low is in a low period (10_state.md rules R32, R40). -/
def LowPeriodTracked (s : State) : Prop := s.drive = .drivenLow → s.lineLow.isSome = true

/-- A low period goes on only while some driver holds the line low (10_state.md rule R40). -/
def LowPeriodHeld (s : State) : Prop :=
  s.lineLow.isSome = true → s.drive = .drivenLow ∨ (s.devicesLowSince s.now).isSome = true

/-- Between two steps no request is in flight, but for one that a fault has stopped: a request runs to its response in one step
(00_scope.md rules R7, R8; 10_state.md rule R34). -/
def AtRest (s : State) : Prop := s.running = false

/-- No device holds a command byte that it has still to decode (45_reference_device.md rule R313). -/
def NoPendingCommand (s : State) : Prop := s.pendingCommand? = none

/-- The fault of a request, which therefore has no response (60_exceptions.md rule R353). -/
def FaultCode.ofRequest : FaultCode → Bool
  | .none | .undefinedOutput | .msWaitInCritical | .critUnderflow => false
  | .illegalRequest | .notBound | .concurrentRequest | .badPin | .undefinedInput | .copyHazard => true

/-- A request in flight and one that a fault has stopped leave their caller waiting, and between two steps a caller waits only for a
faulted engine, since a block reset ends the waiting (60_exceptions.md rule R357 for the first; log entries 19 and 37 for both). -/
def CallerWaits (s : State) : Prop :=
  (s.busy = true ∨ s.fault.ofRequest = true → s.call = .waiting) ∧ (s.call = .waiting → s.fault ≠ .none)

/-- No read of the status view lies in the future (00_scope.md rule R14). -/
def ViewedInPast (s : State) : Prop := ∀ v ∈ s.viewed, v.time ≤ s.now

/-- The invariant of the machine. -/
structure Inv (s : State) : Prop where
  traceInOrder : TraceInOrder s
  busyMatchesUpc : BusyMatchesUpc s
  upcBounded : UpcBounded s
  countersInRange : CountersInRange s
  lowPeriodTracked : LowPeriodTracked s
  lowPeriodHeld : LowPeriodHeld s
  lowPeriodBegun : LowPeriodBegun s
  atRest : AtRest s
  noPendingCommand : NoPendingCommand s
  callerWaits : CallerWaits s
  viewedInPast : ViewedInPast s

/-- What never changes of a device: its line, its ROM code and its power mode (45_reference_device.md rule R300). -/
def Device.identity (d : Device) : Pin × Option (Rom × Power) :=
  (d.pin, match d.kind with
    | .ds18b20 x => some (x.rom, x.power)
    | _ => none)

/-- The devices' identities, in order. -/
def State.identities (s : State) : List (Pin × Option (Rom × Power)) := s.devices.map Device.identity

/-! ### The spec's tables -/

/-- 70_reset_and_hazards.md rule R420, column "reference µs": the duration of an operation whose reset, if it has one, shows
presence. -/
def referenceDuration : Instr → Nat
  | .init _ | .driveLow | .release => 0
  | .resetPulse => 960
  | .writeBit _ | .readBit => 71
  | .writeByte _ | .readByte => 568
  | .readRom | .matchRom => 6072
  | .skipRom | .alarmSearch | .searchRom => 1528
  | .convertT a | .copyScratchpad a | .recallEeprom a => if a = .skipRom then 2096 else 6640
  | .writeScratchpad a => if a = .skipRom then 3800 else 8344
  | .readScratchpad a => if a = .skipRom then 7208 else 11752
  | .readPowerSupply a => if a = .skipRom then 2167 else 6711
  | _ => 0

/-- 70_reset_and_hazards.md rule R420, column "gaps". -/
def gapCount : Instr → Nat
  | .init _ | .driveLow | .release => 0
  | .resetPulse => 1
  | .writeBit _ | .readBit => 1
  | .writeByte _ | .readByte => 8
  | .readRom | .matchRom => 73
  | .skipRom | .alarmSearch | .searchRom => 9
  | .convertT a | .copyScratchpad a | .recallEeprom a => if a = .skipRom then 17 else 81
  | .writeScratchpad a => if a = .skipRom then 41 else 105
  | .readScratchpad a => if a = .skipRom then 89 else 153
  | .readPowerSupply a => if a = .skipRom then 18 else 82
  | _ => 0

/-- Is it a Device Protocol operation, which begins with a reset and its presence gate (42_rom_commands.md rule R230)? -/
def isDeviceProtocol : Instr → Bool
  | .readRom | .matchRom | .skipRom | .alarmSearch | .searchRom => true
  | .convertT _ | .writeScratchpad _ | .readScratchpad _ | .copyScratchpad _ | .recallEeprom _ | .readPowerSupply _ => true
  | _ => false

/-! ### Frames and their line events (30_encoding.md rules R111 to R118, R132) -/

/-- A time slot of a frame: a written bit, or a read slot with the level it samples. -/
inductive Slot where
  | write (b : Bool)
  | read (l : Level)
  deriving DecidableEq, Repr

/-- The events of a reset whose falling edge is at `t`, oldest first (30_encoding.md rule R115, 41_bus_driver.md rule R185). -/
def resetEvents (t : Nat) (l : Level) : List (Nat × Event) :=
  [(t, .critOn), (t, .low), (t + 480, .rel), (t + 540, .smp l), (t + 960, .critOff)]

/-- The events of a slot whose falling edge is at `t`, oldest first (30_encoding.md rules R116 to R118). -/
def Slot.events (t : Nat) : Slot → List (Nat × Event)
  | .write b => [(t, .critOn), (t, .low), (t + (if b then 6 else 70), .rel), (t + 71, .critOff)]
  | .read l => [(t, .critOn), (t, .low), (t + 6, .rel), (t + 15, .smp l), (t + 71, .critOff)]

/-- The events of slots in a row, with gaps of `g` before each, from `t` on (41_bus_driver.md rule R198). -/
def slotEvents (g : Nat) : Nat → List Slot → List (Nat × Event)
  | _, [] => []
  | t, x :: xs => x.events (t + g) ++ slotEvents g (t + g + 71) xs

/-- The write slots of some bytes, in order, each least-significant bit first (20_memory.md rules R72, R73). -/
def byteSlots (vs : List Byte) : List Slot :=
  vs.flatMap (fun v => (List.range 8).map (fun k => .write (v.getLsbD k)))

/-- What the slots of a byte make of a device: slot `k` carries bit `k` and ends at `ends k` (45_reference_device.md rules R310,
R312). -/
def Ds18b20.receiveBits (ends : Nat → Nat) (bits : List Bool) (x : Ds18b20) : Ds18b20 :=
  bits.zipIdx.foldl (fun x p => x.slot (ends p.2) p.1) x

/-- The bits of some bytes as they travel (20_memory.md rules R72, R73). -/
def bitsOf (vs : List Byte) : List Bool := vs.flatMap (fun v => (List.range 8).map v.getLsbD)

/-- The bytes an `addr` phase sends (30_encoding.md rule R112). -/
def addressBytes (s : State) (a : Addressing) : List Byte := if a = .skipRom then [0xCC] else 0x55 :: s.romInBytes

/-- 30_encoding.md rule R112, column "sent": the bytes a request sends, after its reset where it has one. -/
def bytesSent (s : State) : Instr → List Byte
  | .writeByte v => [v]
  | .readRom => [0x33]
  | .matchRom => 0x55 :: s.romInBytes
  | .skipRom => [0xCC]
  | .alarmSearch => [0xEC]
  | .searchRom => [0xF0]
  | .convertT a => addressBytes s a ++ [0x44]
  | .writeScratchpad a => addressBytes s a ++ [0x4E] ++ s.wdataBytes
  | .readScratchpad a => addressBytes s a ++ [0xBE]
  | .copyScratchpad a => addressBytes s a ++ [0x48]
  | .recallEeprom a => addressBytes s a ++ [0xB8]
  | .readPowerSupply a => addressBytes s a ++ [0xB4]
  | _ => []

/-- 30_encoding.md rule R112, column "received", in bits. -/
def bitsReceived : Instr → Nat
  | .readBit | .readPowerSupply _ => 1
  | .readByte => 8
  | .readRom => 64
  | .readScratchpad _ => 72
  | _ => 0

/-- The byte `v` is the `k`-th byte of the sampled levels (30_encoding.md rules R122, R123). -/
def IsReceivedByte (ls : List Level) (k : Nat) (v : Byte) : Prop :=
  ∀ j < 8, v.getLsbD j = decide (ls[8 * k + j]? = some .high)

/-- The output cells of the request hold what its read slots sampled (42_rom_commands.md rule R235, 43_function_commands.md rules
R266, R272). -/
def HoldsReceived (i : Instr) (ls : List Level) (t : State) : Prop :=
  match i with
  | .readByte => ∃ v, t.byteOut = some v ∧ IsReceivedByte ls 0 v
  | .readBit | .readPowerSupply _ => t.bitOut = some (decide (ls[0]? = some .high))
  | .readRom => ∀ k < 8, ∃ v, memRead t.romOut k = some v ∧ IsReceivedByte ls k v
  | .readScratchpad _ => ∀ k < 9, ∃ v, memRead t.spOut k = some v ∧ IsReceivedByte ls k v
  | _ => True

end Sys2Proof.Machine
end

