-- ==== Sys2Proof/Certificates/Slice0/Obligations.lean ====
section
/-! DEFINITION. The statements for the provers, one definition each. A hypothesis that names `Ready` or `Accepts` is the prologue
of 41_bus_driver.md rule R184 seen from the outside: bound, not busy, no fault, no commit pending, inputs written, and nothing
from outside (a block reset, a second request) on its way. -/

open Sys2Proof Sys2Proof.Machine

/-! ### Encoding (30_encoding.md) -/

/-- Decoding the encoding of any instruction gives it back with its operands (rules R100 to R104, R110). -/
def Obligations.DecodeOfEncode : Prop := ∀ i : Instr, decode (encode i) = .ok i

/-- A word or a byte that decodes is the encoding of what it decodes to, so each has one meaning (rules R101, R102, R110). -/
def Obligations.EncodeOfDecode : Prop :=
  (∀ w i, decodeRequest w = .ok i → i.isRequest = true ∧ requestWord i = w)
    ∧ ∀ b i, decodeWire b = .ok i → i.isRequest = false ∧ opByte i = b

/-- Rule R104: each of the 65,536 words is exactly one operation with its operands, or ILLEGAL_REQUEST, and no two rows of rule
R102 match the same word. -/
def Obligations.DecoderIsTotalAndRowsAreDisjoint : Prop :=
  ∀ w : ReqWord,
    requestRows.countP (fun r => r.admits w) ≤ 1
      ∧ ((∃ i, decodeRequest w = .ok i) ↔ requestRows.countP (fun r => r.admits w) = 1)
      ∧ (∀ i, decodeRequest w = .ok i →
          ∃ r ∈ requestRows, r.admits w = true ∧ opField r.pattern = opByte i ∧ argField w = argByte i)
      ∧ ((∀ i, decodeRequest w ≠ .ok i) → decodeRequest w = .error (.illegalRequest w))

/-- Words written out from rules R100 to R102 and 95_test_vectors.md 2.1 decode to what they stand for; this says little, as the
round trips say the rest. -/
def Obligations.SampleWordsDecode : Prop :=
  decodeRequest 0x0104 = .ok (.init 4) ∧ decodeRequest 0x0501 = .ok (.writeBit true) ∧ decodeRequest 0x07A5 = .ok (.writeByte 0xA5)
    ∧ decodeRequest 0x3300 = .ok .readRom ∧ decodeRequest 0x4401 = .ok (.convertT .matchRom)
    ∧ decodeRequest 0x0502 = .error (.illegalRequest 0x0502) ∧ decodeWire 0xBE = .ok .wReadScratchpad
    ∧ decodeWire 0x00 = .error (.notACommand 0x00)

/-- A word that no row of rule R102 admits is the model fault ILLEGAL_REQUEST and changes nothing else, the line included
(rule R103, 60_exceptions.md rule R354). -/
def Obligations.IllegalWordFaultsAlone : Prop :=
  ∀ (w : ReqWord) (s : State), (∀ r ∈ requestRows, r.admits w = false) → s.fault = .none → s.busy = false →
    deliver w s = .next { s with fault := .illegalRequest, faultWord := w }

/-! ### A step runs the decoded instruction -/

/-- A request word that the host, or another context, has ready is decoded and executed by the next step; around it the step only
takes the word off its list and notes that it has no response yet (00_scope.md rules R7, R8, 41_bus_driver.md rule R184,
70_reset_and_hazards.md rule R430). Whose turn it is, the two lists and the note, and that a block
reset due at that time comes first, are the model's choice (log entries 8, 9, 10, 37). -/
def Obligations.StepRunsDeliveredRequest : Prop :=
  ∀ (s : State) (w : ReqWord) (i : Instr), s.pendingCommand? = none → s.resetDue = false → decodeRequest w = .ok i →
    (∀ rest, s.dueIntruder? = none → s.inbox = .request w :: rest → step s = exec i { s with inbox := rest, call := .waiting })
      ∧ ∀ rest, s.dueIntruder? = some (w, rest) → step s = exec i { s with intruders := rest, call := .waiting }

/-- A complete command byte in a device is decoded and executed by the next step (45_reference_device.md rules R313, R326). That
this is a step of its own, before anything else, is the model's choice (log entry 11). -/
def Obligations.StepRunsCommandByte : Prop :=
  ∀ (s : State) (b : Byte) (i : Instr), s.pendingCommand? = some b → decodeWire b = .ok i → step s = exec i s

/-- What `withFetchWord` places is what the next step runs: a request word on the quieted state, a command byte in the devices.
Where it places them, and the note that the request has no response yet, are the model's choice (log entries 10, 11, 37). -/
def Obligations.FetchedWordRunsNext : Prop :=
  ∀ (s : State) (w : Nat) (i : Instr),
    (decodeTableWord 16 w = some i → step (s.withFetchWord 16 w) = exec i { quiet s with call := .waiting })
      ∧ (decodeTableWord 8 w = some i → step (s.withFetchWord 8 w) = exec i (s.withFetchWord 8 w))

/-! ### Faults (60_exceptions.md) -/

/-- Rule R353: of the faults that apply to one request the engine reports exactly one, the first in the rule's order; BAD_PIN is
raised after the prologue has set `busy` and `upc` (rule R358). -/
def Obligations.RequestFaultPriority : Prop :=
  ∀ (w : ReqWord) (s : State),
    (s.fault ≠ .none → deliver w s = .next s)
    ∧ (s.fault = .none → s.busy = true → deliver w s = .next { s with fault := .concurrentRequest, faultWord := w })
    ∧ (s.fault = .none → s.busy = false → (∀ i, decodeRequest w ≠ .ok i) →
        deliver w s = .next { s with fault := .illegalRequest, faultWord := w })
    ∧ ∀ i, decodeRequest w = .ok i → s.fault = .none → s.busy = false →
      ((∀ pin, i ≠ .init pin) → s.bound = false → deliver w s = .next { s with fault := .notBound, faultWord := w })
      ∧ (((∃ pin, i = .init pin) ∨ s.bound = true) →
        ((∀ pin, i ≠ .init pin) → i ≠ .release → s.copyPending = true →
          deliver w s = .next { s with fault := .copyHazard, faultWord := w })
        ∧ (((∃ pin, i = .init pin) ∨ i = .release ∨ s.copyPending = false) → s.inputMissing i = true →
          ∃ t, deliver w s = .next t ∧ t = { s with fault := .undefinedInput, faultWord := w, copyUntil := t.copyUntil })
        ∧ ∀ pin, i = .init pin → s.validPin pin = false →
          ∃ t, deliver w s = .next t ∧ t.fault = .badPin ∧ t.faultWord = w ∧ t.bound = s.bound ∧ t.pin = s.pin
            ∧ t.busy = true ∧ t.upc = .running (.init pin) 0 ∧ t.trace = (s.now, .req w) :: s.trace)

/-- Which operations read which input cells (rule R355): an unwritten cell among them is what `inputMissing` reports. -/
def Obligations.WhichInputsAreRead : Prop :=
  ∀ (i : Instr) (s : State), s.inputMissing i = true ↔
    ((i = .matchRom ∨ i = .convertT .matchRom ∨ i = .writeScratchpad .matchRom ∨ i = .readScratchpad .matchRom
        ∨ i = .copyScratchpad .matchRom ∨ i = .recallEeprom .matchRom ∨ i = .readPowerSupply .matchRom)
      ∧ ∃ k < 8, memRead s.romIn k = none)
    ∨ ((∃ a, i = .writeScratchpad a) ∧ (s.wdata.th = none ∨ s.wdata.tl = none ∨ s.wdata.cfg = none))

/-- A faulted engine executes no request: nothing changes, and the caller of any request word delivered to it has no response and
waits (rules R356, R357). That `call` records the wait is the model's choice (log entry 37). -/
def Obligations.FaultedEngineTakesNoStep : Prop :=
  ∀ s : State, s.fault ≠ .none →
    (∀ i : Instr, i.isRequest = true → exec i s = .next s) ∧ ∀ w, callEngine w s = .next { s with call := .waiting }

/-- Block reset is the only way out of a fault: every other step keeps the fault and its word, and a caller that waits for a
response goes on waiting (rules R356, R357, R376). The two ways in which a block reset comes, and that `call` records the wait, are
the model's choice (log entries 9, 10 and 37). -/
def Obligations.FaultStaysUntilBlockReset : Prop :=
  ∀ s t : State, s.fault ≠ .none → s.resetsAt = [] → s.inbox.head? ≠ some .blockReset → step s = .next t →
    t.fault = s.fault ∧ t.faultWord = s.faultWord ∧ (s.call = .waiting → t.call = .waiting)

/-- A request that becomes due by the end of a gap of another one is CONCURRENT_REQUEST with its own word (rules R352, R373): the
request in flight never responds, every slot before that gap was sent whole and none after it (rule R358), and in the first gap no
line event has happened. One that is due in no gap waits, and the request in flight runs as it does alone. While interrupts are
masked none is delivered in a gap, and the request responds. That a waiting request is delivered in the first gap by whose end it
is due, and that it is recorded at the end of that gap, is the model's choice (log entry 8). -/
def Obligations.SecondRequestInGapFaults : Prop :=
  ∀ (i : Instr) (s : State) (n : Nat) (w : ReqWord) (rest : List (Nat × ReqWord)),
    i.isRequest = true → drivesLine i = true → i ≠ .driveLow → s.resetsAt = [] → s.intruders = (n, w) :: rest →
    Ready i { s with intruders := [] } →
    (s.irqMasked = false → ∃ (t alone : State) (new : List (Nat × Event)), exec i s = .next t
      ∧ exec i { s with intruders := [] } = .next alone
      ∧ t.trace = new ++ (s.now, .req (requestWord i)) :: s.trace ∧ (∀ m, (m, Event.critOn) ∈ new → m < n)
      ∧ (t = { alone with intruders := s.intruders }
        ∨ (t.fault = .concurrentRequest ∧ t.faultWord = w ∧ t.busy = true ∧ t.intruders = rest
          ∧ (∃ k, t.upc = .running i k) ∧ t.drive = (if new = [] then s.drive else .released)
          ∧ t.critStack = s.critStack ∧ t.irqMasked = false ∧ n ≤ t.now
          ∧ ∃ es, alone.trace = es ++ (t.now, .critOn) :: t.trace))
      ∧ (n ≤ s.now → t.fault = .concurrentRequest ∧ t.upc = .running i 0 ∧ new = []))
    ∧ (s.irqMasked = true → ∃ t r, exec i s = .next t ∧ RespondedWith r s t ∧ t.intruders = s.intruders)

/-- The engine never raises MS_WAIT_IN_CRITICAL or CRIT_UNDERFLOW, whatever happens during the request (rule R359). -/
def Obligations.EngineNeverMisusesCriticalSections : Prop :=
  ∀ (i : Instr) (s t : State), i.isRequest = true → s.fault = .none → exec i s = .next t →
    t.fault ≠ .msWaitInCritical ∧ t.fault ≠ .critUnderflow

/-- The host's buffers (10_state.md rules R43, R44). A host read of an output cell returns its value, or is UNDEFINED_OUTPUT with
word 0x0000 where the cell is unwritten (rule R355). A host write of an input cell writes that cell and no other. While the host
waits for a response, whether its request is in flight, stopped by a fault or was delivered to a faulted engine, no step takes an
action of its own, so that none reads or writes a cell for it (20_memory.md rule R81, 60_exceptions.md rule R357). That the value
comes back in `answer`, that the host of `inbox` is the one that waits, and that `call` records the wait, is the model's choice (log
entries 19 and 37). -/
def Obligations.HostReadsAndWritesItsCells : Prop :=
  (∀ s : State, s.fault = .none →
    (∀ k : Fin 8, (∀ v, memRead s.romOut k = some v → hostTurn (.readRomOut k) s = .next { s with answer := some (.byte v) })
      ∧ (memRead s.romOut k = none → hostTurn (.readRomOut k) s = .next { s with fault := .undefinedOutput, faultWord := 0 }))
    ∧ (∀ k : Fin 9, (∀ v, memRead s.spOut k = some v → hostTurn (.readSpOut k) s = .next { s with answer := some (.byte v) })
      ∧ (memRead s.spOut k = none → hostTurn (.readSpOut k) s = .next { s with fault := .undefinedOutput, faultWord := 0 }))
    ∧ (∀ b, s.bitOut = some b → hostTurn .readBitOut s = .next { s with answer := some (.bit b) })
    ∧ (s.bitOut = none → hostTurn .readBitOut s = .next { s with fault := .undefinedOutput, faultWord := 0 })
    ∧ (∀ v, s.byteOut = some v → hostTurn .readByteOut s = .next { s with answer := some (.byte v) })
    ∧ (s.byteOut = none → hostTurn .readByteOut s = .next { s with fault := .undefinedOutput, faultWord := 0 }))
    ∧ (∀ (s : State) (v : Byte),
      (∀ k : Fin 8, ∃ t, hostTurn (.writeRomIn k v) s = .next t ∧ t = { s with romIn := t.romIn }
        ∧ ∀ j : Fin 8, memRead t.romIn j = if j = k then some v else memRead s.romIn j)
      ∧ hostTurn (.writeTh v) s = .next { s with wdata := { th := some v, tl := s.wdata.tl, cfg := s.wdata.cfg } }
      ∧ hostTurn (.writeTl v) s = .next { s with wdata := { th := s.wdata.th, tl := some v, cfg := s.wdata.cfg } }
      ∧ hostTurn (.writeCfg v) s = .next { s with wdata := { th := s.wdata.th, tl := s.wdata.tl, cfg := some v } })
    ∧ ∀ (s t : State) (a : HostAction) (rest : List HostAction), s.inbox = a :: rest → (∀ w, a ≠ .request w) →
      (∀ k, a ≠ .readStatus k) → a ≠ .blockReset → s.call = .waiting →
      step s = .next t → t.inbox = s.inbox ∧ t.answer = s.answer

/-- A host that uses the shim inside a critical section, or leaves one it never entered, is recorded (rules R350, R359,
40_shim_interface.md rules R154, R156). -/
def Obligations.HostMisuseOfCriticalSections : Prop :=
  ∀ (s : State) (n : Nat), s.fault = .none → s.upc = .idle →
    (s.critStack ≠ [] → hostTurn (.waitMs n) s = .next { s with fault := .msWaitInCritical, faultWord := 0 })
    ∧ (s.critStack = [] → hostTurn .exitCritical s = .next { s with fault := .critUnderflow, faultWord := 0 })

/-! ### The shim primitives (40_shim_interface.md) -/

/-- Rules R150 to R152: the line primitives set the drive, emit their event at the present time and take no time; a sample reads
the line, which is low under every environment while the engine drives it. -/
def Obligations.LinePrimitives : Prop :=
  ∀ s : State,
    ((setLineLow s).drive = .drivenLow ∧ (setLineLow s).now = s.now ∧ (setLineLow s).trace = (s.now, .low) :: s.trace
      ∧ (setLineLow s).fault = s.fault ∧ (setLineLow s).lineLevel = .low)
    ∧ ((releaseLine s).drive = .released ∧ (releaseLine s).now = s.now ∧ (releaseLine s).trace = (s.now, .rel) :: s.trace
      ∧ (releaseLine s).fault = s.fault)
    ∧ ((sampleLine s).smpl = some s.lineLevel ∧ (sampleLine s).now = s.now
      ∧ (sampleLine s).trace = (s.now, .smp s.lineLevel) :: s.trace ∧ (sampleLine s).fault = s.fault
      ∧ (sampleLine s).drive = s.drive)

/-- Rule R155, and the pop of rule R156: the mask is pushed and set, then restored. -/
def Obligations.CriticalSectionPrimitives : Prop :=
  ∀ s : State,
    ((enterCritical s).critStack = s.irqMasked :: s.critStack ∧ (enterCritical s).irqMasked = true
      ∧ (enterCritical s).trace = (s.now, .critOn) :: s.trace ∧ (enterCritical s).now = s.now)
    ∧ (∀ m rest, s.critStack = m :: rest →
      (exitCritical s).critStack = rest ∧ (exitCritical s).irqMasked = m ∧ (exitCritical s).trace = (s.now, .critOff) :: s.trace
        ∧ (exitCritical s).now = s.now ∧ (exitCritical s).fault = s.fault)

/-- Rules R153 and R154: how long the two delays last, and that only `delay_ms` emits an event. -/
def Obligations.DelayBounds : Prop :=
  ∀ (s : State) (n : Nat), s.resetsAt = [] →
    (s.now + n ≤ (delayUs n s).now ∧ (delayUs n s).now ≤ s.now + n + s.jitter ∧ (delayUs n s).trace = s.trace)
    ∧ (s.critStack = [] → s.now + 1000 * n ≤ (delayMs n s).now ∧ (delayMs n s).trace = (s.now, .sleep n) :: s.trace)

/-- A host wait lets its time pass with nothing on the line (30_encoding.md rule R131). That a wait in microseconds lasts exactly
its argument is the model's choice (log entry 25). -/
def Obligations.HostWaits : Prop :=
  ∀ (s : State) (n g : Nat), s.resetsAt = [] → ReferenceTiming g s →
    (∃ t, hostTurn (.waitUs n) s = .next t ∧ t.now = s.now + n ∧ t.trace = s.trace ∧ t.drive = s.drive)
    ∧ (s.critStack = [] → ∃ t, hostTurn (.waitMs n) s = .next t ∧ t.now = s.now + 1000 * n
        ∧ t.trace = (s.now, .sleep n) :: s.trace ∧ t.drive = s.drive)

/-! ### Every request -/

/-- An accepted request responds, in every environment and timing: the line is Released but after DRIVE_LOW, the interrupt mask
is as it was, a response OK has every output cell written, and NO_PRESENCE comes only from RESET_PULSE, with BIT_OUT = 0, or from
a Device Protocol operation, with its output cells unwritten (30_encoding.md rule R105, 10_state.md rules R33, R44). -/
def Obligations.EveryAcceptedRequestResponds : Prop :=
  ∀ (i : Instr) (s : State), i.isRequest = true → Accepts i s →
    ∃ t st, exec i s = .next t ∧ RespondedWith { status := st, outputs := responseOutputs i t } s t
      ∧ t.drive = (if i = .driveLow then .drivenLow else .released)
      ∧ t.critStack = s.critStack ∧ t.irqMasked = s.irqMasked
      ∧ (st = .ok → (responseOutputs i t).written = true)
      ∧ (st = .noPresence → (i = .resetPulse ∧ t.bitOut = some false)
          ∨ (isDeviceProtocol i = true ∧ (responseOutputs i t).unwritten = true))

/-- The frame of every request, accepted or not: what it leaves as it was (10_state.md rules R31, R37 to R39, R43, R44,
40_shim_interface.md rule R156, 45_reference_device.md rule R300). That the working registers `shift`, `bitcnt`, `byteidx`, `pres` and
`smpl` keep their values where the request does not write them is the model's choice (log entry 27): rule R37 lets a model hold
them unwritten between operations. Reads of the status view by other contexts may be made in it, in their order (log entry 38). -/
def Obligations.RequestFrame : Prop :=
  ∀ (i : Instr) (s t : State), i.isRequest = true → s.resetsAt = [] → exec i s = .next t →
    t.romIn = s.romIn ∧ t.wdata = s.wdata ∧ t.env = s.env ∧ t.inbox = s.inbox ∧ t.answer = s.answer ∧ t.resetsAt = []
      ∧ t.critStack = s.critStack ∧ t.irqMasked = s.irqMasked ∧ t.identities = s.identities
      ∧ t.viewReads <:+ s.viewReads ∧ s.viewed <:+ t.viewed
      ∧ ((∀ pin, i ≠ .init pin) → t.bound = s.bound ∧ t.pin = s.pin)
      ∧ (i ≠ .readRom → t.romOut = s.romOut)
      ∧ ((∀ a, i ≠ .readScratchpad a) → t.spOut = s.spOut)
      ∧ (i ≠ .resetPulse → i ≠ .readBit → (∀ a, i ≠ .readPowerSupply a) → t.bitOut = s.bitOut)
      ∧ (i ≠ .readByte → t.byteOut = s.byteOut)
      ∧ ((∀ a, i ≠ .copyScratchpad a) → t.copyUntil = s.copyUntil ∨ (t.copyUntil = none ∧ s.copyPending = false))
      ∧ (drivesLine i = false ∨ i = .driveLow → t.shift = s.shift ∧ t.bitcnt = s.bitcnt ∧ t.pres = s.pres ∧ t.smpl = s.smpl)
      ∧ (isDeviceProtocol i = false → t.byteidx = s.byteidx ∧ (i ≠ .resetPulse → t.pres = s.pres))
      ∧ (t.fault ≠ .none → t.rstat = s.rstat ∧ t.call = s.call)

/-- A device on another line sees nothing of a request: neither a slot nor a reset (40_shim_interface.md rule R160). That
each device has a line of its own, and that this holds also on a line that the engine has left, whose level 41_bus_driver.md rule R181
puts outside the spec, is the model's choice (log entry 12). -/
def Obligations.OtherLinesSeeNothing : Prop :=
  ∀ (i : Instr) (s t : State) (k : Nat) (d : Device), i.isRequest = true → exec i s = .next t → s.devices[k]? = some d →
    d.pin ≠ s.pin → ∃ e, t.devices[k]? = some e ∧ e.pin = d.pin ∧ e.presence = d.presence ∧ e.hold = d.hold
      ∧ (∀ x, d.kind = .ds18b20 x → ∃ y, e.kind = .ds18b20 y ∧ y.pos = x.pos ∧ y.slotEnd = x.slotEnd)
      ∧ ∀ m, d.kind = .echo m → e.kind = .echo m

/-- 70_reset_and_hazards.md rule R420: the duration of every request in the reference timing with gaps of `g`; a reset that finds
no presence ends a Device Protocol operation after 960 µs and one gap. -/
def Obligations.RequestDurations : Prop :=
  ∀ (i : Instr) (s : State) (g : Nat), i.isRequest = true → Accepts i s → ReferenceTiming g s →
    ∃ t st, exec i s = .next t ∧ t.rstat = .last st
      ∧ t.now = if st = .noPresence then s.now + 960 + g else s.now + referenceDuration i + gapCount i * g

/-- 30_encoding.md rules R111, R112, R132: on the line a Device Protocol operation is one reset and then, if presence was
detected, exactly the bytes its rule sends and the slots it reads, each at its time; its outputs hold what the read slots
sampled. Without presence no further slot follows and the outputs become unwritten (42_rom_commands.md rule R230). -/
def Obligations.TransactionFrames : Prop :=
  ∀ (i : Instr) (s : State) (g : Nat), isDeviceProtocol i = true → Accepts i s → ReferenceTiming g s →
    ∃ (t : State) (l : Level), exec i s = .next t ∧
      (l = .low → ∃ ls : List Level, ls.length = bitsReceived i ∧ HoldsReceived i ls t
        ∧ RespondedWith { status := .ok, outputs := responseOutputs i t } s t
        ∧ t.trace = (t.now, .resp { status := .ok, outputs := responseOutputs i t })
            :: (resetEvents (s.now + g) l
                ++ slotEvents g (s.now + g + 960) (byteSlots (bytesSent s i) ++ ls.map .read)).reverse
            ++ (s.now, .req (requestWord i)) :: s.trace)
      ∧ (l = .high → (responseOutputs i t).unwritten = true
        ∧ RespondedWith { status := .noPresence, outputs := responseOutputs i t } s t
        ∧ t.trace = (t.now, .resp { status := .noPresence, outputs := responseOutputs i t })
            :: (resetEvents (s.now + g) l).reverse ++ (s.now, .req (requestWord i)) :: s.trace)

/-! ### Bus Driver operations (41_bus_driver.md) -/

/-- INIT binds the engine to its pin and releases the line; a pending commit window stays (rules R180, R181). -/
def Obligations.InitBindsThePin : Prop :=
  ∀ (pin : Byte) (s : State), Ready (.init pin) s → s.validPin pin = true →
    ∃ t, exec (.init pin) s = .next t ∧ t.bound = true ∧ t.pin = pin ∧ t.drive = .released ∧ t.now = s.now
      ∧ RespondedWith { status := .ok, outputs := .none } s t
      ∧ t.trace = [(s.now, .resp { status := .ok, outputs := .none }), (s.now, .rel), (s.now, .req (requestWord (.init pin)))]
          ++ s.trace
      ∧ (s.copyPending = true → t.copyUntil = s.copyUntil)

/-- DRIVE_LOW holds the line low after its response, and RELEASE releases it; neither takes time or opens a critical section
(rules R182, R183, 60_exceptions.md rule R371). -/
def Obligations.DriveLowAndRelease : Prop :=
  (∀ s : State, Ready .driveLow s → ∃ t, exec .driveLow s = .next t ∧ t.drive = .drivenLow ∧ t.now = s.now
      ∧ RespondedWith { status := .ok, outputs := .none } s t
      ∧ t.trace = [(s.now, .resp { status := .ok, outputs := .none }), (s.now, .low), (s.now, .req 0x0200)] ++ s.trace)
    ∧ ∀ s : State, Ready .release s → ∃ t, exec .release s = .next t ∧ t.drive = .released ∧ t.now = s.now
      ∧ RespondedWith { status := .ok, outputs := .none } s t
      ∧ t.trace = [(s.now, .resp { status := .ok, outputs := .none }), (s.now, .rel), (s.now, .req 0x0300)] ++ s.trace

/-- RESET_PULSE: its events in the reference timing, and presence decided by the one sample at +540 (rules R185, R186,
30_encoding.md rules R115, R123). -/
def Obligations.ResetPulseWaveform : Prop :=
  ∀ (s : State) (g : Nat), Ready .resetPulse s → ReferenceTiming g s →
    ∃ (t : State) (l : Level), exec .resetPulse s = .next t ∧ t.bitOut = some (decide (l = .low)) ∧ t.now = s.now + g + 960
      ∧ RespondedWith { status := if l = .low then .ok else .noPresence, outputs := .bit t.bitOut } s t
      ∧ t.trace = (t.now, .resp { status := if l = .low then .ok else .noPresence, outputs := .bit t.bitOut })
          :: (resetEvents (s.now + g) l).reverse ++ (s.now, .req 0x0400) :: s.trace

/-- WRITE_BIT: the write-1 and write-0 slots in the reference timing (rule R190, 30_encoding.md rules R116, R117). -/
def Obligations.WriteBitWaveform : Prop :=
  ∀ (b : Bool) (s : State) (g : Nat), Ready (.writeBit b) s → ReferenceTiming g s →
    ∃ t, exec (.writeBit b) s = .next t ∧ t.now = s.now + g + 71
      ∧ RespondedWith { status := .ok, outputs := .none } s t
      ∧ t.trace = [(s.now + g + 71, .resp { status := .ok, outputs := .none }), (s.now + g + 71, .critOff),
          (s.now + g + (if b then 6 else 70), .rel), (s.now + g, .low), (s.now + g, .critOn),
          (s.now, .req (requestWord (.writeBit b)))] ++ s.trace

/-- In every timing the low pulse of a written 1 lasts 6 µs and that of a written 0 lasts 70 µs, each at most `T_JIT` longer
(rules R190, R191, 40_shim_interface.md rules R153, R157). -/
def Obligations.WriteBitLowTime : Prop :=
  ∀ (b : Bool) (s : State), Ready (.writeBit b) s →
    ∃ (t : State) (low rel : Nat), exec (.writeBit b) s = .next t ∧ s.now ≤ low
      ∧ t.trace.filter (fun e => decide (e.2 = .low ∨ e.2 = .rel))
          = [(rel, .rel), (low, .low)] ++ s.trace.filter (fun e => decide (e.2 = .low ∨ e.2 = .rel))
      ∧ low + (if b then 6 else 70) ≤ rel ∧ rel ≤ low + (if b then 6 else 70) + s.jitter

/-- READ_BIT: the read slot in the reference timing, its sample at +15, and BIT_OUT (rule R194, 30_encoding.md rules R118,
R123). -/
def Obligations.ReadBitWaveform : Prop :=
  ∀ (s : State) (g : Nat), Ready .readBit s → ReferenceTiming g s →
    ∃ (t : State) (l : Level), exec .readBit s = .next t ∧ t.bitOut = some (decide (l = .high)) ∧ t.now = s.now + g + 71
      ∧ RespondedWith { status := .ok, outputs := .bit t.bitOut } s t
      ∧ t.trace = [(s.now + g + 71, .resp { status := .ok, outputs := .bit t.bitOut }), (s.now + g + 71, .critOff),
          (s.now + g + 15, .smp l), (s.now + g + 6, .rel), (s.now + g, .low), (s.now + g, .critOn), (s.now, .req 0x0600)]
          ++ s.trace

/-- WRITE_BYTE: eight slots, least-significant bit first, slot k opening at 71 k and its gaps after the first
(rules R197, R198, 30_encoding.md rule R122). -/
def Obligations.WriteByteWaveform : Prop :=
  ∀ (v : Byte) (s : State) (g : Nat), Ready (.writeByte v) s → ReferenceTiming g s →
    ∃ t, exec (.writeByte v) s = .next t ∧ t.now = s.now + 8 * (g + 71)
      ∧ RespondedWith { status := .ok, outputs := .none } s t
      ∧ t.trace = (t.now, .resp { status := .ok, outputs := .none })
          :: ((List.range 8).flatMap (fun k => Slot.events (s.now + (k + 1) * g + 71 * k) (.write (v.getLsbD k)))).reverse
          ++ (s.now, .req (requestWord (.writeByte v))) :: s.trace

/-- READ_BYTE: eight read slots, and BYTE_OUT is the byte of their samples, bit k from slot k (rule R199, 30_encoding.md rules
R122, R123). -/
def Obligations.ReadByteWaveform : Prop :=
  ∀ (s : State) (g : Nat), Ready .readByte s → ReferenceTiming g s →
    ∃ (t : State) (ls : List Level) (v : Byte), exec .readByte s = .next t ∧ t.now = s.now + 8 * (g + 71) ∧ ls.length = 8
      ∧ t.byteOut = some v ∧ (∀ k < 8, v.getLsbD k = decide (ls[k]? = some .high))
      ∧ RespondedWith { status := .ok, outputs := .byte (some v) } s t
      ∧ t.trace = (t.now, .resp { status := .ok, outputs := .byte (some v) })
          :: (slotEvents g s.now (ls.map .read)).reverse ++ (s.now, .req 0x0800) :: s.trace

/-- Rule R421: how many shim primitives a reset, a slot and a byte run, and some of the rule's rows: READ_ROM, SKIP_ROM,
ALARM_SEARCH, CONVERT_T and READ_SCRATCHPAD with Skip ROM, and the bound of 1210 for READ_SCRATCHPAD with Match ROM. -/
def Obligations.PrimitiveCounts : Prop :=
  primitives resetProgram = 8 ∧ (∀ b, primitives (writeSlot b) = if b then 7 else 6) ∧ primitives readSlot = 9
    ∧ primitives readByteProgram = 72
    ∧ (∀ v : Byte, primitives (writeByteProgram v) = 56 - (List.range 8).countP (fun k => !v.getLsbD k))
    ∧ primitives (resetProgram ++ writeByteProgram 0x33 ++ receiveRom) = 636
    ∧ primitives (resetProgram ++ writeByteProgram 0xCC) = 60 ∧ primitives (resetProgram ++ writeByteProgram 0xEC) = 61
    ∧ primitives (resetProgram ++ addressProgram [] .skipRom ++ writeByteProgram 0x44) = 110
    ∧ primitives (resetProgram ++ addressProgram [] .skipRom ++ writeByteProgram 0xBE ++ receiveScratchpad) = 762
    ∧ ∀ rom : List Byte, rom.length = 8 →
        primitives (resetProgram ++ addressProgram rom .matchRom ++ writeByteProgram 0xBE ++ receiveScratchpad) ≤ 1210

/-! ### Function commands (43_function_commands.md) -/

/-- COPY_SCRATCHPAD opens the commit window of 10 ms at the end of its last slot, on success only (rule R268,
70_reset_and_hazards.md rule R410). -/
def Obligations.CopyOpensTheCommitWindow : Prop :=
  ∀ (a : Addressing) (s : State), Ready (.copyScratchpad a) s →
    ∃ t st, exec (.copyScratchpad a) s = .next t ∧ RespondedWith { status := st, outputs := .none } s t
      ∧ t.copyUntil = if st = .ok then some (t.now + 10000) else none

/-- Rule R275: the host's reading of the temperature is the signed 16-bit number of SP_OUT[1] and SP_OUT[0] in 1/16 °C, and
UNDEFINED_OUTPUT where either cell is unwritten. That the host receives it in `answer` is the model's choice (log entry 19). -/
def Obligations.TemperatureDecoding : Prop :=
  (∀ (s : State) (lsb msb : Byte), memRead s.spOut 0 = some lsb → memRead s.spOut 1 = some msb →
      hostTurn .readTemperature s = .next { s with answer := some (.temperature (256 * msb.toInt + lsb.toNat)) }
        ∧ decodeTemp s.spOut = some (((256 * msb.toInt + lsb.toNat : Int) : ℚ) / 16))
    ∧ ∀ s : State, s.fault = .none → memRead s.spOut 0 = none ∨ memRead s.spOut 1 = none →
      hostTurn .readTemperature s = .next { s with fault := .undefinedOutput, faultWord := 0 } ∧ decodeTemp s.spOut = none

/-! ### Status, reset (10_state.md, 70_reset_and_hazards.md) -/

/-- Rule R45: the six bytes of the status view, with the ten codes of 60_exceptions.md rule R350 in FAULT, 0x00 above them, and that
reading has no side effect and may happen while `busy`. A read that another context makes while a request is in flight falls in a gap,
as contexts do not run while interrupts are masked (60_exceptions.md rule R373): it returns the view with BUSY = 1 and FLT = 0, and any
reads at all leave everything but their own record as it is without them. That the host receives the byte in `answer`, and that a
context's read waits in `viewReads` for a passing of time and leaves its byte in `viewed`, is the model's choice (log entries 19
and 38). -/
def Obligations.StatusViewLayout : Prop :=
  (∀ s : State,
    ((statusView s 0).getLsbD 0 = s.bound ∧ (statusView s 0).getLsbD 1 = decide (s.drive = .drivenLow)
      ∧ (statusView s 0).getLsbD 2 = s.busy ∧ (statusView s 0).getLsbD 3 = decide (s.fault ≠ .none)
      ∧ ∀ k, 4 ≤ k → (statusView s 0).getLsbD k = false)
    ∧ statusView s 1 = (if s.bound then s.pin else 0)
    ∧ statusView s 2 = s.fault.code
    ∧ [FaultCode.none, .illegalRequest, .notBound, .concurrentRequest, .badPin, .undefinedInput, .undefinedOutput, .copyHazard,
        .msWaitInCritical, .critUnderflow].map (fun f => statusView { s with fault := f } 2)
      = [0x00, 0x01, 0x02, 0x03, 0x04, 0x05, 0x06, 0x07, 0x08, 0x09]
    ∧ statusView s 3 = (match s.rstat with | .noneYet => 0xFF | .last .ok => 0x00 | .last .noPresence => 0x01)
    ∧ (statusView s 5 ++ statusView s 4 : BitVec 16) = s.faultWord
    ∧ (∀ k, 5 < k → statusView s k = 0)
    ∧ ∀ k, hostTurn (.readStatus k) s = .next { s with answer := some (.byte (statusView s k)) })
  ∧ (∀ (env : Env) (devices : List Device),
      (List.range 6).map (statusView (State.powerOn env devices)) = [0x00, 0x00, 0x00, 0xFF, 0x00, 0x00])
  ∧ (∀ (i : Instr) (s : State) (n k : Nat), i.isRequest = true → drivesLine i = true → i ≠ .driveLow → Accepts i s →
      s.irqMasked = false → s.viewReads = [(n, k)] →
      ∃ t, exec i s = .next t
        ∧ ((t.viewReads = [(n, k)] ∧ t.viewed = s.viewed)
          ∨ (t.viewReads = [] ∧ ∃ m v, t.viewed = ⟨m, k, v⟩ :: s.viewed ∧ n ≤ m ∧ s.now ≤ m ∧ m ≤ t.now
            ∧ (v = statusView { s with busy := true } k ∨ v = statusView { s with busy := true, drive := .released } k)))
        ∧ (n ≤ s.now → t.viewReads = [] ∧ t.viewed = ⟨s.now, k, statusView { s with busy := true } k⟩ :: s.viewed))
  ∧ (∀ (i : Instr) (s : State), i.isRequest = true → Accepts i s → s.irqMasked = true →
      ∃ t, exec i s = .next t ∧ t.viewReads = s.viewReads ∧ t.viewed = s.viewed)
  ∧ ∀ (i : Instr) (s : State) (reads : List (Nat × Nat)) (seen : List Viewed),
      ∃ t u, exec i s = .next t ∧ exec i { s with viewReads := reads, viewed := seen } = .next u
        ∧ u = { t with viewReads := u.viewReads, viewed := u.viewed }

/-- What every piece of state holds after block reset (rule R49), during a run and as its first event, in any environment and with
any devices. `pin` is unspecified and only its view is stated. A line that was held low is released, with its event
(70_reset_and_hazards.md rule R400), and a low period that a device holds goes on (rule R403). A call that waits is cut (log entry 37). That no device changes, not even where
the release ends a low period, is the model's choice (log entry 9): rules R400 and R403 say that the devices stay in the position
they had reached, and rules R307 and R309 alone would count the low period. -/
def Obligations.BlockResetValues : Prop :=
  (∀ s : State, ∃ t, hostTurn .blockReset s = .next t ∧ t.bound = false ∧ statusView t 1 = 0 ∧ t.drive = .released ∧ t.busy = false
      ∧ t.upc = .idle ∧ t.fault = .none ∧ t.faultWord = 0 ∧ t.shift = none ∧ t.bitcnt = none ∧ t.byteidx = none ∧ t.pres = none
      ∧ t.smpl = none ∧ t.copyUntil = none ∧ t.rstat = .noneYet ∧ t.irqMasked = s.env.irqAtReset ∧ t.critStack = []
      ∧ (∀ k, memRead t.romIn k = none ∧ memRead t.romOut k = none ∧ memRead t.spOut k = none)
      ∧ t.bitOut = none ∧ t.byteOut = none ∧ t.wdata.th = none ∧ t.wdata.tl = none ∧ t.wdata.cfg = none
      ∧ t.devices = s.devices
      ∧ ((∃ d ∈ s.devices, d.pin = s.pin ∧ d.drivesLow s.now = true) → t.lineLow = s.lineLow)
      ∧ ((∀ d ∈ s.devices, d.pin = s.pin → d.drivesLow s.now = false) → t.lineLow = none)
      ∧ t.trace = (if s.drive = .drivenLow then (s.now, .rel) :: s.trace else s.trace)
      ∧ t.call = (if s.call = .waiting then .cut else s.call))
    ∧ (∀ (env : Env) (devices : List Device), ∃ s, s = State.powerOn env devices ∧ s.now = 0 ∧ s.trace = [] ∧ s.bound = false
      ∧ s.drive = .released ∧ s.busy = false ∧ s.upc = .idle ∧ s.fault = .none ∧ s.faultWord = 0 ∧ s.shift = none ∧ s.bitcnt = none
      ∧ s.byteidx = none ∧ s.pres = none ∧ s.smpl = none ∧ s.copyUntil = none ∧ s.rstat = .noneYet ∧ s.irqMasked = env.irqAtReset
      ∧ s.critStack = [] ∧ (∀ k, memRead s.romIn k = none ∧ memRead s.romOut k = none ∧ memRead s.spOut k = none)
      ∧ s.bitOut = none ∧ s.byteOut = none ∧ s.wdata.th = none ∧ s.wdata.tl = none ∧ s.wdata.cfg = none
      ∧ s.mode = .unbound ∧ s.devices = devices ∧ s.env = env)
    ∧ State.reset = State.powerOn Env.open []

/-- Before the first INIT every legal request but INIT is NOT_BOUND, whatever else the state holds, and nothing else changes; right
after block reset no INIT has bound the engine (70_reset_and_hazards.md rule R401, 60_exceptions.md rule R351). -/
def Obligations.FirstRequestMustBeInit : Prop :=
  (∀ (i : Instr) (s : State), i.isRequest = true → (∀ pin, i ≠ .init pin) → s.bound = false → s.fault = .none → s.busy = false →
    exec i s = .next { s with fault := .notBound, faultWord := requestWord i })
    ∧ (∀ (s t : State), hostTurn .blockReset s = .next t → t.bound = false ∧ t.fault = .none ∧ t.busy = false)
    ∧ ∀ (env : Env) (devices : List Device), (State.powerOn env devices).bound = false
      ∧ (State.powerOn env devices).fault = .none ∧ (State.powerOn env devices).busy = false

/-! ### Wire commands: what a device does with its command byte (45_reference_device.md) -/

/-- Rule R313: when WAIT_ROM has 8 bits the device decodes them, whatever their slots' times; a byte of no ROM command leads to
UNKNOWN. Nothing else of the device changes but the end of its last slot. -/
def Obligations.RomCommandTable : Prop :=
  ∀ (x : Ds18b20) (ends : Nat → Nat) (v : Byte), x.copying = false → x.pos = .waitRom 0 0 →
    x.receiveBits ends (bitsOf [v]) =
      { x with
        slotEnd := ends 7
        pos := if v = 0x33 then .tx .rom 0 else if v = 0x55 then .matching 0 true else if v = 0xCC then .waitFn 0 0
          else if v = 0xEC ∨ v = 0xF0 then .search else .unknown }

/-- Rules R319 to R326: when WAIT_FN has 8 bits the device takes the function command; a conversion or a commit runs from the end
of the command's last slot for a time within its bound. -/
def Obligations.FunctionCommandTable : Prop :=
  ∀ (x : Ds18b20) (ends : Nat → Nat) (v : Byte), x.copying = false → x.pos = .waitFn 0 0 →
    ∃ y, x.receiveBits ends (bitsOf [v]) = y ∧ y.rom = x.rom ∧ y.power = x.power ∧ y.ee = x.ee ∧ y.slotEnd = ends 7
      ∧ y.pos = (if v = 0x4E then .rxWsp 0 0 else if v = 0xBE then .tx .scratchpad 0 else if v = 0xB4 then .tx .power 0
          else if v = 0x44 ∨ v = 0x48 ∨ v = 0xB8 then .ignore else .unknown)
      ∧ y.sp = (if v = 0xB8 then { x.sp with th := x.ee.th, tl := x.ee.tl, config := x.ee.cfg } else x.sp)
      ∧ (v = 0x44 → ∃ c raw, 0 < c ∧ c ≤ 750000 ∧ y.act = .converting (ends 7 + c) raw ∧ ∀ r, x.script.raw = some r → raw = r)
      ∧ (v = 0x48 → ∃ e, 0 < e ∧ e ≤ 10000 ∧ y.act = .copying (ends 7 + e))
      ∧ (v ≠ 0x44 → v ≠ 0x48 → y.act = x.act)

/-- The five ROM-command bytes as instructions: a device that holds the byte in WAIT_ROM goes where rule R313 says, one that holds
it in WAIT_FN to UNKNOWN (rule R326), and nothing else changes. That they are instructions of their own is the model's choice (log
entry 11). -/
def Obligations.RomCommandInstructions : Prop :=
  ∀ (i : Instr) (next : Pos) (s : State),
    (i, next) ∈ [(Instr.wReadRom, Pos.tx .rom 0), (.wMatchRom, .matching 0 true), (.wSkipRom, .waitFn 0 0),
      (.wAlarmSearch, .search), (.wSearchRom, .search)] →
    ∃ ds : List Device, exec i s = .next { s with devices := ds } ∧ ds.length = s.devices.length
      ∧ ∀ (k : Nat) (d : Device), s.devices[k]? = some d →
        (∀ x acc n, d.kind = .ds18b20 x → x.pos = .waitRom acc n → 8 ≤ n → acc = opByte i →
          ds[k]? = some { d with kind := .ds18b20 { x with pos := next } })
        ∧ (∀ x acc n, d.kind = .ds18b20 x → x.pos = .waitFn acc n → 8 ≤ n → acc = opByte i →
          ds[k]? = some { d with kind := .ds18b20 { x with pos := .unknown } })
        ∧ (d.command? ≠ some (opByte i) → ds[k]? = some d)

/-- The six function-command bytes as instructions: a device that holds the byte in WAIT_FN takes the command (rules R319 to
R325), one that holds it in WAIT_ROM goes to UNKNOWN (rule R313), and nothing else changes. That they are instructions of their
own is the model's choice (log entry 11). -/
def Obligations.FunctionCommandInstructions : Prop :=
  ∀ (i : Instr) (next : Pos) (s : State),
    (i, next) ∈ [(Instr.wConvertT, Pos.ignore), (.wWriteScratchpad, .rxWsp 0 0), (.wReadScratchpad, .tx .scratchpad 0),
      (.wCopyScratchpad, .ignore), (.wRecallEeprom, .ignore), (.wReadPowerSupply, .tx .power 0)] →
    ∃ ds : List Device, exec i s = .next { s with devices := ds } ∧ ds.length = s.devices.length
      ∧ ∀ (k : Nat) (d : Device), s.devices[k]? = some d →
        (∀ x acc n, d.kind = .ds18b20 x → x.pos = .waitFn acc n → 8 ≤ n → acc = opByte i →
          ∃ y, ds[k]? = some { d with kind := .ds18b20 y } ∧ y.pos = next ∧ y.rom = x.rom ∧ y.power = x.power ∧ y.ee = x.ee
            ∧ y.slotEnd = x.slotEnd
            ∧ y.sp = (if i = .wRecallEeprom then { x.sp with th := x.ee.th, tl := x.ee.tl, config := x.ee.cfg } else x.sp)
            ∧ (i = .wConvertT → ∃ c raw, 0 < c ∧ c ≤ 750000 ∧ y.act = .converting (x.slotEnd + c) raw)
            ∧ (i = .wCopyScratchpad → ∃ e, 0 < e ∧ e ≤ 10000 ∧ y.act = .copying (x.slotEnd + e))
            ∧ (i ≠ .wConvertT → i ≠ .wCopyScratchpad → y.act = x.act))
        ∧ (∀ x acc n, d.kind = .ds18b20 x → x.pos = .waitRom acc n → 8 ≤ n → acc = opByte i →
          ds[k]? = some { d with kind := .ds18b20 { x with pos := .unknown } })
        ∧ (d.command? ≠ some (opByte i) → ds[k]? = some d)

/-- Rule R316: the device compares each received bit with its ROM, and after 64 bits it is selected when all matched and ignores
the rest otherwise. -/
def Obligations.MatchRomSelects : Prop :=
  ∀ (x : Ds18b20) (ends : Nat → Nat) (r : Rom), x.copying = false → x.pos = .matching 0 true →
    x.receiveBits ends (bitsOf r.toList) = { x with slotEnd := ends 63, pos := if r = x.rom then .waitFn 0 0 else .ignore }

/-- Rule R319: Write Scratchpad stores each byte when its eighth bit arrives, and nothing of a byte cut short; the temperature
bytes stay. -/
def Obligations.WriteScratchpadStores : Prop :=
  ∀ (x : Ds18b20) (ends : Nat → Nat) (th tl cfg : Byte) (n : Nat), x.copying = false → x.pos = .rxWsp 0 0 → n ≤ 24 →
    ∃ y, x.receiveBits ends ((bitsOf [th, tl, cfg]).take n) = y ∧ y.ee = x.ee ∧ y.act = x.act
      ∧ y.sp = { x.sp with
          th := if 8 ≤ n then th else x.sp.th
          tl := if 16 ≤ n then tl else x.sp.tl
          config := if 24 ≤ n then cfg else x.sp.config }
      ∧ (n = 24 → y.pos = .ignore)

/-- What completes as time passes: a conversion stores its temperature and a commit copies TH, TL and CONFIG, each at its time
and not before; nothing else of the device changes (rules R322, R323). -/
def Obligations.ActivityCompletes : Prop :=
  ∀ (x : Ds18b20) (n m : Nat) (raw : BitVec 16),
    (x.act = .converting m raw → x.settle n = if m ≤ n
      then { x with act := .none, sp := { x.sp with tempLsb := raw.extractLsb' 0 8, tempMsb := raw.extractLsb' 8 8 } } else x)
    ∧ (x.act = .copying m → x.settle n = if m ≤ n
      then { x with act := .none, ee := { th := x.sp.th, tl := x.sp.tl, cfg := x.sp.config } } else x)
    ∧ (x.act = .none → x.settle n = x)

/-- Rules R307 to R309: the line has been low since `start`, and the engine releases it. A device takes a low period of 480 µs or
more as a reset and answers with presence from 30 to 150 µs after the edge. Of a shorter one, when no device holds the line, a
DS18B20 outside its presence window takes a slot, whose bit is 1 when it is shorter than 15 µs, and one inside it takes none. While
a device holds the line the low period goes on, also where the engine drives the line again, and it ends as a reset or a slot when
the last device stops at `r`. These are the model's choice: the low period of a line that was low already counts from its start
(log entry 14); the slot ends 71 µs after the falling edge, or at the rise if that is later (log entry 15); a device that commits at
the fall and no more at the rise moves as usual (log entry 35); the low period ends at the rise, whatever drives the line again
in that microsecond, and one of 0 µs is a slot too (log entry 36). -/
def Obligations.LowPeriodIsResetOrSlot : Prop :=
  ∀ (s : State) (start k : Nat) (d : Device), s.lineLow = some start → start ≤ s.now → s.devices[k]? = some d → d.pin = s.pin →
    ((setLineLow s).lineLow = some start ∧ (setLineLow s).devices = s.devices)
    ∧ (start + 480 ≤ s.now → (releaseLine s).lineLow = none ∧ ∃ e, (releaseLine s).devices[k]? = some e
      ∧ (∀ n, s.now ≤ n → (e.drivesLow n = true ↔ s.now + 30 ≤ n ∧ n < s.now + 150))
      ∧ ∀ x, d.kind = .ds18b20 x → e.kind = .ds18b20 { x with pos := .waitRom 0 0 })
    ∧ (s.now < start + 480 → (∀ e ∈ s.devices, e.pin = s.pin → e.drivesLow s.now = false) →
      (releaseLine s).lineLow = none
      ∧ ((∃ e, d.presence = some e ∧ e + 30 < s.now ∧ start < e + 150) → (releaseLine s).devices[k]? = some d)
      ∧ ((∀ e, d.presence = some e → s.now ≤ e + 30 ∨ e + 150 ≤ start) → ∀ x, d.kind = .ds18b20 x →
        (releaseLine s).devices[k]? = some { d with
          kind := .ds18b20 (x.slot (max (start + 71) s.now) (decide (s.now < start + 15))) }))
    ∧ (s.now < start + 480 → (∃ e ∈ s.devices, e.pin = s.pin ∧ e.drivesLow s.now = true) →
      (releaseLine s).lineLow = some start ∧ (releaseLine s).devices = s.devices
      ∧ ∀ r, s.now < r → (∀ e ∈ s.devices, e.pin = s.pin → e.drivesLow r = false) →
        (∀ m, s.now ≤ m → m < r → ∃ e ∈ s.devices, e.pin = s.pin ∧ e.drivesLow m = true) →
        (∀ m, s.now ≤ m → m < r → (passTo m (releaseLine s)).lineLow = some start)
        ∧ (passTo r (releaseLine s)).lineLow = none
        ∧ ∀ x, d.kind = .ds18b20 x →
          (start + 480 ≤ r → ∃ e, (passTo r (releaseLine s)).devices[k]? = some e ∧ e.presence = some r
            ∧ e.kind = .ds18b20 { x.settle r with pos := .waitRom 0 0 })
          ∧ (r < start + 480 → (∀ e, d.presence = some e → r ≤ e + 30 ∨ e + 150 ≤ start) →
            (passTo r (releaseLine s)).devices[k]? = some { d with
              kind := .ds18b20 ((x.settle r).slot (max (start + 71) r) (decide (r < start + 15))) })
          ∧ (r < start + 480 → (∃ e, d.presence = some e ∧ e + 30 < r ∧ start < e + 150) →
            (passTo r (releaseLine s)).devices[k]? = some { d with kind := .ds18b20 (x.settle r) }))

/-- Rule R311: in the slot that falls at `n`, once its presence pulse is over, a device that sends 0 drives the line low from there
to 45 µs after it, and one that sends 1, or that receives, drives nothing. -/
def Obligations.SendingDeviceHoldsZero : Prop :=
  ∀ (d : Device) (x : Ds18b20) (n u : Nat), d.kind = .ds18b20 x → x.copying = false →
    (∀ e, d.presence = some e → e + 150 ≤ n) → n ≤ u →
    (∀ k, x.pos = .tx .rom k → ((d.fall n).drivesLow u = true ↔ romBit x.rom k = false ∧ u < n + 45))
    ∧ (∀ k, x.pos = .tx .power k → ((d.fall n).drivesLow u = true ↔ x.power = .parasite ∧ u < n + 45))
    ∧ (∀ k, x.pos = .tx .scratchpad k → x.converting = false ∨ (16 ≤ k ∧ k < 64) →
        ((d.fall n).drivesLow u = true ↔ (x.spByte (k / 8)).getLsbD (k % 8) = false ∧ u < n + 45))
    ∧ ((∃ acc k, x.pos = .waitRom acc k ∨ x.pos = .waitFn acc k) ∨ (∃ k ok, x.pos = .matching k ok)
        ∨ (∃ acc k, x.pos = .rxWsp acc k) ∨ x.pos = .ignore → (d.fall n).drivesLow u = false)

/-! ### The engine and the devices together -/

/-- RESET_PULSE answers OK with BIT_OUT = 1 when a device is on the line, and NO_PRESENCE with BIT_OUT = 0 when none is, in the
reference environment (41_bus_driver.md rule R186, 45_reference_device.md rule R336). -/
def Obligations.PresenceMeansADevice : Prop :=
  ∀ (s : State) (g : Nat), Ready .resetPulse s → ReferenceEnvironment g s → LowPeriodTracked s → LowPeriodBegun s →
    ∃ t, exec .resetPulse s = .next t
      ∧ ((∃ d ∈ s.devices, d.pin = s.pin) → RespondedWith { status := .ok, outputs := .bit (some true) } s t ∧ t.bitOut = some true)
      ∧ ((∀ d ∈ s.devices, d.pin ≠ s.pin) →
          RespondedWith { status := .noPresence, outputs := .bit (some false) } s t ∧ t.bitOut = some false)

/-- With a device on the line every Device Protocol operation executes its whole frame and responds OK, in the reference
environment: the reset, the bytes its rule sends and the slots it reads, each at its time, and then its outputs
(30_encoding.md rules R111, R112, R132, 70_reset_and_hazards.md rule R420). -/
def Obligations.DeviceProtocolCompletesWithADevice : Prop :=
  ∀ (i : Instr) (s : State) (g : Nat), isDeviceProtocol i = true → Ready i s → ReferenceEnvironment g s →
    LowPeriodTracked s → LowPeriodBegun s → (∃ d ∈ s.devices, d.pin = s.pin) →
    ∃ (t : State) (ls : List Level), exec i s = .next t ∧ ls.length = bitsReceived i ∧ HoldsReceived i ls t
      ∧ t.now = s.now + referenceDuration i + gapCount i * g
      ∧ RespondedWith { status := .ok, outputs := responseOutputs i t } s t
      ∧ t.trace = (t.now, .resp { status := .ok, outputs := responseOutputs i t })
          :: (resetEvents (s.now + g) .low
              ++ slotEvents g (s.now + g + 960) (byteSlots (bytesSent s i) ++ ls.map .read)).reverse
          ++ (s.now, .req (requestWord i)) :: s.trace

/-- 41_bus_driver.md rule R200: with the echo device on the line, a written byte reads back the same, for every byte, after the
reset that 45_reference_device.md rule R335 begins with. -/
def Obligations.LoopBack : Prop :=
  ∀ (s : State) (g : Nat) (d : Device) (e : Echo) (v : Byte), Ready .resetPulse s → ReferenceEnvironment g s →
    LowPeriodTracked s → LowPeriodBegun s → s.devices = [d] → d.pin = s.pin → d.kind = .echo e →
    ∃ s1 s2 s3, exec .resetPulse s = .next s1 ∧ exec (.writeByte v) s1 = .next s2 ∧ exec .readByte s2 = .next s3
      ∧ s3.byteOut = some v

/-- With one DS18B20 on the line that is not committing and holds no slot any more, READ_ROM returns its ROM code (42_rom_commands.md rules R235, R237,
45_reference_device.md rule R315). -/
def Obligations.ReadRomReturnsTheRom : Prop :=
  ∀ (s : State) (g : Nat) (d : Device) (x : Ds18b20), Ready .readRom s → ReferenceEnvironment g s → LowPeriodMatchesDrive s →
    LowPeriodBegun s → s.devices = [d] → d.pin = s.pin → d.kind = .ds18b20 x → x.copying = false →
    ∃ t, exec .readRom s = .next t ∧ RespondedWith { status := .ok, outputs := .rom t.romOut } s t
      ∧ ∀ k : Fin 8, memRead t.romOut k = some x.rom[k]

/-- With one DS18B20 on the line that is not committing and holds no slot any more, READ_POWER_SUPPLY with Skip ROM reads 1 for external power and 0 for
parasite power (43_function_commands.md rules R272, R273, 45_reference_device.md rule R325). -/
def Obligations.ReadPowerSupplyTellsThePower : Prop :=
  ∀ (s : State) (g : Nat) (d : Device) (x : Ds18b20), Ready (.readPowerSupply .skipRom) s → ReferenceEnvironment g s →
    LowPeriodMatchesDrive s → LowPeriodBegun s → s.devices = [d] → d.pin = s.pin → d.kind = .ds18b20 x → x.copying = false →
    ∃ t, exec (.readPowerSupply .skipRom) s = .next t ∧ t.bitOut = some (decide (x.power = .ext))
      ∧ RespondedWith { status := .ok, outputs := .bit t.bitOut } s t

/-- With one DS18B20 on the line that is neither committing nor converting and holds no slot any more, WRITE_SCRATCHPAD and then READ_SCRATCHPAD return the written
TH, TL and CONFIG and the old temperature bytes (43_function_commands.md rule R265, 20_memory.md rule R83). -/
def Obligations.ScratchpadRoundTrip : Prop :=
  ∀ (s : State) (g : Nat) (d : Device) (x : Ds18b20) (th tl cfg : Byte), Ready (.writeScratchpad .skipRom) s →
    ReferenceEnvironment g s → LowPeriodMatchesDrive s → LowPeriodBegun s → s.devices = [d] → d.pin = s.pin →
    d.kind = .ds18b20 x → x.act = .none → s.wdata = { th := some th, tl := some tl, cfg := some cfg } →
    ∃ s1 s2, exec (.writeScratchpad .skipRom) s = .next s1 ∧ exec (.readScratchpad .skipRom) s1 = .next s2
      ∧ memRead s2.spOut 2 = some th ∧ memRead s2.spOut 3 = some tl ∧ memRead s2.spOut 4 = some cfg
      ∧ memRead s2.spOut 0 = some x.sp.tempLsb ∧ memRead s2.spOut 1 = some x.sp.tempMsb

/-- With one DS18B20 on the line that is not committing, holds no slot any more and whose sensor shows `raw`, CONVERT_T, a wait of 750 ms and
READ_SCRATCHPAD give the host `raw` as its signed temperature (43_function_commands.md rules R262, R266, R275,
45_reference_device.md rules R304, R321, R322, 70_reset_and_hazards.md rule R411). That the host's wait is exact and that it
receives the temperature in `answer` is the model's choice (log entries 19 and 25). -/
def Obligations.ConversionReachesTheHost : Prop :=
  ∀ (s : State) (g : Nat) (d : Device) (x : Ds18b20) (raw : BitVec 16), Ready (.convertT .skipRom) s →
    ReferenceEnvironment g s → LowPeriodMatchesDrive s → LowPeriodBegun s → s.devices = [d] → d.pin = s.pin →
    d.kind = .ds18b20 x → x.copying = false → x.script.raw = some raw →
    ∃ s1 s2 s3 s4, exec (.convertT .skipRom) s = .next s1 ∧ hostTurn (.waitUs 750000) s1 = .next s2
      ∧ exec (.readScratchpad .skipRom) s2 = .next s3 ∧ hostTurn .readTemperature s3 = .next s4
      ∧ s4.answer = some (.temperature raw.toInt)

/-- A line held low for 480 µs or more by DRIVE_LOW and released is a reset for every DS18B20 on it
(45_reference_device.md rule R330, 70_reset_and_hazards.md rule R412). -/
def Obligations.LongDriveLowIsAReset : Prop :=
  ∀ (s : State) (n : Nat), Ready .driveLow s → LowPeriodTracked s → LowPeriodBegun s → 480 ≤ n →
    ∃ s1 s2 s3, exec .driveLow s = .next s1 ∧ hostTurn (.waitUs n) s1 = .next s2 ∧ exec .release s2 = .next s3
      ∧ ∀ d ∈ s3.devices, d.pin = s3.pin → d.presence = some s3.now
        ∧ ∀ x, d.kind = .ds18b20 x → x.pos = .waitRom 0 0

/-! ### Invariants of every step -/

/-- The invariant holds right after block reset as the first event of a run, in every environment, with any devices that have no
command byte to decode. What the invariant says of `call` is the model's choice (log entries 19 and 37). -/
def Obligations.InvariantHoldsAtReset : Prop :=
  (∀ (env : Env) (devices : List Device), (∀ d ∈ devices, d.command? = none) → Inv (State.powerOn env devices)) ∧ Inv State.reset

/-- Every step keeps the invariant: the trace stays in time order, `upc` is IDLE exactly while no request is in flight and never
exceeds 1210 (70_reset_and_hazards.md rule R421), the working counters stay in their ranges (10_state.md rule R37), a line that
the engine drives low is in a low period, a low period began by now and some driver holds the line low as long as it goes on
(10_state.md rule R40), no request is left in flight without a fault, a request that is in flight or that a fault has stopped
leaves its caller waiting, a caller waits only for a faulted engine, no device is left with a command byte it has not decoded, and no recorded read of the status
view lies in the future (log entry 38).
The two clauses about a caller are the model's choice, and 60_exceptions.md rule R357 is their occasion only, as it says that the host
waits forever: the field `call` is the model's own (log entry 37), and a block reset ends the waiting (log entry 19). -/
def Obligations.StepKeepsTheInvariant : Prop := ∀ s t : State, Inv s → step s = .next t → Inv t

/-- No step changes the environment, or a device's line, ROM code or power mode (10_state.md rule R48, 45_reference_device.md rule
R300); this holds with no invariant. -/
def Obligations.StepKeepsTheEnvironment : Prop :=
  ∀ s t : State, step s = .next t → t.env = s.env ∧ t.identities = s.identities

/-- The clock never goes back, and the trace only grows: what was on it stays (00_scope.md rules R13, R14, 20_memory.md rule
R82); so does the record of the reads of the status view, which is the model's own (log entry 38). -/
def Obligations.TimeAndTraceOnlyGrow : Prop :=
  ∀ s t : State, step s = .next t → s.now ≤ t.now ∧ (∃ es, t.trace = es ++ s.trace) ∧ s.viewed <:+ t.viewed
end

