-- ==== Sys2Proof/Laws/Encoding.lean ====
section
/-! SUPPORT. The encoding laws: fields of a request word, well-formedness of every instruction, and what each operand class of
30_encoding.md rule R101 decodes to. -/

namespace Sys2Proof

/-- The operands' types keep every instruction well formed. -/
theorem Instr.wellFormed_all (i : Instr) : i.WellFormed = true := by
  cases i with
  | init pin => simp [Instr.WellFormed, pin.isLt]
  | writeByte data => simp [Instr.WellFormed, data.isLt]
  | writeBit b => cases b <;> rfl
  | _ => rfl

/-- The fields of a word made of two fields (rule R100). -/
@[simp] theorem opField_opWord (op arg : Byte) : opField (opWord op arg) = op := by
  apply BitVec.eq_of_toNat_eq
  have := op.isLt
  have := arg.isLt
  rw [opField, opWord, BitVec.extractLsb'_toNat, BitVec.toNat_append, Nat.shiftRight_eq_div_pow,
    (Nat.shiftLeft_add_eq_or_of_lt arg.isLt _).symm, Nat.shiftLeft_eq]
  omega

@[simp] theorem argField_opWord (op arg : Byte) : argField (opWord op arg) = arg := by
  apply BitVec.eq_of_toNat_eq
  have := op.isLt
  have := arg.isLt
  rw [argField, opWord, BitVec.extractLsb'_toNat, BitVec.toNat_append, Nat.shiftRight_zero,
    (Nat.shiftLeft_add_eq_or_of_lt arg.isLt _).symm, Nat.shiftLeft_eq]
  omega

/-- A word is its two fields (rule R100). -/
theorem opWord_fields (w : ReqWord) : opWord (opField w) (argField w) = w := by
  apply BitVec.eq_of_toNat_eq
  have := w.isLt
  have ha := (argField w).isLt
  rw [opWord, BitVec.toNat_append, (Nat.shiftLeft_add_eq_or_of_lt ha _).symm, Nat.shiftLeft_eq, opField, argField,
    BitVec.extractLsb'_toNat, BitVec.extractLsb'_toNat, Nat.shiftRight_eq_div_pow, Nat.shiftRight_zero]
  omega

@[simp] theorem opField_requestWord (i : Instr) : opField (requestWord i) = opByte i := by simp [requestWord]
@[simp] theorem argField_requestWord (i : Instr) : argField (requestWord i) = argByte i := by simp [requestWord]

/-- ARG must be 0 (rule R101): when the class accepts the word. -/
theorem argNone_ok {w : ReqWord} {i j : Instr} : argNone w i = .ok j ↔ argField w = 0 ∧ j = i := by
  unfold argNone
  split <;> simp_all [eq_comm]

/-- ARG[0] is the operand and ARG[7:1] is 0 (rule R101): when the class accepts the word. -/
theorem argBit_ok {w : ReqWord} {f : Bool → Instr} {j : Instr} :
    argBit w f = .ok j ↔ (argField w).extractLsb' 1 7 = 0 ∧ j = f ((argField w).getLsbD 0) := by
  unfold argBit
  split <;> simp_all [eq_comm]

@[simp] theorem addressingOf_addressingBit (a : Addressing) : addressingOf (addressingBit a) = a := by cases a <;> rfl
@[simp] theorem addressingBit_addressingOf (a : Bool) : addressingBit (addressingOf a) = a := by cases a <;> rfl

/-- ARG with its upper bits 0 is its lowest bit. -/
theorem arg_of_bit {arg : Byte} (h : arg.extractLsb' 1 7 = 0) : arg = if arg.getLsbD 0 then 1 else 0 := by
  have key : ∀ a : Byte, a.extractLsb' 1 7 = 0 → a = if a.getLsbD 0 then 1 else 0 := by decide
  exact key arg h

end Sys2Proof
end

