-- ==== Sys2Proof/Laws/State.lean ====
section
/-! SUPPORT. Beside State: for each update of the state, one lemma per field, true by unfolding the record update once, so that
no later proof unfolds it. A field that an update writes has the lemma that says what it writes. -/

namespace Sys2Proof.Machine


/-! ### State.emit -/

@[simp] theorem State.emit_bound (e : Event) (s : State) : (s.emit e).bound = s.bound := rfl
@[simp] theorem State.emit_pin (e : Event) (s : State) : (s.emit e).pin = s.pin := rfl
@[simp] theorem State.emit_drive (e : Event) (s : State) : (s.emit e).drive = s.drive := rfl
@[simp] theorem State.emit_busy (e : Event) (s : State) : (s.emit e).busy = s.busy := rfl
@[simp] theorem State.emit_upc (e : Event) (s : State) : (s.emit e).upc = s.upc := rfl
@[simp] theorem State.emit_fault (e : Event) (s : State) : (s.emit e).fault = s.fault := rfl
@[simp] theorem State.emit_faultWord (e : Event) (s : State) : (s.emit e).faultWord = s.faultWord := rfl
@[simp] theorem State.emit_shift (e : Event) (s : State) : (s.emit e).shift = s.shift := rfl
@[simp] theorem State.emit_bitcnt (e : Event) (s : State) : (s.emit e).bitcnt = s.bitcnt := rfl
@[simp] theorem State.emit_byteidx (e : Event) (s : State) : (s.emit e).byteidx = s.byteidx := rfl
@[simp] theorem State.emit_pres (e : Event) (s : State) : (s.emit e).pres = s.pres := rfl
@[simp] theorem State.emit_smpl (e : Event) (s : State) : (s.emit e).smpl = s.smpl := rfl
@[simp] theorem State.emit_copyUntil (e : Event) (s : State) : (s.emit e).copyUntil = s.copyUntil := rfl
@[simp] theorem State.emit_rstat (e : Event) (s : State) : (s.emit e).rstat = s.rstat := rfl
@[simp] theorem State.emit_irqMasked (e : Event) (s : State) : (s.emit e).irqMasked = s.irqMasked := rfl
@[simp] theorem State.emit_critStack (e : Event) (s : State) : (s.emit e).critStack = s.critStack := rfl
@[simp] theorem State.emit_romIn (e : Event) (s : State) : (s.emit e).romIn = s.romIn := rfl
@[simp] theorem State.emit_wdata (e : Event) (s : State) : (s.emit e).wdata = s.wdata := rfl
@[simp] theorem State.emit_romOut (e : Event) (s : State) : (s.emit e).romOut = s.romOut := rfl
@[simp] theorem State.emit_spOut (e : Event) (s : State) : (s.emit e).spOut = s.spOut := rfl
@[simp] theorem State.emit_bitOut (e : Event) (s : State) : (s.emit e).bitOut = s.bitOut := rfl
@[simp] theorem State.emit_byteOut (e : Event) (s : State) : (s.emit e).byteOut = s.byteOut := rfl
@[simp] theorem State.emit_now (e : Event) (s : State) : (s.emit e).now = s.now := rfl
@[simp] theorem State.emit_trace (e : Event) (s : State) : (s.emit e).trace = (s.now, e) :: s.trace := rfl
@[simp] theorem State.emit_lineLow (e : Event) (s : State) : (s.emit e).lineLow = s.lineLow := rfl
@[simp] theorem State.emit_devices (e : Event) (s : State) : (s.emit e).devices = s.devices := rfl
@[simp] theorem State.emit_env (e : Event) (s : State) : (s.emit e).env = s.env := rfl
@[simp] theorem State.emit_inbox (e : Event) (s : State) : (s.emit e).inbox = s.inbox := rfl
@[simp] theorem State.emit_intruders (e : Event) (s : State) : (s.emit e).intruders = s.intruders := rfl
@[simp] theorem State.emit_resetsAt (e : Event) (s : State) : (s.emit e).resetsAt = s.resetsAt := rfl
@[simp] theorem State.emit_draws (e : Event) (s : State) : (s.emit e).draws = s.draws := rfl
@[simp] theorem State.emit_answer (e : Event) (s : State) : (s.emit e).answer = s.answer := rfl
@[simp] theorem State.emit_call (e : Event) (s : State) : (s.emit e).call = s.call := rfl
@[simp] theorem State.emit_viewReads (e : Event) (s : State) : (s.emit e).viewReads = s.viewReads := rfl
@[simp] theorem State.emit_viewed (e : Event) (s : State) : (s.emit e).viewed = s.viewed := rfl

/-! ### State.count -/

@[simp] theorem State.count_bound (s : State) : (s.count).bound = s.bound := rfl
@[simp] theorem State.count_pin (s : State) : (s.count).pin = s.pin := rfl
@[simp] theorem State.count_drive (s : State) : (s.count).drive = s.drive := rfl
@[simp] theorem State.count_busy (s : State) : (s.count).busy = s.busy := rfl
@[simp] theorem State.count_upc (s : State) : (s.count).upc = if s.running then s.upc.bump else s.upc := rfl
@[simp] theorem State.count_fault (s : State) : (s.count).fault = s.fault := rfl
@[simp] theorem State.count_faultWord (s : State) : (s.count).faultWord = s.faultWord := rfl
@[simp] theorem State.count_shift (s : State) : (s.count).shift = s.shift := rfl
@[simp] theorem State.count_bitcnt (s : State) : (s.count).bitcnt = s.bitcnt := rfl
@[simp] theorem State.count_byteidx (s : State) : (s.count).byteidx = s.byteidx := rfl
@[simp] theorem State.count_pres (s : State) : (s.count).pres = s.pres := rfl
@[simp] theorem State.count_smpl (s : State) : (s.count).smpl = s.smpl := rfl
@[simp] theorem State.count_copyUntil (s : State) : (s.count).copyUntil = s.copyUntil := rfl
@[simp] theorem State.count_rstat (s : State) : (s.count).rstat = s.rstat := rfl
@[simp] theorem State.count_irqMasked (s : State) : (s.count).irqMasked = s.irqMasked := rfl
@[simp] theorem State.count_critStack (s : State) : (s.count).critStack = s.critStack := rfl
@[simp] theorem State.count_romIn (s : State) : (s.count).romIn = s.romIn := rfl
@[simp] theorem State.count_wdata (s : State) : (s.count).wdata = s.wdata := rfl
@[simp] theorem State.count_romOut (s : State) : (s.count).romOut = s.romOut := rfl
@[simp] theorem State.count_spOut (s : State) : (s.count).spOut = s.spOut := rfl
@[simp] theorem State.count_bitOut (s : State) : (s.count).bitOut = s.bitOut := rfl
@[simp] theorem State.count_byteOut (s : State) : (s.count).byteOut = s.byteOut := rfl
@[simp] theorem State.count_now (s : State) : (s.count).now = s.now := rfl
@[simp] theorem State.count_trace (s : State) : (s.count).trace = s.trace := rfl
@[simp] theorem State.count_lineLow (s : State) : (s.count).lineLow = s.lineLow := rfl
@[simp] theorem State.count_devices (s : State) : (s.count).devices = s.devices := rfl
@[simp] theorem State.count_env (s : State) : (s.count).env = s.env := rfl
@[simp] theorem State.count_inbox (s : State) : (s.count).inbox = s.inbox := rfl
@[simp] theorem State.count_intruders (s : State) : (s.count).intruders = s.intruders := rfl
@[simp] theorem State.count_resetsAt (s : State) : (s.count).resetsAt = s.resetsAt := rfl
@[simp] theorem State.count_draws (s : State) : (s.count).draws = s.draws := rfl
@[simp] theorem State.count_answer (s : State) : (s.count).answer = s.answer := rfl
@[simp] theorem State.count_call (s : State) : (s.count).call = s.call := rfl
@[simp] theorem State.count_viewReads (s : State) : (s.count).viewReads = s.viewReads := rfl
@[simp] theorem State.count_viewed (s : State) : (s.count).viewed = s.viewed := rfl

/-! ### settleTo -/

@[simp] theorem settleTo_bound (t : Nat) (s : State) : (settleTo t s).bound = s.bound := rfl
@[simp] theorem settleTo_pin (t : Nat) (s : State) : (settleTo t s).pin = s.pin := rfl
@[simp] theorem settleTo_drive (t : Nat) (s : State) : (settleTo t s).drive = s.drive := rfl
@[simp] theorem settleTo_busy (t : Nat) (s : State) : (settleTo t s).busy = s.busy := rfl
@[simp] theorem settleTo_upc (t : Nat) (s : State) : (settleTo t s).upc = s.upc := rfl
@[simp] theorem settleTo_fault (t : Nat) (s : State) : (settleTo t s).fault = s.fault := rfl
@[simp] theorem settleTo_faultWord (t : Nat) (s : State) : (settleTo t s).faultWord = s.faultWord := rfl
@[simp] theorem settleTo_shift (t : Nat) (s : State) : (settleTo t s).shift = s.shift := rfl
@[simp] theorem settleTo_bitcnt (t : Nat) (s : State) : (settleTo t s).bitcnt = s.bitcnt := rfl
@[simp] theorem settleTo_byteidx (t : Nat) (s : State) : (settleTo t s).byteidx = s.byteidx := rfl
@[simp] theorem settleTo_pres (t : Nat) (s : State) : (settleTo t s).pres = s.pres := rfl
@[simp] theorem settleTo_smpl (t : Nat) (s : State) : (settleTo t s).smpl = s.smpl := rfl
@[simp] theorem settleTo_copyUntil (t : Nat) (s : State) : (settleTo t s).copyUntil = s.copyUntil := rfl
@[simp] theorem settleTo_rstat (t : Nat) (s : State) : (settleTo t s).rstat = s.rstat := rfl
@[simp] theorem settleTo_irqMasked (t : Nat) (s : State) : (settleTo t s).irqMasked = s.irqMasked := rfl
@[simp] theorem settleTo_critStack (t : Nat) (s : State) : (settleTo t s).critStack = s.critStack := rfl
@[simp] theorem settleTo_romIn (t : Nat) (s : State) : (settleTo t s).romIn = s.romIn := rfl
@[simp] theorem settleTo_wdata (t : Nat) (s : State) : (settleTo t s).wdata = s.wdata := rfl
@[simp] theorem settleTo_romOut (t : Nat) (s : State) : (settleTo t s).romOut = s.romOut := rfl
@[simp] theorem settleTo_spOut (t : Nat) (s : State) : (settleTo t s).spOut = s.spOut := rfl
@[simp] theorem settleTo_bitOut (t : Nat) (s : State) : (settleTo t s).bitOut = s.bitOut := rfl
@[simp] theorem settleTo_byteOut (t : Nat) (s : State) : (settleTo t s).byteOut = s.byteOut := rfl
@[simp] theorem settleTo_now (t : Nat) (s : State) : (settleTo t s).now = t := rfl
@[simp] theorem settleTo_trace (t : Nat) (s : State) : (settleTo t s).trace = s.trace := rfl
@[simp] theorem settleTo_lineLow (t : Nat) (s : State) : (settleTo t s).lineLow = s.lineLow := rfl
@[simp] theorem settleTo_devices (t : Nat) (s : State) : (settleTo t s).devices = s.devices.map (Device.settle t) := rfl
@[simp] theorem settleTo_env (t : Nat) (s : State) : (settleTo t s).env = s.env := rfl
@[simp] theorem settleTo_inbox (t : Nat) (s : State) : (settleTo t s).inbox = s.inbox := rfl
@[simp] theorem settleTo_intruders (t : Nat) (s : State) : (settleTo t s).intruders = s.intruders := rfl
@[simp] theorem settleTo_resetsAt (t : Nat) (s : State) : (settleTo t s).resetsAt = s.resetsAt := rfl
@[simp] theorem settleTo_draws (t : Nat) (s : State) : (settleTo t s).draws = s.draws := rfl
@[simp] theorem settleTo_answer (t : Nat) (s : State) : (settleTo t s).answer = s.answer := rfl
@[simp] theorem settleTo_call (t : Nat) (s : State) : (settleTo t s).call = s.call := rfl
@[simp] theorem settleTo_viewReads (t : Nat) (s : State) : (settleTo t s).viewReads = s.viewReads := rfl
@[simp] theorem settleTo_viewed (t : Nat) (s : State) : (settleTo t s).viewed = s.viewed := rfl

/-! ### State.onLine -/

@[simp] theorem State.onLine_bound (f : Device → Device) (s : State) : (s.onLine f).bound = s.bound := rfl
@[simp] theorem State.onLine_pin (f : Device → Device) (s : State) : (s.onLine f).pin = s.pin := rfl
@[simp] theorem State.onLine_drive (f : Device → Device) (s : State) : (s.onLine f).drive = s.drive := rfl
@[simp] theorem State.onLine_busy (f : Device → Device) (s : State) : (s.onLine f).busy = s.busy := rfl
@[simp] theorem State.onLine_upc (f : Device → Device) (s : State) : (s.onLine f).upc = s.upc := rfl
@[simp] theorem State.onLine_fault (f : Device → Device) (s : State) : (s.onLine f).fault = s.fault := rfl
@[simp] theorem State.onLine_faultWord (f : Device → Device) (s : State) : (s.onLine f).faultWord = s.faultWord := rfl
@[simp] theorem State.onLine_shift (f : Device → Device) (s : State) : (s.onLine f).shift = s.shift := rfl
@[simp] theorem State.onLine_bitcnt (f : Device → Device) (s : State) : (s.onLine f).bitcnt = s.bitcnt := rfl
@[simp] theorem State.onLine_byteidx (f : Device → Device) (s : State) : (s.onLine f).byteidx = s.byteidx := rfl
@[simp] theorem State.onLine_pres (f : Device → Device) (s : State) : (s.onLine f).pres = s.pres := rfl
@[simp] theorem State.onLine_smpl (f : Device → Device) (s : State) : (s.onLine f).smpl = s.smpl := rfl
@[simp] theorem State.onLine_copyUntil (f : Device → Device) (s : State) : (s.onLine f).copyUntil = s.copyUntil := rfl
@[simp] theorem State.onLine_rstat (f : Device → Device) (s : State) : (s.onLine f).rstat = s.rstat := rfl
@[simp] theorem State.onLine_irqMasked (f : Device → Device) (s : State) : (s.onLine f).irqMasked = s.irqMasked := rfl
@[simp] theorem State.onLine_critStack (f : Device → Device) (s : State) : (s.onLine f).critStack = s.critStack := rfl
@[simp] theorem State.onLine_romIn (f : Device → Device) (s : State) : (s.onLine f).romIn = s.romIn := rfl
@[simp] theorem State.onLine_wdata (f : Device → Device) (s : State) : (s.onLine f).wdata = s.wdata := rfl
@[simp] theorem State.onLine_romOut (f : Device → Device) (s : State) : (s.onLine f).romOut = s.romOut := rfl
@[simp] theorem State.onLine_spOut (f : Device → Device) (s : State) : (s.onLine f).spOut = s.spOut := rfl
@[simp] theorem State.onLine_bitOut (f : Device → Device) (s : State) : (s.onLine f).bitOut = s.bitOut := rfl
@[simp] theorem State.onLine_byteOut (f : Device → Device) (s : State) : (s.onLine f).byteOut = s.byteOut := rfl
@[simp] theorem State.onLine_now (f : Device → Device) (s : State) : (s.onLine f).now = s.now := rfl
@[simp] theorem State.onLine_trace (f : Device → Device) (s : State) : (s.onLine f).trace = s.trace := rfl
@[simp] theorem State.onLine_lineLow (f : Device → Device) (s : State) : (s.onLine f).lineLow = s.lineLow := rfl
@[simp] theorem State.onLine_devices (f : Device → Device) (s : State) : (s.onLine f).devices = s.devices.map (fun d => if d.pin = s.pin then f d else d) := rfl
@[simp] theorem State.onLine_env (f : Device → Device) (s : State) : (s.onLine f).env = s.env := rfl
@[simp] theorem State.onLine_inbox (f : Device → Device) (s : State) : (s.onLine f).inbox = s.inbox := rfl
@[simp] theorem State.onLine_intruders (f : Device → Device) (s : State) : (s.onLine f).intruders = s.intruders := rfl
@[simp] theorem State.onLine_resetsAt (f : Device → Device) (s : State) : (s.onLine f).resetsAt = s.resetsAt := rfl
@[simp] theorem State.onLine_draws (f : Device → Device) (s : State) : (s.onLine f).draws = s.draws := rfl
@[simp] theorem State.onLine_answer (f : Device → Device) (s : State) : (s.onLine f).answer = s.answer := rfl
@[simp] theorem State.onLine_call (f : Device → Device) (s : State) : (s.onLine f).call = s.call := rfl
@[simp] theorem State.onLine_viewReads (f : Device → Device) (s : State) : (s.onLine f).viewReads = s.viewReads := rfl
@[simp] theorem State.onLine_viewed (f : Device → Device) (s : State) : (s.onLine f).viewed = s.viewed := rfl

/-! ### respond -/

@[simp] theorem respond_bound (r : Response) (s : State) : (respond r s).bound = s.bound := rfl
@[simp] theorem respond_pin (r : Response) (s : State) : (respond r s).pin = s.pin := rfl
@[simp] theorem respond_drive (r : Response) (s : State) : (respond r s).drive = s.drive := rfl
@[simp] theorem respond_busy (r : Response) (s : State) : (respond r s).busy = false := rfl
@[simp] theorem respond_upc (r : Response) (s : State) : (respond r s).upc = .idle := rfl
@[simp] theorem respond_fault (r : Response) (s : State) : (respond r s).fault = s.fault := rfl
@[simp] theorem respond_faultWord (r : Response) (s : State) : (respond r s).faultWord = s.faultWord := rfl
@[simp] theorem respond_shift (r : Response) (s : State) : (respond r s).shift = s.shift := rfl
@[simp] theorem respond_bitcnt (r : Response) (s : State) : (respond r s).bitcnt = s.bitcnt := rfl
@[simp] theorem respond_byteidx (r : Response) (s : State) : (respond r s).byteidx = s.byteidx := rfl
@[simp] theorem respond_pres (r : Response) (s : State) : (respond r s).pres = s.pres := rfl
@[simp] theorem respond_smpl (r : Response) (s : State) : (respond r s).smpl = s.smpl := rfl
@[simp] theorem respond_copyUntil (r : Response) (s : State) : (respond r s).copyUntil = s.copyUntil := rfl
@[simp] theorem respond_rstat (r : Response) (s : State) : (respond r s).rstat = .last r.status := rfl
@[simp] theorem respond_irqMasked (r : Response) (s : State) : (respond r s).irqMasked = s.irqMasked := rfl
@[simp] theorem respond_critStack (r : Response) (s : State) : (respond r s).critStack = s.critStack := rfl
@[simp] theorem respond_romIn (r : Response) (s : State) : (respond r s).romIn = s.romIn := rfl
@[simp] theorem respond_wdata (r : Response) (s : State) : (respond r s).wdata = s.wdata := rfl
@[simp] theorem respond_romOut (r : Response) (s : State) : (respond r s).romOut = s.romOut := rfl
@[simp] theorem respond_spOut (r : Response) (s : State) : (respond r s).spOut = s.spOut := rfl
@[simp] theorem respond_bitOut (r : Response) (s : State) : (respond r s).bitOut = s.bitOut := rfl
@[simp] theorem respond_byteOut (r : Response) (s : State) : (respond r s).byteOut = s.byteOut := rfl
@[simp] theorem respond_now (r : Response) (s : State) : (respond r s).now = s.now := rfl
@[simp] theorem respond_trace (r : Response) (s : State) : (respond r s).trace = (s.now, .resp r) :: s.trace := rfl
@[simp] theorem respond_lineLow (r : Response) (s : State) : (respond r s).lineLow = s.lineLow := rfl
@[simp] theorem respond_devices (r : Response) (s : State) : (respond r s).devices = s.devices := rfl
@[simp] theorem respond_env (r : Response) (s : State) : (respond r s).env = s.env := rfl
@[simp] theorem respond_inbox (r : Response) (s : State) : (respond r s).inbox = s.inbox := rfl
@[simp] theorem respond_intruders (r : Response) (s : State) : (respond r s).intruders = s.intruders := rfl
@[simp] theorem respond_resetsAt (r : Response) (s : State) : (respond r s).resetsAt = s.resetsAt := rfl
@[simp] theorem respond_draws (r : Response) (s : State) : (respond r s).draws = s.draws := rfl
@[simp] theorem respond_answer (r : Response) (s : State) : (respond r s).answer = s.answer := rfl
@[simp] theorem respond_call (r : Response) (s : State) : (respond r s).call = .answered := rfl
@[simp] theorem respond_viewReads (r : Response) (s : State) : (respond r s).viewReads = s.viewReads := rfl
@[simp] theorem respond_viewed (r : Response) (s : State) : (respond r s).viewed = s.viewed := rfl

/-! ### accept -/

@[simp] theorem accept_bound (op : Instr) (s : State) : (accept op s).bound = s.bound := rfl
@[simp] theorem accept_pin (op : Instr) (s : State) : (accept op s).pin = s.pin := rfl
@[simp] theorem accept_drive (op : Instr) (s : State) : (accept op s).drive = s.drive := rfl
@[simp] theorem accept_busy (op : Instr) (s : State) : (accept op s).busy = true := rfl
@[simp] theorem accept_upc (op : Instr) (s : State) : (accept op s).upc = .running op 0 := rfl
@[simp] theorem accept_fault (op : Instr) (s : State) : (accept op s).fault = s.fault := rfl
@[simp] theorem accept_faultWord (op : Instr) (s : State) : (accept op s).faultWord = s.faultWord := rfl
@[simp] theorem accept_shift (op : Instr) (s : State) : (accept op s).shift = s.shift := rfl
@[simp] theorem accept_bitcnt (op : Instr) (s : State) : (accept op s).bitcnt = s.bitcnt := rfl
@[simp] theorem accept_byteidx (op : Instr) (s : State) : (accept op s).byteidx = s.byteidx := rfl
@[simp] theorem accept_pres (op : Instr) (s : State) : (accept op s).pres = s.pres := rfl
@[simp] theorem accept_smpl (op : Instr) (s : State) : (accept op s).smpl = s.smpl := rfl
@[simp] theorem accept_copyUntil (op : Instr) (s : State) : (accept op s).copyUntil = s.copyUntil := rfl
@[simp] theorem accept_rstat (op : Instr) (s : State) : (accept op s).rstat = s.rstat := rfl
@[simp] theorem accept_irqMasked (op : Instr) (s : State) : (accept op s).irqMasked = s.irqMasked := rfl
@[simp] theorem accept_critStack (op : Instr) (s : State) : (accept op s).critStack = s.critStack := rfl
@[simp] theorem accept_romIn (op : Instr) (s : State) : (accept op s).romIn = s.romIn := rfl
@[simp] theorem accept_wdata (op : Instr) (s : State) : (accept op s).wdata = s.wdata := rfl
@[simp] theorem accept_romOut (op : Instr) (s : State) : (accept op s).romOut = s.romOut := rfl
@[simp] theorem accept_spOut (op : Instr) (s : State) : (accept op s).spOut = s.spOut := rfl
@[simp] theorem accept_bitOut (op : Instr) (s : State) : (accept op s).bitOut = s.bitOut := rfl
@[simp] theorem accept_byteOut (op : Instr) (s : State) : (accept op s).byteOut = s.byteOut := rfl
@[simp] theorem accept_now (op : Instr) (s : State) : (accept op s).now = s.now := rfl
@[simp] theorem accept_trace (op : Instr) (s : State) : (accept op s).trace = (s.now, .req (requestWord op)) :: s.trace := rfl
@[simp] theorem accept_lineLow (op : Instr) (s : State) : (accept op s).lineLow = s.lineLow := rfl
@[simp] theorem accept_devices (op : Instr) (s : State) : (accept op s).devices = s.devices := rfl
@[simp] theorem accept_env (op : Instr) (s : State) : (accept op s).env = s.env := rfl
@[simp] theorem accept_inbox (op : Instr) (s : State) : (accept op s).inbox = s.inbox := rfl
@[simp] theorem accept_intruders (op : Instr) (s : State) : (accept op s).intruders = s.intruders := rfl
@[simp] theorem accept_resetsAt (op : Instr) (s : State) : (accept op s).resetsAt = s.resetsAt := rfl
@[simp] theorem accept_draws (op : Instr) (s : State) : (accept op s).draws = s.draws := rfl
@[simp] theorem accept_answer (op : Instr) (s : State) : (accept op s).answer = s.answer := rfl
@[simp] theorem accept_call (op : Instr) (s : State) : (accept op s).call = s.call := rfl
@[simp] theorem accept_viewReads (op : Instr) (s : State) : (accept op s).viewReads = s.viewReads := rfl
@[simp] theorem accept_viewed (op : Instr) (s : State) : (accept op s).viewed = s.viewed := rfl

/-! ### enterCritical -/

@[simp] theorem enterCritical_bound (s : State) : (enterCritical s).bound = s.bound := rfl
@[simp] theorem enterCritical_pin (s : State) : (enterCritical s).pin = s.pin := rfl
@[simp] theorem enterCritical_drive (s : State) : (enterCritical s).drive = s.drive := rfl
@[simp] theorem enterCritical_busy (s : State) : (enterCritical s).busy = s.busy := rfl
@[simp] theorem enterCritical_upc (s : State) : (enterCritical s).upc = s.upc := rfl
@[simp] theorem enterCritical_fault (s : State) : (enterCritical s).fault = s.fault := rfl
@[simp] theorem enterCritical_faultWord (s : State) : (enterCritical s).faultWord = s.faultWord := rfl
@[simp] theorem enterCritical_shift (s : State) : (enterCritical s).shift = s.shift := rfl
@[simp] theorem enterCritical_bitcnt (s : State) : (enterCritical s).bitcnt = s.bitcnt := rfl
@[simp] theorem enterCritical_byteidx (s : State) : (enterCritical s).byteidx = s.byteidx := rfl
@[simp] theorem enterCritical_pres (s : State) : (enterCritical s).pres = s.pres := rfl
@[simp] theorem enterCritical_smpl (s : State) : (enterCritical s).smpl = s.smpl := rfl
@[simp] theorem enterCritical_copyUntil (s : State) : (enterCritical s).copyUntil = s.copyUntil := rfl
@[simp] theorem enterCritical_rstat (s : State) : (enterCritical s).rstat = s.rstat := rfl
@[simp] theorem enterCritical_irqMasked (s : State) : (enterCritical s).irqMasked = true := rfl
@[simp] theorem enterCritical_critStack (s : State) : (enterCritical s).critStack = s.irqMasked :: s.critStack := rfl
@[simp] theorem enterCritical_romIn (s : State) : (enterCritical s).romIn = s.romIn := rfl
@[simp] theorem enterCritical_wdata (s : State) : (enterCritical s).wdata = s.wdata := rfl
@[simp] theorem enterCritical_romOut (s : State) : (enterCritical s).romOut = s.romOut := rfl
@[simp] theorem enterCritical_spOut (s : State) : (enterCritical s).spOut = s.spOut := rfl
@[simp] theorem enterCritical_bitOut (s : State) : (enterCritical s).bitOut = s.bitOut := rfl
@[simp] theorem enterCritical_byteOut (s : State) : (enterCritical s).byteOut = s.byteOut := rfl
@[simp] theorem enterCritical_now (s : State) : (enterCritical s).now = s.now := rfl
@[simp] theorem enterCritical_trace (s : State) : (enterCritical s).trace = (s.now, .critOn) :: s.trace := rfl
@[simp] theorem enterCritical_lineLow (s : State) : (enterCritical s).lineLow = s.lineLow := rfl
@[simp] theorem enterCritical_devices (s : State) : (enterCritical s).devices = s.devices := rfl
@[simp] theorem enterCritical_env (s : State) : (enterCritical s).env = s.env := rfl
@[simp] theorem enterCritical_inbox (s : State) : (enterCritical s).inbox = s.inbox := rfl
@[simp] theorem enterCritical_intruders (s : State) : (enterCritical s).intruders = s.intruders := rfl
@[simp] theorem enterCritical_resetsAt (s : State) : (enterCritical s).resetsAt = s.resetsAt := rfl
@[simp] theorem enterCritical_draws (s : State) : (enterCritical s).draws = s.draws := rfl
@[simp] theorem enterCritical_answer (s : State) : (enterCritical s).answer = s.answer := rfl
@[simp] theorem enterCritical_call (s : State) : (enterCritical s).call = s.call := rfl
@[simp] theorem enterCritical_viewReads (s : State) : (enterCritical s).viewReads = s.viewReads := rfl
@[simp] theorem enterCritical_viewed (s : State) : (enterCritical s).viewed = s.viewed := rfl

/-! ### sampleLine -/

@[simp] theorem sampleLine_bound (s : State) : (sampleLine s).bound = s.bound := rfl
@[simp] theorem sampleLine_pin (s : State) : (sampleLine s).pin = s.pin := rfl
@[simp] theorem sampleLine_drive (s : State) : (sampleLine s).drive = s.drive := rfl
@[simp] theorem sampleLine_busy (s : State) : (sampleLine s).busy = s.busy := rfl
@[simp] theorem sampleLine_upc (s : State) : (sampleLine s).upc = s.upc := rfl
@[simp] theorem sampleLine_fault (s : State) : (sampleLine s).fault = s.fault := rfl
@[simp] theorem sampleLine_faultWord (s : State) : (sampleLine s).faultWord = s.faultWord := rfl
@[simp] theorem sampleLine_shift (s : State) : (sampleLine s).shift = s.shift := rfl
@[simp] theorem sampleLine_bitcnt (s : State) : (sampleLine s).bitcnt = s.bitcnt := rfl
@[simp] theorem sampleLine_byteidx (s : State) : (sampleLine s).byteidx = s.byteidx := rfl
@[simp] theorem sampleLine_pres (s : State) : (sampleLine s).pres = s.pres := rfl
@[simp] theorem sampleLine_smpl (s : State) : (sampleLine s).smpl = some s.lineLevel := rfl
@[simp] theorem sampleLine_copyUntil (s : State) : (sampleLine s).copyUntil = s.copyUntil := rfl
@[simp] theorem sampleLine_rstat (s : State) : (sampleLine s).rstat = s.rstat := rfl
@[simp] theorem sampleLine_irqMasked (s : State) : (sampleLine s).irqMasked = s.irqMasked := rfl
@[simp] theorem sampleLine_critStack (s : State) : (sampleLine s).critStack = s.critStack := rfl
@[simp] theorem sampleLine_romIn (s : State) : (sampleLine s).romIn = s.romIn := rfl
@[simp] theorem sampleLine_wdata (s : State) : (sampleLine s).wdata = s.wdata := rfl
@[simp] theorem sampleLine_romOut (s : State) : (sampleLine s).romOut = s.romOut := rfl
@[simp] theorem sampleLine_spOut (s : State) : (sampleLine s).spOut = s.spOut := rfl
@[simp] theorem sampleLine_bitOut (s : State) : (sampleLine s).bitOut = s.bitOut := rfl
@[simp] theorem sampleLine_byteOut (s : State) : (sampleLine s).byteOut = s.byteOut := rfl
@[simp] theorem sampleLine_now (s : State) : (sampleLine s).now = s.now := rfl
@[simp] theorem sampleLine_trace (s : State) : (sampleLine s).trace = (s.now, .smp s.lineLevel) :: s.trace := rfl
@[simp] theorem sampleLine_lineLow (s : State) : (sampleLine s).lineLow = s.lineLow := rfl
@[simp] theorem sampleLine_devices (s : State) : (sampleLine s).devices = s.devices := rfl
@[simp] theorem sampleLine_env (s : State) : (sampleLine s).env = s.env := rfl
@[simp] theorem sampleLine_inbox (s : State) : (sampleLine s).inbox = s.inbox := rfl
@[simp] theorem sampleLine_intruders (s : State) : (sampleLine s).intruders = s.intruders := rfl
@[simp] theorem sampleLine_resetsAt (s : State) : (sampleLine s).resetsAt = s.resetsAt := rfl
@[simp] theorem sampleLine_draws (s : State) : (sampleLine s).draws = s.draws + 1 := rfl
@[simp] theorem sampleLine_answer (s : State) : (sampleLine s).answer = s.answer := rfl
@[simp] theorem sampleLine_call (s : State) : (sampleLine s).call = s.call := rfl
@[simp] theorem sampleLine_viewReads (s : State) : (sampleLine s).viewReads = s.viewReads := rfl
@[simp] theorem sampleLine_viewed (s : State) : (sampleLine s).viewed = s.viewed := rfl

/-! ### onCommand -/

@[simp] theorem onCommand_bound (b : Byte) (f : Ds18b20 → Ds18b20) (s : State) : (onCommand b f s).bound = s.bound := rfl
@[simp] theorem onCommand_pin (b : Byte) (f : Ds18b20 → Ds18b20) (s : State) : (onCommand b f s).pin = s.pin := rfl
@[simp] theorem onCommand_drive (b : Byte) (f : Ds18b20 → Ds18b20) (s : State) : (onCommand b f s).drive = s.drive := rfl
@[simp] theorem onCommand_busy (b : Byte) (f : Ds18b20 → Ds18b20) (s : State) : (onCommand b f s).busy = s.busy := rfl
@[simp] theorem onCommand_upc (b : Byte) (f : Ds18b20 → Ds18b20) (s : State) : (onCommand b f s).upc = s.upc := rfl
@[simp] theorem onCommand_fault (b : Byte) (f : Ds18b20 → Ds18b20) (s : State) : (onCommand b f s).fault = s.fault := rfl
@[simp] theorem onCommand_faultWord (b : Byte) (f : Ds18b20 → Ds18b20) (s : State) : (onCommand b f s).faultWord = s.faultWord := rfl
@[simp] theorem onCommand_shift (b : Byte) (f : Ds18b20 → Ds18b20) (s : State) : (onCommand b f s).shift = s.shift := rfl
@[simp] theorem onCommand_bitcnt (b : Byte) (f : Ds18b20 → Ds18b20) (s : State) : (onCommand b f s).bitcnt = s.bitcnt := rfl
@[simp] theorem onCommand_byteidx (b : Byte) (f : Ds18b20 → Ds18b20) (s : State) : (onCommand b f s).byteidx = s.byteidx := rfl
@[simp] theorem onCommand_pres (b : Byte) (f : Ds18b20 → Ds18b20) (s : State) : (onCommand b f s).pres = s.pres := rfl
@[simp] theorem onCommand_smpl (b : Byte) (f : Ds18b20 → Ds18b20) (s : State) : (onCommand b f s).smpl = s.smpl := rfl
@[simp] theorem onCommand_copyUntil (b : Byte) (f : Ds18b20 → Ds18b20) (s : State) : (onCommand b f s).copyUntil = s.copyUntil := rfl
@[simp] theorem onCommand_rstat (b : Byte) (f : Ds18b20 → Ds18b20) (s : State) : (onCommand b f s).rstat = s.rstat := rfl
@[simp] theorem onCommand_irqMasked (b : Byte) (f : Ds18b20 → Ds18b20) (s : State) : (onCommand b f s).irqMasked = s.irqMasked := rfl
@[simp] theorem onCommand_critStack (b : Byte) (f : Ds18b20 → Ds18b20) (s : State) : (onCommand b f s).critStack = s.critStack := rfl
@[simp] theorem onCommand_romIn (b : Byte) (f : Ds18b20 → Ds18b20) (s : State) : (onCommand b f s).romIn = s.romIn := rfl
@[simp] theorem onCommand_wdata (b : Byte) (f : Ds18b20 → Ds18b20) (s : State) : (onCommand b f s).wdata = s.wdata := rfl
@[simp] theorem onCommand_romOut (b : Byte) (f : Ds18b20 → Ds18b20) (s : State) : (onCommand b f s).romOut = s.romOut := rfl
@[simp] theorem onCommand_spOut (b : Byte) (f : Ds18b20 → Ds18b20) (s : State) : (onCommand b f s).spOut = s.spOut := rfl
@[simp] theorem onCommand_bitOut (b : Byte) (f : Ds18b20 → Ds18b20) (s : State) : (onCommand b f s).bitOut = s.bitOut := rfl
@[simp] theorem onCommand_byteOut (b : Byte) (f : Ds18b20 → Ds18b20) (s : State) : (onCommand b f s).byteOut = s.byteOut := rfl
@[simp] theorem onCommand_now (b : Byte) (f : Ds18b20 → Ds18b20) (s : State) : (onCommand b f s).now = s.now := rfl
@[simp] theorem onCommand_trace (b : Byte) (f : Ds18b20 → Ds18b20) (s : State) : (onCommand b f s).trace = s.trace := rfl
@[simp] theorem onCommand_lineLow (b : Byte) (f : Ds18b20 → Ds18b20) (s : State) : (onCommand b f s).lineLow = s.lineLow := rfl
@[simp] theorem onCommand_devices (b : Byte) (f : Ds18b20 → Ds18b20) (s : State) : (onCommand b f s).devices = s.devices.map (Device.onCommand b f) := rfl
@[simp] theorem onCommand_env (b : Byte) (f : Ds18b20 → Ds18b20) (s : State) : (onCommand b f s).env = s.env := rfl
@[simp] theorem onCommand_inbox (b : Byte) (f : Ds18b20 → Ds18b20) (s : State) : (onCommand b f s).inbox = s.inbox := rfl
@[simp] theorem onCommand_intruders (b : Byte) (f : Ds18b20 → Ds18b20) (s : State) : (onCommand b f s).intruders = s.intruders := rfl
@[simp] theorem onCommand_resetsAt (b : Byte) (f : Ds18b20 → Ds18b20) (s : State) : (onCommand b f s).resetsAt = s.resetsAt := rfl
@[simp] theorem onCommand_draws (b : Byte) (f : Ds18b20 → Ds18b20) (s : State) : (onCommand b f s).draws = s.draws := rfl
@[simp] theorem onCommand_answer (b : Byte) (f : Ds18b20 → Ds18b20) (s : State) : (onCommand b f s).answer = s.answer := rfl
@[simp] theorem onCommand_call (b : Byte) (f : Ds18b20 → Ds18b20) (s : State) : (onCommand b f s).call = s.call := rfl
@[simp] theorem onCommand_viewReads (b : Byte) (f : Ds18b20 → Ds18b20) (s : State) : (onCommand b f s).viewReads = s.viewReads := rfl
@[simp] theorem onCommand_viewed (b : Byte) (f : Ds18b20 → Ds18b20) (s : State) : (onCommand b f s).viewed = s.viewed := rfl

/-! ### blockReset -/

@[simp] theorem blockReset_bound (s : State) : (blockReset s).bound = false := rfl
@[simp] theorem blockReset_pin (s : State) : (blockReset s).pin = s.pin := rfl
@[simp] theorem blockReset_drive (s : State) : (blockReset s).drive = .released := rfl
@[simp] theorem blockReset_busy (s : State) : (blockReset s).busy = false := rfl
@[simp] theorem blockReset_upc (s : State) : (blockReset s).upc = .idle := rfl
@[simp] theorem blockReset_fault (s : State) : (blockReset s).fault = .none := rfl
@[simp] theorem blockReset_faultWord (s : State) : (blockReset s).faultWord = 0 := rfl
@[simp] theorem blockReset_shift (s : State) : (blockReset s).shift = none := rfl
@[simp] theorem blockReset_bitcnt (s : State) : (blockReset s).bitcnt = none := rfl
@[simp] theorem blockReset_byteidx (s : State) : (blockReset s).byteidx = none := rfl
@[simp] theorem blockReset_pres (s : State) : (blockReset s).pres = none := rfl
@[simp] theorem blockReset_smpl (s : State) : (blockReset s).smpl = none := rfl
@[simp] theorem blockReset_copyUntil (s : State) : (blockReset s).copyUntil = none := rfl
@[simp] theorem blockReset_rstat (s : State) : (blockReset s).rstat = .noneYet := rfl
@[simp] theorem blockReset_irqMasked (s : State) : (blockReset s).irqMasked = s.env.irqAtReset := rfl
@[simp] theorem blockReset_critStack (s : State) : (blockReset s).critStack = [] := rfl
@[simp] theorem blockReset_romIn (s : State) : (blockReset s).romIn = Vector.replicate Config.romBytes none := rfl
@[simp] theorem blockReset_wdata (s : State) : (blockReset s).wdata = { th := none, tl := none, cfg := none } := rfl
@[simp] theorem blockReset_romOut (s : State) : (blockReset s).romOut = Vector.replicate Config.romBytes none := rfl
@[simp] theorem blockReset_spOut (s : State) : (blockReset s).spOut = Vector.replicate Config.spBytes none := rfl
@[simp] theorem blockReset_bitOut (s : State) : (blockReset s).bitOut = none := rfl
@[simp] theorem blockReset_byteOut (s : State) : (blockReset s).byteOut = none := rfl
@[simp] theorem blockReset_now (s : State) : (blockReset s).now = s.now := rfl
@[simp] theorem blockReset_trace (s : State) : (blockReset s).trace = if s.drive = .drivenLow then (s.now, .rel) :: s.trace else s.trace := rfl
@[simp] theorem blockReset_lineLow (s : State) : (blockReset s).lineLow = if s.devicesLowSince s.now = none then none else s.lineLow := rfl
@[simp] theorem blockReset_devices (s : State) : (blockReset s).devices = s.devices := rfl
@[simp] theorem blockReset_env (s : State) : (blockReset s).env = s.env := rfl
@[simp] theorem blockReset_inbox (s : State) : (blockReset s).inbox = s.inbox := rfl
@[simp] theorem blockReset_intruders (s : State) : (blockReset s).intruders = s.intruders := rfl
@[simp] theorem blockReset_resetsAt (s : State) : (blockReset s).resetsAt = s.resetsAt := rfl
@[simp] theorem blockReset_draws (s : State) : (blockReset s).draws = s.draws := rfl
@[simp] theorem blockReset_answer (s : State) : (blockReset s).answer = s.answer := rfl
@[simp] theorem blockReset_call (s : State) : (blockReset s).call = if s.call = .waiting then .cut else s.call := rfl
@[simp] theorem blockReset_viewReads (s : State) : (blockReset s).viewReads = s.viewReads := rfl
@[simp] theorem blockReset_viewed (s : State) : (blockReset s).viewed = s.viewed := rfl

/-! ### beginLow -/

@[simp] theorem beginLow_bound (s : State) : (beginLow s).bound = s.bound := by unfold beginLow; split <;> (try split) <;> rfl
@[simp] theorem beginLow_pin (s : State) : (beginLow s).pin = s.pin := by unfold beginLow; split <;> (try split) <;> rfl
@[simp] theorem beginLow_drive (s : State) : (beginLow s).drive = s.drive := by unfold beginLow; split <;> (try split) <;> rfl
@[simp] theorem beginLow_busy (s : State) : (beginLow s).busy = s.busy := by unfold beginLow; split <;> (try split) <;> rfl
@[simp] theorem beginLow_upc (s : State) : (beginLow s).upc = s.upc := by unfold beginLow; split <;> (try split) <;> rfl
@[simp] theorem beginLow_fault (s : State) : (beginLow s).fault = s.fault := by unfold beginLow; split <;> (try split) <;> rfl
@[simp] theorem beginLow_faultWord (s : State) : (beginLow s).faultWord = s.faultWord := by unfold beginLow; split <;> (try split) <;> rfl
@[simp] theorem beginLow_shift (s : State) : (beginLow s).shift = s.shift := by unfold beginLow; split <;> (try split) <;> rfl
@[simp] theorem beginLow_bitcnt (s : State) : (beginLow s).bitcnt = s.bitcnt := by unfold beginLow; split <;> (try split) <;> rfl
@[simp] theorem beginLow_byteidx (s : State) : (beginLow s).byteidx = s.byteidx := by unfold beginLow; split <;> (try split) <;> rfl
@[simp] theorem beginLow_pres (s : State) : (beginLow s).pres = s.pres := by unfold beginLow; split <;> (try split) <;> rfl
@[simp] theorem beginLow_smpl (s : State) : (beginLow s).smpl = s.smpl := by unfold beginLow; split <;> (try split) <;> rfl
@[simp] theorem beginLow_copyUntil (s : State) : (beginLow s).copyUntil = s.copyUntil := by unfold beginLow; split <;> (try split) <;> rfl
@[simp] theorem beginLow_rstat (s : State) : (beginLow s).rstat = s.rstat := by unfold beginLow; split <;> (try split) <;> rfl
@[simp] theorem beginLow_irqMasked (s : State) : (beginLow s).irqMasked = s.irqMasked := by unfold beginLow; split <;> (try split) <;> rfl
@[simp] theorem beginLow_critStack (s : State) : (beginLow s).critStack = s.critStack := by unfold beginLow; split <;> (try split) <;> rfl
@[simp] theorem beginLow_romIn (s : State) : (beginLow s).romIn = s.romIn := by unfold beginLow; split <;> (try split) <;> rfl
@[simp] theorem beginLow_wdata (s : State) : (beginLow s).wdata = s.wdata := by unfold beginLow; split <;> (try split) <;> rfl
@[simp] theorem beginLow_romOut (s : State) : (beginLow s).romOut = s.romOut := by unfold beginLow; split <;> (try split) <;> rfl
@[simp] theorem beginLow_spOut (s : State) : (beginLow s).spOut = s.spOut := by unfold beginLow; split <;> (try split) <;> rfl
@[simp] theorem beginLow_bitOut (s : State) : (beginLow s).bitOut = s.bitOut := by unfold beginLow; split <;> (try split) <;> rfl
@[simp] theorem beginLow_byteOut (s : State) : (beginLow s).byteOut = s.byteOut := by unfold beginLow; split <;> (try split) <;> rfl
@[simp] theorem beginLow_now (s : State) : (beginLow s).now = s.now := by unfold beginLow; split <;> (try split) <;> rfl
@[simp] theorem beginLow_trace (s : State) : (beginLow s).trace = s.trace := by unfold beginLow; split <;> (try split) <;> rfl
@[simp] theorem beginLow_env (s : State) : (beginLow s).env = s.env := by unfold beginLow; split <;> (try split) <;> rfl
@[simp] theorem beginLow_inbox (s : State) : (beginLow s).inbox = s.inbox := by unfold beginLow; split <;> (try split) <;> rfl
@[simp] theorem beginLow_intruders (s : State) : (beginLow s).intruders = s.intruders := by unfold beginLow; split <;> (try split) <;> rfl
@[simp] theorem beginLow_resetsAt (s : State) : (beginLow s).resetsAt = s.resetsAt := by unfold beginLow; split <;> (try split) <;> rfl
@[simp] theorem beginLow_draws (s : State) : (beginLow s).draws = s.draws := by unfold beginLow; split <;> (try split) <;> rfl
@[simp] theorem beginLow_answer (s : State) : (beginLow s).answer = s.answer := by unfold beginLow; split <;> (try split) <;> rfl
@[simp] theorem beginLow_call (s : State) : (beginLow s).call = s.call := by unfold beginLow; split <;> (try split) <;> rfl
@[simp] theorem beginLow_viewReads (s : State) : (beginLow s).viewReads = s.viewReads := by unfold beginLow; split <;> (try split) <;> rfl
@[simp] theorem beginLow_viewed (s : State) : (beginLow s).viewed = s.viewed := by unfold beginLow; split <;> (try split) <;> rfl

/-! ### endLow -/

@[simp] theorem endLow_bound (n : Nat) (s : State) : (endLow n s).bound = s.bound := by unfold endLow; dsimp only; split <;> rfl
@[simp] theorem endLow_pin (n : Nat) (s : State) : (endLow n s).pin = s.pin := by unfold endLow; dsimp only; split <;> rfl
@[simp] theorem endLow_drive (n : Nat) (s : State) : (endLow n s).drive = s.drive := by unfold endLow; dsimp only; split <;> rfl
@[simp] theorem endLow_busy (n : Nat) (s : State) : (endLow n s).busy = s.busy := by unfold endLow; dsimp only; split <;> rfl
@[simp] theorem endLow_upc (n : Nat) (s : State) : (endLow n s).upc = s.upc := by unfold endLow; dsimp only; split <;> rfl
@[simp] theorem endLow_fault (n : Nat) (s : State) : (endLow n s).fault = s.fault := by unfold endLow; dsimp only; split <;> rfl
@[simp] theorem endLow_faultWord (n : Nat) (s : State) : (endLow n s).faultWord = s.faultWord := by unfold endLow; dsimp only; split <;> rfl
@[simp] theorem endLow_shift (n : Nat) (s : State) : (endLow n s).shift = s.shift := by unfold endLow; dsimp only; split <;> rfl
@[simp] theorem endLow_bitcnt (n : Nat) (s : State) : (endLow n s).bitcnt = s.bitcnt := by unfold endLow; dsimp only; split <;> rfl
@[simp] theorem endLow_byteidx (n : Nat) (s : State) : (endLow n s).byteidx = s.byteidx := by unfold endLow; dsimp only; split <;> rfl
@[simp] theorem endLow_pres (n : Nat) (s : State) : (endLow n s).pres = s.pres := by unfold endLow; dsimp only; split <;> rfl
@[simp] theorem endLow_smpl (n : Nat) (s : State) : (endLow n s).smpl = s.smpl := by unfold endLow; dsimp only; split <;> rfl
@[simp] theorem endLow_copyUntil (n : Nat) (s : State) : (endLow n s).copyUntil = s.copyUntil := by unfold endLow; dsimp only; split <;> rfl
@[simp] theorem endLow_rstat (n : Nat) (s : State) : (endLow n s).rstat = s.rstat := by unfold endLow; dsimp only; split <;> rfl
@[simp] theorem endLow_irqMasked (n : Nat) (s : State) : (endLow n s).irqMasked = s.irqMasked := by unfold endLow; dsimp only; split <;> rfl
@[simp] theorem endLow_critStack (n : Nat) (s : State) : (endLow n s).critStack = s.critStack := by unfold endLow; dsimp only; split <;> rfl
@[simp] theorem endLow_romIn (n : Nat) (s : State) : (endLow n s).romIn = s.romIn := by unfold endLow; dsimp only; split <;> rfl
@[simp] theorem endLow_wdata (n : Nat) (s : State) : (endLow n s).wdata = s.wdata := by unfold endLow; dsimp only; split <;> rfl
@[simp] theorem endLow_romOut (n : Nat) (s : State) : (endLow n s).romOut = s.romOut := by unfold endLow; dsimp only; split <;> rfl
@[simp] theorem endLow_spOut (n : Nat) (s : State) : (endLow n s).spOut = s.spOut := by unfold endLow; dsimp only; split <;> rfl
@[simp] theorem endLow_bitOut (n : Nat) (s : State) : (endLow n s).bitOut = s.bitOut := by unfold endLow; dsimp only; split <;> rfl
@[simp] theorem endLow_byteOut (n : Nat) (s : State) : (endLow n s).byteOut = s.byteOut := by unfold endLow; dsimp only; split <;> rfl
@[simp] theorem endLow_now (n : Nat) (s : State) : (endLow n s).now = s.now := by unfold endLow; dsimp only; split <;> rfl
@[simp] theorem endLow_trace (n : Nat) (s : State) : (endLow n s).trace = s.trace := by unfold endLow; dsimp only; split <;> rfl
@[simp] theorem endLow_lineLow (n : Nat) (s : State) : (endLow n s).lineLow = none := by unfold endLow; dsimp only; split <;> rfl
@[simp] theorem endLow_env (n : Nat) (s : State) : (endLow n s).env = s.env := by unfold endLow; dsimp only; split <;> rfl
@[simp] theorem endLow_inbox (n : Nat) (s : State) : (endLow n s).inbox = s.inbox := by unfold endLow; dsimp only; split <;> rfl
@[simp] theorem endLow_intruders (n : Nat) (s : State) : (endLow n s).intruders = s.intruders := by unfold endLow; dsimp only; split <;> rfl
@[simp] theorem endLow_resetsAt (n : Nat) (s : State) : (endLow n s).resetsAt = s.resetsAt := by unfold endLow; dsimp only; split <;> rfl
@[simp] theorem endLow_draws (n : Nat) (s : State) : (endLow n s).draws = s.draws := by unfold endLow; dsimp only; split <;> rfl
@[simp] theorem endLow_answer (n : Nat) (s : State) : (endLow n s).answer = s.answer := by unfold endLow; dsimp only; split <;> rfl
@[simp] theorem endLow_call (n : Nat) (s : State) : (endLow n s).call = s.call := by unfold endLow; dsimp only; split <;> rfl
@[simp] theorem endLow_viewReads (n : Nat) (s : State) : (endLow n s).viewReads = s.viewReads := by unfold endLow; dsimp only; split <;> rfl
@[simp] theorem endLow_viewed (n : Nat) (s : State) : (endLow n s).viewed = s.viewed := by unfold endLow; dsimp only; split <;> rfl

/-! ### endDrive -/

@[simp] theorem endDrive_bound (n : Nat) (s : State) : (endDrive n s).bound = s.bound := by unfold endDrive; split <;> simp
@[simp] theorem endDrive_pin (n : Nat) (s : State) : (endDrive n s).pin = s.pin := by unfold endDrive; split <;> simp
@[simp] theorem endDrive_drive (n : Nat) (s : State) : (endDrive n s).drive = s.drive := by unfold endDrive; split <;> simp
@[simp] theorem endDrive_busy (n : Nat) (s : State) : (endDrive n s).busy = s.busy := by unfold endDrive; split <;> simp
@[simp] theorem endDrive_upc (n : Nat) (s : State) : (endDrive n s).upc = s.upc := by unfold endDrive; split <;> simp
@[simp] theorem endDrive_fault (n : Nat) (s : State) : (endDrive n s).fault = s.fault := by unfold endDrive; split <;> simp
@[simp] theorem endDrive_faultWord (n : Nat) (s : State) : (endDrive n s).faultWord = s.faultWord := by unfold endDrive; split <;> simp
@[simp] theorem endDrive_shift (n : Nat) (s : State) : (endDrive n s).shift = s.shift := by unfold endDrive; split <;> simp
@[simp] theorem endDrive_bitcnt (n : Nat) (s : State) : (endDrive n s).bitcnt = s.bitcnt := by unfold endDrive; split <;> simp
@[simp] theorem endDrive_byteidx (n : Nat) (s : State) : (endDrive n s).byteidx = s.byteidx := by unfold endDrive; split <;> simp
@[simp] theorem endDrive_pres (n : Nat) (s : State) : (endDrive n s).pres = s.pres := by unfold endDrive; split <;> simp
@[simp] theorem endDrive_smpl (n : Nat) (s : State) : (endDrive n s).smpl = s.smpl := by unfold endDrive; split <;> simp
@[simp] theorem endDrive_copyUntil (n : Nat) (s : State) : (endDrive n s).copyUntil = s.copyUntil := by unfold endDrive; split <;> simp
@[simp] theorem endDrive_rstat (n : Nat) (s : State) : (endDrive n s).rstat = s.rstat := by unfold endDrive; split <;> simp
@[simp] theorem endDrive_irqMasked (n : Nat) (s : State) : (endDrive n s).irqMasked = s.irqMasked := by unfold endDrive; split <;> simp
@[simp] theorem endDrive_critStack (n : Nat) (s : State) : (endDrive n s).critStack = s.critStack := by unfold endDrive; split <;> simp
@[simp] theorem endDrive_romIn (n : Nat) (s : State) : (endDrive n s).romIn = s.romIn := by unfold endDrive; split <;> simp
@[simp] theorem endDrive_wdata (n : Nat) (s : State) : (endDrive n s).wdata = s.wdata := by unfold endDrive; split <;> simp
@[simp] theorem endDrive_romOut (n : Nat) (s : State) : (endDrive n s).romOut = s.romOut := by unfold endDrive; split <;> simp
@[simp] theorem endDrive_spOut (n : Nat) (s : State) : (endDrive n s).spOut = s.spOut := by unfold endDrive; split <;> simp
@[simp] theorem endDrive_bitOut (n : Nat) (s : State) : (endDrive n s).bitOut = s.bitOut := by unfold endDrive; split <;> simp
@[simp] theorem endDrive_byteOut (n : Nat) (s : State) : (endDrive n s).byteOut = s.byteOut := by unfold endDrive; split <;> simp
@[simp] theorem endDrive_now (n : Nat) (s : State) : (endDrive n s).now = s.now := by unfold endDrive; split <;> simp
@[simp] theorem endDrive_trace (n : Nat) (s : State) : (endDrive n s).trace = s.trace := by unfold endDrive; split <;> simp
@[simp] theorem endDrive_env (n : Nat) (s : State) : (endDrive n s).env = s.env := by unfold endDrive; split <;> simp
@[simp] theorem endDrive_inbox (n : Nat) (s : State) : (endDrive n s).inbox = s.inbox := by unfold endDrive; split <;> simp
@[simp] theorem endDrive_intruders (n : Nat) (s : State) : (endDrive n s).intruders = s.intruders := by unfold endDrive; split <;> simp
@[simp] theorem endDrive_resetsAt (n : Nat) (s : State) : (endDrive n s).resetsAt = s.resetsAt := by unfold endDrive; split <;> simp
@[simp] theorem endDrive_draws (n : Nat) (s : State) : (endDrive n s).draws = s.draws := by unfold endDrive; split <;> simp
@[simp] theorem endDrive_answer (n : Nat) (s : State) : (endDrive n s).answer = s.answer := by unfold endDrive; split <;> simp
@[simp] theorem endDrive_call (n : Nat) (s : State) : (endDrive n s).call = s.call := by unfold endDrive; split <;> simp
@[simp] theorem endDrive_viewReads (n : Nat) (s : State) : (endDrive n s).viewReads = s.viewReads := by unfold endDrive; split <;> simp
@[simp] theorem endDrive_viewed (n : Nat) (s : State) : (endDrive n s).viewed = s.viewed := by unfold endDrive; split <;> simp

/-! ### passTo -/

@[simp] theorem passTo_bound (t : Nat) (s : State) : (passTo t s).bound = s.bound := by unfold passTo; split <;> simp
@[simp] theorem passTo_pin (t : Nat) (s : State) : (passTo t s).pin = s.pin := by unfold passTo; split <;> simp
@[simp] theorem passTo_drive (t : Nat) (s : State) : (passTo t s).drive = s.drive := by unfold passTo; split <;> simp
@[simp] theorem passTo_busy (t : Nat) (s : State) : (passTo t s).busy = s.busy := by unfold passTo; split <;> simp
@[simp] theorem passTo_upc (t : Nat) (s : State) : (passTo t s).upc = s.upc := by unfold passTo; split <;> simp
@[simp] theorem passTo_fault (t : Nat) (s : State) : (passTo t s).fault = s.fault := by unfold passTo; split <;> simp
@[simp] theorem passTo_faultWord (t : Nat) (s : State) : (passTo t s).faultWord = s.faultWord := by unfold passTo; split <;> simp
@[simp] theorem passTo_shift (t : Nat) (s : State) : (passTo t s).shift = s.shift := by unfold passTo; split <;> simp
@[simp] theorem passTo_bitcnt (t : Nat) (s : State) : (passTo t s).bitcnt = s.bitcnt := by unfold passTo; split <;> simp
@[simp] theorem passTo_byteidx (t : Nat) (s : State) : (passTo t s).byteidx = s.byteidx := by unfold passTo; split <;> simp
@[simp] theorem passTo_pres (t : Nat) (s : State) : (passTo t s).pres = s.pres := by unfold passTo; split <;> simp
@[simp] theorem passTo_smpl (t : Nat) (s : State) : (passTo t s).smpl = s.smpl := by unfold passTo; split <;> simp
@[simp] theorem passTo_copyUntil (t : Nat) (s : State) : (passTo t s).copyUntil = s.copyUntil := by unfold passTo; split <;> simp
@[simp] theorem passTo_rstat (t : Nat) (s : State) : (passTo t s).rstat = s.rstat := by unfold passTo; split <;> simp
@[simp] theorem passTo_irqMasked (t : Nat) (s : State) : (passTo t s).irqMasked = s.irqMasked := by unfold passTo; split <;> simp
@[simp] theorem passTo_critStack (t : Nat) (s : State) : (passTo t s).critStack = s.critStack := by unfold passTo; split <;> simp
@[simp] theorem passTo_romIn (t : Nat) (s : State) : (passTo t s).romIn = s.romIn := by unfold passTo; split <;> simp
@[simp] theorem passTo_wdata (t : Nat) (s : State) : (passTo t s).wdata = s.wdata := by unfold passTo; split <;> simp
@[simp] theorem passTo_romOut (t : Nat) (s : State) : (passTo t s).romOut = s.romOut := by unfold passTo; split <;> simp
@[simp] theorem passTo_spOut (t : Nat) (s : State) : (passTo t s).spOut = s.spOut := by unfold passTo; split <;> simp
@[simp] theorem passTo_bitOut (t : Nat) (s : State) : (passTo t s).bitOut = s.bitOut := by unfold passTo; split <;> simp
@[simp] theorem passTo_byteOut (t : Nat) (s : State) : (passTo t s).byteOut = s.byteOut := by unfold passTo; split <;> simp
@[simp] theorem passTo_now (t : Nat) (s : State) : (passTo t s).now = t := by unfold passTo; split <;> simp
@[simp] theorem passTo_trace (t : Nat) (s : State) : (passTo t s).trace = s.trace := by unfold passTo; split <;> simp
@[simp] theorem passTo_env (t : Nat) (s : State) : (passTo t s).env = s.env := by unfold passTo; split <;> simp
@[simp] theorem passTo_inbox (t : Nat) (s : State) : (passTo t s).inbox = s.inbox := by unfold passTo; split <;> simp
@[simp] theorem passTo_intruders (t : Nat) (s : State) : (passTo t s).intruders = s.intruders := by unfold passTo; split <;> simp
@[simp] theorem passTo_resetsAt (t : Nat) (s : State) : (passTo t s).resetsAt = s.resetsAt := by unfold passTo; split <;> simp
@[simp] theorem passTo_draws (t : Nat) (s : State) : (passTo t s).draws = s.draws := by unfold passTo; split <;> simp
@[simp] theorem passTo_answer (t : Nat) (s : State) : (passTo t s).answer = s.answer := by unfold passTo; split <;> simp
@[simp] theorem passTo_call (t : Nat) (s : State) : (passTo t s).call = s.call := by unfold passTo; split <;> simp
@[simp] theorem passTo_viewReads (t : Nat) (s : State) : (passTo t s).viewReads = s.viewReads := by unfold passTo; split <;> simp
@[simp] theorem passTo_viewed (t : Nat) (s : State) : (passTo t s).viewed = s.viewed := by unfold passTo; split <;> simp

/-! ### readViews -/

@[simp] theorem readViews_bound (n : Nat) (s : State) : (readViews n s).bound = s.bound := rfl
@[simp] theorem readViews_pin (n : Nat) (s : State) : (readViews n s).pin = s.pin := rfl
@[simp] theorem readViews_drive (n : Nat) (s : State) : (readViews n s).drive = s.drive := rfl
@[simp] theorem readViews_busy (n : Nat) (s : State) : (readViews n s).busy = s.busy := rfl
@[simp] theorem readViews_upc (n : Nat) (s : State) : (readViews n s).upc = s.upc := rfl
@[simp] theorem readViews_fault (n : Nat) (s : State) : (readViews n s).fault = s.fault := rfl
@[simp] theorem readViews_faultWord (n : Nat) (s : State) : (readViews n s).faultWord = s.faultWord := rfl
@[simp] theorem readViews_shift (n : Nat) (s : State) : (readViews n s).shift = s.shift := rfl
@[simp] theorem readViews_bitcnt (n : Nat) (s : State) : (readViews n s).bitcnt = s.bitcnt := rfl
@[simp] theorem readViews_byteidx (n : Nat) (s : State) : (readViews n s).byteidx = s.byteidx := rfl
@[simp] theorem readViews_pres (n : Nat) (s : State) : (readViews n s).pres = s.pres := rfl
@[simp] theorem readViews_smpl (n : Nat) (s : State) : (readViews n s).smpl = s.smpl := rfl
@[simp] theorem readViews_copyUntil (n : Nat) (s : State) : (readViews n s).copyUntil = s.copyUntil := rfl
@[simp] theorem readViews_rstat (n : Nat) (s : State) : (readViews n s).rstat = s.rstat := rfl
@[simp] theorem readViews_irqMasked (n : Nat) (s : State) : (readViews n s).irqMasked = s.irqMasked := rfl
@[simp] theorem readViews_critStack (n : Nat) (s : State) : (readViews n s).critStack = s.critStack := rfl
@[simp] theorem readViews_romIn (n : Nat) (s : State) : (readViews n s).romIn = s.romIn := rfl
@[simp] theorem readViews_wdata (n : Nat) (s : State) : (readViews n s).wdata = s.wdata := rfl
@[simp] theorem readViews_romOut (n : Nat) (s : State) : (readViews n s).romOut = s.romOut := rfl
@[simp] theorem readViews_spOut (n : Nat) (s : State) : (readViews n s).spOut = s.spOut := rfl
@[simp] theorem readViews_bitOut (n : Nat) (s : State) : (readViews n s).bitOut = s.bitOut := rfl
@[simp] theorem readViews_byteOut (n : Nat) (s : State) : (readViews n s).byteOut = s.byteOut := rfl
@[simp] theorem readViews_now (n : Nat) (s : State) : (readViews n s).now = s.now := rfl
@[simp] theorem readViews_trace (n : Nat) (s : State) : (readViews n s).trace = s.trace := rfl
@[simp] theorem readViews_lineLow (n : Nat) (s : State) : (readViews n s).lineLow = s.lineLow := rfl
@[simp] theorem readViews_devices (n : Nat) (s : State) : (readViews n s).devices = s.devices := rfl
@[simp] theorem readViews_env (n : Nat) (s : State) : (readViews n s).env = s.env := rfl
@[simp] theorem readViews_inbox (n : Nat) (s : State) : (readViews n s).inbox = s.inbox := rfl
@[simp] theorem readViews_intruders (n : Nat) (s : State) : (readViews n s).intruders = s.intruders := rfl
@[simp] theorem readViews_resetsAt (n : Nat) (s : State) : (readViews n s).resetsAt = s.resetsAt := rfl
@[simp] theorem readViews_draws (n : Nat) (s : State) : (readViews n s).draws = s.draws := rfl
@[simp] theorem readViews_answer (n : Nat) (s : State) : (readViews n s).answer = s.answer := rfl
@[simp] theorem readViews_call (n : Nat) (s : State) : (readViews n s).call = s.call := rfl

/-! ### pass -/

@[simp] theorem pass_bound (t : Nat) (s : State) : (pass t s).bound = s.bound := by simp [pass]
@[simp] theorem pass_pin (t : Nat) (s : State) : (pass t s).pin = s.pin := by simp [pass]
@[simp] theorem pass_drive (t : Nat) (s : State) : (pass t s).drive = s.drive := by simp [pass]
@[simp] theorem pass_busy (t : Nat) (s : State) : (pass t s).busy = s.busy := by simp [pass]
@[simp] theorem pass_upc (t : Nat) (s : State) : (pass t s).upc = s.upc := by simp [pass]
@[simp] theorem pass_fault (t : Nat) (s : State) : (pass t s).fault = s.fault := by simp [pass]
@[simp] theorem pass_faultWord (t : Nat) (s : State) : (pass t s).faultWord = s.faultWord := by simp [pass]
@[simp] theorem pass_shift (t : Nat) (s : State) : (pass t s).shift = s.shift := by simp [pass]
@[simp] theorem pass_bitcnt (t : Nat) (s : State) : (pass t s).bitcnt = s.bitcnt := by simp [pass]
@[simp] theorem pass_byteidx (t : Nat) (s : State) : (pass t s).byteidx = s.byteidx := by simp [pass]
@[simp] theorem pass_pres (t : Nat) (s : State) : (pass t s).pres = s.pres := by simp [pass]
@[simp] theorem pass_smpl (t : Nat) (s : State) : (pass t s).smpl = s.smpl := by simp [pass]
@[simp] theorem pass_copyUntil (t : Nat) (s : State) : (pass t s).copyUntil = s.copyUntil := by simp [pass]
@[simp] theorem pass_rstat (t : Nat) (s : State) : (pass t s).rstat = s.rstat := by simp [pass]
@[simp] theorem pass_irqMasked (t : Nat) (s : State) : (pass t s).irqMasked = s.irqMasked := by simp [pass]
@[simp] theorem pass_critStack (t : Nat) (s : State) : (pass t s).critStack = s.critStack := by simp [pass]
@[simp] theorem pass_romIn (t : Nat) (s : State) : (pass t s).romIn = s.romIn := by simp [pass]
@[simp] theorem pass_wdata (t : Nat) (s : State) : (pass t s).wdata = s.wdata := by simp [pass]
@[simp] theorem pass_romOut (t : Nat) (s : State) : (pass t s).romOut = s.romOut := by simp [pass]
@[simp] theorem pass_spOut (t : Nat) (s : State) : (pass t s).spOut = s.spOut := by simp [pass]
@[simp] theorem pass_bitOut (t : Nat) (s : State) : (pass t s).bitOut = s.bitOut := by simp [pass]
@[simp] theorem pass_byteOut (t : Nat) (s : State) : (pass t s).byteOut = s.byteOut := by simp [pass]
@[simp] theorem pass_now (t : Nat) (s : State) : (pass t s).now = t := by simp [pass]
@[simp] theorem pass_trace (t : Nat) (s : State) : (pass t s).trace = s.trace := by simp [pass]
@[simp] theorem pass_lineLow (t : Nat) (s : State) : (pass t s).lineLow = (passTo t s).lineLow := by simp [pass]
@[simp] theorem pass_devices (t : Nat) (s : State) : (pass t s).devices = (passTo t s).devices := by simp [pass]
@[simp] theorem pass_env (t : Nat) (s : State) : (pass t s).env = s.env := by simp [pass]
@[simp] theorem pass_inbox (t : Nat) (s : State) : (pass t s).inbox = s.inbox := by simp [pass]
@[simp] theorem pass_intruders (t : Nat) (s : State) : (pass t s).intruders = s.intruders := by simp [pass]
@[simp] theorem pass_resetsAt (t : Nat) (s : State) : (pass t s).resetsAt = s.resetsAt := by simp [pass]
@[simp] theorem pass_draws (t : Nat) (s : State) : (pass t s).draws = s.draws := by simp [pass]
@[simp] theorem pass_answer (t : Nat) (s : State) : (pass t s).answer = s.answer := by simp [pass]
@[simp] theorem pass_call (t : Nat) (s : State) : (pass t s).call = s.call := by simp [pass]

/-! ### setLineLow -/

@[simp] theorem setLineLow_bound (s : State) : (setLineLow s).bound = s.bound := by unfold setLineLow; dsimp only; split <;> simp [*]
@[simp] theorem setLineLow_pin (s : State) : (setLineLow s).pin = s.pin := by unfold setLineLow; dsimp only; split <;> simp [*]
@[simp] theorem setLineLow_drive (s : State) : (setLineLow s).drive = .drivenLow := by unfold setLineLow; dsimp only; split <;> simp [*]
@[simp] theorem setLineLow_busy (s : State) : (setLineLow s).busy = s.busy := by unfold setLineLow; dsimp only; split <;> simp [*]
@[simp] theorem setLineLow_upc (s : State) : (setLineLow s).upc = s.upc := by unfold setLineLow; dsimp only; split <;> simp [*]
@[simp] theorem setLineLow_fault (s : State) : (setLineLow s).fault = s.fault := by unfold setLineLow; dsimp only; split <;> simp [*]
@[simp] theorem setLineLow_faultWord (s : State) : (setLineLow s).faultWord = s.faultWord := by unfold setLineLow; dsimp only; split <;> simp [*]
@[simp] theorem setLineLow_shift (s : State) : (setLineLow s).shift = s.shift := by unfold setLineLow; dsimp only; split <;> simp [*]
@[simp] theorem setLineLow_bitcnt (s : State) : (setLineLow s).bitcnt = s.bitcnt := by unfold setLineLow; dsimp only; split <;> simp [*]
@[simp] theorem setLineLow_byteidx (s : State) : (setLineLow s).byteidx = s.byteidx := by unfold setLineLow; dsimp only; split <;> simp [*]
@[simp] theorem setLineLow_pres (s : State) : (setLineLow s).pres = s.pres := by unfold setLineLow; dsimp only; split <;> simp [*]
@[simp] theorem setLineLow_smpl (s : State) : (setLineLow s).smpl = s.smpl := by unfold setLineLow; dsimp only; split <;> simp [*]
@[simp] theorem setLineLow_copyUntil (s : State) : (setLineLow s).copyUntil = s.copyUntil := by unfold setLineLow; dsimp only; split <;> simp [*]
@[simp] theorem setLineLow_rstat (s : State) : (setLineLow s).rstat = s.rstat := by unfold setLineLow; dsimp only; split <;> simp [*]
@[simp] theorem setLineLow_irqMasked (s : State) : (setLineLow s).irqMasked = s.irqMasked := by unfold setLineLow; dsimp only; split <;> simp [*]
@[simp] theorem setLineLow_critStack (s : State) : (setLineLow s).critStack = s.critStack := by unfold setLineLow; dsimp only; split <;> simp [*]
@[simp] theorem setLineLow_romIn (s : State) : (setLineLow s).romIn = s.romIn := by unfold setLineLow; dsimp only; split <;> simp [*]
@[simp] theorem setLineLow_wdata (s : State) : (setLineLow s).wdata = s.wdata := by unfold setLineLow; dsimp only; split <;> simp [*]
@[simp] theorem setLineLow_romOut (s : State) : (setLineLow s).romOut = s.romOut := by unfold setLineLow; dsimp only; split <;> simp [*]
@[simp] theorem setLineLow_spOut (s : State) : (setLineLow s).spOut = s.spOut := by unfold setLineLow; dsimp only; split <;> simp [*]
@[simp] theorem setLineLow_bitOut (s : State) : (setLineLow s).bitOut = s.bitOut := by unfold setLineLow; dsimp only; split <;> simp [*]
@[simp] theorem setLineLow_byteOut (s : State) : (setLineLow s).byteOut = s.byteOut := by unfold setLineLow; dsimp only; split <;> simp [*]
@[simp] theorem setLineLow_now (s : State) : (setLineLow s).now = s.now := by unfold setLineLow; dsimp only; split <;> simp [*]
@[simp] theorem setLineLow_trace (s : State) : (setLineLow s).trace = (s.now, .low) :: s.trace := by unfold setLineLow; dsimp only; split <;> simp [*]
@[simp] theorem setLineLow_env (s : State) : (setLineLow s).env = s.env := by unfold setLineLow; dsimp only; split <;> simp [*]
@[simp] theorem setLineLow_inbox (s : State) : (setLineLow s).inbox = s.inbox := by unfold setLineLow; dsimp only; split <;> simp [*]
@[simp] theorem setLineLow_intruders (s : State) : (setLineLow s).intruders = s.intruders := by unfold setLineLow; dsimp only; split <;> simp [*]
@[simp] theorem setLineLow_resetsAt (s : State) : (setLineLow s).resetsAt = s.resetsAt := by unfold setLineLow; dsimp only; split <;> simp [*]
@[simp] theorem setLineLow_draws (s : State) : (setLineLow s).draws = s.draws := by unfold setLineLow; dsimp only; split <;> simp [*]
@[simp] theorem setLineLow_answer (s : State) : (setLineLow s).answer = s.answer := by unfold setLineLow; dsimp only; split <;> simp [*]
@[simp] theorem setLineLow_call (s : State) : (setLineLow s).call = s.call := by unfold setLineLow; dsimp only; split <;> simp [*]
@[simp] theorem setLineLow_viewReads (s : State) : (setLineLow s).viewReads = s.viewReads := by unfold setLineLow; dsimp only; split <;> simp [*]
@[simp] theorem setLineLow_viewed (s : State) : (setLineLow s).viewed = s.viewed := by unfold setLineLow; dsimp only; split <;> simp [*]

/-! ### releaseLine -/

@[simp] theorem releaseLine_bound (s : State) : (releaseLine s).bound = s.bound := by unfold releaseLine; dsimp only; split <;> simp_all
@[simp] theorem releaseLine_pin (s : State) : (releaseLine s).pin = s.pin := by unfold releaseLine; dsimp only; split <;> simp_all
@[simp] theorem releaseLine_drive (s : State) : (releaseLine s).drive = .released := by unfold releaseLine; dsimp only; split <;> simp_all
@[simp] theorem releaseLine_busy (s : State) : (releaseLine s).busy = s.busy := by unfold releaseLine; dsimp only; split <;> simp_all
@[simp] theorem releaseLine_upc (s : State) : (releaseLine s).upc = s.upc := by unfold releaseLine; dsimp only; split <;> simp_all
@[simp] theorem releaseLine_fault (s : State) : (releaseLine s).fault = s.fault := by unfold releaseLine; dsimp only; split <;> simp_all
@[simp] theorem releaseLine_faultWord (s : State) : (releaseLine s).faultWord = s.faultWord := by unfold releaseLine; dsimp only; split <;> simp_all
@[simp] theorem releaseLine_shift (s : State) : (releaseLine s).shift = s.shift := by unfold releaseLine; dsimp only; split <;> simp_all
@[simp] theorem releaseLine_bitcnt (s : State) : (releaseLine s).bitcnt = s.bitcnt := by unfold releaseLine; dsimp only; split <;> simp_all
@[simp] theorem releaseLine_byteidx (s : State) : (releaseLine s).byteidx = s.byteidx := by unfold releaseLine; dsimp only; split <;> simp_all
@[simp] theorem releaseLine_pres (s : State) : (releaseLine s).pres = s.pres := by unfold releaseLine; dsimp only; split <;> simp_all
@[simp] theorem releaseLine_smpl (s : State) : (releaseLine s).smpl = s.smpl := by unfold releaseLine; dsimp only; split <;> simp_all
@[simp] theorem releaseLine_copyUntil (s : State) : (releaseLine s).copyUntil = s.copyUntil := by unfold releaseLine; dsimp only; split <;> simp_all
@[simp] theorem releaseLine_rstat (s : State) : (releaseLine s).rstat = s.rstat := by unfold releaseLine; dsimp only; split <;> simp_all
@[simp] theorem releaseLine_irqMasked (s : State) : (releaseLine s).irqMasked = s.irqMasked := by unfold releaseLine; dsimp only; split <;> simp_all
@[simp] theorem releaseLine_critStack (s : State) : (releaseLine s).critStack = s.critStack := by unfold releaseLine; dsimp only; split <;> simp_all
@[simp] theorem releaseLine_romIn (s : State) : (releaseLine s).romIn = s.romIn := by unfold releaseLine; dsimp only; split <;> simp_all
@[simp] theorem releaseLine_wdata (s : State) : (releaseLine s).wdata = s.wdata := by unfold releaseLine; dsimp only; split <;> simp_all
@[simp] theorem releaseLine_romOut (s : State) : (releaseLine s).romOut = s.romOut := by unfold releaseLine; dsimp only; split <;> simp_all
@[simp] theorem releaseLine_spOut (s : State) : (releaseLine s).spOut = s.spOut := by unfold releaseLine; dsimp only; split <;> simp_all
@[simp] theorem releaseLine_bitOut (s : State) : (releaseLine s).bitOut = s.bitOut := by unfold releaseLine; dsimp only; split <;> simp_all
@[simp] theorem releaseLine_byteOut (s : State) : (releaseLine s).byteOut = s.byteOut := by unfold releaseLine; dsimp only; split <;> simp_all
@[simp] theorem releaseLine_now (s : State) : (releaseLine s).now = s.now := by unfold releaseLine; dsimp only; split <;> simp_all
@[simp] theorem releaseLine_trace (s : State) : (releaseLine s).trace = (s.now, .rel) :: s.trace := by unfold releaseLine; dsimp only; split <;> simp_all
@[simp] theorem releaseLine_env (s : State) : (releaseLine s).env = s.env := by unfold releaseLine; dsimp only; split <;> simp_all
@[simp] theorem releaseLine_inbox (s : State) : (releaseLine s).inbox = s.inbox := by unfold releaseLine; dsimp only; split <;> simp_all
@[simp] theorem releaseLine_intruders (s : State) : (releaseLine s).intruders = s.intruders := by unfold releaseLine; dsimp only; split <;> simp_all
@[simp] theorem releaseLine_resetsAt (s : State) : (releaseLine s).resetsAt = s.resetsAt := by unfold releaseLine; dsimp only; split <;> simp_all
@[simp] theorem releaseLine_draws (s : State) : (releaseLine s).draws = s.draws := by unfold releaseLine; dsimp only; split <;> simp_all
@[simp] theorem releaseLine_answer (s : State) : (releaseLine s).answer = s.answer := by unfold releaseLine; dsimp only; split <;> simp_all
@[simp] theorem releaseLine_call (s : State) : (releaseLine s).call = s.call := by unfold releaseLine; dsimp only; split <;> simp_all
@[simp] theorem releaseLine_viewReads (s : State) : (releaseLine s).viewReads = s.viewReads := by unfold releaseLine; dsimp only; split <;> simp_all
@[simp] theorem releaseLine_viewed (s : State) : (releaseLine s).viewed = s.viewed := by unfold releaseLine; dsimp only; split <;> simp_all

/-! ### raiseFault -/

@[simp] theorem raiseFault_bound (f : FaultCode) (w : ReqWord) (s : State) : (raiseFault f w s).bound = s.bound := by unfold raiseFault; split <;> simp_all
@[simp] theorem raiseFault_pin (f : FaultCode) (w : ReqWord) (s : State) : (raiseFault f w s).pin = s.pin := by unfold raiseFault; split <;> simp_all
@[simp] theorem raiseFault_drive (f : FaultCode) (w : ReqWord) (s : State) : (raiseFault f w s).drive = s.drive := by unfold raiseFault; split <;> simp_all
@[simp] theorem raiseFault_busy (f : FaultCode) (w : ReqWord) (s : State) : (raiseFault f w s).busy = s.busy := by unfold raiseFault; split <;> simp_all
@[simp] theorem raiseFault_upc (f : FaultCode) (w : ReqWord) (s : State) : (raiseFault f w s).upc = s.upc := by unfold raiseFault; split <;> simp_all
@[simp] theorem raiseFault_fault (f : FaultCode) (w : ReqWord) (s : State) : (raiseFault f w s).fault = if s.fault = .none then f else s.fault := by unfold raiseFault; split <;> simp_all
@[simp] theorem raiseFault_faultWord (f : FaultCode) (w : ReqWord) (s : State) : (raiseFault f w s).faultWord = if s.fault = .none then w else s.faultWord := by unfold raiseFault; split <;> simp_all
@[simp] theorem raiseFault_shift (f : FaultCode) (w : ReqWord) (s : State) : (raiseFault f w s).shift = s.shift := by unfold raiseFault; split <;> simp_all
@[simp] theorem raiseFault_bitcnt (f : FaultCode) (w : ReqWord) (s : State) : (raiseFault f w s).bitcnt = s.bitcnt := by unfold raiseFault; split <;> simp_all
@[simp] theorem raiseFault_byteidx (f : FaultCode) (w : ReqWord) (s : State) : (raiseFault f w s).byteidx = s.byteidx := by unfold raiseFault; split <;> simp_all
@[simp] theorem raiseFault_pres (f : FaultCode) (w : ReqWord) (s : State) : (raiseFault f w s).pres = s.pres := by unfold raiseFault; split <;> simp_all
@[simp] theorem raiseFault_smpl (f : FaultCode) (w : ReqWord) (s : State) : (raiseFault f w s).smpl = s.smpl := by unfold raiseFault; split <;> simp_all
@[simp] theorem raiseFault_copyUntil (f : FaultCode) (w : ReqWord) (s : State) : (raiseFault f w s).copyUntil = s.copyUntil := by unfold raiseFault; split <;> simp_all
@[simp] theorem raiseFault_rstat (f : FaultCode) (w : ReqWord) (s : State) : (raiseFault f w s).rstat = s.rstat := by unfold raiseFault; split <;> simp_all
@[simp] theorem raiseFault_irqMasked (f : FaultCode) (w : ReqWord) (s : State) : (raiseFault f w s).irqMasked = s.irqMasked := by unfold raiseFault; split <;> simp_all
@[simp] theorem raiseFault_critStack (f : FaultCode) (w : ReqWord) (s : State) : (raiseFault f w s).critStack = s.critStack := by unfold raiseFault; split <;> simp_all
@[simp] theorem raiseFault_romIn (f : FaultCode) (w : ReqWord) (s : State) : (raiseFault f w s).romIn = s.romIn := by unfold raiseFault; split <;> simp_all
@[simp] theorem raiseFault_wdata (f : FaultCode) (w : ReqWord) (s : State) : (raiseFault f w s).wdata = s.wdata := by unfold raiseFault; split <;> simp_all
@[simp] theorem raiseFault_romOut (f : FaultCode) (w : ReqWord) (s : State) : (raiseFault f w s).romOut = s.romOut := by unfold raiseFault; split <;> simp_all
@[simp] theorem raiseFault_spOut (f : FaultCode) (w : ReqWord) (s : State) : (raiseFault f w s).spOut = s.spOut := by unfold raiseFault; split <;> simp_all
@[simp] theorem raiseFault_bitOut (f : FaultCode) (w : ReqWord) (s : State) : (raiseFault f w s).bitOut = s.bitOut := by unfold raiseFault; split <;> simp_all
@[simp] theorem raiseFault_byteOut (f : FaultCode) (w : ReqWord) (s : State) : (raiseFault f w s).byteOut = s.byteOut := by unfold raiseFault; split <;> simp_all
@[simp] theorem raiseFault_now (f : FaultCode) (w : ReqWord) (s : State) : (raiseFault f w s).now = s.now := by unfold raiseFault; split <;> simp_all
@[simp] theorem raiseFault_trace (f : FaultCode) (w : ReqWord) (s : State) : (raiseFault f w s).trace = s.trace := by unfold raiseFault; split <;> simp_all
@[simp] theorem raiseFault_lineLow (f : FaultCode) (w : ReqWord) (s : State) : (raiseFault f w s).lineLow = s.lineLow := by unfold raiseFault; split <;> simp_all
@[simp] theorem raiseFault_devices (f : FaultCode) (w : ReqWord) (s : State) : (raiseFault f w s).devices = s.devices := by unfold raiseFault; split <;> simp_all
@[simp] theorem raiseFault_env (f : FaultCode) (w : ReqWord) (s : State) : (raiseFault f w s).env = s.env := by unfold raiseFault; split <;> simp_all
@[simp] theorem raiseFault_inbox (f : FaultCode) (w : ReqWord) (s : State) : (raiseFault f w s).inbox = s.inbox := by unfold raiseFault; split <;> simp_all
@[simp] theorem raiseFault_intruders (f : FaultCode) (w : ReqWord) (s : State) : (raiseFault f w s).intruders = s.intruders := by unfold raiseFault; split <;> simp_all
@[simp] theorem raiseFault_resetsAt (f : FaultCode) (w : ReqWord) (s : State) : (raiseFault f w s).resetsAt = s.resetsAt := by unfold raiseFault; split <;> simp_all
@[simp] theorem raiseFault_draws (f : FaultCode) (w : ReqWord) (s : State) : (raiseFault f w s).draws = s.draws := by unfold raiseFault; split <;> simp_all
@[simp] theorem raiseFault_answer (f : FaultCode) (w : ReqWord) (s : State) : (raiseFault f w s).answer = s.answer := by unfold raiseFault; split <;> simp_all
@[simp] theorem raiseFault_call (f : FaultCode) (w : ReqWord) (s : State) : (raiseFault f w s).call = s.call := by unfold raiseFault; split <;> simp_all
@[simp] theorem raiseFault_viewReads (f : FaultCode) (w : ReqWord) (s : State) : (raiseFault f w s).viewReads = s.viewReads := by unfold raiseFault; split <;> simp_all
@[simp] theorem raiseFault_viewed (f : FaultCode) (w : ReqWord) (s : State) : (raiseFault f w s).viewed = s.viewed := by unfold raiseFault; split <;> simp_all

/-! ### clearCopy -/

@[simp] theorem clearCopy_bound (s : State) : (clearCopy s).bound = s.bound := by unfold clearCopy; split <;> (try split) <;> simp_all
@[simp] theorem clearCopy_pin (s : State) : (clearCopy s).pin = s.pin := by unfold clearCopy; split <;> (try split) <;> simp_all
@[simp] theorem clearCopy_drive (s : State) : (clearCopy s).drive = s.drive := by unfold clearCopy; split <;> (try split) <;> simp_all
@[simp] theorem clearCopy_busy (s : State) : (clearCopy s).busy = s.busy := by unfold clearCopy; split <;> (try split) <;> simp_all
@[simp] theorem clearCopy_upc (s : State) : (clearCopy s).upc = s.upc := by unfold clearCopy; split <;> (try split) <;> simp_all
@[simp] theorem clearCopy_fault (s : State) : (clearCopy s).fault = s.fault := by unfold clearCopy; split <;> (try split) <;> simp_all
@[simp] theorem clearCopy_faultWord (s : State) : (clearCopy s).faultWord = s.faultWord := by unfold clearCopy; split <;> (try split) <;> simp_all
@[simp] theorem clearCopy_shift (s : State) : (clearCopy s).shift = s.shift := by unfold clearCopy; split <;> (try split) <;> simp_all
@[simp] theorem clearCopy_bitcnt (s : State) : (clearCopy s).bitcnt = s.bitcnt := by unfold clearCopy; split <;> (try split) <;> simp_all
@[simp] theorem clearCopy_byteidx (s : State) : (clearCopy s).byteidx = s.byteidx := by unfold clearCopy; split <;> (try split) <;> simp_all
@[simp] theorem clearCopy_pres (s : State) : (clearCopy s).pres = s.pres := by unfold clearCopy; split <;> (try split) <;> simp_all
@[simp] theorem clearCopy_smpl (s : State) : (clearCopy s).smpl = s.smpl := by unfold clearCopy; split <;> (try split) <;> simp_all
@[simp] theorem clearCopy_rstat (s : State) : (clearCopy s).rstat = s.rstat := by unfold clearCopy; split <;> (try split) <;> simp_all
@[simp] theorem clearCopy_irqMasked (s : State) : (clearCopy s).irqMasked = s.irqMasked := by unfold clearCopy; split <;> (try split) <;> simp_all
@[simp] theorem clearCopy_critStack (s : State) : (clearCopy s).critStack = s.critStack := by unfold clearCopy; split <;> (try split) <;> simp_all
@[simp] theorem clearCopy_romIn (s : State) : (clearCopy s).romIn = s.romIn := by unfold clearCopy; split <;> (try split) <;> simp_all
@[simp] theorem clearCopy_wdata (s : State) : (clearCopy s).wdata = s.wdata := by unfold clearCopy; split <;> (try split) <;> simp_all
@[simp] theorem clearCopy_romOut (s : State) : (clearCopy s).romOut = s.romOut := by unfold clearCopy; split <;> (try split) <;> simp_all
@[simp] theorem clearCopy_spOut (s : State) : (clearCopy s).spOut = s.spOut := by unfold clearCopy; split <;> (try split) <;> simp_all
@[simp] theorem clearCopy_bitOut (s : State) : (clearCopy s).bitOut = s.bitOut := by unfold clearCopy; split <;> (try split) <;> simp_all
@[simp] theorem clearCopy_byteOut (s : State) : (clearCopy s).byteOut = s.byteOut := by unfold clearCopy; split <;> (try split) <;> simp_all
@[simp] theorem clearCopy_now (s : State) : (clearCopy s).now = s.now := by unfold clearCopy; split <;> (try split) <;> simp_all
@[simp] theorem clearCopy_trace (s : State) : (clearCopy s).trace = s.trace := by unfold clearCopy; split <;> (try split) <;> simp_all
@[simp] theorem clearCopy_lineLow (s : State) : (clearCopy s).lineLow = s.lineLow := by unfold clearCopy; split <;> (try split) <;> simp_all
@[simp] theorem clearCopy_devices (s : State) : (clearCopy s).devices = s.devices := by unfold clearCopy; split <;> (try split) <;> simp_all
@[simp] theorem clearCopy_env (s : State) : (clearCopy s).env = s.env := by unfold clearCopy; split <;> (try split) <;> simp_all
@[simp] theorem clearCopy_inbox (s : State) : (clearCopy s).inbox = s.inbox := by unfold clearCopy; split <;> (try split) <;> simp_all
@[simp] theorem clearCopy_intruders (s : State) : (clearCopy s).intruders = s.intruders := by unfold clearCopy; split <;> (try split) <;> simp_all
@[simp] theorem clearCopy_resetsAt (s : State) : (clearCopy s).resetsAt = s.resetsAt := by unfold clearCopy; split <;> (try split) <;> simp_all
@[simp] theorem clearCopy_draws (s : State) : (clearCopy s).draws = s.draws := by unfold clearCopy; split <;> (try split) <;> simp_all
@[simp] theorem clearCopy_answer (s : State) : (clearCopy s).answer = s.answer := by unfold clearCopy; split <;> (try split) <;> simp_all
@[simp] theorem clearCopy_call (s : State) : (clearCopy s).call = s.call := by unfold clearCopy; split <;> (try split) <;> simp_all
@[simp] theorem clearCopy_viewReads (s : State) : (clearCopy s).viewReads = s.viewReads := by unfold clearCopy; split <;> (try split) <;> simp_all
@[simp] theorem clearCopy_viewed (s : State) : (clearCopy s).viewed = s.viewed := by unfold clearCopy; split <;> (try split) <;> simp_all
@[simp] theorem clearCopy_copyUntil (s : State) : (clearCopy s).copyUntil = if s.copyPending then s.copyUntil else none := by
  unfold clearCopy; split <;> (try split) <;> simp_all [State.copyPending]

end Sys2Proof.Machine
end

