-- ==== Sys2Proof/Laws/Engine.lean ====
section
/-! SUPPORT. What the shared operations of the engine do: time, the gap, the interpreter of micro-programs, and what a
micro-program keeps, restores, counts and lasts. Proofs about requests cite these instead of unfolding the interpreter. -/

namespace Sys2Proof.Machine

/-! ### Time without disturbance -/

theorem advance_of_noReset {s : State} (d : Nat) (h : s.resetsAt = []) : advance d s = pass (s.now + d) s := by
  simp [advance, h]

theorem readViews_of_noneDue {s : State} (n : Nat) (h : s.dueViews = []) : readViews n s = s := by
  simp only [readViews, h]
  rfl

/-- While interrupts are masked no context reads the status view. -/
theorem readViews_of_masked {s : State} (n : Nat) (h : s.irqMasked = true) : readViews n s = s :=
  readViews_of_noneDue n (by simp [State.dueViews, h])

/-- Where no read of the status view waits, none is made. -/
theorem readViews_of_none {s : State} (n : Nat) (h : s.viewReads = []) : readViews n s = s :=
  readViews_of_noneDue n (by simp [State.dueViews, h])

/-- The reads that are made are the first of those that wait, and are recorded on top of the earlier ones. -/
theorem readViews_suffix (n : Nat) (s : State) : (readViews n s).viewReads <:+ s.viewReads ∧ s.viewed <:+ (readViews n s).viewed :=
  ⟨List.drop_suffix .., List.suffix_append ..⟩

/-- While the engine drives the line low, or where no low period is tracked, nothing rises as time passes. -/
theorem passTo_of_noRise {s : State} (t : Nat) (h : s.drive = .drivenLow ∨ s.lineLow = none) : passTo t s = settleTo t s := by
  have e : s.riseBy? t = none := by
    unfold State.riseBy?
    rcases h with h | h
    · rw [h]
    · rw [h]; split <;> simp_all
  rw [passTo, e]

/-- As time passes, a low period that a device holds ends when the device stops. -/
theorem passTo_of_rise {s : State} {t start r : Nat} (hd : s.drive = .released) (hl : s.lineLow = some start)
    (hr : s.lineRise? = some r) :
    passTo t s = if r ≤ t then settleTo t (endLow start (settleTo r s)) else settleTo t s := by
  unfold passTo State.riseBy?
  simp only [hd, hl, hr]
  by_cases h : r ≤ t <;> simp [h]

theorem delayUs_of_noReset {s : State} (n : Nat) (h : s.resetsAt = []) :
    delayUs n s = pass (s.now + s.delayTime n) { s with draws := s.draws + 1 } :=
  advance_of_noReset _ h

theorem dueIntruder?_of_nil {s : State} (h : s.intruders = []) : s.dueIntruder? = none := by
  simp [State.dueIntruder?, h]

/-- A gap without a block reset: the time passes, and then a second request may be the fault CONCURRENT_REQUEST. -/
theorem passGap_cases {s : State} (h : s.resetsAt = []) :
    let t := pass (s.now + s.gapTime) { s with draws := s.draws + 1 }
    passGap s = t ∨ ∃ w rest, passGap s = raiseFault .concurrentRequest w { t with intruders := rest } := by
  have h' : ({ s with draws := s.draws + 1 } : State).resetsAt = [] := h
  intro t
  have e : advance s.gapTime { s with draws := s.draws + 1 } = t := advance_of_noReset _ h'
  unfold passGap
  simp only [e]
  split
  · split
    · exact .inr ⟨_, _, rfl⟩
    · exact .inl rfl
  · exact .inl rfl

theorem passGap_of_undisturbed {s : State} (h : Undisturbed s) :
    passGap s = pass (s.now + s.gapTime) { s with draws := s.draws + 1 } := by
  obtain ⟨hr, hi⟩ := h
  have h' : ({ s with draws := s.draws + 1 } : State).resetsAt = [] := hr
  have e : advance s.gapTime { s with draws := s.draws + 1 } = pass (s.now + s.gapTime) { s with draws := s.draws + 1 } :=
    advance_of_noReset _ h'
  have d : (pass (s.now + s.gapTime) { s with draws := s.draws + 1 }).dueIntruder? = none :=
    dueIntruder?_of_nil (by simpa using hi)
  unfold passGap
  simp only [e, d, ite_self]

/-! ### The interpreter -/

theorem running_iff (s : State) : s.running = true ↔ s.busy = true ∧ s.fault = .none := by
  simp [State.running]

@[simp] theorem run_nil (s : State) : run [] s = s := rfl

theorem run_of_not_running (p : List Micro) {s : State} (h : s.running = false) : run p s = s := by
  cases p <;> simp [run, h]

theorem run_cons_running (m : Micro) (p : List Micro) {s : State} (h : s.running = true) : run (m :: p) s = run p (m.exec s) := by
  simp [run, h]

theorem run_append (p q : List Micro) (s : State) : run (p ++ q) s = run q (run p s) := by
  induction p generalizing s with
  | nil => rfl
  | cons m p ih =>
    cases h : s.running
    · rw [run_of_not_running _ h, run_of_not_running _ h, run_of_not_running _ h]
    · rw [List.cons_append, run_cons_running _ _ h, run_cons_running _ _ h, ih]

/-- What every micro-operation of a program keeps, the program keeps. -/
theorem run_keeps (P : State → Prop) {p : List Micro} (step : ∀ m ∈ p, ∀ s, P s → P (m.exec s)) :
    ∀ s, P s → P (run p s) := by
  induction p with
  | nil => exact fun _ h => h
  | cons m p ih =>
    intro s hs
    cases h : s.running
    · rwa [run_of_not_running _ h]
    · rw [run_cons_running _ _ h]
      exact ih (fun m' hm' => step m' (List.mem_cons_of_mem _ hm')) _ (step m (List.mem_cons_self ..) s hs)

/-! ### What a micro-operation keeps when no block reset is scheduled -/

/-- The fields that no micro-operation writes when no block reset is scheduled. -/
structure Kept (s t : State) : Prop where
  bound : t.bound = s.bound
  pin : t.pin = s.pin
  busy : t.busy = s.busy
  rstat : t.rstat = s.rstat
  romIn : t.romIn = s.romIn
  wdata : t.wdata = s.wdata
  env : t.env = s.env
  inbox : t.inbox = s.inbox
  resetsAt : t.resetsAt = s.resetsAt
  answer : t.answer = s.answer

theorem Kept.refl (s : State) : Kept s s := ⟨rfl, rfl, rfl, rfl, rfl, rfl, rfl, rfl, rfl, rfl⟩

theorem Kept.trans {s t u : State} (h : Kept s t) (k : Kept t u) : Kept s u :=
  ⟨k.bound.trans h.bound, k.pin.trans h.pin, k.busy.trans h.busy, k.rstat.trans h.rstat, k.romIn.trans h.romIn,
   k.wdata.trans h.wdata, k.env.trans h.env, k.inbox.trans h.inbox, k.resetsAt.trans h.resetsAt, k.answer.trans h.answer⟩

theorem exitCritical_cases (s : State) :
    (s.critStack = [] ∧ exitCritical s = raiseFault .critUnderflow s.wordInFlight s) ∨
    ∃ m rest, s.critStack = m :: rest ∧
      exitCritical s = { s with critStack := rest, irqMasked := m }.emit .critOff := by
  unfold exitCritical
  cases h : s.critStack with
  | nil => exact .inl ⟨rfl, rfl⟩
  | cons m rest => exact .inr ⟨m, rest, rfl, rfl⟩

theorem passGap_kept {s : State} (h : s.resetsAt = []) : Kept s (passGap s) := by
  rcases passGap_cases h with e | ⟨w, rest, e⟩ <;> rw [e] <;> constructor <;> simp

theorem exitCritical_kept (s : State) : Kept s (exitCritical s) := by
  rcases exitCritical_cases s with ⟨-, e⟩ | ⟨m, rest, -, e⟩ <;> rw [e] <;> constructor <;> simp

theorem delayUs_kept {s : State} (n : Nat) (h : s.resetsAt = []) : Kept s (delayUs n s) := by
  rw [delayUs_of_noReset _ h]
  constructor <;> simp

theorem count_kept (s : State) : Kept s s.count := by constructor <;> simp

theorem Micro.exec_kept (m : Micro) {s : State} (h : s.resetsAt = []) : Kept s (m.exec s) := by
  cases m with
  | gap => exact passGap_kept h
  | exit => exact (exitCritical_kept s).trans (count_kept _)
  | delay us => exact (delayUs_kept us h).trans (count_kept _)
  | _ => constructor <;> simp [Micro.exec]

theorem run_kept (p : List Micro) {s : State} (h : s.resetsAt = []) : Kept s (run p s) :=
  run_keeps (fun t => Kept s t) (fun m _ _ k => k.trans (m.exec_kept (k.resetsAt.trans h))) s (Kept.refl s)

/-- The output cells and `copy_until`: only the stores of the program write them. -/
structure CellsKept (p : List Micro) (s t : State) : Prop where
  romOut : (∀ k, .storeRom k ∉ p) → t.romOut = s.romOut
  spOut : (∀ k, .storeSp k ∉ p) → t.spOut = s.spOut
  bitOut : .storeBit ∉ p → .storePresence ∉ p → t.bitOut = s.bitOut
  byteOut : .storeByte ∉ p → t.byteOut = s.byteOut
  copyUntil : .startCopy ∉ p → t.copyUntil = s.copyUntil

theorem Micro.exec_cells (m : Micro) {s : State} (h : s.resetsAt = []) : CellsKept [m] s (m.exec s) := by
  cases m with
  | gap =>
    rcases passGap_cases h with e | ⟨w, rest, e⟩ <;> constructor <;> intros <;> simp [Micro.exec, e]
  | exit =>
    rcases exitCritical_cases s with ⟨-, e⟩ | ⟨m, rest, -, e⟩ <;> constructor <;> intros <;> simp [Micro.exec, e]
  | delay us => constructor <;> intros <;> simp [Micro.exec, delayUs_of_noReset _ h]
  | _ => constructor <;> intros <;> simp_all [Micro.exec]

theorem run_cells (p : List Micro) {s : State} (h : s.resetsAt = []) : CellsKept p s (run p s) := by
  induction p generalizing s with
  | nil => exact ⟨fun _ => rfl, fun _ => rfl, fun _ _ => rfl, fun _ => rfl, fun _ => rfl⟩
  | cons m p ih =>
    cases hr : s.running
    · rw [run_of_not_running _ hr]
      exact ⟨fun _ => rfl, fun _ => rfl, fun _ _ => rfl, fun _ => rfl, fun _ => rfl⟩
    · rw [run_cons_running _ _ hr]
      have a := m.exec_cells h
      have b := ih ((m.exec_kept h).resetsAt.trans h)
      constructor
      · intro n
        simp only [List.mem_cons, not_or] at n
        exact (b.romOut (fun k => (n k).2)).trans (a.romOut (fun k => by simpa using (n k).1))
      · intro n
        simp only [List.mem_cons, not_or] at n
        exact (b.spOut (fun k => (n k).2)).trans (a.spOut (fun k => by simpa using (n k).1))
      · intro n n'
        simp only [List.mem_cons, not_or] at n n'
        exact (b.bitOut n.2 n'.2).trans (a.bitOut (by simpa using n.1) (by simpa using n'.1))
      · intro n
        simp only [List.mem_cons, not_or] at n
        exact (b.byteOut n.2).trans (a.byteOut (by simpa using n.1))
      · intro n
        simp only [List.mem_cons, not_or] at n
        exact (b.copyUntil n.2).trans (a.copyUntil (by simpa using n.1))

/-! ### Critical sections -/

/-- The program opens a critical section only outside one, closes it before its end, and has its gaps outside
(40_shim_interface.md rule R156, 60_exceptions.md rules R371, R373). The flag says whether it begins inside one. -/
def nested : Bool → List Micro → Bool
  | inside, [] => !inside
  | inside, .enter :: p => !inside && nested true p
  | inside, .exit :: p => inside && nested false p
  | inside, .gap :: p => !inside && nested false p
  | inside, _ :: p => nested inside p

/-- The mask is as it was outside the engine's section (`base`, `m`), or as the engine set it inside. -/
def MaskState (base : List Bool) (m inside : Bool) (s : State) : Prop :=
  if inside then s.critStack = m :: base ∧ s.irqMasked = true else s.critStack = base ∧ s.irqMasked = m

theorem MaskState.congr {base : List Bool} {m inside : Bool} {s t : State} (h : MaskState base m inside s)
    (h1 : t.critStack = s.critStack) (h2 : t.irqMasked = s.irqMasked) : MaskState base m inside t := by
  unfold MaskState at *
  rw [h1, h2]
  exact h

theorem Micro.exec_mask (m : Micro) {s : State} (h : s.resetsAt = []) (he : m ≠ .enter) (hx : m ≠ .exit) :
    (m.exec s).critStack = s.critStack ∧ (m.exec s).irqMasked = s.irqMasked := by
  cases m with
  | enter => exact absurd rfl he
  | exit => exact absurd rfl hx
  | gap => rcases passGap_cases h with e | ⟨w, rest, e⟩ <;> simp [Micro.exec, e]
  | delay us => simp [Micro.exec, delayUs_of_noReset _ h]
  | _ => simp [Micro.exec]

theorem Micro.exec_fault (m : Micro) {s : State} (h : Undisturbed s) (hx : m ≠ .exit) : (m.exec s).fault = s.fault := by
  cases m with
  | exit => exact absurd rfl hx
  | gap => simp [Micro.exec, passGap_of_undisturbed h]
  | delay us => simp [Micro.exec, delayUs_of_noReset _ h.1]
  | _ => simp [Micro.exec]

theorem Micro.exec_intruders (m : Micro) {s : State} (h : s.resetsAt = []) (hg : m ≠ .gap) :
    (m.exec s).intruders = s.intruders := by
  cases m with
  | gap => exact absurd rfl hg
  | exit => rcases exitCritical_cases s with ⟨-, e⟩ | ⟨m, rest, -, e⟩ <;> simp [Micro.exec, e]
  | delay us => simp [Micro.exec, delayUs_of_noReset _ h]
  | _ => simp [Micro.exec]

theorem Micro.exec_undisturbed (m : Micro) {s : State} (h : Undisturbed s) : Undisturbed (m.exec s) := by
  refine ⟨(m.exec_kept h.1).resetsAt.trans h.1, ?_⟩
  by_cases hg : m = .gap
  · subst hg
    simp [Micro.exec, passGap_of_undisturbed h, h.2]
  · rw [m.exec_intruders h.1 hg, h.2]

/-- The running flag is a flag of a nested program only at its gaps: a nested program leaves the interrupt mask and the stack of
critical sections as it found them, whether it runs to its end or a second request stops it in a gap. -/
theorem run_mask {base : List Bool} {m : Bool} (p : List Micro) : ∀ (inside : Bool) (s : State), s.resetsAt = [] →
    (inside = true → s.running = true) → nested inside p = true → MaskState base m inside s → MaskState base m false (run p s) := by
  induction p with
  | nil =>
    intro inside s _ _ hn hm
    cases inside
    · exact hm
    · simp [nested] at hn
  | cons a p ih =>
    intro inside s hr hrun hn hm
    cases hs : s.running
    · cases inside
      · rwa [run_of_not_running _ hs]
      · simp [hrun rfl] at hs
    · rw [run_cons_running _ _ hs]
      have hr' := (a.exec_kept hr).resetsAt.trans hr
      have stay : a ≠ .enter → a ≠ .exit → a ≠ .gap → nested inside p = true → MaskState base m false (run p (a.exec s)) := by
        intro h1 h2 h3 hn'
        have k := a.exec_mask hr h1 h2
        refine ih inside _ hr' (fun _ => ?_) hn' (hm.congr k.1 k.2)
        have hf : (a.exec s).fault = s.fault := by
          cases a <;> first | exact absurd rfl h2 | exact absurd rfl h3 | simp [Micro.exec, delayUs_of_noReset _ hr]
        rw [running_iff] at hs ⊢
        exact ⟨(a.exec_kept hr).busy.trans hs.1, hf.trans hs.2⟩
      cases a with
      | enter =>
        simp only [nested, Bool.and_eq_true, Bool.not_eq_true'] at hn
        obtain ⟨hi, hn⟩ := hn
        subst hi
        refine ih true _ hr' (fun _ => ?_) hn ?_
        · rw [running_iff] at hs ⊢
          simpa [Micro.exec] using hs
        · simp only [MaskState, Bool.false_eq_true, if_false, if_true] at hm ⊢
          simp [Micro.exec, hm.1, hm.2]
      | exit =>
        simp only [nested, Bool.and_eq_true] at hn
        obtain ⟨hi, hn⟩ := hn
        subst hi
        refine ih false _ hr' (by simp) hn ?_
        simp only [MaskState, if_true] at hm
        rcases exitCritical_cases s with ⟨hc, -⟩ | ⟨b, rest, hc, e⟩
        · simp [hm.1] at hc
        · rw [hm.1, List.cons.injEq] at hc
          simp [MaskState, Micro.exec, e, hc.1, hc.2]
      | gap =>
        simp only [nested, Bool.and_eq_true, Bool.not_eq_true'] at hn
        obtain ⟨hi, hn⟩ := hn
        subst hi
        have k := Micro.exec_mask .gap hr (by simp) (by simp)
        exact ih false _ hr' (by simp) hn (hm.congr k.1 k.2)
      | _ => exact stay (by simp) (by simp) (by simp) (by simpa [nested] using hn)

/-- A nested program restores the interrupt mask on every path (40_shim_interface.md rule R156, 60_exceptions.md rule R371). -/
theorem run_restores_mask {p : List Micro} {s : State} (hr : s.resetsAt = []) (hn : nested false p = true) :
    (run p s).critStack = s.critStack ∧ (run p s).irqMasked = s.irqMasked := by
  have h := run_mask (base := s.critStack) (m := s.irqMasked) p false s hr (by simp) hn (by simp [MaskState])
  simpa [MaskState] using h

/-! ### Programs that nothing disturbs -/

theorem run_undisturbed (p : List Micro) {s : State} (h : Undisturbed s) : Undisturbed (run p s) :=
  run_keeps Undisturbed (fun m _ _ k => m.exec_undisturbed k) s h

/-- A nested program that nothing disturbs runs to its end: `f` follows a quantity that each micro-operation changes by a known
function of itself. -/
theorem run_follows {α : Type} (e : Env) (f : State → α) (g : Micro → α → α)
    (hg : ∀ m s, s.env = e → Undisturbed s → s.running = true → (m = .exit → s.critStack ≠ []) → f (m.exec s) = g m (f s)) :
    ∀ (p : List Micro) (inside : Bool) (s : State), s.env = e → Undisturbed s → s.running = true → nested inside p = true →
      (inside = true → s.critStack ≠ []) →
      (run p s).running = true ∧ f (run p s) = p.foldl (fun a m => g m a) (f s) := by
  intro p
  induction p with
  | nil => intro inside s _ _ hr _ _; exact ⟨hr, rfl⟩
  | cons a p ih =>
    intro inside s he hu hr hn hc
    rw [run_cons_running _ _ hr, List.foldl_cons]
    have hx : a = .exit → s.critStack ≠ [] := by
      intro e
      subst e
      simp only [nested, Bool.and_eq_true] at hn
      exact hc hn.1
    rw [← hg a s he hu hr hx]
    have hf : (a.exec s).fault = s.fault := by
      by_cases e : a = .exit
      · subst e
        rcases exitCritical_cases s with ⟨h, -⟩ | ⟨m, rest, -, e⟩
        · exact absurd h (hx rfl)
        · simp [Micro.exec, e]
      · exact a.exec_fault hu e
    have hr' : (a.exec s).running = true := by
      rw [running_iff] at hr ⊢
      exact ⟨(a.exec_kept hu.1).busy.trans hr.1, hf.trans hr.2⟩
    have hu' := a.exec_undisturbed hu
    have he' : (a.exec s).env = e := (a.exec_kept hu.1).env.trans he
    cases a with
    | enter =>
      simp only [nested, Bool.and_eq_true] at hn
      exact ih true _ he' hu' hr' hn.2 (fun _ => by simp [Micro.exec])
    | exit =>
      simp only [nested, Bool.and_eq_true] at hn
      exact ih false _ he' hu' hr' hn.2 (by simp)
    | gap =>
      simp only [nested, Bool.and_eq_true] at hn
      exact ih false _ he' hu' hr' hn.2 (by simp)
    | _ =>
      refine ih inside _ he' hu' hr' (by simpa [nested] using hn) (fun hi => ?_)
      rw [(Micro.exec_mask _ hu.1 (by simp) (by simp)).1]
      exact hc hi

/-- A nested program that nothing disturbs is still running at its end. -/
theorem run_running {p : List Micro} {s : State} (hu : Undisturbed s) (hr : s.running = true) (hn : nested false p = true) :
    (run p s).running = true :=
  (run_follows s.env (fun _ => ()) (fun _ _ => ()) (fun _ _ _ _ _ _ => rfl) p false s rfl hu hr hn (by simp)).1

/-- How a micro-operation moves `upc` (10_state.md rule R36). -/
theorem Micro.exec_upc (m : Micro) {s : State} (hu : Undisturbed s) (hr : s.running = true)
    (hx : m = .exit → s.critStack ≠ []) :
    (m.exec s).upc = if m.isPrimitive then s.upc.bump else s.upc := by
  rw [running_iff] at hr
  cases m with
  | gap => simp [Micro.exec, Micro.isPrimitive, passGap_of_undisturbed hu]
  | exit =>
    rcases exitCritical_cases s with ⟨h, -⟩ | ⟨m, rest, -, e⟩
    · exact absurd h (hx rfl)
    · simp [Micro.exec, Micro.isPrimitive, e, State.running, hr.1, hr.2]
  | delay us => simp [Micro.exec, Micro.isPrimitive, delayUs_of_noReset _ hu.1, State.running, hr.1, hr.2]
  | _ => simp [Micro.exec, Micro.isPrimitive, State.running, hr.1, hr.2]

theorem foldl_bump (p : List Micro) (i : Instr) (k : Nat) :
    p.foldl (fun (u : Upc) m => if m.isPrimitive then u.bump else u) (.running i k) = .running i (k + primitives p) := by
  induction p generalizing k with
  | nil => rfl
  | cons m p ih =>
    rw [List.foldl_cons]
    cases h : m.isPrimitive
    · simpa [primitives, h] using ih k
    · simpa [primitives, h, Upc.bump, Nat.add_assoc, Nat.add_comm, Nat.add_left_comm] using ih (k + 1)

/-- A program that nothing disturbs moves `upc` by its number of shim primitives (70_reset_and_hazards.md rule R421). -/
theorem run_upc {p : List Micro} {s : State} (hu : Undisturbed s) (hr : s.running = true) (hn : nested false p = true)
    {i : Instr} {k : Nat} (h : s.upc = .running i k) : (run p s).upc = .running i (k + primitives p) := by
  have e := (run_follows s.env State.upc (fun m u => if m.isPrimitive then u.bump else u)
    (fun m s _ hu hr hx => m.exec_upc hu hr hx) p false s rfl hu hr hn (by simp)).2
  rw [e, h, foldl_bump]

/-- How long a micro-operation takes in the reference timing. -/
theorem Micro.exec_now (m : Micro) {s : State} {g : Nat} (ht : s.env.timing = .reference g) (hu : Undisturbed s) :
    (m.exec s).now = s.now + m.time g := by
  cases m with
  | gap => simp [Micro.exec, Micro.time, passGap_of_undisturbed hu, State.gapTime, ht]
  | exit => rcases exitCritical_cases s with ⟨-, e⟩ | ⟨m, rest, -, e⟩ <;> simp [Micro.exec, Micro.time, e]
  | delay us => simp [Micro.exec, Micro.time, delayUs_of_noReset _ hu.1, State.delayTime, ht]
  | _ => simp [Micro.exec, Micro.time]

theorem foldl_time (g : Nat) (p : List Micro) (n : Nat) :
    p.foldl (fun n m => n + m.time g) n = n + duration g p := by
  induction p generalizing n with
  | nil => simp [duration]
  | cons m p ih => simp [ih, duration, Nat.add_assoc]

/-- A program that nothing disturbs lasts its duration in the reference timing (70_reset_and_hazards.md rule R420). -/
theorem run_now {p : List Micro} {s : State} {g : Nat} (ht : s.env.timing = .reference g) (hu : Undisturbed s)
    (hr : s.running = true) (hn : nested false p = true) : (run p s).now = s.now + duration g p := by
  have e := (run_follows s.env State.now (fun m n => n + m.time g)
    (fun m s' he hu' _ _ => m.exec_now (by rw [he, ht]) hu') p false s rfl hu hr hn (by simp)).2
  rw [e, foldl_time]

end Sys2Proof.Machine
end

