-- ==== Sys2Proof/Laws/Programs.lean ====
section
/-! SUPPORT. The micro-programs as lists: each is nested, and its number of shim primitives, its duration and the cells it
stores are known (70_reset_and_hazards.md rules R420, R421). -/

namespace Sys2Proof.Machine

/-! ### Nesting -/

theorem nested_append {p q : List Micro} (hq : nested false q = true) :
    ∀ inside, nested inside p = true → nested inside (p ++ q) = true := by
  induction p with
  | nil => intro inside h; cases inside <;> simp_all [nested]
  | cons m p ih =>
    intro inside h
    cases inside <;> cases m <;> simp_all [nested]

theorem nested_flatMap {α : Type} {f : α → List Micro} (h : ∀ a, nested false (f a) = true) :
    ∀ l : List α, nested false (l.flatMap f) = true
  | [] => rfl
  | a :: l => by
    rw [List.flatMap_cons]
    exact nested_append (nested_flatMap h l) _ (h a)

@[simp] theorem nested_resetProgram : nested false resetProgram = true := rfl
@[simp] theorem nested_writeSlot (b : Bool) : nested false (writeSlot b) = true := by cases b <;> rfl
@[simp] theorem nested_readSlot : nested false readSlot = true := rfl

@[simp] theorem nested_writeByteProgram (v : Byte) : nested false (writeByteProgram v) = true := by
  refine (nested_flatMap (fun k => ?_) (List.range 8) : _)
  exact nested_append rfl _ (nested_writeSlot _)

@[simp] theorem nested_readByteProgram : nested false readByteProgram = true := by
  refine (nested_flatMap (fun k => ?_) (List.range 8) : _)
  exact nested_append rfl _ nested_readSlot

@[simp] theorem nested_addressProgram (rom : List Byte) (a : Addressing) : nested false (addressProgram rom a) = true := by
  cases a
  · exact nested_writeByteProgram _
  · exact nested_append (nested_flatMap nested_writeByteProgram _) _ (nested_writeByteProgram _)

@[simp] theorem nested_sendBytes (vs : List Byte) : ∀ k, nested false (sendBytes k vs) = true := by
  induction vs with
  | nil => exact fun _ => rfl
  | cons v vs ih => exact fun k => nested_append (p := .byteIndex k :: writeByteProgram v) (ih _) _ (nested_writeByteProgram v)

@[simp] theorem nested_receiveRom : nested false receiveRom = true :=
  nested_flatMap (fun k => nested_append (p := .byteIndex k :: readByteProgram) rfl _ nested_readByteProgram) _

@[simp] theorem nested_receiveScratchpad : nested false receiveScratchpad = true :=
  nested_flatMap (fun k => nested_append (p := .byteIndex k :: readByteProgram) rfl _ nested_readByteProgram) _

/-! ### Counts and durations -/

@[simp] theorem primitives_nil : primitives [] = 0 := rfl
@[simp] theorem primitives_append (p q : List Micro) : primitives (p ++ q) = primitives p + primitives q := by
  simp [primitives]
@[simp] theorem primitives_cons (m : Micro) (p : List Micro) :
    primitives (m :: p) = primitives p + if m.isPrimitive then 1 else 0 := by
  simp [primitives, List.countP_cons]
@[simp] theorem primitives_resetProgram : primitives resetProgram = 8 := rfl
@[simp] theorem primitives_readSlot : primitives readSlot = 9 := rfl
@[simp] theorem primitives_readByteProgram : primitives readByteProgram = 72 := rfl

/-- A written 1 runs seven primitives, a written 0 six (70_reset_and_hazards.md rule R421). -/
@[simp] theorem primitives_writeSlot (b : Bool) : primitives (writeSlot b) = 6 + b.toNat := by cases b <;> rfl

/-- The number of 1 bits of a byte. -/
def ones (v : Byte) : Nat := ((List.range 8).filter (fun k => sentBit v k)).length

theorem ones_le (v : Byte) : ones v ≤ 8 := by
  have h := List.length_filter_le (fun k => sentBit v k) (List.range 8)
  rwa [List.length_range] at h

/-- A written byte runs 48 primitives and one more for each 1 bit (70_reset_and_hazards.md rule R421). -/
@[simp] theorem primitives_writeByteProgram (v : Byte) : primitives (writeByteProgram v) = 48 + ones v := by
  have h : ∀ l : List Nat, primitives (l.flatMap (fun k => writeSlot (sentBit v k) ++ [.bitSent k]))
      = 6 * l.length + (l.filter (fun k => sentBit v k)).length := by
    intro l
    induction l with
    | nil => rfl
    | cons k l ih =>
      rw [List.flatMap_cons, primitives_append, ih, List.filter_cons]
      cases hk : sentBit v k <;> simp [Micro.isPrimitive] <;> omega
  simp [writeByteProgram, h, ones, Micro.isPrimitive]

@[simp] theorem duration_nil (g : Nat) : duration g [] = 0 := rfl
@[simp] theorem duration_append (g : Nat) (p q : List Micro) : duration g (p ++ q) = duration g p + duration g q := by
  simp [duration]
@[simp] theorem duration_cons (g : Nat) (m : Micro) (p : List Micro) : duration g (m :: p) = m.time g + duration g p := by
  simp [duration]

@[simp] theorem duration_resetProgram (g : Nat) : duration g resetProgram = g + 960 := by
  simp [resetProgram, Micro.time, Config.tRstl, Config.tPds, Config.tRstr, Config.params]
@[simp] theorem duration_writeSlot (g : Nat) (b : Bool) : duration g (writeSlot b) = g + 71 := by
  cases b <;> simp [writeSlot, Micro.time, Config.tLow1, Config.tLow0, Config.tSlot, Config.tRec, Config.params]
@[simp] theorem duration_readSlot (g : Nat) : duration g readSlot = g + 71 := by
  simp [readSlot, Micro.time, Config.tRl, Config.tMsr, Config.tSlot, Config.tRec, Config.params]

theorem duration_flatMap {α : Type} {f : α → List Micro} (g n : Nat) (h : ∀ a, duration g (f a) = n) :
    ∀ l : List α, duration g (l.flatMap f) = l.length * n
  | [] => by simp
  | a :: l => by simp [duration_flatMap g n h l, h a, Nat.succ_mul, Nat.add_comm]

@[simp] theorem duration_writeByteProgram (g : Nat) (v : Byte) : duration g (writeByteProgram v) = 8 * (g + 71) := by
  rw [writeByteProgram, duration_cons, duration_flatMap g (g + 71) (fun k => by simp [Micro.time]), List.length_range]
  simp [Micro.time]
@[simp] theorem duration_readByteProgram (g : Nat) : duration g readByteProgram = 8 * (g + 71) := by
  rw [readByteProgram, duration_cons, duration_flatMap g (g + 71) (fun k => by simp [Micro.time]), List.length_range]
  simp [Micro.time]
@[simp] theorem duration_addressProgram (g : Nat) (rom : List Byte) (a : Addressing) :
    duration g (addressProgram rom a) = (1 + if a = .matchRom then rom.length else 0) * (8 * (g + 71)) := by
  cases a
  · simp [addressProgram]
  · simp [addressProgram, duration_flatMap g (8 * (g + 71)) (fun v => duration_writeByteProgram g v), Nat.add_mul]
@[simp] theorem duration_sendBytes (g : Nat) (vs : List Byte) : ∀ k, duration g (sendBytes k vs) = vs.length * (8 * (g + 71)) := by
  induction vs with
  | nil => simp [sendBytes]
  | cons v vs ih =>
    intro k
    rw [sendBytes, List.cons_append, duration_cons, duration_append, duration_writeByteProgram, ih, List.length_cons,
      Nat.add_mul vs.length 1]
    simp [Micro.time, Nat.add_comm]
@[simp] theorem duration_receiveRom (g : Nat) : duration g receiveRom = 8 * (8 * (g + 71)) := by
  rw [receiveRom, duration_flatMap g (8 * (g + 71)) (fun k => ?_), List.length_range]
  rw [List.cons_append, duration_cons, duration_append, duration_readByteProgram]
  simp [Micro.time]
@[simp] theorem duration_receiveScratchpad (g : Nat) : duration g receiveScratchpad = 9 * (8 * (g + 71)) := by
  rw [receiveScratchpad, duration_flatMap g (8 * (g + 71)) (fun k => ?_), List.length_range]
  rw [List.cons_append, duration_cons, duration_append, duration_readByteProgram]
  simp [Micro.time]

@[simp] theorem length_romInBytes (s : State) : s.romInBytes.length = 8 := by simp [State.romInBytes]
@[simp] theorem length_wdataBytes (s : State) : s.wdataBytes.length = 3 := rfl

/-! ### Stores -/

/-- A micro-operation that writes no output cell and does not start a commit window. -/
def Micro.plain : Micro → Bool
  | .storePresence | .storeBit | .storeByte | .storeRom _ | .storeSp _ | .startCopy => false
  | _ => true

/-- A program that writes no output cell and does not start a commit window. -/
def plainProgram (p : List Micro) : Bool := p.all Micro.plain

@[simp] theorem plainProgram_append (p q : List Micro) : plainProgram (p ++ q) = (plainProgram p && plainProgram q) := by
  simp [plainProgram]
theorem plainProgram_flatMap {α : Type} {f : α → List Micro} (h : ∀ a, plainProgram (f a) = true) :
    ∀ l : List α, plainProgram (l.flatMap f) = true
  | [] => rfl
  | a :: l => by simp [h a, plainProgram_flatMap h l]
@[simp] theorem plain_resetProgram : plainProgram resetProgram = true := rfl
@[simp] theorem plain_writeSlot (b : Bool) : plainProgram (writeSlot b) = true := by cases b <;> rfl
@[simp] theorem plain_readSlot : plainProgram readSlot = true := rfl
@[simp] theorem plain_readByteProgram : plainProgram readByteProgram = true := rfl
@[simp] theorem plain_writeByteProgram (v : Byte) : plainProgram (writeByteProgram v) = true := by
  refine (plainProgram_flatMap (fun k => ?_) (List.range 8) : _)
  rw [plainProgram_append, plain_writeSlot]
  rfl
@[simp] theorem plain_addressProgram (rom : List Byte) (a : Addressing) : plainProgram (addressProgram rom a) = true := by
  cases a <;> simp [addressProgram, plainProgram_flatMap plain_writeByteProgram]
@[simp] theorem plain_sendBytes (vs : List Byte) : ∀ k, plainProgram (sendBytes k vs) = true := by
  induction vs with
  | nil => exact fun _ => rfl
  | cons v vs ih =>
    intro k
    have h : plainProgram (writeByteProgram v ++ sendBytes (k + 1) vs) = true := by simp [ih]
    simpa [sendBytes, plainProgram, Micro.plain] using h

/-- A plain program keeps every output cell and `copy_until` (10_state.md rule R44). -/
theorem run_plain {p : List Micro} {s : State} (h : s.resetsAt = []) (hp : plainProgram p = true) :
    (run p s).romOut = s.romOut ∧ (run p s).spOut = s.spOut ∧ (run p s).bitOut = s.bitOut
      ∧ (run p s).byteOut = s.byteOut ∧ (run p s).copyUntil = s.copyUntil := by
  have no : ∀ m, Micro.plain m = false → m ∉ p := fun m hm hin => by
    simp only [plainProgram, List.all_eq_true] at hp
    simp [hp m hin] at hm
  have c := run_cells p h
  exact ⟨c.romOut (fun k => no _ rfl), c.spOut (fun k => no _ rfl), c.bitOut (no _ rfl) (no _ rfl), c.byteOut (no _ rfl),
    c.copyUntil (no _ rfl)⟩

end Sys2Proof.Machine
end

