-- ==== Sys2Proof/Laws/Requests.lean ====
section
/-! SUPPORT. The prologue, the body and the response of a request: what each does once, for the proofs about the nineteen
operations. -/

namespace Sys2Proof.Machine

/-! ### The prologue (41_bus_driver.md rule R184) -/

theorem prologue_of_faulted (i : Instr) {s : State} (h : s.fault ≠ .none) : prologue i s = s := by simp [prologue, h]

theorem prologue_of_busy (i : Instr) {s : State} (h : s.fault = .none) (hb : s.busy = true) :
    prologue i s = raiseFault .concurrentRequest (requestWord i) s := by simp [prologue, h, hb]

@[simp] theorem clearCopy_inputMissing (i : Instr) (s : State) : (clearCopy s).inputMissing i = s.inputMissing i := by
  simp [State.inputMissing, State.romInWritten, State.wdataWritten]

theorem prologue_of_ready {i : Instr} {s : State} (h : Ready i s) : prologue i s = accept i (clearCopy s) := by
  obtain ⟨hf, hb, hn, hc, hi, -⟩ := h
  have h1 : (needsBinding i && !s.bound) = false := by
    cases e : needsBinding i
    · rfl
    · simp [hn e]
  have h2 : (drivesLine i && s.copyPending) = false := by
    cases e : drivesLine i
    · rfl
    · simp [hc e]
  simp [prologue, hf, hb, h1, h2, hi]

/-- Everything the prologue can do: nothing, one fault, or the acceptance of the request. -/
theorem prologue_cases (i : Instr) (s : State) :
    (s.fault ≠ .none ∧ prologue i s = s) ∨
    (s.fault = .none ∧ ∃ f, f ≠ .none ∧ (prologue i s = raiseFault f (requestWord i) s
      ∨ prologue i s = raiseFault f (requestWord i) (clearCopy s))) ∨
    (s.fault = .none ∧ s.busy = false ∧ (needsBinding i = true → s.bound = true) ∧ (drivesLine i = true → s.copyPending = false)
      ∧ s.inputMissing i = false ∧ prologue i s = accept i (clearCopy s)) := by
  by_cases hf : s.fault = .none
  · cases hb : s.busy
    · cases hn : (needsBinding i && !s.bound)
      · cases hc : (drivesLine i && s.copyPending)
        · cases hi : s.inputMissing i
          · refine .inr (.inr ⟨hf, rfl, ?_, ?_, rfl, by simp [prologue, hf, hb, hn, hc, hi]⟩)
            · intro e; simpa [e] using hn
            · intro e; simpa [e] using hc
          · exact .inr (.inl ⟨hf, .undefinedInput, by simp, .inr (by simp [prologue, hf, hb, hn, hc, hi])⟩)
        · exact .inr (.inl ⟨hf, .copyHazard, by simp, .inl (by simp [prologue, hf, hb, hn, hc])⟩)
      · exact .inr (.inl ⟨hf, .notBound, by simp, .inl (by simp [prologue, hf, hb, hn])⟩)
    · exact .inr (.inl ⟨hf, .concurrentRequest, by simp, .inl (prologue_of_busy i hf hb)⟩)
  · exact .inl ⟨hf, prologue_of_faulted i hf⟩

theorem running_accept {i : Instr} {s : State} (h : s.fault = .none) : (accept i (clearCopy s)).running = true := by
  simp [running_iff, h]

theorem undisturbed_accept {i : Instr} {s : State} (h : Undisturbed s) : Undisturbed (accept i (clearCopy s)) := by
  simpa [Undisturbed] using h

theorem request_of_ready {i : Instr} {s : State} (body : State → State) (h : Ready i s) :
    request i body s = body (accept i (clearCopy s)) := by
  rw [request, prologue_of_ready h, whileRunning, if_pos (running_accept h.1)]

/-- A request that is not accepted ends with its prologue. -/
theorem request_of_not_running {i : Instr} {s : State} (body : State → State) (h : (prologue i s).running = false) :
    request i body s = prologue i s := by
  simp [request, whileRunning, h]

theorem running_of_rejected {i : Instr} {s : State} (h : s.fault ≠ .none ∨ s.busy = true) : (prologue i s).running = false := by
  by_cases hf : s.fault = .none
  · rw [prologue_of_busy i hf (h.resolve_left (fun k => k hf))]
    simp [State.running, hf]
  · rw [prologue_of_faulted i hf]
    simp [State.running, hf]

/-- A faulted engine takes no step (60_exceptions.md rule R357). -/
theorem request_of_faulted (i : Instr) (body : State → State) {s : State} (h : s.fault ≠ .none) : request i body s = s := by
  rw [request_of_not_running _ (running_of_rejected (.inl h)), prologue_of_faulted i h]

/-! ### Bodies -/

/-- A Bus Driver request that is ready runs its program to the end and responds. -/
theorem busOperation_of_ready {op : Instr} {p : List Micro} {s : State} (o : State → Outputs) (h : Ready op s)
    (hn : nested false p = true) :
    busOperation op p o s = respond { status := .ok, outputs := o (run p (accept op (clearCopy s))) } (run p (accept op (clearCopy s))) := by
  rw [busOperation, request_of_ready _ h]
  simp only [whileRunning, run_running (undisturbed_accept h.2.2.2.2.2) (running_accept h.1) hn, if_true]

/-- The state after the reset pulse of a request. -/
def afterReset (op : Instr) (s : State) : State := run resetProgram (accept op (clearCopy s))

/-- A Device Protocol request that is ready: the reset, then the presence gate (42_rom_commands.md rule R230). -/
theorem transaction_of_ready {op : Instr} {c : OutCells} {body : State → List Micro} {s : State} (h : Ready op s)
    (hn : nested false (body (accept op (clearCopy s))) = true) :
    transaction op c body s =
      if (afterReset op s).pres.getD false
      then answerWith .ok c (run (body (accept op (clearCopy s))) (afterReset op s))
      else answerWith .noPresence c (clearOutputs c (afterReset op s)) := by
  have hu := undisturbed_accept (i := op) h.2.2.2.2.2
  have hr := running_accept (i := op) h.1
  have r1 : (afterReset op s).running = true := run_running hu hr nested_resetProgram
  have u1 : Undisturbed (afterReset op s) := run_undisturbed _ hu
  rw [transaction, request_of_ready _ h]
  show whileRunning _ (afterReset op s) = _
  simp only [whileRunning, r1, if_true, presenceGate, run_running u1 r1 hn]

theorem pres_afterReset {op : Instr} {s : State} (h : Ready op s) :
    ∃ l, (afterReset op s).smpl = some l ∧ (afterReset op s).pres = some (presenceOfLevel l) := by
  have hu := undisturbed_accept (i := op) h.2.2.2.2.2
  have hr := running_accept (i := op) h.1
  have split : resetProgram = [.gap, .enter, .setLow, .delay Config.tRstl, .release, .delay Config.tPds, .sample,
    .delay Config.tRstr, .exit] ++ [.presence] := rfl
  have r1 : (run [.gap, .enter, .setLow, .delay Config.tRstl, .release, .delay Config.tPds, .sample, .delay Config.tRstr, .exit]
      (accept op (clearCopy s))).running = true := run_running hu hr rfl
  have key := (run_follows (accept op (clearCopy s)).env (fun s => s.smpl.isSome) (fun m b => b || decide (m = .sample))
    (fun m s _ hu _ hx => by
      cases m with
      | gap => simp [Micro.exec, passGap_of_undisturbed hu]
      | exit =>
        rcases exitCritical_cases s with ⟨h, -⟩ | ⟨b, rest, -, e⟩
        · exact absurd h (hx rfl)
        · simp [Micro.exec, e]
      | delay us => simp [Micro.exec, delayUs_of_noReset _ hu.1]
      | _ => simp [Micro.exec])
    [.gap, .enter, .setLow, .delay Config.tRstl, .release, .delay Config.tPds, .sample, .delay Config.tRstr, .exit] false
    (accept op (clearCopy s)) rfl hu hr rfl (by simp)).2
  simp only [List.foldl_cons, List.foldl_nil, reduceCtorEq, decide_false, decide_true, Bool.or_false, Bool.or_true] at key
  rw [Option.isSome_iff_exists] at key
  obtain ⟨l, hl⟩ := key
  rw [afterReset, split, run_append, run_cons_running _ _ r1, run_nil]
  exact ⟨l, by simpa [Micro.exec] using hl, by simp [Micro.exec, State.sampledPresence, hl]⟩

/-! ### The fields of a response -/

@[simp] theorem answerWith_eq (st : Status) (c : OutCells) (s : State) :
    answerWith st c s = respond { status := st, outputs := outputsOf c s } s := rfl

/-- Memory laws of the host buffers (20_memory.md rule R70). -/
@[simp] theorem memRead_memWrite_same {n : Nat} (b : Buffer n) (k : Nat) (v : Byte) (h : k < n) :
    memRead (memWrite b k v) k = some v := by
  simp [memRead, memWrite, h]

theorem memRead_memWrite_other {n : Nat} (b : Buffer n) (k j : Nat) (v : Byte) (h : j ≠ k) :
    memRead (memWrite b k v) j = memRead b j := by
  simp only [memRead, memWrite]
  by_cases hj : j < n
  · simp [hj, Ne.symm h]
  · simp [hj]

end Sys2Proof.Machine
end

