-- ==== Sys2Proof/Laws/Waveform.lean ====
section
/-! SUPPORT. The line events of the micro-programs in the reference timing: what each micro-operation emits, and the events, the
duration and the received data of slots, bytes and frames. -/

namespace Sys2Proof.Machine

/-- A request is in flight, nothing disturbs it, and the timing is the reference timing with gaps of `g`. -/
structure Live (g : Nat) (s : State) : Prop where
  running : s.running = true
  undisturbed : Undisturbed s
  timing : s.env.timing = .reference g

theorem Live.run {g : Nat} {s : State} (h : Live g s) {p : List Micro} (hn : nested false p = true) : Live g (run p s) :=
  ⟨run_running h.undisturbed h.running hn, run_undisturbed p h.undisturbed,
   by rw [(run_kept p h.undisturbed.1).env, h.timing]⟩

/-- `R` holds at each micro-operation of a run. -/
def Steps (R : Micro → State → State → Prop) : List Micro → State → State → Prop
  | [], s, t => t = s
  | m :: p, s, t => ∃ u, R m s u ∧ Steps R p u t

/-- A nested program that nothing disturbs is a chain of its micro-operations. -/
theorem run_steps (e : Env) (R : Micro → State → State → Prop)
    (hR : ∀ m s, s.env = e → Undisturbed s → s.running = true → (m = .exit → s.critStack ≠ []) → R m s (m.exec s)) :
    ∀ (p : List Micro) (inside : Bool) (s : State), s.env = e → Undisturbed s → s.running = true → nested inside p = true →
      (inside = true → s.critStack ≠ []) → Steps R p s (run p s) := by
  intro p
  induction p with
  | nil => intro inside s _ _ _ _ _; rfl
  | cons a p ih =>
    intro inside s he hu hr hn hc
    rw [run_cons_running _ _ hr]
    have hx : a = .exit → s.critStack ≠ [] := by
      intro e
      subst e
      simp only [nested, Bool.and_eq_true] at hn
      exact hc hn.1
    refine ⟨a.exec s, hR a s he hu hr hx, ?_⟩
    have hf : (a.exec s).fault = s.fault := by
      by_cases e : a = .exit
      · subst e
        rcases exitCritical_cases s with ⟨h, -⟩ | ⟨m, rest, -, e⟩
        · exact absurd h (hx rfl)
        · simp [Micro.exec, e]
      · exact a.exec_fault hu e
    have hr' : (a.exec s).running = true := by
      rw [running_iff] at hr ⊢
      exact ⟨(a.exec_kept hu.1).busy.trans hr.1, hf.trans hr.2⟩
    have hu' := a.exec_undisturbed hu
    have he' : (a.exec s).env = e := (a.exec_kept hu.1).env.trans he
    cases a with
    | enter =>
      simp only [nested, Bool.and_eq_true] at hn
      exact ih true _ he' hu' hr' hn.2 (fun _ => by simp [Micro.exec])
    | exit =>
      simp only [nested, Bool.and_eq_true] at hn
      exact ih false _ he' hu' hr' hn.2 (by simp)
    | gap =>
      simp only [nested, Bool.and_eq_true] at hn
      exact ih false _ he' hu' hr' hn.2 (by simp)
    | _ =>
      refine ih inside _ he' hu' hr' (by simpa [nested] using hn) (fun hi => ?_)
      rw [(Micro.exec_mask _ hu.1 (by simp) (by simp)).1]
      exact hc hi

/-- What a micro-operation emits at `n`; `l` is the level it samples. -/
def Micro.emits (m : Micro) (n : Nat) (l : Level) : List (Nat × Event) :=
  match m with
  | .setLow => [(n, .low)]
  | .release => [(n, .rel)]
  | .sample => [(n, .smp l)]
  | .enter => [(n, .critOn)]
  | .exit => [(n, .critOff)]
  | _ => []

/-- What a micro-operation does to the clock, the trace and the working registers in the reference timing. -/
structure Micro.Effect (g : Nat) (m : Micro) (s t : State) : Prop where
  now : t.now = s.now + m.time g
  trace : ∃ l, t.trace = m.emits s.now l ++ s.trace ∧ t.smpl = if m = .sample then some l else s.smpl
  shift : t.shift = match m with
    | .loadByte v => some v
    | .collect k => some (collectBit (s.shift.getD 0) s.sampledBit k)
    | _ => s.shift
  pres : t.pres = if m = .presence then some s.sampledPresence else s.pres
  bitOut : t.bitOut = match m with
    | .storePresence => s.pres
    | .storeBit => some s.sampledBit
    | _ => s.bitOut
  byteOut : t.byteOut = if m = .storeByte then s.shift else s.byteOut
  romOut : t.romOut = match m with
    | .storeRom k => memWrite s.romOut k (s.shift.getD 0)
    | _ => s.romOut
  spOut : t.spOut = match m with
    | .storeSp k => memWrite s.spOut k (s.shift.getD 0)
    | _ => s.spOut

theorem Micro.exec_effect (m : Micro) {s : State} {g : Nat} (ht : s.env.timing = .reference g) (hu : Undisturbed s)
    (hx : m = .exit → s.critStack ≠ []) : m.Effect g s (m.exec s) := by
  have hn := m.exec_now ht hu
  cases m with
  | gap =>
    rw [Micro.exec, passGap_of_undisturbed hu] at hn ⊢
    refine ⟨hn, ⟨.low, ?_⟩, ?_, ?_, ?_, ?_, ?_, ?_⟩ <;> simp [Micro.emits]
  | exit =>
    rcases exitCritical_cases s with ⟨h, -⟩ | ⟨m, rest, -, e⟩
    · exact absurd h (hx rfl)
    · rw [Micro.exec, e] at hn ⊢
      exact ⟨hn, ⟨.low, rfl, rfl⟩, rfl, rfl, rfl, rfl, rfl, rfl⟩
  | delay us =>
    rw [Micro.exec, delayUs_of_noReset _ hu.1] at hn ⊢
    refine ⟨hn, ⟨.low, ?_⟩, ?_, ?_, ?_, ?_, ?_, ?_⟩ <;> simp [Micro.emits]
  | _ =>
    refine ⟨hn, ⟨s.lineLevel, ?_⟩, ?_, ?_, ?_, ?_, ?_, ?_⟩
    all_goals simp [Micro.exec, Micro.emits]

theorem Micro.Effect.quiet {g : Nat} {m : Micro} {s t : State} (h : m.Effect g s t) (hm : m ≠ .sample) :
    t.trace = m.emits s.now .low ++ s.trace ∧ t.smpl = s.smpl := by
  obtain ⟨l, ht, hs⟩ := h.trace
  rw [if_neg hm] at hs
  refine ⟨?_, hs⟩
  rw [ht]
  cases m <;> first | rfl | exact absurd rfl hm

/-- A nested program of a live request is a chain of effects. -/
theorem Live.steps {g : Nat} {s : State} (h : Live g s) {p : List Micro} (hn : nested false p = true) :
    Steps (Micro.Effect g) p s (Machine.run p s) :=
  run_steps s.env _ (fun m s' he hu _ hx => m.exec_effect (by rw [he, h.timing]) hu hx) p false s rfl h.undisturbed h.running hn
    (by simp)

/-! ### Slots in a row -/

theorem slotEvents_append (g : Nat) (xs ys : List Slot) : ∀ t, slotEvents g t (xs ++ ys)
    = slotEvents g t xs ++ slotEvents g (t + xs.length * (g + 71)) ys := by
  induction xs with
  | nil => intro t; simp [slotEvents]
  | cons x xs ih =>
    intro t
    rw [List.cons_append, slotEvents, slotEvents, ih, List.append_assoc, List.length_cons, Nat.add_one_mul]
    congr 3
    omega

/-- `t` is `s` after the slots `xs`: the request is still live, each slot took 71 µs after its gap, and its events are on the
trace. -/
structure Ran (g : Nat) (xs : List Slot) (s t : State) : Prop where
  live : Live g t
  now : t.now = s.now + xs.length * (g + 71)
  trace : t.trace = (slotEvents g s.now xs).reverse ++ s.trace

theorem Ran.nil {g : Nat} {s : State} (h : Live g s) : Ran g [] s s := ⟨h, by simp, by simp [slotEvents]⟩

theorem Ran.append {g : Nat} {xs ys : List Slot} {s t u : State} (h : Ran g xs s t) (k : Ran g ys t u) :
    Ran g (xs ++ ys) s u := by
  refine ⟨k.live, ?_, ?_⟩
  · rw [k.now, h.now, List.length_append, Nat.add_mul, Nat.add_assoc]
  · rw [k.trace, h.trace, h.now, slotEvents_append, List.reverse_append, List.append_assoc]

/-- A micro-operation that only writes registers is no slot. -/
theorem Ran.silent {g : Nat} {xs : List Slot} {s t u : State} (h : Ran g xs s t) (hl : Live g u) (hn : u.now = t.now)
    (ht : u.trace = t.trace) : Ran g xs s u := ⟨hl, hn.trans h.now, ht.trans h.trace⟩

/-- A write slot (41_bus_driver.md rules R190 to R192). -/
theorem writeSlot_ran {g : Nat} {s : State} (b : Bool) (h : Live g s) : Ran g [.write b] s (run (writeSlot b) s) := by
  refine ⟨h.run (nested_writeSlot b), ?_, ?_⟩
  · rw [run_now h.timing h.undisturbed h.running (nested_writeSlot b), duration_writeSlot]
    simp
  · have k := h.steps (nested_writeSlot b)
    generalize run (writeSlot b) s = t at k ⊢
    cases b
    all_goals
      simp only [writeSlot, Steps] at k
      obtain ⟨s1, e1, s2, e2, s3, e3, s4, e4, s5, e5, s6, e6, k⟩ := k
    · obtain ⟨s7, e7, k⟩ := k
      rw [k, (e7.quiet (by simp)).1, (e6.quiet (by simp)).1, (e5.quiet (by simp)).1, (e4.quiet (by simp)).1, (e3.quiet (by simp)).1,
        (e2.quiet (by simp)).1, (e1.quiet (by simp)).1]
      simp [Micro.emits, slotEvents, Slot.events, e6.now, e5.now, e4.now, e3.now, e2.now, e1.now, Micro.time, Config.tLow0,
        Config.tRec, Config.params, Nat.add_assoc]
    · obtain ⟨s7, e7, s8, e8, k⟩ := k
      rw [k, (e8.quiet (by simp)).1, (e7.quiet (by simp)).1, (e6.quiet (by simp)).1, (e5.quiet (by simp)).1, (e4.quiet (by simp)).1,
        (e3.quiet (by simp)).1, (e2.quiet (by simp)).1, (e1.quiet (by simp)).1]
      simp [Micro.emits, slotEvents, Slot.events, e7.now, e6.now, e5.now, e4.now, e3.now, e2.now, e1.now, Micro.time, Config.tLow1,
        Config.tSlot, Config.tRec, Config.params, Nat.add_assoc]

/-- A read slot (41_bus_driver.md rule R194): it samples one level. -/
theorem readSlot_ran {g : Nat} {s : State} (h : Live g s) :
    ∃ l, Ran g [.read l] s (run readSlot s) ∧ (run readSlot s).smpl = some l ∧ (run readSlot s).shift = s.shift := by
  have now : (run readSlot s).now = s.now + [Slot.read .low].length * (g + 71) := by
    rw [run_now h.timing h.undisturbed h.running nested_readSlot, duration_readSlot]
    simp
  have live := h.run nested_readSlot
  have k := h.steps nested_readSlot
  generalize run readSlot s = t at k now live ⊢
  simp only [readSlot, Steps] at k
  obtain ⟨s1, e1, s2, e2, s3, e3, s4, e4, s5, e5, s6, e6, s7, e7, s8, e8, s9, e9, s10, e10, k⟩ := k
  obtain ⟨l, t7, m7⟩ := e7.trace
  obtain ⟨t8, m8⟩ := e8.quiet (by simp)
  obtain ⟨t9, m9⟩ := e9.quiet (by simp)
  obtain ⟨t10, m10⟩ := e10.quiet (by simp)
  refine ⟨l, ⟨live, now, ?_⟩, ?_, ?_⟩
  · rw [k, t10, t9, t8, t7, (e6.quiet (by simp)).1, (e5.quiet (by simp)).1, (e4.quiet (by simp)).1, (e3.quiet (by simp)).1,
      (e2.quiet (by simp)).1, (e1.quiet (by simp)).1]
    simp [Micro.emits, slotEvents, Slot.events, e9.now, e8.now, e7.now, e6.now, e5.now, e4.now, e3.now, e2.now, e1.now,
      Micro.time, Config.tRl, Config.tMsr, Config.tSlot, Config.tRec, Config.params, Nat.add_assoc]
  · rw [k, m10, m9, m8, m7]
    simp
  · rw [k, e10.shift, e9.shift, e8.shift, e7.shift, e6.shift, e5.shift, e4.shift, e3.shift, e2.shift, e1.shift]

/-- A reset (41_bus_driver.md rules R185 to R187): it samples one level, and presence is asserted when that is low. -/
theorem resetProgram_ran {g : Nat} {s : State} (h : Live g s) :
    ∃ l, Live g (run resetProgram s) ∧ (run resetProgram s).now = s.now + g + 960
      ∧ (run resetProgram s).trace = (resetEvents (s.now + g) l).reverse ++ s.trace
      ∧ (run resetProgram s).pres = some (presenceOfLevel l) := by
  have now : (run resetProgram s).now = s.now + g + 960 := by
    rw [run_now h.timing h.undisturbed h.running nested_resetProgram, duration_resetProgram, Nat.add_assoc]
  have live := h.run nested_resetProgram
  have k := h.steps nested_resetProgram
  generalize run resetProgram s = t at k now live ⊢
  simp only [resetProgram, Steps] at k
  obtain ⟨s1, e1, s2, e2, s3, e3, s4, e4, s5, e5, s6, e6, s7, e7, s8, e8, s9, e9, s10, e10, k⟩ := k
  obtain ⟨l, t7, m7⟩ := e7.trace
  obtain ⟨t8, m8⟩ := e8.quiet (by simp)
  obtain ⟨t9, m9⟩ := e9.quiet (by simp)
  refine ⟨l, live, now, ?_, ?_⟩
  · rw [k, (e10.quiet (by simp)).1, t9, t8, t7, (e6.quiet (by simp)).1, (e5.quiet (by simp)).1, (e4.quiet (by simp)).1,
      (e3.quiet (by simp)).1, (e2.quiet (by simp)).1, (e1.quiet (by simp)).1]
    simp [Micro.emits, resetEvents, e8.now, e7.now, e6.now, e5.now, e4.now, e3.now, e2.now, e1.now,
      Micro.time, Config.tRstl, Config.tPds, Config.tRstr, Config.params, Nat.add_assoc]
  · rw [k, e10.pres, State.sampledPresence, m9, m8, m7]
    simp

/-! ### Bytes -/

/-- The first `n` bits of a byte as write slots. -/
theorem writeBits_ran {g : Nat} (v : Byte) (l : List Nat) : ∀ {s : State}, Live g s →
    Ran g (l.map (fun k => .write (v.getLsbD k))) s (run (l.flatMap (fun k => writeSlot (sentBit v k) ++ [.bitSent k])) s) := by
  induction l with
  | nil => exact fun h => Ran.nil h
  | cons k l ih =>
    intro s h
    have a := writeSlot_ran (sentBit v k) h
    have b : Ran g [.write (sentBit v k)] s (run [.bitSent k] (run (writeSlot (sentBit v k)) s)) :=
      a.silent (a.live.run rfl) (by rw [run_cons_running _ _ a.live.running]; rfl)
        (by rw [run_cons_running _ _ a.live.running]; rfl)
    rw [List.flatMap_cons, run_append, run_append]
    exact b.append (ih b.live)

/-- A written byte (41_bus_driver.md rules R197, R198). -/
theorem writeByte_ran {g : Nat} {s : State} (v : Byte) (h : Live g s) :
    Ran g (byteSlots [v]) s (run (writeByteProgram v) s) := by
  rw [writeByteProgram, run_cons_running _ _ h.running, byteSlots, List.flatMap_cons, List.flatMap_nil, List.append_nil]
  have l : Live g ((Micro.loadByte v).exec s) := ⟨h.running, h.undisturbed, h.timing⟩
  have r := writeBits_ran v (List.range 8) l
  exact ⟨r.live, r.now, r.trace⟩

theorem byteSlots_append (vs ws : List Byte) : byteSlots (vs ++ ws) = byteSlots vs ++ byteSlots ws := by
  simp [byteSlots]

theorem byteSlots_cons (v : Byte) (vs : List Byte) : byteSlots (v :: vs) = byteSlots [v] ++ byteSlots vs :=
  byteSlots_append [v] vs

/-- Bytes written one after another. -/
theorem writeBytes_ran {g : Nat} (vs : List Byte) : ∀ {s : State}, Live g s →
    Ran g (byteSlots vs) s (run (vs.flatMap writeByteProgram) s) := by
  induction vs with
  | nil => exact fun h => Ran.nil h
  | cons v vs ih =>
    intro s h
    rw [List.flatMap_cons, run_append, byteSlots_cons]
    exact (writeByte_ran v h).append (ih (writeByte_ran v h).live)

/-- Bytes written one after another with `byteidx` counting them. -/
theorem sendBytes_ran {g : Nat} (vs : List Byte) : ∀ (k : Nat) {s : State}, Live g s →
    Ran g (byteSlots vs) s (run (sendBytes k vs) s) := by
  induction vs with
  | nil => exact fun _ _ h => Ran.nil h
  | cons v vs ih =>
    intro k s h
    rw [sendBytes, List.cons_append, run_cons_running _ _ h.running, run_append, byteSlots_cons]
    have l : Live g ((Micro.byteIndex k).exec s) := ⟨h.running, h.undisturbed, h.timing⟩
    have a := writeByte_ran v l
    exact Ran.append ⟨a.live, a.now, a.trace⟩ (ih _ a.live)

/-- The addressing phase (42_rom_commands.md rule R231). -/
theorem addressProgram_ran {g : Nat} {s : State} (t : State) (a : Addressing) (h : Live g s) :
    Ran g (byteSlots (addressBytes t a)) s (run (addressProgram t.romInBytes a) s) := by
  cases a
  · exact writeByte_ran _ h
  · rw [addressProgram, run_append]
    show Ran g (byteSlots (0x55 :: t.romInBytes)) s _
    rw [byteSlots_cons]
    exact (writeByte_ran _ h).append (writeBytes_ran _ (writeByte_ran _ h).live)

/-! ### Received bytes -/

/-- The bits of a bit placed at position `n`. -/
theorem getLsbD_bitAt {w : Nat} (b : Bool) {n j : Nat} (hj : j < w) : (bitAt w b n).getLsbD j = (decide (n = j) && b) := by
  cases b
  · simp [bitAt]
  · rw [bitAt, if_pos rfl, BitVec.getLsbD_shiftLeft, BitVec.getLsbD_one]
    by_cases h : n = j
    · subst h
      simp [hj]
      omega
    · by_cases h' : j < n
      · simp [h', h]
      · have : ¬ (j - n = 0) := by omega
        simp [h, this]

/-- Bit `j` of a byte that has collected the levels `ls` from position 0 on. -/
theorem collect_bits (ls : List Level) : ∀ (n : Nat) (b : Byte), n + ls.length ≤ 8 → ∀ j < 8,
    ((ls.zipIdx n).foldl (fun v p => collectBit v (bitOfLevel p.1) p.2) b).getLsbD j
      = (b.getLsbD j || (decide (n ≤ j) && decide (ls[j - n]? = some .high))) := by
  induction ls with
  | nil => intro n b _ j _; simp
  | cons l ls ih =>
    intro n b hn j hj
    rw [List.length_cons] at hn
    rw [List.zipIdx_cons, List.foldl_cons, ih (n + 1) _ (by omega) j hj]
    have hb : (collectBit b (bitOfLevel l) n).getLsbD j = (b.getLsbD j || (decide (n = j) && bitOfLevel l)) := by
      rw [collectBit, BitVec.getLsbD_or, getLsbD_bitAt _ hj]
    rw [hb]
    by_cases h : n = j
    · subst h
      cases l <;> simp [bitOfLevel]
    · by_cases h' : n + 1 ≤ j
      · have e : j - n = (j - (n + 1)) + 1 := by omega
        have h'' : n ≤ j := by omega
        simp [h, h', h'', e]
      · have h'' : ¬ n ≤ j := by omega
        simp [h, h', h'']

theorem readBits_ran {g : Nat} (idx : List Nat) : ∀ (b : Byte) {s : State}, Live g s → s.shift = some b →
    ∃ ls : List Level, ls.length = idx.length ∧ Ran g (ls.map .read) s (run (idx.flatMap (fun k => readSlot ++ [.collect k])) s)
      ∧ (run (idx.flatMap (fun k => readSlot ++ [.collect k])) s).shift
        = some ((ls.zip idx).foldl (fun v p => collectBit v (bitOfLevel p.1) p.2) b) := by
  induction idx with
  | nil => exact fun b s h hs => ⟨[], rfl, Ran.nil h, hs⟩
  | cons k idx ih =>
    intro b s h hs
    obtain ⟨l, r, hl, hsh⟩ := readSlot_ran h
    have e : run [.collect k] (run readSlot s) = Micro.exec (.collect k) (run readSlot s) := by
      rw [run_cons_running _ _ r.live.running, run_nil]
    have r' : Ran g [.read l] s (run [.collect k] (run readSlot s)) :=
      r.silent (r.live.run rfl) (by rw [e]; rfl) (by rw [e]; rfl)
    have sh : (run [.collect k] (run readSlot s)).shift = some (collectBit b (bitOfLevel l) k) := by
      rw [e]
      simp [Micro.exec, State.sampledBit, hl, hsh, hs]
    obtain ⟨ls, hlen, rr, hfold⟩ := ih _ r'.live sh
    refine ⟨l :: ls, by simp [hlen], ?_, ?_⟩
    · rw [List.flatMap_cons, run_append, run_append]
      exact r'.append rr
    · rw [List.flatMap_cons, run_append, run_append, hfold]
      rfl

/-- A received byte (41_bus_driver.md rule R199): eight sampled levels, and their byte in `shift`. -/
theorem readByte_ran {g : Nat} {s : State} (h : Live g s) :
    ∃ (ls : List Level) (v : Byte), ls.length = 8 ∧ Ran g (ls.map .read) s (run readByteProgram s) ∧ (run readByteProgram s).shift = some v
      ∧ IsReceivedByte ls 0 v := by
  rw [readByteProgram, run_cons_running _ _ h.running]
  have l : Live g ((Micro.loadByte 0).exec s) := ⟨h.running, h.undisturbed, h.timing⟩
  obtain ⟨ls, hlen, r, hs⟩ := readBits_ran (List.range 8) 0 l rfl
  rw [List.length_range] at hlen
  refine ⟨ls, _, hlen, ⟨r.live, r.now, r.trace⟩, hs, ?_⟩
  have z : ls.zip (List.range 8) = ls.zipIdx 0 := by rw [List.zipIdx_eq_zip_range', hlen, List.range_eq_range']
  intro j hj
  rw [z, collect_bits ls 0 0 (by omega) j hj]
  simp

theorem IsReceivedByte.append_left {ls ms : List Level} {k : Nat} {v : Byte} (h : IsReceivedByte ls k v)
    (hk : 8 * k + 8 ≤ ls.length) : IsReceivedByte (ls ++ ms) k v := by
  intro j hj
  rw [h j hj, List.getElem?_append_left (by omega)]

theorem IsReceivedByte.append_right {ls ms : List Level} {k : Nat} {v : Byte} (h : IsReceivedByte ms 0 v)
    (hk : ls.length = 8 * k) : IsReceivedByte (ls ++ ms) k v := by
  intro j hj
  rw [h j hj, List.getElem?_append_right (by omega)]
  congr 3
  omega

theorem readByteProgram_noStores : (∀ k, .storeRom k ∉ readByteProgram) ∧ (∀ k, .storeSp k ∉ readByteProgram) := by
  have h := plain_readByteProgram
  rw [plainProgram, List.all_eq_true] at h
  exact ⟨fun k hk => by simpa [Micro.plain] using h _ hk, fun k hk => by simpa [Micro.plain] using h _ hk⟩

/-- Bytes received one after another: `store k` is the micro-operation that stores `shift` in cell `k` of the buffer `cells`. -/
theorem receive_ran {g w : Nat} (cells : State → Buffer w) (store : Nat → Micro)
    (hstore : ∀ k s, Live g s → Live g ((store k).exec s) ∧ ((store k).exec s).now = s.now ∧ ((store k).exec s).trace = s.trace
      ∧ cells ((store k).exec s) = memWrite (cells s) k (s.shift.getD 0))
    (hkeep : ∀ s, Live g s → cells (run readByteProgram s) = cells s)
    (hindex : ∀ k s, cells ((Micro.byteIndex k).exec s) = cells s) :
    ∀ (m n : Nat), n + m ≤ w → ∀ {s : State}, Live g s →
      ∃ ls : List Level, ls.length = 8 * m
        ∧ Ran g (ls.map .read) s (run ((List.range' n m).flatMap (fun k => .byteIndex k :: readByteProgram ++ [store k])) s)
        ∧ (∀ k < n, memRead (cells (run ((List.range' n m).flatMap (fun k => .byteIndex k :: readByteProgram ++ [store k])) s)) k
            = memRead (cells s) k)
        ∧ ∀ k < m, ∃ v, memRead (cells (run ((List.range' n m).flatMap
            (fun k => .byteIndex k :: readByteProgram ++ [store k])) s)) (n + k) = some v ∧ IsReceivedByte ls k v := by
  intro m
  induction m with
  | zero => exact fun n _ s h => ⟨[], rfl, Ran.nil h, fun _ _ => rfl, fun _ h => absurd h (by omega)⟩
  | succ m ih =>
    intro n hw s h
    have l : Live g ((Micro.byteIndex n).exec s) := ⟨h.running, h.undisturbed, h.timing⟩
    obtain ⟨ls, v, hlen, r, hv, hb⟩ := readByte_ran l
    obtain ⟨sl, sn, st, sc⟩ := hstore n _ r.live
    have e : run (.byteIndex n :: readByteProgram ++ [store n]) s
        = (store n).exec (run readByteProgram ((Micro.byteIndex n).exec s)) := by
      rw [List.cons_append, run_cons_running _ _ h.running, run_append, run_cons_running _ _ r.live.running, run_nil]
    have r1 : Ran g (ls.map .read) s (run (.byteIndex n :: readByteProgram ++ [store n]) s) := by
      rw [e]
      exact Ran.silent ⟨r.live, r.now, r.trace⟩ sl sn st
    have c1 : cells (run (.byteIndex n :: readByteProgram ++ [store n]) s) = memWrite (cells s) n v := by
      rw [e, sc, hv, hkeep _ l, hindex]
      rfl
    obtain ⟨ms, mlen, r2, keep, got⟩ := ih (n + 1) (by omega) r1.live
    rw [List.range'_succ, List.flatMap_cons, run_append]
    refine ⟨ls ++ ms, by rw [List.length_append, hlen, mlen]; omega, ?_, ?_, ?_⟩
    · rw [List.map_append]
      exact r1.append r2
    · intro k hk
      rw [keep k (by omega), c1, memRead_memWrite_other _ _ _ _ (by omega)]
    · intro k hk
      match k with
      | 0 =>
        refine ⟨v, ?_, hb.append_left (by omega)⟩
        refine (keep n (by omega)).trans ?_
        rw [c1, memRead_memWrite_same _ _ _ (by omega)]
      | k + 1 =>
        obtain ⟨v', e', b'⟩ := got k (by omega)
        refine ⟨v', ?_, ?_⟩
        · rw [← e']
          congr 1
          omega
        · intro j hj
          rw [b' j hj, List.getElem?_append_right (by omega)]
          congr 3
          omega

/-- Eight received bytes in ROM_OUT (42_rom_commands.md rule R235). -/
theorem receiveRom_ran {g : Nat} {s : State} (h : Live g s) :
    ∃ ls : List Level, ls.length = 64 ∧ Ran g (ls.map .read) s (run receiveRom s)
      ∧ ∀ k < 8, ∃ v, memRead (run receiveRom s).romOut k = some v ∧ IsReceivedByte ls k v := by
  obtain ⟨ls, hl, r, -, hv⟩ := receive_ran (g := g) State.romOut .storeRom (fun k s h => ⟨⟨h.running, h.undisturbed, h.timing⟩, rfl, rfl, rfl⟩)
    (fun s h => (run_cells readByteProgram h.undisturbed.1).romOut readByteProgram_noStores.1) (fun _ _ => rfl) Config.romBytes 0 (Nat.le_refl _) h
  rw [receiveRom, List.range_eq_range']
  exact ⟨ls, hl, r, fun k hk => by simpa only [Nat.zero_add] using hv k hk⟩

/-- Nine received bytes in SP_OUT (43_function_commands.md rule R266). -/
theorem receiveScratchpad_ran {g : Nat} {s : State} (h : Live g s) :
    ∃ ls : List Level, ls.length = 72 ∧ Ran g (ls.map .read) s (run receiveScratchpad s)
      ∧ ∀ k < 9, ∃ v, memRead (run receiveScratchpad s).spOut k = some v ∧ IsReceivedByte ls k v := by
  obtain ⟨ls, hl, r, -, hv⟩ := receive_ran (g := g) State.spOut .storeSp (fun k s h => ⟨⟨h.running, h.undisturbed, h.timing⟩, rfl, rfl, rfl⟩)
    (fun s h => (run_cells readByteProgram h.undisturbed.1).spOut readByteProgram_noStores.2) (fun _ _ => rfl) Config.spBytes 0 (Nat.le_refl _) h
  rw [receiveScratchpad, List.range_eq_range']
  exact ⟨ls, hl, r, fun k hk => by simpa only [Nat.zero_add] using hv k hk⟩

end Sys2Proof.Machine
end

