-- ==== Sys2Proof/Laws/Line.lean ====
section
/-! SUPPORT. One device on the bound line in the reference environment: what a slot of the engine does to it, and what a read slot
samples (45_reference_device.md rules R307 to R311). -/

namespace Sys2Proof.Machine

/-! ### The parts of a device that time and slots leave alone -/

@[simp] theorem Device.settle_pin (n : Nat) (d : Device) : (d.settle n).pin = d.pin := by unfold Device.settle; split <;> rfl
@[simp] theorem Device.settle_presence (n : Nat) (d : Device) : (d.settle n).presence = d.presence := by
  unfold Device.settle; split <;> rfl
@[simp] theorem Device.settle_hold (n : Nat) (d : Device) : (d.settle n).hold = d.hold := by
  unfold Device.settle; split <;> rfl
@[simp] theorem Device.fall_pin (n : Nat) (d : Device) : (d.fall n).pin = d.pin := by unfold Device.fall; split <;> rfl
@[simp] theorem Device.fall_presence (n : Nat) (d : Device) : (d.fall n).presence = d.presence := by
  unfold Device.fall; split <;> rfl
@[simp] theorem Device.slot_pin (a b : Nat) (d : Device) : (d.slot a b).pin = d.pin := by
  unfold Device.slot; split ; rfl; dsimp only; split <;> rfl
@[simp] theorem Device.slot_presence (a b : Nat) (d : Device) : (d.slot a b).presence = d.presence := by
  unfold Device.slot; split ; rfl; dsimp only; split <;> rfl
@[simp] theorem Device.slot_hold (a b : Nat) (d : Device) : (d.slot a b).hold = d.hold := by
  unfold Device.slot; split ; rfl; dsimp only; split <;> rfl

theorem Ds18b20.settle_settle {m n : Nat} (h : m ≤ n) (x : Ds18b20) : (x.settle m).settle n = x.settle n := by
  unfold Ds18b20.settle
  cases hx : x.act with
  | none => simp [hx]
  | converting t raw =>
    by_cases a : t ≤ m
    · have : t ≤ n := by omega
      simp [a, this]
    · simp [a, hx]
  | copying t =>
    by_cases a : t ≤ m
    · have : t ≤ n := by omega
      simp [a, this]
    · simp [a, hx]

/-- Time passes in steps as it passes at once. -/
theorem Device.settle_settle {m n : Nat} (h : m ≤ n) (d : Device) : (d.settle m).settle n = d.settle n := by
  unfold Device.settle
  cases hk : d.kind <;> simp [hk, Ds18b20.settle_settle h]

/-- What runs in a device is not done at `n`. -/
def Act.NotDue (n : Nat) : Act → Prop
  | .none => True
  | .converting t _ => n < t
  | .copying t => n < t

theorem Ds18b20.settle_of_notDue {n : Nat} {x : Ds18b20} (h : x.act.NotDue n) : x.settle n = x := by
  unfold Ds18b20.settle
  cases hx : x.act with
  | none => rfl
  | converting t raw => rw [hx] at h; exact if_neg (Nat.not_le.2 h)
  | copying t => rw [hx] at h; exact if_neg (Nat.not_le.2 h)

theorem Ds18b20.settle_notDue (n : Nat) (x : Ds18b20) : (x.settle n).act.NotDue n := by
  unfold Ds18b20.settle
  cases hx : x.act with
  | none => simp [hx, Act.NotDue]
  | converting t raw =>
    by_cases h : t ≤ n
    · simp [h, Act.NotDue]
    · simp [h, hx, Act.NotDue]; omega
  | copying t =>
    by_cases h : t ≤ n
    · simp [h, Act.NotDue]
    · simp [h, hx, Act.NotDue]; omega

theorem Ds18b20.moveBit_act (bit : Bool) (x : Ds18b20) : (x.moveBit bit).act = x.act ∧ (x.moveBit bit).slotEnd = x.slotEnd := by
  unfold Ds18b20.moveBit Ds18b20.storeWsp
  split <;> (repeat' split) <;> simp_all

/-- A command leaves what runs in the device, or starts something that ends after the command's last slot. -/
theorem Ds18b20.decodeCommand_notDue {n : Nat} {x : Ds18b20} (h : x.act.NotDue n) (hn : n ≤ x.slotEnd) :
    x.decodeCommand.act.NotDue n := by
  unfold Ds18b20.decodeCommand
  split
  · exact h
  · split
    · rename_i i _
      cases i <;> first
        | exact h
        | (simp only [Ds18b20.take, Ds18b20.takeReadRom, Ds18b20.takeMatchRom, Ds18b20.takeSkipRom, Ds18b20.takeAlarmSearch,
            Ds18b20.takeSearchRom, Ds18b20.takeConvertT, Ds18b20.takeWriteScratchpad, Ds18b20.takeReadScratchpad,
            Ds18b20.takeCopyScratchpad, Ds18b20.takeRecallEeprom, Ds18b20.takeReadPowerSupply, Ds18b20.romCommand,
            Ds18b20.fnCommand]
           split <;> first
            | exact h
            | (simp only [Act.NotDue, Ds18b20.conversionTime, Ds18b20.copyTime]; omega))
    · exact h

/-- What runs in a device is not done at the rising edge of a slot, if it was settled there. -/
theorem Ds18b20.settle_slot {n e : Nat} (hn : n ≤ e) (bit : Bool) (x : Ds18b20) :
    ((x.settle n).slot e bit).settle n = (x.settle n).slot e bit := by
  apply Ds18b20.settle_of_notDue
  unfold Ds18b20.slot
  split
  · exact Ds18b20.settle_notDue n x
  · have m := Ds18b20.moveBit_act bit { x.settle n with slotEnd := e }
    exact Ds18b20.decodeCommand_notDue (by rw [m.1]; exact Ds18b20.settle_notDue n x) (by rw [m.2]; exact hn)

theorem Device.settle_slot (start n : Nat) (d : Device) :
    ((d.settle n).slot start n).settle n = (d.settle n).slot start n := by
  unfold Device.slot
  split
  · exact Device.settle_settle (Nat.le_refl _) d
  · cases hk : d.kind with
    | ds18b20 x => simp [Device.settle, hk, Ds18b20.settle_slot (Nat.le_max_right (start + Config.tBit) n)]
    | echo e => simp [Device.settle, hk]
    | presenceOnly => simp [Device.settle, hk]

/-- A device in a slot drives within the slot only. -/
theorem Device.fall_hold_within (n : Nat) (d : Device) {a b : Nat} (h : (d.fall n).hold = some (a, b)) : a = n ∧ b ≤ n + 70 := by
  have send : ∀ bit, sendWindow n bit = some (a, b) → a = n ∧ b ≤ n + 70 := by
    intro bit hb
    cases bit <;> simp_all [sendWindow, Config.zeroHold]
    omega
  have drawn : ∀ k, drawnWindow n k = some (a, b) → a = n ∧ b ≤ n + 70 := by
    intro k hb
    have h70 : Config.tSlot = 70 := rfl
    have := Nat.mod_lt k (show 0 < Config.tSlot + 1 by omega)
    unfold drawnWindow at hb
    split at hb
    · cases hb
    · simp only [Option.some.injEq, Prod.mk.injEq] at hb
      omega
  unfold Device.fall at h
  split at h
  · rename_i x hx
    unfold Ds18b20.fall at h
    dsimp only at h
    split at h
    · exact drawn _ h
    · split at h
      · exact send _ h
      · exact drawn _ h
      · exact drawn _ h
      · cases h
  · exact send _ h
  · cases h
  · cases h

/-! ### What the line primitives do to the line and its devices -/

/-- The engine's falling edge on a line that is high. -/
theorem setLineLow_edge {s : State} (hr : s.drive = .released) (hn : s.lineLow = none) (hl : s.devicesLowSince s.now = none) :
    (setLineLow s).devices = s.devices.map (fun d => if d.pin = s.pin then d.fall s.now else d)
      ∧ (setLineLow s).lineLow = some s.now := by
  have h : ({ s with drive := .drivenLow, lineLow := none } : State).devicesLowSince s.now = none := hl
  unfold setLineLow beginLow
  simp [hr, hn, h]

/-- Where the line is low already, driving it low changes no device, and the low period goes on. -/
theorem setLineLow_noEdge {s : State} (h : s.drive = .drivenLow ∨ s.lineLow.isSome = true ∨ (s.devicesLowSince s.now).isSome = true) :
    (setLineLow s).devices = s.devices
      ∧ (setLineLow s).lineLow = if s.drive = .drivenLow ∨ s.lineLow.isSome = true then s.lineLow else s.devicesLowSince s.now := by
  unfold setLineLow beginLow
  cases hd : s.drive with
  | drivenLow => simp
  | released =>
    cases hl : s.lineLow with
    | some a => simp
    | none =>
      simp only [hd, hl, Option.isSome_none, Bool.false_eq_true, false_or, reduceCtorEq] at h
      obtain ⟨a, ha⟩ := Option.isSome_iff_exists.1 h
      have h' : ({ s with drive := .drivenLow, lineLow := none } : State).devicesLowSince s.now = some a := ha
      simp [h', ha]

/-- The end of a low period: a reset or a slot for every device of the line. -/
@[simp] theorem endLow_devices (n : Nat) (s : State) : (endLow n s).devices = s.devices.map (fun d => if d.pin = s.pin then
    (if Config.resetThreshold ≤ s.now - n then d.busReset s.now else d.slot n s.now) else d) := by
  unfold endLow
  dsimp only
  split <;> simp

/-- The engine's release where the line rises at once. -/
theorem releaseLine_rises {s : State} {n : Nat} (hl : s.lineLow = some n)
    (h : Config.resetThreshold ≤ s.now - n ∨ s.devicesLowSince s.now = none) :
    (releaseLine s).devices = s.devices.map (fun d => if d.pin = s.pin then
        (if Config.resetThreshold ≤ s.now - n then d.busReset s.now else d.slot n s.now) else d)
      ∧ (releaseLine s).lineLow = none := by
  have h' : Config.resetThreshold ≤ s.now - n ∨ ({ s with drive := .released } : State).devicesLowSince s.now = none := h
  unfold releaseLine endDrive
  dsimp only
  rw [hl]
  dsimp only
  rw [if_pos (by simpa [hl] using h')]
  simp

/-- The engine's release where a device holds the line: the low period goes on. -/
theorem releaseLine_held {s : State} {n : Nat} (hl : s.lineLow = some n) (hn : ¬ Config.resetThreshold ≤ s.now - n)
    (h : s.devicesLowSince s.now ≠ none) : (releaseLine s).devices = s.devices ∧ (releaseLine s).lineLow = some n := by
  have h' : ({ s with drive := .released } : State).devicesLowSince s.now ≠ none := h
  unfold releaseLine endDrive
  dsimp only
  rw [hl]
  dsimp only
  rw [if_neg (by simpa [hl, hn] using h')]
  simp

/-! ### Solo: one device on the line, between two slots -/

/-- A request is in flight in the reference environment, outside a slot, with the one device `d` on the bound line, and `d`
drives nothing any more. -/
structure Solo (g : Nat) (d : Device) (s : State) : Prop where
  live : Live g s
  line : s.env.line = .reference
  drive : s.drive = .released
  noLow : s.lineLow = none
  devices : s.devices = [d]
  pin : d.pin = s.pin
  presence : ∀ e, d.presence = some e → e + 150 ≤ s.now
  hold : ∀ a b, d.hold = some (a, b) → b ≤ s.now

/-- When the line rises in the slot that falls at `t`, with a low time of `low` µs of the engine: at the engine's release, or when
the device stops holding it. -/
def Device.riseIn (t low : Nat) (d : Device) : Nat := max (t + low) ((((d.settle t).fall t).hold.map Prod.snd).getD 0)

/-- The device at `n` in that slot, after the engine's release. -/
def Device.inSlot (t low n : Nat) (d : Device) : Device :=
  let d' := (d.settle t).fall t
  let r := d.riseIn t low
  if n < r then d'.settle n else ((d'.settle r).slot t r).settle n

/-- The device after that slot. -/
def Device.through (t low : Nat) (d : Device) : Device := d.inSlot t low (t + 71)

/-- What the engine samples 15 µs after the fall of a read slot at `t`. -/
def Device.sampledIn (t : Nat) (d : Device) : Level :=
  match ((d.settle t).fall t).hold with
  | some (a, b) => if a ≤ t + 15 ∧ t + 15 < b then .low else .high
  | none => .high

theorem Device.presenceSince_of_clear {n : Nat} {d : Device} (hp : ∀ e, d.presence = some e → e + 150 ≤ n) :
    d.presenceSince n = none := by
  have h150 : Config.presenceUntil = 150 := rfl
  unfold Device.presenceSince
  split
  · rename_i e he
    have := hp e he
    rw [if_neg (by omega)]
  · rfl

theorem Device.lowSince_of_clear {n : Nat} {d : Device} (hp : ∀ e, d.presence = some e → e + 150 ≤ n)
    (hh : ∀ a b, d.hold = some (a, b) → b ≤ n) : d.lowSince n = none := by
  rw [Device.lowSince, Device.presenceSince_of_clear hp]
  unfold Device.holdSince
  dsimp only
  split
  · rename_i a b hab
    have := hh a b hab
    rw [if_neg (by omega)]
  · rfl

/-! ### The line primitives on a line with one device -/

theorem lineDevices_one {s : State} {d : Device} (hd : s.devices = [d]) (hp : d.pin = s.pin) : s.lineDevices = [d] := by
  simp [State.lineDevices, hd, hp]

theorem devicesLowSince_one {s : State} {d : Device} (hd : s.devices = [d]) (hp : d.pin = s.pin) (n : Nat) :
    s.devicesLowSince n = d.lowSince n := by
  rw [State.devicesLowSince, lineDevices_one hd hp]
  simp only [List.filterMap_cons, List.filterMap_nil]
  cases d.lowSince n <;> rfl

/-- The line rises when the one device on it stops holding it. -/
theorem lineRise?_one {s : State} {d : Device} {a b : Nat} (hd : s.devices = [d]) (hp : d.pin = s.pin)
    (hh : d.hold = some (a, b)) (ha : a ≤ s.now) (hb : s.now < b) (he : ∀ e, d.presence = some e → e + 150 ≤ s.now) :
    s.lineRise? = some b := by
  have low : ∀ n, s.now ≤ n → (d.lowSince n = none ↔ b ≤ n) := by
    intro n hn
    rw [Device.lowSince, Device.presenceSince_of_clear (fun e h => by have := he e h; omega), Device.holdSince, hh]
    by_cases h : n < b
    · simp [show a ≤ n by omega, h]
    · simp only [h, and_false, if_false, true_iff]; omega
  have keep : ∀ n, (decide (s.now ≤ n) && decide (s.devicesLowSince n = none)) = decide (b ≤ n) := by
    intro n
    rw [devicesLowSince_one hd hp]
    by_cases h : s.now ≤ n
    · simp [h, low n h]
    · simp [h]; omega
  rw [State.lineRise?, lineDevices_one hd hp]
  simp only [keep, List.flatMap_cons, List.flatMap_nil, List.append_nil, Device.driveEnds, hh]
  cases hq : d.presence with
  | none => simp [show ¬ b ≤ s.now by omega]
  | some e =>
    have := he e hq
    simp [show ¬ b ≤ s.now by omega, show ¬ b ≤ e + Config.presenceUntil by show ¬ b ≤ e + 150; omega]

/-- A falling edge on a line with one device that drives nothing. -/
theorem setLineLow_one {s : State} {d : Device} (hd : s.devices = [d]) (hp : d.pin = s.pin) (hr : s.drive = .released)
    (hn : s.lineLow = none) (hl : d.lowSince s.now = none) :
    (setLineLow s).devices = [d.fall s.now] ∧ (setLineLow s).lineLow = some s.now := by
  have e := setLineLow_edge hr hn ((devicesLowSince_one hd hp s.now).trans hl)
  refine ⟨?_, e.2⟩
  rw [e.1, hd]
  simp [hp]

/-- The engine's release in a slot, on a line with one device: the slot ends, unless the device holds the line. -/
theorem releaseLine_one {s : State} {d : Device} {n : Nat} (hd : s.devices = [d]) (hp : d.pin = s.pin)
    (hl : s.lineLow = some n) (hn : s.now - n < 480) :
    (d.lowSince s.now = none → (releaseLine s).devices = [d.slot n s.now] ∧ (releaseLine s).lineLow = none)
    ∧ (d.lowSince s.now ≠ none → (releaseLine s).devices = [d] ∧ (releaseLine s).lineLow = some n) := by
  have h480 : ¬ Config.resetThreshold ≤ s.now - n := Nat.not_le.2 hn
  have hlow := devicesLowSince_one hd hp s.now
  constructor <;> intro h
  · have e := releaseLine_rises hl (.inr (hlow.trans h))
    refine ⟨?_, e.2⟩
    rw [e.1, hd]
    simp [hp, h480]
  · have e := releaseLine_held hl h480 (by rw [hlow]; exact h)
    exact ⟨e.1.trans hd, e.2⟩

/-- A chain of micro-operations, each with what it finds. -/
def Found (e : Env) (m : Micro) (s t : State) : Prop := t = m.exec s ∧ s.env = e ∧ Undisturbed s

theorem Live.found {g : Nat} {s : State} (h : Live g s) {p : List Micro} (hn : nested false p = true) :
    Steps (Found s.env) p s (Machine.run p s) :=
  run_steps s.env _ (fun _ _ he hu _ _ => ⟨rfl, he, hu⟩) p false s rfl h.undisturbed h.running hn (by simp)

theorem Found.gap {e : Env} {s t : State} {g : Nat} (h : Found e .gap s t) (ht : e.timing = .reference g) :
    t = pass (s.now + g) { s with draws := s.draws + 1 } := by
  rw [h.1, Micro.exec, passGap_of_undisturbed h.2.2, State.gapTime, h.2.1, ht]

theorem Found.delay {e : Env} {s t : State} {g n : Nat} (h : Found e (.delay n) s t) (ht : e.timing = .reference g) :
    t = (pass (s.now + n) { s with draws := s.draws + 1 }).count := by
  rw [h.1, Micro.exec, delayUs_of_noReset _ h.2.2.1, State.delayTime, h.2.1, ht]

theorem Found.quietGap {e : Env} {s t : State} {g : Nat} (h : Found e .gap s t) (ht : e.timing = .reference g)
    (hn : s.drive = .drivenLow ∨ s.lineLow = none) : t = readViews s.now (settleTo (s.now + g) { s with draws := s.draws + 1 }) :=
  (h.gap ht).trans (congrArg (readViews s.now) (passTo_of_noRise (s := { s with draws := s.draws + 1 }) _ hn))

theorem Found.quietDelay {e : Env} {s t : State} {g n : Nat} (h : Found e (.delay n) s t) (ht : e.timing = .reference g)
    (hn : s.drive = .drivenLow ∨ s.lineLow = none) : t = (readViews s.now (settleTo (s.now + n) { s with draws := s.draws + 1 })).count :=
  (h.delay ht).trans
    (congrArg (fun u => (readViews s.now u).count) (passTo_of_noRise (s := { s with draws := s.draws + 1 }) _ hn))

/-- `n` is a time in the slot that falls at `t`, after the engine's release, and `d` was the one device on the line before it. -/
structure Idle (t low : Nat) (d : Device) (n : Nat) (s : State) : Prop where
  now : s.now = n
  after : t + low ≤ n
  drive : s.drive = .released
  lineLow : s.lineLow = if n < d.riseIn t low then some t else none
  devices : s.devices = [d.inSlot t low n]
  pin : d.pin = s.pin
  clear : ∀ e, d.presence = some e → e + 150 ≤ t

@[simp] theorem Device.inSlot_pin (t low n : Nat) (d : Device) : (d.inSlot t low n).pin = d.pin := by
  unfold Device.inSlot; dsimp only; split <;> simp
@[simp] theorem Device.inSlot_presence (t low n : Nat) (d : Device) : (d.inSlot t low n).presence = d.presence := by
  unfold Device.inSlot; dsimp only; split <;> simp
@[simp] theorem Device.inSlot_hold (t low n : Nat) (d : Device) : (d.inSlot t low n).hold = ((d.settle t).fall t).hold := by
  unfold Device.inSlot; dsimp only; split <;> simp

theorem Device.inSlot_before {t low n : Nat} {d : Device} (h : n < d.riseIn t low) :
    d.inSlot t low n = ((d.settle t).fall t).settle n := by simp [Device.inSlot, h]

theorem Device.inSlot_from {t low n : Nat} {d : Device} (h : d.riseIn t low ≤ n) : d.inSlot t low n
    = ((((d.settle t).fall t).settle (d.riseIn t low)).slot t (d.riseIn t low)).settle n := by
  simp [Device.inSlot, show ¬ n < d.riseIn t low by omega]

/-- While the line is still low after the engine's release, the device holds it until it rises. -/
theorem Device.hold_of_lt_riseIn {t low n : Nat} {d : Device} (ha : t + low ≤ n) (h : n < d.riseIn t low) :
    ((d.settle t).fall t).hold = some (t, d.riseIn t low) := by
  unfold Device.riseIn at h ⊢
  cases hh : ((d.settle t).fall t).hold with
  | none => rw [hh] at h; simp at h; omega
  | some w =>
    obtain ⟨a, b⟩ := w
    obtain ⟨rfl, -⟩ := Device.fall_hold_within _ _ hh
    rw [hh] at h
    simp only [Option.map_some, Option.getD_some] at h ⊢
    congr 2
    omega

/-- Time passes in the slot. -/
theorem Idle.pass {n t low : Nat} {d : Device} {s : State} (h : Idle t low d n s) (m : Nat) :
    Idle t low d (n + m) (passTo (n + m) s) := by
  have hd := h.devices
  have haft := h.after
  by_cases hn : n < d.riseIn t low
  · have hl : s.lineLow = some t := by rw [h.lineLow, if_pos hn]
    have hold := Device.hold_of_lt_riseIn h.after hn
    have rise : s.lineRise? = some (d.riseIn t low) :=
      lineRise?_one hd (by simp [h.pin]) (by rw [Device.inSlot_hold, hold]) (by rw [h.now]; omega) (by rw [h.now]; exact hn)
        (fun e he => by have := h.clear e (by simpa using he); rw [h.now]; omega)
    have h480 : ¬ Config.resetThreshold ≤ d.riseIn t low - t := by
      have := (Device.fall_hold_within _ _ hold).2
      have : Config.resetThreshold = 480 := rfl
      omega
    rw [Device.inSlot_before hn] at hd
    rw [passTo_of_rise h.drive hl rise]
    by_cases hm : d.riseIn t low ≤ n + m
    · rw [if_pos hm]
      refine ⟨by simp, by omega, by simp [h.drive], by simp [show ¬ n + m < d.riseIn t low by omega], ?_, by simp [h.pin], h.clear⟩
      rw [Device.inSlot_from hm]
      simp [hd, h.pin, h480, Device.settle_settle (Nat.le_of_lt hn)]
    · rw [if_neg hm]
      refine ⟨by simp, by omega, by simp [h.drive], by simp [hl, show n + m < d.riseIn t low by omega], ?_, by simp [h.pin], h.clear⟩
      rw [Device.inSlot_before (by omega)]
      simp [hd, Device.settle_settle (Nat.le_add_right n m)]
  · have hl : s.lineLow = none := by rw [h.lineLow, if_neg hn]
    rw [passTo_of_noRise _ (.inr hl)]
    rw [Device.inSlot_from (by omega)] at hd
    refine ⟨by simp, by omega, by simp [h.drive], by simp [hl]; omega, ?_, by simp [h.pin], h.clear⟩
    rw [Device.inSlot_from (by omega)]
    simp [hd, Device.settle_settle (Nat.le_add_right n m)]

theorem Idle.delay {e : Env} {s u : State} {g n m t low : Nat} {d : Device} (h : Idle t low d n s) (f : Found e (.delay m) s u)
    (ht : e.timing = .reference g) : Idle t low d (n + m) u := by
  obtain rfl := h.now
  have i : Idle t low d s.now { s with draws := s.draws + 1 } :=
    ⟨rfl, h.after, h.drive, h.lineLow, h.devices, h.pin, h.clear⟩
  have j := i.pass m
  rw [f.delay ht]
  exact ⟨j.now, j.after, j.drive, j.lineLow, j.devices, j.pin, j.clear⟩

theorem Idle.exit {e : Env} {s u : State} {n t low : Nat} {d : Device} (h : Idle t low d n s) (f : Found e .exit s u) :
    Idle t low d n u := by
  rw [f.1, Micro.exec]
  rcases exitCritical_cases s with ⟨-, e⟩ | ⟨m, rest, -, e⟩ <;> rw [e]
  all_goals refine ⟨?_, h.after, ?_, ?_, ?_, ?_, h.clear⟩ <;> simp [h.now, h.drive, h.lineLow, h.devices, h.pin]

theorem Idle.sample {e : Env} {s u : State} {n t low : Nat} {d : Device} (h : Idle t low d n s) (f : Found e .sample s u)
    (hl : e.line = .reference) :
    Idle t low d n u ∧ u.smpl = some (if ((d.inSlot t low n).lowSince n).isSome then .low else .high) := by
  have lvl : s.lineLevel = if ((d.inSlot t low n).lowSince n).isSome then .low else .high := by
    have hl' : s.env.line = .reference := by rw [f.2.1, hl]
    simp [State.lineLevel, h.drive, State.releasedLevel, hl', devicesLowSince_one h.devices (by simp [h.pin]), h.now]
  rw [f.1, Micro.exec]
  refine ⟨⟨?_, h.after, ?_, ?_, ?_, ?_, h.clear⟩, ?_⟩ <;> simp [h.now, h.drive, h.lineLow, h.devices, h.pin, lvl]

/-- The part of a slot up to the engine's release, on a line with one device. -/
theorem Solo.head {g low : Nat} {d : Device} {s t : State} {p : List Micro} (h : Solo g d s) (hlow : low < 480)
    (k : Steps (Found s.env) (.gap :: .enter :: .setLow :: .delay low :: .release :: p) s t) :
    ∃ u, Steps (Found s.env) p u t ∧ Idle (s.now + g) low d (s.now + g + low) u := by
  have ht := h.live.timing
  have clear0 : ∀ e, d.presence = some e → e + 150 ≤ s.now + g := fun e he => by have := h.presence e he; omega
  have clear1 : (d.settle (s.now + g)).lowSince (s.now + g) = none :=
    Device.lowSince_of_clear (fun e he => clear0 e (by simpa using he))
      (fun a b hb => by have := h.hold a b (by simpa using hb); omega)
  simp only [Steps] at k
  obtain ⟨s1, f1, s2, f2, s3, f3, s4, f4, s5, f5, k⟩ := k
  have e1 := f1.quietGap ht (.inr h.noLow)
  have d1 : s1.devices = [d.settle (s.now + g)] := by rw [e1]; simp [h.devices]
  have n1 : s1.now = s.now + g := by rw [e1]; simp
  have p1 : s1.pin = s.pin := by rw [e1]; simp
  have r1 : s1.drive = .released := by rw [e1]; simp [h.drive]
  have l1 : s1.lineLow = none := by rw [e1]; simp [h.noLow]
  have e2 : s2 = (enterCritical s1).count := f2.1
  have d2 : s2.devices = [d.settle (s.now + g)] := by rw [e2]; simp [d1]
  have n2 : s2.now = s.now + g := by rw [e2]; simp [n1]
  have p2 : s2.pin = s.pin := by rw [e2]; simp [p1]
  have r2 : s2.drive = .released := by rw [e2]; simp [r1]
  have l2 : s2.lineLow = none := by rw [e2]; simp [l1]
  have e3 : s3 = (setLineLow s2).count := f3.1
  have o3 := setLineLow_one d2 (by simp [h.pin, p2]) r2 l2 (by rw [n2]; exact clear1)
  have d3 : s3.devices = [(d.settle (s.now + g)).fall (s.now + g)] := by rw [e3]; simpa [n2] using o3.1
  have l3 : s3.lineLow = some (s.now + g) := by rw [e3]; simpa [n2] using o3.2
  have n3 : s3.now = s.now + g := by rw [e3]; simp [n2]
  have p3 : s3.pin = s.pin := by rw [e3]; simp [p2]
  have r3 : s3.drive = .drivenLow := by rw [e3]; simp
  have e4 := f4.quietDelay ht (.inl r3)
  have d4 : s4.devices = [((d.settle (s.now + g)).fall (s.now + g)).settle (s.now + g + low)] := by rw [e4]; simp [d3, n3]
  have l4 : s4.lineLow = some (s.now + g) := by rw [e4]; simp [l3]
  have n4 : s4.now = s.now + g + low := by rw [e4]; simp [n3]
  have p4 : s4.pin = s.pin := by rw [e4]; simp [p3]
  have e5 : s5 = (releaseLine s4).count := f5.1
  have o5 := releaseLine_one d4 (by simp [h.pin, p4]) l4 (by omega)
  have low4 : (((d.settle (s.now + g)).fall (s.now + g)).settle (s.now + g + low)).lowSince s4.now = none
      ↔ ¬ s.now + g + low < d.riseIn (s.now + g) low := by
    rw [Device.lowSince, Device.presenceSince_of_clear (fun e he => by have := clear0 e (by simpa using he); omega), n4,
      Device.holdSince, Device.settle_hold, Device.riseIn]
    cases hh : ((d.settle (s.now + g)).fall (s.now + g)).hold with
    | none => simp
    | some w =>
      obtain ⟨a, b⟩ := w
      obtain ⟨rfl, -⟩ := Device.fall_hold_within _ _ hh
      by_cases hb : s.now + g + low < b <;> simp [hb]
  refine ⟨s5, k, ?_, Nat.le_refl _, ?_, ?_, ?_, ?_, clear0⟩
  · rw [e5]; simp [n4]
  · rw [e5]; simp
  · rw [e5, State.count_lineLow]
    by_cases hr : s.now + g + low < d.riseIn (s.now + g) low
    · rw [if_pos hr]; exact (o5.2 (fun hn => low4.1 hn hr)).2
    · rw [if_neg hr]; exact (o5.1 (low4.2 hr)).2
  · rw [e5, State.count_devices]
    by_cases hr : s.now + g + low < d.riseIn (s.now + g) low
    · rw [Device.inSlot_before hr]; exact (o5.2 (fun hn => low4.1 hn hr)).1
    · have heq : d.riseIn (s.now + g) low = s.now + g + low := by
        have : s.now + g + low ≤ d.riseIn (s.now + g) low := Nat.le_max_left _ _
        omega
      rw [Device.inSlot_from (by omega), heq, (o5.1 (low4.2 hr)).1, n4]
      rw [Device.settle_slot]
  · rw [e5]; simp [p4, h.pin]

/-- Once the slot and its recovery are over, `Solo` holds again. -/
theorem Solo.after {g low : Nat} {d : Device} {s t : State} (h : Solo g d s) (hlow : low ≤ 71) (hl : Live g t) (he : t.env = s.env)
    (hi : Idle (s.now + g) low d (s.now + g + 71) t) : Solo g (d.through (s.now + g) low) t := by
  have hold : ∀ a b, ((d.settle (s.now + g)).fall (s.now + g)).hold = some (a, b) → b ≤ s.now + g + 70 :=
    fun a b hh => (Device.fall_hold_within _ _ hh).2
  have past : ¬ s.now + g + 71 < d.riseIn (s.now + g) low := by
    unfold Device.riseIn
    cases hh : ((d.settle (s.now + g)).fall (s.now + g)).hold with
    | none => simp; omega
    | some w =>
      have := hold _ _ hh
      simp; omega
  refine ⟨hl, by rw [he, h.line], hi.drive, by rw [hi.lineLow, if_neg past], hi.devices, ?_, ?_, ?_⟩
  · rw [Device.through, Device.inSlot_pin]; exact hi.pin
  · intro e hp
    rw [Device.through, Device.inSlot_presence] at hp
    have := h.presence e hp
    rw [hi.now]
    omega
  · intro a b hh
    rw [Device.through, Device.inSlot_hold] at hh
    have := hold a b hh
    rw [hi.now]
    omega

/-- A write slot on a line with one device. -/
theorem Solo.write {g : Nat} {d : Device} {s : State} (h : Solo g d s) (b : Bool) :
    Solo g (d.through (s.now + g) (if b then 6 else 70)) (run (writeSlot b) s) := by
  refine h.after (by cases b <;> decide) (h.live.run (nested_writeSlot b)) (run_kept _ h.live.undisturbed.1).env ?_
  have k := h.live.found (nested_writeSlot b)
  generalize run (writeSlot b) s = t at k ⊢
  cases b
  · obtain ⟨u, k, i⟩ := h.head (low := 70) (by omega) k
    simp only [Steps] at k
    obtain ⟨u1, f1, u2, f2, rfl⟩ := k
    have := (i.delay f1 h.live.timing).exit f2
    exact this
  · obtain ⟨u, k, i⟩ := h.head (low := 6) (by omega) k
    simp only [Steps] at k
    obtain ⟨u1, f1, u2, f2, u3, f3, rfl⟩ := k
    exact ((i.delay f1 h.live.timing).delay f2 h.live.timing).exit f3

/-- A read slot on a line with one device, and the level it samples. -/
theorem Solo.read {g : Nat} {d : Device} {s : State} (h : Solo g d s) :
    Solo g (d.through (s.now + g) 6) (run readSlot s) ∧ (run readSlot s).smpl = some (d.sampledIn (s.now + g)) := by
  have k := h.live.found nested_readSlot
  have l := h.live.run nested_readSlot
  have he := (run_kept readSlot h.live.undisturbed.1).env
  generalize run readSlot s = t at k l he ⊢
  obtain ⟨u, k, i⟩ := h.head (low := 6) (by omega) k
  simp only [Steps] at k
  obtain ⟨u1, f1, u2, f2, u3, f3, u4, f4, u5, f5, rfl⟩ := k
  have i1 := i.delay f1 h.live.timing
  obtain ⟨i2, hs⟩ := i1.sample f2 h.line
  have i5 := ((i2.delay f3 h.live.timing).delay f4 h.live.timing).exit f5
  refine ⟨h.after (by decide) l he i5, ?_⟩
  have keep : t.smpl = u2.smpl := by
    have e5 : t.smpl = u4.smpl := by
      rw [f5.1, Micro.exec]
      rcases exitCritical_cases u4 with ⟨-, e⟩ | ⟨m, rest, -, e⟩ <;> rw [e] <;> simp
    rw [e5, f4.delay h.live.timing, State.count_smpl, pass_smpl, f3.delay h.live.timing, State.count_smpl, pass_smpl]
  rw [keep, hs]
  have pres : ∀ (d' : Device), d'.presence = d.presence → d'.presenceSince (s.now + g + 6 + (Config.tMsr - Config.tRl)) = none := by
    intro d' hd'
    refine Device.presenceSince_of_clear (fun e he => ?_)
    rw [hd'] at he
    have := h.presence e he
    omega
  rw [Device.lowSince, pres _ (by simp), Device.sampledIn, Device.holdSince]
  simp only [Device.inSlot_hold]
  cases ((d.settle (s.now + g)).fall (s.now + g)).hold with
  | none => rfl
  | some w =>
    obtain ⟨a, b⟩ := w
    have e15 : s.now + g + 6 + (Config.tMsr - Config.tRl) = s.now + g + 15 := rfl
    simp only [e15]
    by_cases hc : a ≤ s.now + g + 15 ∧ s.now + g + 15 < b <;> simp [hc]

/-! ### A reset on a line with any devices -/

/-- What time, a falling edge and a bus reset make of a device's kind. -/
def AfterReset (d e : Device) : Prop :=
  e.pin = d.pin
    ∧ (∀ x, d.kind = .ds18b20 x → ∃ y, e.kind = .ds18b20 y ∧ y.pos = .waitRom 0 0 ∧ y.rom = x.rom ∧ y.power = x.power
        ∧ y.script = x.script ∧ (x.copying = false → y.copying = false) ∧ (x.act = .none → y.act = .none ∧ y.sp = x.sp ∧ y.ee = x.ee))
    ∧ (∀ m, d.kind = .echo m → e.kind = .echo (.receiving 0 0))

theorem Ds18b20.settle_parts (n : Nat) (x : Ds18b20) : (x.settle n).pos = x.pos ∧ (x.settle n).rom = x.rom
    ∧ (x.settle n).power = x.power ∧ (x.settle n).script = x.script ∧ (x.settle n).slotEnd = x.slotEnd
    ∧ (x.copying = false → (x.settle n).copying = false) ∧ (x.act = .none → x.settle n = x) := by
  unfold Ds18b20.settle
  cases hx : x.act with
  | none => simp
  | converting t raw => by_cases h : t ≤ n <;> simp [h, Ds18b20.copying, hx]
  | copying t => by_cases h : t ≤ n <;> simp [h, Ds18b20.copying, hx]

theorem Ds18b20.fall_parts (n : Nat) (x : Ds18b20) : (x.fall n).2.pos = x.pos ∧ (x.fall n).2.rom = x.rom
    ∧ (x.fall n).2.power = x.power ∧ (x.fall n).2.script = x.script ∧ (x.fall n).2.slotEnd = x.slotEnd ∧ (x.fall n).2.act = x.act
    ∧ (x.fall n).2.sp = x.sp ∧ (x.fall n).2.ee = x.ee := by
  unfold Ds18b20.fall
  dsimp only
  split
  · simp
  · split <;> simp_all

/-- Two devices that agree in everything a bus reset keeps. -/
def SameCore (d e : Device) : Prop :=
  e.pin = d.pin
    ∧ (∀ x, d.kind = .ds18b20 x → ∃ y, e.kind = .ds18b20 y ∧ y.rom = x.rom ∧ y.power = x.power
        ∧ y.script = x.script ∧ (x.copying = false → y.copying = false) ∧ (x.act = .none → y.act = .none ∧ y.sp = x.sp ∧ y.ee = x.ee))
    ∧ (∀ m, d.kind = .echo m → ∃ m', e.kind = .echo m')

theorem SameCore.refl (d : Device) : SameCore d d :=
  ⟨rfl, fun x h => ⟨x, h, rfl, rfl, rfl, id, fun h => ⟨h, rfl, rfl⟩⟩, fun m h => ⟨m, h⟩⟩

theorem SameCore.trans {d e f : Device} (h : SameCore d e) (k : SameCore e f) : SameCore d f := by
  refine ⟨k.1.trans h.1, ?_, ?_⟩
  · intro x hx
    obtain ⟨y, hy, r1, p1, s1, c1, a1⟩ := h.2.1 x hx
    obtain ⟨z, hz, r2, p2, s2, c2, a2⟩ := k.2.1 y hy
    refine ⟨z, hz, r2.trans r1, p2.trans p1, s2.trans s1, fun h => c2 (c1 h), fun h => ?_⟩
    obtain ⟨b1, b2, b3⟩ := a1 h
    obtain ⟨b4, b5, b6⟩ := a2 b1
    exact ⟨b4, b5.trans b2, b6.trans b3⟩
  · intro m hm
    obtain ⟨m', hm'⟩ := h.2.2 m hm
    exact k.2.2 m' hm'

theorem SameCore.settle (n : Nat) (d : Device) : SameCore d (d.settle n) := by
  refine ⟨by simp, ?_, ?_⟩
  · intro x hx
    have p := Ds18b20.settle_parts n x
    refine ⟨x.settle n, by simp [Device.settle, hx], p.2.1, p.2.2.1, p.2.2.2.1, p.2.2.2.2.2.1, fun h => ?_⟩
    rw [p.2.2.2.2.2.2 h]
    exact ⟨h, rfl, rfl⟩
  · exact fun m hm => ⟨m, by simp [Device.settle, hm]⟩

theorem SameCore.fall (n : Nat) (d : Device) : SameCore d (d.fall n) := by
  refine ⟨by simp, ?_, ?_⟩
  · intro x hx
    have p := Ds18b20.fall_parts n x
    refine ⟨(x.fall n).2, by simp [Device.fall, hx], p.2.1, p.2.2.1, p.2.2.2.1, fun h => ?_, fun h => ?_⟩
    · simpa [Ds18b20.copying, p.2.2.2.2.2.1] using h
    · exact ⟨p.2.2.2.2.2.1.trans h, p.2.2.2.2.2.2.1, p.2.2.2.2.2.2.2⟩
  · intro m hm
    cases m <;> exact ⟨_, by simp [Device.fall, hm]; rfl⟩

theorem AfterReset.of_busReset (n : Nat) {d e : Device} (h : SameCore d e) : AfterReset d (e.busReset n) := by
  refine ⟨h.1, ?_, ?_⟩
  · intro x hx
    obtain ⟨y, hy, r, p, s, c, a⟩ := h.2.1 x hx
    exact ⟨{ y with pos := .waitRom 0 0 }, by simp [Device.busReset, hy], rfl, r, p, s, c, a⟩
  · intro m hm
    obtain ⟨m', hm'⟩ := h.2.2 m hm
    simp [Device.busReset, hm']

theorem AfterReset.settle (n : Nat) {d e : Device} (h : AfterReset d e) : AfterReset d (e.settle n) := by
  refine ⟨by simp [h.1], ?_, ?_⟩
  · intro x hx
    obtain ⟨y, hy, o, r, p, s, c, a⟩ := h.2.1 x hx
    have q := Ds18b20.settle_parts n y
    refine ⟨y.settle n, by simp [Device.settle, hy], q.1.trans o, q.2.1.trans r, q.2.2.1.trans p, q.2.2.2.1.trans s,
      fun h => q.2.2.2.2.2.1 (c h), fun h => ?_⟩
    rw [q.2.2.2.2.2.2 (a h).1]
    exact a h
  · intro m hm
    simp [Device.settle, h.2.2 m hm]

theorem Device.lowSince_le {n a : Nat} {d : Device} (h : d.lowSince n = some a) : a ≤ n := by
  unfold Device.lowSince Device.presenceSince Device.holdSince at h
  split at h
  · rename_i b hb
    split at hb
    · split at hb
      · cases hb
        cases h
        omega
      · cases hb
    · cases hb
  · split at h
    · split at h
      · cases h
        omega
      · cases h
    · cases h

/-- Two devices of one line and one kind. -/
def SameKind (d e : Device) : Prop := e.pin = d.pin ∧ ∀ m, d.kind = .echo m → ∃ m', e.kind = .echo m'

theorem SameKind.trans {d e f : Device} (h : SameKind d e) (k : SameKind e f) : SameKind d f :=
  ⟨k.1.trans h.1, fun m hm => by obtain ⟨m', hm'⟩ := h.2 m hm; exact k.2 m' hm'⟩

theorem SameCore.kind {d e : Device} (h : SameCore d e) : SameKind d e := ⟨h.1, h.2.2⟩

theorem SameKind.slot (a n : Nat) (d : Device) : SameKind d (d.slot a n) := by
  refine ⟨by simp, fun m hm => ?_⟩
  unfold Device.slot
  split
  · exact ⟨m, hm⟩
  · simp [hm]

theorem SameKind.busReset (n : Nat) (d : Device) : SameKind d (d.busReset n) :=
  ⟨rfl, fun m hm => by simp [Device.busReset, hm]⟩

/-- The end of a low period keeps each device's line and kind. -/
theorem SameKind.endLow (b c : Prop) [Decidable b] [Decidable c] (n m : Nat) (d : Device) :
    SameKind d (if b then (if c then d.busReset n else d.slot m n) else d) := by
  by_cases hb : b
  · by_cases hc : c
    · simpa [hb, hc] using SameKind.busReset n d
    · simpa [hb, hc] using SameKind.slot m n d
  · simpa [hb] using (SameCore.refl d).kind

/-- Whatever happens as time passes, a low period does not begin, and each device keeps its line and its kind. -/
theorem passTo_line (t : Nat) (s : State) : ((passTo t s).lineLow = none ∨ (passTo t s).lineLow = s.lineLow)
    ∧ ∃ F : Device → Device, (passTo t s).devices = s.devices.map F ∧ ∀ d, SameKind d (F d) := by
  unfold passTo
  split
  · rename_i start r _
    refine ⟨.inl (by simp), fun d => ((if d.pin = s.pin then
      (if Config.resetThreshold ≤ r - start then (d.settle r).busReset r else (d.settle r).slot start r) else d.settle r)).settle t,
      ?_, fun d => ?_⟩
    · simp [Function.comp_def]
      exact fun _ _ => rfl
    · exact ((SameCore.settle r d).kind.trans (SameKind.endLow _ _ r start _)).trans (SameCore.settle t _).kind
  · exact ⟨.inr rfl, Device.settle t, rfl, fun d => (SameCore.settle t d).kind⟩

/-- Driving a line low that is tracked whenever it is driven: a low period that began by now, and every device as it was but for
its drive. -/
theorem setLineLow_line {s : State} (ht : LowPeriodTracked s) (hb : LowPeriodBegun s) :
    ∃ q ≤ s.now, (setLineLow s).lineLow = some q
      ∧ ∃ G : Device → Device, (setLineLow s).devices = s.devices.map G ∧ ∀ d, SameCore d (G d) := by
  by_cases hn : s.drive = .drivenLow ∨ s.lineLow.isSome = true
  · have hl : s.lineLow.isSome = true := hn.elim ht id
    obtain ⟨q, hq⟩ := Option.isSome_iff_exists.1 hl
    have e := setLineLow_noEdge (s := s) (.inr (.inl hl))
    exact ⟨q, hb q hq, by rw [e.2, if_pos hn, hq], id, by simpa using e.1, SameCore.refl⟩
  · obtain ⟨hd, hl⟩ := not_or.1 hn
    have hd : s.drive = .released := by
      cases h : s.drive
      · rfl
      · exact absurd h hd
    have hl : s.lineLow = none := by simpa using hl
    cases hs : s.devicesLowSince s.now with
    | none =>
      have e := setLineLow_edge hd hl hs
      refine ⟨s.now, Nat.le_refl _, e.2, _, e.1, fun d => ?_⟩
      by_cases hp : d.pin = s.pin
      · simpa [hp] using SameCore.fall s.now d
      · simpa [hp] using SameCore.refl d
    | some a =>
      have e := setLineLow_noEdge (s := s) (.inr (.inr (by simp [hs])))
      have ha : a ≤ s.now := by
        rw [State.devicesLowSince] at hs
        have := List.min?_mem hs
        rw [List.mem_filterMap] at this
        obtain ⟨d, -, h⟩ := this
        exact Device.lowSince_le h
      exact ⟨a, ha, by rw [e.2, if_neg hn, hs], id, by simpa using e.1, SameCore.refl⟩

/-- A reset in the reference environment, on a line with any devices (45_reference_device.md rules R307, R308, R327): each device of
the line has its presence pulse past, and the sample is low when there is one. Its position is the one after a reset and the rest of
it is as it was, where no device held a slot before the reset. -/
theorem reset_line {g : Nat} {s : State} (h : Live g s) (hl : s.env.line = .reference) (hm : LowPeriodTracked s)
    (hb : LowPeriodBegun s) :
    ∃ f : Device → Device, (run resetProgram s).devices = s.devices.map f ∧ (run resetProgram s).drive = .released
      ∧ (run resetProgram s).lineLow = none ∧ (∀ d, (f d).pin = d.pin)
      ∧ (∀ d, d.pin = s.pin → (f d).presence = some (s.now + g + 480) ∧ (f d).hold = none
        ∧ (∀ m, d.kind = .echo m → (f d).kind = .echo (.receiving 0 0)) ∧ (LowPeriodMatchesDrive s → d ∈ s.devices → AfterReset d (f d)))
      ∧ ∃ l, (run resetProgram s).smpl = some l ∧ (l = .low ↔ ∃ d ∈ s.devices, d.pin = s.pin) := by
  have ht := h.timing
  have k := h.found nested_resetProgram
  generalize run resetProgram s = t at k ⊢
  simp only [resetProgram, Steps] at k
  obtain ⟨s1, f1, s2, f2, s3, f3, s4, f4, s5, f5, s6, f6, s7, f7, s8, f8, s9, f9, s10, f10, rfl⟩ := k
  have e1 := f1.gap ht
  have e2 : s2 = (enterCritical s1).count := f2.1
  have n2 : s2.now = s.now + g := by rw [e2, e1]; simp
  have p2 : s2.pin = s.pin := by rw [e2, e1]; simp
  have v2 : s2.drive = s.drive := by rw [e2, e1]; simp
  have line1 := passTo_line (s.now + g) { s with draws := s.draws + 1 }
  rw [← pass_lineLow, ← pass_devices, ← e1] at line1
  obtain ⟨low1, F, dF, hF⟩ := line1
  have l2 : s2.lineLow = s1.lineLow := by rw [e2]; simp
  have d2 : s2.devices = s.devices.map F := by rw [e2, State.count_devices]; simpa using dF
  have keep : s.drive = .drivenLow ∨ s.lineLow = none → s1 = readViews s.now (settleTo (s.now + g) { s with draws := s.draws + 1 }) := f1.quietGap ht
  have tracked : LowPeriodTracked s2 := by
    intro hv
    rw [v2] at hv
    rw [l2, keep (.inl hv)]
    exact hm hv
  have begun : LowPeriodBegun s2 := by
    intro q hq
    rw [l2] at hq
    rw [n2]
    rcases low1 with e | e <;> rw [e] at hq
    · cases hq
    · exact Nat.le_trans (hb q hq) (Nat.le_add_right _ _)
  have e3 : s3 = (setLineLow s2).count := f3.1
  have n3 : s3.now = s.now + g := by rw [e3]; simp [n2]
  have p3 : s3.pin = s.pin := by rw [e3]; simp [p2]
  have v3 : s3.drive = .drivenLow := by rw [e3]; simp
  obtain ⟨q, hq, l3, G, dG, hG⟩ := setLineLow_line tracked begun
  rw [n2] at hq
  obtain ⟨f, d3, hk, hf⟩ : ∃ f : Device → Device, s3.devices = s.devices.map f ∧ (∀ d, SameKind d (f d))
      ∧ (LowPeriodMatchesDrive s → ∀ d ∈ s.devices, SameCore d (f d)) := by
    refine ⟨fun d => G (F d), by rw [e3, State.count_devices, dG, d2]; simp [Function.comp_def],
      fun d => (hF d).trans (hG _).kind, fun hmd d hd => ?_⟩
    have quiet : s.drive = .drivenLow ∨ s.lineLow = none := by
      cases hv : s.drive
      · refine .inr ?_
        cases hll : s.lineLow with
        | none => rfl
        | some a => rw [hmd.2 (by simp [hll])] at hv; cases hv
      · exact .inl rfl
    have : s.devices.map F = s.devices.map (Device.settle (s.now + g)) := by
      have e : s1.devices = s.devices.map F := dF
      rw [← e, keep quiet]
      rfl
    show SameCore d (G (F d))
    rw [List.map_inj_left.1 this d hd]
    exact (SameCore.settle _ d).trans (hG _)
  have l3 : s3.lineLow = some q := by rw [e3, State.count_lineLow, l3]
  have e4 := f4.quietDelay ht (.inl v3)
  have t480 : Config.tRstl = 480 := rfl
  have n4 : s4.now = s.now + g + 480 := by rw [e4]; simp [n3, t480]
  have p4 : s4.pin = s.pin := by rw [e4]; simp [p3]
  have l4 : s4.lineLow = some q := by rw [e4]; simp [l3]
  have d4 : s4.devices = s.devices.map (fun d => (f d).settle (s.now + g + 480)) := by
    rw [e4]; simp [d3, n3, t480, Function.comp_def]
  have e5 : s5 = (releaseLine s4).count := f5.1
  have h480 : Config.resetThreshold ≤ s4.now - q := by rw [n4]; show 480 ≤ _; omega
  have o5 := releaseLine_rises l4 (.inl h480)
  have n5 : s5.now = s.now + g + 480 := by rw [e5]; simp [n4]
  have p5 : s5.pin = s.pin := by rw [e5]; simp [p4]
  have v5 : s5.drive = .released := by rw [e5]; simp
  have l5 : s5.lineLow = none := by rw [e5, State.count_lineLow, o5.2]
  have pinf : ∀ d, (f d).pin = d.pin := fun d => (hk d).1
  have d5 : s5.devices = s.devices.map (fun d => if d.pin = s.pin then ((f d).settle (s.now + g + 480)).busReset (s.now + g + 480)
      else (f d).settle (s.now + g + 480)) := by
    rw [e5, State.count_devices, o5.1]
    rw [n4] at h480
    simp [d4, p4, n4, pinf, Function.comp_def, h480]
  have e6 := f6.quietDelay ht (.inr l5)
  have n6 : s6.now = s.now + g + 540 := by rw [e6]; simp [n5, show Config.tPds = 60 from rfl, Nat.add_assoc]
  have p6 : s6.pin = s.pin := by rw [e6]; simp [p5]
  have v6 : s6.drive = .released := by rw [e6]; simp [v5]
  have l6 : s6.lineLow = none := by rw [e6]; simp [l5]
  have d6 : s6.devices = s5.devices.map (Device.settle (s.now + g + 540)) := by
    rw [e6]; simp [n5, show Config.tPds = 60 from rfl, Nat.add_assoc]
  have e7 : s7 = (sampleLine s6).count := f7.1
  have m7 : s7.smpl = some s6.lineLevel := by rw [e7]; simp
  have l7 : s7.lineLow = none := by rw [e7]; simp [l6]
  have e8 := f8.quietDelay ht (.inr l7)
  have e9 : s9 = (exitCritical s8).count := f9.1
  have x9 : (exitCritical s8).devices = s8.devices ∧ (exitCritical s8).drive = s8.drive ∧ (exitCritical s8).lineLow = s8.lineLow
      ∧ (exitCritical s8).smpl = s8.smpl := by
    rcases exitCritical_cases s8 with ⟨-, e⟩ | ⟨m, rest, -, e⟩ <;> rw [e] <;> simp
  have e10 : t = Micro.exec .presence s9 := f10.1
  have d10 : t.devices = s6.devices.map (Device.settle (s.now + g + 960)) := by
    rw [e10]
    show s9.devices = _
    rw [e9, State.count_devices, x9.1, e8, e7]
    simp [n6, show Config.tRstr = 420 from rfl, Nat.add_assoc]
  have v10 : t.drive = .released := by
    rw [e10]
    show s9.drive = _
    rw [e9, State.count_drive, x9.2.1, e8, e7]
    simp [v6]
  have l10 : t.lineLow = none := by
    rw [e10]
    show s9.lineLow = _
    rw [e9, State.count_lineLow, x9.2.2.1, e8, e7]
    simp [l6]
  have m10 : t.smpl = some s6.lineLevel := by
    rw [e10]
    show s9.smpl = _
    rw [e9, State.count_smpl, x9.2.2.2, e8]
    simp [m7]
  refine ⟨fun d => ((if d.pin = s.pin then ((f d).settle (s.now + g + 480)).busReset (s.now + g + 480)
      else (f d).settle (s.now + g + 480)).settle (s.now + g + 540)).settle (s.now + g + 960), ?_, v10, l10, ?_, ?_, ?_⟩
  · rw [d10, d6, d5]
    simp [Function.comp_def]
  · intro d
    by_cases hp : d.pin = s.pin <;> simp [hp, pinf, Device.busReset]
  · intro d hp
    refine ⟨by simp [hp, Device.busReset], by simp [hp, Device.busReset], fun m hm => ?_, fun hmd hd => ?_⟩
    · obtain ⟨m', hm'⟩ := (hk d).2 m hm
      simp [hp, Device.settle, Device.busReset, hm']
    · simp only [hp, if_true]
      exact ((AfterReset.of_busReset _ ((hf hmd d hd).trans (SameCore.settle _ _))).settle _).settle _
  · refine ⟨_, m10, ?_⟩
    have hl6 : s6.env.line = .reference := by rw [f7.2.1, hl]
    rw [State.lineLevel, v6]
    simp only [State.releasedLevel, hl6]
    have low : (s6.devicesLowSince s6.now).isSome = true ↔ ∃ d ∈ s.devices, d.pin = s.pin := by
      rw [State.devicesLowSince]
      constructor
      · intro hs
        obtain ⟨a, ha⟩ := Option.isSome_iff_exists.1 hs
        have := List.min?_mem ha
        rw [List.mem_filterMap] at this
        obtain ⟨e, he, -⟩ := this
        rw [State.lineDevices, List.mem_filter, d6, d5] at he
        simp only [List.map_map, List.mem_map, Function.comp_apply, beq_iff_eq, p6] at he
        obtain ⟨⟨d, hd, rfl⟩, he⟩ := he
        refine ⟨d, hd, ?_⟩
        by_cases hp : d.pin = s.pin
        · exact hp
        · simp [hp, pinf] at he
      · rintro ⟨d, hd, hp⟩
        rw [Option.isSome_iff_ne_none, Ne, List.min?_eq_none_iff, List.filterMap_eq_nil_iff]
        intro none
        have mem : (((f d).settle (s.now + g + 480)).busReset (s.now + g + 480)).settle (s.now + g + 540) ∈
            s6.lineDevices := by
          rw [State.lineDevices, List.mem_filter, d6, d5]
          refine ⟨?_, by simp [Device.busReset, pinf, hp, p6]⟩
          simp only [List.map_map, List.mem_map, Function.comp_apply]
          exact ⟨d, hd, by simp [hp]⟩
        have := none _ mem
        rw [Device.lowSince, Device.presenceSince, Device.settle_presence, Device.busReset, n6] at this
        simp [show Config.presenceFrom = 30 from rfl, show Config.presenceUntil = 150 from rfl, Nat.add_assoc] at this
    by_cases hs : (s6.devicesLowSince s6.now).isSome = true
    · simp only [hs, if_true, true_iff]
      exact low.1 hs
    · simp only [hs, Bool.false_eq_true, if_false, reduceCtorEq, false_iff]
      exact fun c => hs (low.2 c)

end Sys2Proof.Machine
end

