-- ==== Sys2Proof/Laws/PerInstr.lean ====
section
/-! SUPPORT. Per-instruction statements. Family `Fields`: the instruction is well formed, and its request word holds its OP byte
and its ARG byte in the fields of 30_encoding.md rule R100. -/

namespace Sys2Proof.Laws

/-- The instruction as syntax: well-formedness and the two fields of its word. -/
def Fields.Statement (i : Instr) : Prop :=
  i.WellFormed = true ∧ opField (requestWord i) = opByte i ∧ argField (requestWord i) = argByte i

theorem Fields.holds (i : Instr) : Fields.Statement i :=
  ⟨i.wellFormed_all, opField_requestWord i, argField_requestWord i⟩

theorem Fields.init (pin : Byte) : Fields.Statement (.init pin) := Fields.holds _
theorem Fields.driveLow : Fields.Statement (.driveLow) := Fields.holds _
theorem Fields.release : Fields.Statement (.release) := Fields.holds _
theorem Fields.resetPulse : Fields.Statement (.resetPulse) := Fields.holds _
theorem Fields.writeBit (b : Bool) : Fields.Statement (.writeBit b) := Fields.holds _
theorem Fields.readBit : Fields.Statement (.readBit) := Fields.holds _
theorem Fields.writeByte (data : Byte) : Fields.Statement (.writeByte data) := Fields.holds _
theorem Fields.readByte : Fields.Statement (.readByte) := Fields.holds _
theorem Fields.readRom : Fields.Statement (.readRom) := Fields.holds _
theorem Fields.matchRom : Fields.Statement (.matchRom) := Fields.holds _
theorem Fields.skipRom : Fields.Statement (.skipRom) := Fields.holds _
theorem Fields.alarmSearch : Fields.Statement (.alarmSearch) := Fields.holds _
theorem Fields.searchRom : Fields.Statement (.searchRom) := Fields.holds _
theorem Fields.convertT (a : Addressing) : Fields.Statement (.convertT a) := Fields.holds _
theorem Fields.writeScratchpad (a : Addressing) : Fields.Statement (.writeScratchpad a) := Fields.holds _
theorem Fields.readScratchpad (a : Addressing) : Fields.Statement (.readScratchpad a) := Fields.holds _
theorem Fields.copyScratchpad (a : Addressing) : Fields.Statement (.copyScratchpad a) := Fields.holds _
theorem Fields.recallEeprom (a : Addressing) : Fields.Statement (.recallEeprom a) := Fields.holds _
theorem Fields.readPowerSupply (a : Addressing) : Fields.Statement (.readPowerSupply a) := Fields.holds _
theorem Fields.wReadRom : Fields.Statement (.wReadRom) := Fields.holds _
theorem Fields.wMatchRom : Fields.Statement (.wMatchRom) := Fields.holds _
theorem Fields.wSkipRom : Fields.Statement (.wSkipRom) := Fields.holds _
theorem Fields.wAlarmSearch : Fields.Statement (.wAlarmSearch) := Fields.holds _
theorem Fields.wSearchRom : Fields.Statement (.wSearchRom) := Fields.holds _
theorem Fields.wConvertT : Fields.Statement (.wConvertT) := Fields.holds _
theorem Fields.wWriteScratchpad : Fields.Statement (.wWriteScratchpad) := Fields.holds _
theorem Fields.wReadScratchpad : Fields.Statement (.wReadScratchpad) := Fields.holds _
theorem Fields.wCopyScratchpad : Fields.Statement (.wCopyScratchpad) := Fields.holds _
theorem Fields.wRecallEeprom : Fields.Statement (.wRecallEeprom) := Fields.holds _
theorem Fields.wReadPowerSupply : Fields.Statement (.wReadPowerSupply) := Fields.holds _

end Sys2Proof.Laws
end

