-- ==== Sys2Proof/Tests/Slice0.lean ====
section
/-! SUPPORT. Tests: the well-formedness checks, words written out from the spec's encodings, single steps against the vectors of
95_test_vectors.md, and a witness for every statement that has hypotheses. -/

namespace Sys2Proof.Tests

open Sys2Proof.Machine

set_option maxRecDepth 100000
-- One proof at a time: the kernel's evaluations would otherwise wait for one another in a thread each.
set_option Elab.async false

/-! ### Well-formedness (00_scope.md rule R10, 45_reference_device.md rule R300) -/

theorem test_sourceParameters_wellFormed : Config.params.wellFormed = true := by decide

/-- One ill-formed parameter set for each check of rule R10, in the rule's order. -/
theorem test_illFormedParameters_refused :
    ([{ Config.params with tLow1 := 0 }, { Config.params with tLow1 := 15 }, { Config.params with tMsr := 70 },
      { Config.params with tRl := 0 }, { Config.params with tRl := 15 }, { Config.params with tLow1 := 16, tMsr := 20 },
      { Config.params with tLow0 := 60 }, { Config.params with tSlot := 14, tLow0 := 14 },
      { Config.params with tRstr := 419 }, { Config.params with tRec := 0 }] : List Params).all (fun p => !p.wellFormed) = true := by
  decide

/-- R1 of 95_test_vectors.md 2.5. -/
def r1 : Rom := #v[0x28, 0x11, 0x22, 0x33, 0x44, 0x55, 0x66, 0x9A]
/-- R2 of 95_test_vectors.md 2.5. -/
def r2 : Rom := #v[0x28, 0xA1, 0xB2, 0xC3, 0xD4, 0xE5, 0xF6, 0x07]

/-- Device D of 95_test_vectors.md 2.6, with raw_d = 0x0191 and known times. -/
def devD (rom : Rom) (power : Power) : Device :=
  Device.powerUp 4 rom power { th := 0x4B, tl := 0xF6, cfg := 0x7F } 0x91 0x01 1 2 3
    { raw := some 0x0191, conversion := some 1000, copy := some 500, crc := .usual }

/-- An echo device on pin 4. -/
def echoDevice : Device := { pin := 4, presence := none, hold := none, kind := .echo .idle }

theorem test_equalRoms_refused : romsDistinct [devD r1 .ext, devD r1 .parasite] = false := by decide
theorem test_distinctRoms_accepted : romsDistinct [devD r1 .ext, devD r2 .ext] = true := by decide

/-! ### Decoding: words written out from 30_encoding.md rules R100 to R102 and R110 -/

/-- OP in [15:8], ARG in [7:0]. -/
theorem test_decode_busDriver :
    [decodeRequest 0b0000000100000100, decodeRequest 0b0000001000000000, decodeRequest 0b0000001100000000,
     decodeRequest 0b0000010000000000, decodeRequest 0b0000010100000001, decodeRequest 0b0000011000000000,
     decodeRequest 0b0000011110100101, decodeRequest 0b0000100000000000].map okOf
      = [some (.init 4), some .driveLow, some .release, some .resetPulse, some (.writeBit true), some .readBit,
         some (.writeByte 0xA5), some .readByte] := by decide

theorem test_decode_romCommands :
    [decodeRequest 0b0011001100000000, decodeRequest 0b0101010100000000, decodeRequest 0b1100110000000000,
     decodeRequest 0b1110110000000000, decodeRequest 0b1111000000000000].map okOf
      = [some .readRom, some .matchRom, some .skipRom, some .alarmSearch, some .searchRom] := by decide

theorem test_decode_functionCommands :
    [decodeRequest 0b0100010000000001, decodeRequest 0b0100111000000000, decodeRequest 0b1011111000000001,
     decodeRequest 0b0100100000000000, decodeRequest 0b1011100000000001, decodeRequest 0b1011010000000000].map okOf
      = [some (.convertT .matchRom), some (.writeScratchpad .skipRom), some (.readScratchpad .matchRom),
         some (.copyScratchpad .skipRom), some (.recallEeprom .matchRom), some (.readPowerSupply .skipRom)] := by decide

theorem test_decode_wireBytes :
    [decodeWire 0b00110011, decodeWire 0b01010101, decodeWire 0b11001100, decodeWire 0b11101100, decodeWire 0b11110000,
     decodeWire 0b01000100, decodeWire 0b01001110, decodeWire 0b10111110, decodeWire 0b01001000, decodeWire 0b10111000,
     decodeWire 0b10110100].map okOf
      = [some .wReadRom, some .wMatchRom, some .wSkipRom, some .wAlarmSearch, some .wSearchRom, some .wConvertT,
         some .wWriteScratchpad, some .wReadScratchpad, some .wCopyScratchpad, some .wRecallEeprom, some .wReadPowerSupply] := by
  decide

/-- The illegal words of 95_test_vectors.md 2.1. -/
theorem test_decode_illegal :
    [decodeRequest 0x0000, decodeRequest 0x0201, decodeRequest 0x0401, decodeRequest 0x0502, decodeRequest 0x05FF,
     decodeRequest 0x0801, decodeRequest 0x0900, decodeRequest 0x3200, decodeRequest 0x3301, decodeRequest 0x4402,
     decodeRequest 0x4B00, decodeRequest 0xF001, decodeRequest 0xFFFF].all (fun r => (okOf r).isNone) = true := by decide

/-- The table's numbering: bit 0 is the least significant bit of the word. -/
theorem test_decodeTableWord : decodeTableWord 16 0x4401 = some (.convertT .matchRom) ∧ decodeTableWord 8 0xF0 = some .wSearchRom := by
  decide

/-! ### Program text (30_encoding.md rule R130) -/

theorem test_readLine :
    readLine "write_scratchpad match rom(0x28, 1, 2, 3, 4, 5, 6, 0xFF), 75, -10, 0x7F ; text"
      = some (.writeScratchpad (.matching #v[0x28, 1, 2, 3, 4, 5, 6, 0xFF]) 75 (-10) 0x7F) := by decide +kernel

theorem test_assemble :
    assemble [.init 4, .writeScratchpad .skip 75 (-10) 0x7F, .waitMs 750]
      = [.request 0x0104, .writeTh 0x4B, .writeTl 0xF6, .writeCfg 0x7F, .request 0x4E00, .waitMs 750] := by decide

/-! ### Single steps against 95_test_vectors.md -/

/-- Bound to pin 4, idle, Released, in the reference environment with gaps of `g`. -/
def bound (g n : Nat) (ds : List Device) : State :=
  { State.reset with
    bound := true, pin := 4, irqMasked := false, now := n, devices := ds
    env := { validPins := [4], irqAtReset := false, timing := .reference g, line := .reference } }

/-- With ROM_IN and WDATA written. -/
def loaded (rom : Rom) (ds : List Device) : State :=
  { bound 0 0 ds with romIn := rom.map some, wdata := { th := some 0x4B, tl := some 0xF6, cfg := some 0x7F } }

/-- The next state of an instruction. -/
def after (i : Instr) (s : State) : State :=
  match exec i s with
  | .next t => t
  | _ => s

/-- The position of the first device. -/
def firstPos (s : State) : Option Pos :=
  match s.devices with
  | { kind := .ds18b20 x, .. } :: _ => some x.pos
  | _ => none

/-- The response and its time. -/
def response (s : State) : Option (Nat × Status) :=
  match s.trace with
  | (n, .resp r) :: _ => some (n, r.status)
  | _ => none

/-- 2.2 (m): from block reset, `init 4`. -/
theorem test_init_binds :
    let t := after (.init 4) { bound 0 0 [] with bound := false, pin := 0 }
    t.trace = [(0, .resp { status := .ok, outputs := .none }), (0, .rel), (0, .req 0x0104)]
      ∧ statusView t 0 = 0x01 ∧ statusView t 1 = 0x04 := by decide

/-- 2.8 (e): a pin the platform rejects; BUSY stays set. -/
theorem test_init_badPin :
    (List.range 6).map (statusView (after (.init 9) { bound 0 0 [] with bound := false, pin := 0 }))
      = [0x0C, 0x00, 0x04, 0xFF, 0x09, 0x01] := by decide

/-- 2.2 (n): DRIVE_LOW. -/
theorem test_driveLow :
    let t := after .driveLow (bound 0 2000 [])
    t.trace.map Prod.fst = [2000, 2000, 2000] ∧ statusView t 0 = 0x03 := by decide

/-- 2.2 (q): RELEASE after 500 µs of low is a bus reset. -/
theorem test_release_afterLongLow :
    firstPos (after .release { bound 0 500 [devD r1 .ext] with
      drive := .drivenLow, lineLow := some 0 }) = some (.waitRom 0 0) := by decide +kernel

/-- 2.2 (f): a reset with one device. -/
theorem test_resetPulse_presence :
    let t := after .resetPulse (bound 0 100 [devD r1 .ext])
    t.trace = [(1060, .resp { status := .ok, outputs := .bit (some true) }), (1060, .critOff), (640, .smp .low), (580, .rel),
      (100, .low), (100, .critOn), (100, .req 0x0400)] ∧ t.bitOut = some true := by decide +kernel

/-- 2.2 (g): a reset with no device. -/
theorem test_resetPulse_noDevice :
    let t := after .resetPulse (bound 0 100 [])
    t.trace.head? = some (1060, .resp { status := .noPresence, outputs := .bit (some false) }) ∧ t.rstat = .last .noPresence := by
  decide +kernel

/-- 2.2 (c): a written 1 after a gap of 5. -/
theorem test_writeBit_one :
    (after (.writeBit true) (bound 5 1000 [])).trace
      = [(1076, .resp { status := .ok, outputs := .none }), (1076, .critOff), (1011, .rel), (1005, .low), (1005, .critOn),
         (1000, .req 0x0501)] := by decide +kernel

/-- 2.2 (b): a written 0. -/
theorem test_writeBit_zero :
    (after (.writeBit false) (bound 0 1000 [])).trace
      = [(1071, .resp { status := .ok, outputs := .none }), (1071, .critOff), (1070, .rel), (1000, .low), (1000, .critOn),
         (1000, .req 0x0500)] := by decide +kernel

/-- A device that is about to send the bits of `src` from bit `k` on. -/
def sending (src : TxSource) (k : Nat) (d : Device) : Device := d.withPosition (.tx src k)

/-- 2.2 (d): a device sends 0 (bit 1 of 0x91). -/
theorem test_readBit_zero :
    let t := after .readBit (bound 0 5000 [sending .scratchpad 1 (devD r1 .ext)])
    t.trace = [(5071, .resp { status := .ok, outputs := .bit (some false) }), (5071, .critOff), (5015, .smp .low), (5006, .rel),
      (5000, .low), (5000, .critOn), (5000, .req 0x0600)] ∧ t.bitOut = some false := by decide +kernel

/-- 2.2 (e): no device. -/
theorem test_readBit_noDevice : (after .readBit (bound 0 5000 [])).bitOut = some true := by decide +kernel

/-- 2.2 (i): the releases of `write_byte 0xA5`. -/
theorem test_writeByte_releases :
    let t := after (.writeByte 0xA5) (bound 0 0 [])
    (t.trace.filter (fun e => decide (e.2 = .rel))).map Prod.fst = [503, 496, 361, 354, 283, 148, 141, 6]
      ∧ response t = some (568, .ok) := by decide +kernel

/-- 2.2 (k): a device sends 0x91. -/
theorem test_readByte :
    let t := after .readByte (bound 0 0 [sending .scratchpad 0 (devD r1 .ext)])
    t.byteOut = some 0x91 ∧ response t = some (568, .ok) := by decide +kernel

/-- 2.5 (a): Read ROM. -/
theorem test_readRom :
    let t := after .readRom (bound 0 0 [devD r1 .ext])
    t.romOut = r1.map some ∧ response t = some (6072, .ok) ∧ firstPos t = some (.waitFn 0 0) := by decide +kernel

/-- 2.5 (b): Read ROM with no device. -/
theorem test_readRom_noDevice :
    let t := after .readRom { bound 0 0 [] with romOut := r1.map some }
    t.romOut = Vector.replicate 8 none ∧ response t = some (960, .noPresence) := by decide +kernel

/-- 2.5 (d): Match ROM selects. -/
theorem test_matchRom_selects :
    let t := after .matchRom (loaded r1 [devD r1 .ext])
    response t = some (6072, .ok) ∧ firstPos t = some (.waitFn 0 0) := by decide +kernel

/-- 2.5 (e): Match ROM of another ROM. -/
theorem test_matchRom_other : firstPos (after .matchRom (loaded r2 [devD r1 .ext])) = some .ignore := by decide +kernel

/-- 2.5 (l): Skip ROM with gaps of 2. -/
theorem test_skipRom :
    let t := after .skipRom (bound 2 0 [devD r1 .ext])
    response t = some (1546, .ok) ∧ firstPos t = some (.waitFn 0 0) := by decide +kernel

/-- 2.5 (h) and (i): the searches. -/
theorem test_alarmSearch :
    let t := after .alarmSearch (bound 0 0 [devD r1 .ext])
    response t = some (1528, .ok) ∧ firstPos t = some .search := by decide +kernel
theorem test_searchRom :
    let t := after .searchRom (bound 0 0 [devD r1 .ext])
    response t = some (1528, .ok) ∧ firstPos t = some .search := by decide +kernel

/-- The DS18B20 that stands first on the line. -/
def first (s : State) : Option Ds18b20 :=
  match s.devices with
  | { kind := .ds18b20 x, .. } :: _ => some x
  | _ => none

/-- A DS18B20 with activity `a`. -/
def withAct (a : Act) (d : Device) : Device :=
  match d.kind with
  | .ds18b20 x => { d with kind := .ds18b20 { x with act := a } }
  | _ => d

/-- 2.6 (a): the conversion runs from 2096. -/
theorem test_convertT :
    let t := after (.convertT .skipRom) (bound 0 0 [devD r1 .ext])
    response t = some (2096, .ok) ∧ (first t).map Ds18b20.act = some (.converting 3096 0x0191) := by decide +kernel

/-- 2.6 (c): Write Scratchpad stores 0x4B, 0xF6, 0x7F and keeps the temperature bytes. -/
theorem test_writeScratchpad :
    let t := after (.writeScratchpad .skipRom) (loaded r1 [devD r1 .ext])
    response t = some (3800, .ok)
      ∧ (first t).map (fun x => [x.sp.tempLsb, x.sp.tempMsb, x.sp.th, x.sp.tl, x.sp.config]) = some [0x91, 0x01, 0x4B, 0xF6, 0x7F] := by
  decide +kernel

/-- 2.6 (e): WDATA.TL unwritten. -/
theorem test_writeScratchpad_undefinedInput :
    let t := after (.writeScratchpad .skipRom) { loaded r1 [] with wdata := { th := some 0, tl := none, cfg := some 0 } }
    t.fault = .undefinedInput ∧ t.faultWord = 0x4E00 ∧ t.trace = [] := by decide

/-- 2.6 (g): Read Scratchpad. -/
theorem test_readScratchpad :
    let t := after (.readScratchpad .skipRom) (bound 0 0 [devD r1 .ext])
    response t = some (7208, .ok) ∧ t.spOut.toList.take 8 = [0x91, 0x01, 0x4B, 0xF6, 0x7F, 1, 2, 3].map some := by decide +kernel

/-- 2.6 (f): a device that was not selected leaves the idle line. -/
theorem test_readScratchpad_otherRom :
    let t := after (.readScratchpad .matchRom) (loaded r2 [devD r1 .ext])
    response t = some (11752, .ok) ∧ t.spOut = Vector.replicate 9 (some 0xFF) := by decide +kernel

/-- 2.6 (i): the commit window. -/
theorem test_copyScratchpad :
    let t := after (.copyScratchpad .skipRom) (bound 0 0 [devD r1 .ext])
    response t = some (2096, .ok) ∧ t.copyUntil = some 12096 := by decide +kernel

/-- 2.8 (i): a request inside it. -/
theorem test_copyHazard :
    (List.range 6).map (statusView (after .resetPulse { bound 0 5000 [] with copyUntil := some 12096, rstat := .last .ok }))
      = [0x09, 0x04, 0x07, 0x00, 0x00, 0x04] := by decide

/-- 2.6 (h): TH, TL and CONFIG come back from EEPROM. -/
theorem test_recallEeprom :
    let t := after (.recallEeprom .skipRom) (after (.writeScratchpad .skipRom)
      { loaded r1 [devD r1 .ext] with wdata := { th := some 1, tl := some 2, cfg := some 3 } })
    (first t).map (fun x => [x.sp.th, x.sp.tl, x.sp.config]) = some [0x4B, 0xF6, 0x7F] := by decide +kernel

/-- 2.6 (j) and (k): the power bit. -/
theorem test_readPowerSupply_external :
    let t := after (.readPowerSupply .skipRom) (bound 0 0 [devD r1 .ext])
    response t = some (2167, .ok) ∧ t.bitOut = some true := by decide +kernel
theorem test_readPowerSupply_parasite :
    (after (.readPowerSupply .skipRom) (bound 0 0 [devD r1 .parasite])).bitOut = some false := by decide +kernel

/-- 2.9 (g): the ROM command bytes, each placed as a complete byte. -/
theorem test_wire_romCommands :
    [(Instr.wReadRom, 0x33), (.wMatchRom, 0x55), (.wSkipRom, 0xCC), (.wAlarmSearch, 0xEC), (.wSearchRom, 0xF0)].map
        (fun p => firstPos (after p.1 ((bound 0 0 [devD r1 .ext]).withFetchWord 8 p.2)))
      = [some (.tx .rom 0), some (.matching 0 true), some (.waitFn 0 0), some .search, some .search] := by decide +kernel

/-- 2.9 (h): the function command bytes. -/
theorem test_wire_functionCommands :
    [(Instr.wConvertT, 0x44), (.wWriteScratchpad, 0x4E), (.wReadScratchpad, 0xBE), (.wCopyScratchpad, 0x48), (.wRecallEeprom, 0xB8),
     (.wReadPowerSupply, 0xB4)].map (fun p => firstPos (after p.1 ((bound 0 0 [devD r1 .ext]).withFetchWord 8 p.2)))
      = [some .ignore, some (.rxWsp 0 0), some (.tx .scratchpad 0), some .ignore, some .ignore, some (.tx .power 0)] := by
  decide +kernel

/-- 2.9 (h), last: a ROM command where a function command is expected. -/
theorem test_wire_outOfPosition :
    firstPos (after .wReadRom (bound 0 0 [(devD r1 .ext).withPosition (.waitFn 0x33 8)])) = some .unknown := by decide +kernel

/-- The next state of a step. -/
def stepped (s : State) : State :=
  match step s with
  | .next t => t
  | _ => s

/-- 70_reset_and_hazards.md rule R430: when the host has nothing left to do, the run ends with the conversion that is pending. -/
theorem test_idle_endsTheRun :
    let s := bound 0 1000 [withAct (.converting 3096 0x0550) (devD r1 .ext)]
    s.over = false ∧ (stepped s).now = 3096 ∧ (stepped s).over = true
      ∧ (first (stepped s)).map (fun x => x.sp.tempLsb) = some 0x50 := by decide +kernel

/-- 70_reset_and_hazards.md rule R430: a block reset at 100 cuts `reset_pulse`, which never responds, so that the run is not over; with a
further request that responds it is. -/
theorem test_over_needsResponse :
    let s := { bound 0 0 [] with resetsAt := [100], inbox := [.request 0x0400] }
    let t := stepped s
    (t.now, t.busy, t.fault, t.inbox, t.over) = (100, false, .none, [], false)
      ∧ (stepped { t with inbox := [.request 0x0104] }).over = true := by decide +kernel

/-- 70_reset_and_hazards.md rule R400, block reset at any time: one at 100 and one at 1000 each end a `reset_pulse` of one run with no
response. -/
theorem test_twoBlockResets :
    let s := { bound 0 0 [] with resetsAt := [100, 1000], inbox := [.request 0x0400, .request 0x0104, .request 0x0400] }
    let t := stepped s
    let u := stepped (stepped t)
    (t.now, t.bound, t.busy, t.call, t.resetsAt) = (100, false, false, .cut, [1000])
      ∧ (u.now, u.bound, u.busy, u.call, u.resetsAt, u.inbox) = (1000, false, false, .cut, [], []) := by decide +kernel

/-- 2.7: the least, the greatest and two ordinary temperatures, in 1/16 °C. -/
theorem test_temperature :
    [rawTemperature 0x01 0x91, rawTemperature 0xFF 0x5E, rawTemperature 0x80 0x00, rawTemperature 0x7F 0xFF]
      = [401, -162, -32768, 32767] := by decide

/-- 2.7: the threshold bytes. -/
theorem test_thresholdBytes :
    [75, -10, 127, -128, 0, -1].map thresholdByte = [0x4B, 0xF6, 0x7F, 0x80, 0x00, 0xFF] := by decide

/-- 2.8 (a): the status view after block reset. -/
theorem test_statusView_reset : (List.range 6).map (statusView State.reset) = [0x00, 0x00, 0x00, 0xFF, 0x00, 0x00] := by decide

/-- 10_state.md rule R45: STAT, PIN and FAULT read by another context during `write_byte`, in the gap before its first slot and in a
later one (BUSY = 1, FLT = 0), and while the engine is idle. -/
theorem test_statusView_whileBusy :
    let t := after (.writeByte 0xA5) { bound 0 0 [] with viewReads := [(0, 0), (100, 0), (100, 2), (5000, 0)] }
    (t.viewReads, t.viewed) = ([(5000, 0)], [⟨142, 2, 0x00⟩, ⟨142, 0, 0x05⟩, ⟨0, 0, 0x05⟩])
      ∧ (stepped t).viewed.head? = some ⟨5000, 0, 0x01⟩ := by decide +kernel

/-! ### Witnesses: for every statement with hypotheses a state and operands that meet all of them together, clause by clause,
at the values where clauses meet -/

/-- One device D on the line, inputs written, in the reference environment with no gaps. -/
def st1 : State := loaded r1 [devD r1 .ext]

theorem witness_inputs : st1.romInWritten = true ∧ st1.wdataWritten = true := by decide +kernel

/-- Every request executes normally there: the hypotheses of the completion statements. -/
theorem witness_ready (i : Instr) : Ready i st1 :=
  ⟨rfl, rfl, fun _ => rfl, fun _ => rfl, by simp [State.inputMissing, witness_inputs], rfl, rfl⟩

theorem witness_accepts_init : Accepts (.init 4) st1 := ⟨witness_ready _, by rintro _ ⟨⟩; rfl⟩
theorem witness_accepts_last : Accepts (.readPowerSupply .matchRom) st1 := ⟨witness_ready _, by rintro _ ⟨⟩⟩
/-- INIT is accepted while a commit is pending. -/
theorem witness_accepts_init_copyPending :
    Accepts (.init 4) { st1 with copyUntil := some 1 } ∧ State.copyPending { st1 with copyUntil := some 1 } = true :=
  ⟨⟨⟨rfl, rfl, fun _ => rfl, fun h => absurd h (by decide), by decide, rfl, rfl⟩, by rintro _ ⟨⟩; rfl⟩, rfl⟩
/-- A request at `copy_until` itself is accepted. -/
theorem witness_ready_atCopyUntil : Ready .resetPulse { bound 0 12096 [] with copyUntil := some 12096 } :=
  ⟨rfl, rfl, fun _ => rfl, fun _ => rfl, rfl, rfl, rfl⟩

theorem witness_timing : ReferenceTiming 0 st1 ∧ ReferenceEnvironment 0 st1 ∧ st1.jitter = 0 := ⟨rfl, ⟨rfl, rfl⟩, rfl⟩

/-- The line is released and no low period is tracked. -/
theorem witness_lineReleased (g n : Nat) (ds : List Device) :
    LowPeriodMatchesDrive (bound g n ds) ∧ LowPeriodTracked (bound g n ds) ∧ LowPeriodBegun (bound g n ds) :=
  ⟨⟨nofun, nofun⟩, nofun, nofun⟩
theorem witness_lineReleased_st1 : LowPeriodMatchesDrive st1 ∧ LowPeriodTracked st1 ∧ LowPeriodBegun st1 :=
  ⟨⟨nofun, nofun⟩, nofun, nofun⟩

/-- PresenceMeansADevice: a device on the line, and none. -/
theorem witness_presence : devD r1 .ext ∈ st1.devices ∧ (devD r1 .ext).pin = st1.pin ∧ (bound 0 0 []).devices = [] :=
  ⟨List.mem_singleton_self _, rfl, rfl⟩
theorem witness_noDevice : Ready .resetPulse (bound 0 0 []) ∧ ReferenceEnvironment 0 (bound 0 0 []) :=
  ⟨⟨rfl, rfl, fun _ => rfl, fun _ => rfl, rfl, rfl, rfl⟩, rfl, rfl⟩

/-- The line held low from 0 by DRIVE_LOW. -/
def st1Low : State := { st1 with drive := .drivenLow, lineLow := some 0 }

theorem witness_lineHeld : Ready .resetPulse st1Low ∧ ReferenceEnvironment 0 st1Low :=
  ⟨⟨rfl, rfl, fun _ => rfl, fun _ => rfl, rfl, rfl, rfl⟩, rfl, rfl⟩
theorem witness_lineHeld_lowPeriod : LowPeriodMatchesDrive st1Low ∧ LowPeriodTracked st1Low ∧ LowPeriodBegun st1Low :=
  ⟨⟨fun _ => rfl, fun _ => rfl⟩, fun _ => rfl, fun p h => by
    obtain rfl : p = 0 := (Option.some.inj h).symm
    exact Nat.zero_le _⟩

/-- The line that a device still holds low after the engine's release at 6 µs: bit 1 of 0x91 is a 0. -/
def stHeld : State := after .release
  (passTo 6 (setLineLow (bound 0 0 [(devD r1 .ext).withPosition (.tx .scratchpad 1)])))

theorem witness_deviceHolds : LowPeriodTracked stHeld ∧ LowPeriodBegun stHeld ∧ stHeld.lineLow = some 0 ∧ stHeld.drive = .released
    ∧ Ready .resetPulse stHeld ∧ (∀ d ∈ stHeld.devices, d.pin = stHeld.pin) :=
  have h : stHeld.lineLow = some 0 := by decide +kernel
  ⟨nofun, fun p hp => by rw [h] at hp; obtain rfl := Option.some.inj hp; exact Nat.zero_le _, h, rfl,
    ⟨rfl, rfl, fun _ => rfl, fun _ => rfl, rfl, rfl, rfl⟩, by decide +kernel⟩

/-- The devices of the statements about one device on the line. -/
theorem witness_oneDevice : st1.devices = [devD r1 .ext] ∧ (devD r1 .ext).pin = st1.pin
    ∧ (∃ x, (devD r1 .ext).kind = .ds18b20 x ∧ x.copying = false ∧ x.act = .none ∧ x.script.raw = some 0x0191
      ∧ x.power = .ext)
    ∧ (∃ x, (devD r1 .parasite).kind = .ds18b20 x ∧ x.copying = false ∧ x.power = .parasite)
    ∧ st1.wdata = { th := some 0x4B, tl := some 0xF6, cfg := some 0x7F } :=
  ⟨rfl, rfl, ⟨_, rfl, rfl, rfl, rfl, rfl⟩, ⟨_, rfl, rfl, rfl⟩, rfl⟩

theorem witness_echo : Ready .resetPulse (bound 0 0 [echoDevice]) ∧ ReferenceEnvironment 0 (bound 0 0 [echoDevice])
    ∧ (bound 0 0 [echoDevice]).devices = [echoDevice] ∧ echoDevice.pin = (bound 0 0 [echoDevice]).pin
    ∧ echoDevice.kind = .echo .idle :=
  ⟨⟨rfl, rfl, fun _ => rfl, fun _ => rfl, rfl, rfl, rfl⟩, ⟨rfl, rfl⟩, rfl, rfl, rfl⟩

theorem witness_encodeOfDecode : decodeRequest 0x01FF = .ok (.init 0xFF) ∧ decodeWire 0xF0 = .ok .wSearchRom := by decide

/-- The illegal words next to legal ones: 0x0201, 0x0502 and 0x0900. -/
theorem witness_illegal : [(0x0201 : ReqWord), 0x0502, 0x0900, 0x0000, 0xFFFF].all (fun w => requestRows.all (fun r => !r.admits w)) = true
    ∧ (bound 0 0 []).fault = .none ∧ (bound 0 0 []).busy = false := by decide

/-- Both clauses of StepRunsDeliveredRequest: the host's word, and another context's at the very time it is due. -/
theorem witness_deliveredRequest :
    (let s : State := { bound 0 7 [] with inbox := [.request 0x0400] }
     s.pendingCommand? = none ∧ s.resetDue = false ∧ decodeRequest 0x0400 = .ok .resetPulse ∧ s.dueIntruder? = none
       ∧ s.inbox = .request 0x0400 :: [])
    ∧ (let s : State := { bound 0 7 [] with intruders := [(7, 0x0400)] }
       s.pendingCommand? = none ∧ s.resetDue = false ∧ s.dueIntruder? = some (0x0400, [])) := by decide

theorem witness_commandByte : (st1.withFetchWord 8 0x44).pendingCommand? = some 0x44 ∧ decodeWire 0x44 = .ok .wConvertT := by decide

theorem witness_fetchedWord : decodeTableWord 16 0x0400 = some .resetPulse ∧ decodeTableWord 8 0x44 = some .wConvertT := by decide

/-- The clauses of RequestFaultPriority, in order. -/
theorem witness_faultPriority_first :
    State.fault { bound 0 0 [] with fault := .copyHazard } ≠ .none
    ∧ (State.fault { bound 0 0 [] with busy := true } = .none ∧ State.busy { bound 0 0 [] with busy := true } = true)
    ∧ ((bound 0 0 []).fault = .none ∧ (bound 0 0 []).busy = false ∧ okOf (decodeRequest 0x0502) = none)
    ∧ (decodeRequest 0x0300 = .ok .release ∧ State.bound { bound 0 0 [] with bound := false } = false) := by decide

/-- COPY_HAZARD one microsecond before `copy_until`, and not at it; UNDEFINED_INPUT; BAD_PIN. -/
theorem witness_faultPriority_rest :
    (decodeRequest 0x0400 = .ok .resetPulse ∧ State.copyPending { bound 0 12095 [] with copyUntil := some 12096 } = true)
    ∧ State.copyPending { bound 0 12096 [] with copyUntil := some 12096 } = false
    ∧ (decodeRequest 0x5500 = .ok .matchRom ∧ (bound 0 0 []).copyPending = false ∧ (bound 0 0 []).inputMissing .matchRom = true)
    ∧ (decodeRequest 0x0109 = .ok (.init 9) ∧ (bound 0 0 []).inputMissing (.init 9) = false ∧ (bound 0 0 []).validPin 9 = false) := by
  decide

/-- Both sides of WhichInputsAreRead. -/
theorem witness_inputMissing : (bound 0 0 []).inputMissing .matchRom = true ∧ st1.inputMissing .matchRom = false
    ∧ State.inputMissing { st1 with wdata := { th := none, tl := some 1, cfg := some 2 } } (.writeScratchpad .skipRom) = true
    ∧ (bound 0 0 []).inputMissing (.writeScratchpad .skipRom) = true
    ∧ (bound 0 0 []).inputMissing (.convertT .skipRom) = false := by decide +kernel

/-- A faulted engine with a caller that waits, whose step is a next state: another request is delivered. -/
theorem witness_faulted :
    let s : State := { bound 0 0 [] with fault := .notBound, inbox := [.request 0x0400], call := .waiting }
    s.fault ≠ .none ∧ s.resetsAt = [] ∧ s.inbox.head? ≠ some .blockReset ∧ s.call = .waiting
      ∧ step s = .next { s with inbox := [] } := ⟨by decide, rfl, by decide, rfl, rfl⟩

/-- A second request that is due at the very start of the first gap, unmasked and masked. -/
theorem witness_secondRequest :
    let s : State := { st1 with intruders := [(0, 0x0600)] }
    Instr.isRequest .matchRom = true ∧ drivesLine .matchRom = true ∧ Instr.matchRom ≠ .driveLow ∧ s.resetsAt = []
      ∧ s.intruders = (0, 0x0600) :: [] ∧ 0 ≤ s.now ∧ Ready .matchRom { s with intruders := [] }
      ∧ s.irqMasked = false ∧ State.irqMasked { s with irqMasked := true } = true :=
  ⟨rfl, rfl, by decide, rfl, rfl, Nat.le_refl _, witness_ready _, rfl, rfl⟩

/-- WRITE_BYTE from 100 with gaps of 2, which end at 102, 175, 248 and so on: a second request due at 175 stops it before its second
slot, one due at 176 before its third, and one due after the last gap waits (60_exceptions.md rules R352, R358, R373). -/
theorem test_secondRequest_laterGap :
    [175, 176, 614].map (fun n =>
        let t := after (.writeByte 0xFF) { bound 2 100 [] with intruders := [(n, 0x0600)] }
        (t.fault, t.faultWord, t.now, (t.trace.filter (fun e => decide (e.2 = .critOn))).map Prod.fst))
      = [(.concurrentRequest, 0x0600, 175, [102]), (.concurrentRequest, 0x0600, 248, [175, 102]),
         (.none, 0, 684, [613, 540, 467, 394, 321, 248, 175, 102])] := by decide +kernel

/-- A request that answers a next state: EngineNeverMisusesCriticalSections, RequestFrame and OtherLinesSeeNothing (a device on
another line). -/
theorem witness_answers :
    let s : State := { st1 with devices := [devD r1 .ext, { devD r2 .ext with pin := 9 }] }
    s.fault = .none ∧ s.resetsAt = [] ∧ exec .driveLow s = .next (after .driveLow s)
      ∧ s.devices[1]? = some { devD r2 .ext with pin := 9 } ∧ (9 : Byte) ≠ s.pin := ⟨rfl, rfl, rfl, rfl, by decide⟩

/-- A retargeting INIT answers a next state. -/
theorem witness_answers_init : exec (.init 4) { st1 with pin := 9 } = .next (after (.init 4) { st1 with pin := 9 }) := rfl

/-- Written and unwritten output cells. -/
theorem witness_outputCells :
    (let s : State := { st1 with romOut := r1.map some, spOut := Vector.replicate 9 (some 0xFF), bitOut := some true, byteOut := some 7 }
     s.fault = .none ∧ memRead s.romOut 7 = some 0x9A ∧ memRead s.spOut 8 = some 0xFF ∧ s.bitOut = some true
       ∧ s.byteOut = some 7)
    ∧ memRead st1.romOut 7 = none ∧ memRead st1.spOut 8 = none ∧ st1.bitOut = none ∧ st1.byteOut = none := by decide +kernel

/-- A host inside a critical section, and one outside. -/
theorem witness_criticalSections :
    State.critStack { st1 with critStack := [false] } = false :: [] ∧ st1.critStack = [] ∧ st1.fault = .none ∧ st1.upc = .idle := by
  decide

/-- No block reset is scheduled: DelayBounds and HostWaits. -/
theorem witness_waits : st1.resetsAt = [] ∧ ReferenceTiming 0 st1 ∧ st1.critStack = [] := ⟨rfl, rfl, rfl⟩

/-- A general platform has a jitter. -/
theorem witness_jitter :
    let s : State := { st1 with env := { st1.env with timing := .general 3 } }
    Ready (.writeBit true) s ∧ s.jitter = 3 := ⟨⟨rfl, rfl, fun _ => rfl, fun _ => rfl, rfl, rfl, rfl⟩, rfl⟩

/-- TemperatureDecoding: the least temperature, and each cell unwritten. -/
theorem witness_temperature :
    (let s : State := { st1 with spOut := Vector.replicate 9 (some 0x80) }
     memRead s.spOut 0 = some 0x80 ∧ memRead s.spOut 1 = some 0x80)
    ∧ (let s : State := { st1 with spOut := (Vector.replicate 9 none).setIfInBounds 0 (some 1) }
       s.fault = .none ∧ memRead s.spOut 1 = none)
    ∧ (let s : State := { st1 with spOut := (Vector.replicate 9 none).setIfInBounds 1 (some 1) }
       s.fault = .none ∧ memRead s.spOut 0 = none) := by decide

/-- A device's state in position `p`. -/
def inPos (p : Pos) : Ds18b20 :=
  match (devD r1 .ext).kind with
  | .ds18b20 x => { x with pos := p }
  | _ => { rom := r1, power := .ext, sp := default, ee := default, pos := p, act := .none, slotEnd := 0, draws := 0, script := default }

/-- The positions of the statements about received bytes. -/
theorem witness_positions :
    ((inPos (.waitRom 0 0)).copying = false ∧ (inPos (.waitRom 0 0)).pos = .waitRom 0 0)
    ∧ ((inPos (.waitFn 0 0)).copying = false ∧ (inPos (.waitFn 0 0)).pos = .waitFn 0 0)
    ∧ ((inPos (.matching 0 true)).copying = false ∧ (inPos (.matching 0 true)).pos = .matching 0 true)
    ∧ ((inPos (.rxWsp 0 0)).copying = false ∧ (inPos (.rxWsp 0 0)).pos = .rxWsp 0 0) := by decide

/-- Boundary values of the two command tables: the least and the greatest byte, and one of each kind. -/
theorem witness_commandTables :
    [0x33, 0x55, 0xCC, 0xEC, 0x00, 0xFF].map (fun v => ((inPos (.waitRom 0 0)).receiveBits id (bitsOf [v])).pos)
      = [.tx .rom 0, .matching 0 true, .waitFn 0 0, .search, .unknown, .unknown]
    ∧ [0x4E, 0xBE, 0xB4, 0x44, 0x48, 0x00, 0xFF].map (fun v => ((inPos (.waitFn 0 0)).receiveBits id (bitsOf [v])).pos)
      = [.rxWsp 0 0, .tx .scratchpad 0, .tx .power 0, .ignore, .ignore, .unknown, .unknown] := by decide +kernel

/-- Match ROM: the device's own ROM and another. -/
theorem witness_matchRom :
    ((inPos (.matching 0 true)).receiveBits id (bitsOf r1.toList)).pos = .waitFn 0 0
      ∧ ((inPos (.matching 0 true)).receiveBits id (bitsOf r2.toList)).pos = .ignore := by decide +kernel

/-- Write Scratchpad cut short just before a byte is complete, and just when it is. -/
theorem witness_writeScratchpad :
    [0, 7, 8, 15, 16, 23, 24].map (fun n =>
        let y := (inPos (.rxWsp 0 0)).receiveBits id ((bitsOf [1, 2, 3]).take n)
        [y.sp.th, y.sp.tl, y.sp.config])
      = [[0x4B, 0xF6, 0x7F], [0x4B, 0xF6, 0x7F], [1, 0xF6, 0x7F], [1, 0xF6, 0x7F], [1, 2, 0x7F], [1, 2, 0x7F], [1, 2, 3]] := by
  decide +kernel

/-- The two command lists: a device of each kind that the clauses name. -/
theorem witness_wireCommands :
    (.wSearchRom, Pos.search) ∈ [(Instr.wReadRom, Pos.tx .rom 0), (.wMatchRom, .matching 0 true), (.wSkipRom, .waitFn 0 0),
      (.wAlarmSearch, .search), (.wSearchRom, .search)]
    ∧ (.wCopyScratchpad, Pos.ignore) ∈ [(Instr.wConvertT, Pos.ignore), (.wWriteScratchpad, .rxWsp 0 0),
      (.wReadScratchpad, .tx .scratchpad 0), (.wCopyScratchpad, .ignore), (.wRecallEeprom, .ignore), (.wReadPowerSupply, .tx .power 0)]
    ∧ (let s := bound 0 0 [(devD r1 .ext).withPosition (.waitRom 0xF0 8), (devD r2 .ext).withPosition (.waitFn 0xF0 8), echoDevice]
       s.devices[0]? = some ((devD r1 .ext).withPosition (.waitRom 0xF0 8))
         ∧ ((devD r1 .ext).withPosition (.waitRom 0xF0 8)).kind = .ds18b20 (inPos (.waitRom 0xF0 8))
         ∧ (inPos (.waitFn 0x48 8)).pos = .waitFn 0x48 8 ∧ opByte .wCopyScratchpad = 0x48
         ∧ opByte .wSearchRom = 0xF0 ∧ echoDevice.command? = none) := by decide +kernel

/-- ActivityCompletes: at the time of completion and one microsecond before it. -/
theorem witness_activity :
    (Ds18b20.act { inPos .ignore with act := .converting 100 0x0550 } = .converting 100 0x0550)
    ∧ [99, 100].map (fun n => (Ds18b20.settle n { inPos .ignore with act := .converting 100 0x0550 }).sp.tempLsb) = [0x91, 0x50]
    ∧ [99, 100].map (fun n => (Ds18b20.settle n { inPos .ignore with act := .copying 100 }).act) = [.copying 100, .none]
    ∧ (inPos .ignore).act = .none := by decide +kernel

/-- A line that the engine has held low from 0 to `n`, with device D receiving. -/
def heldLow (n : Nat) : State :=
  { bound 0 n [(devD r1 .ext).withPosition (.waitRom 0 0)] with
    drive := .drivenLow, lineLow := some 0 }

/-- LowPeriodIsResetOrSlot at 480 and 479 µs, and at 15 and 14 µs: a reset, a 0, a 0, a 1. -/
theorem witness_lowPeriod :
    (heldLow 480).lineLow = some 0 ∧ (heldLow 480).devices[0]? = some ((devD r1 .ext).withPosition (.waitRom 0 0))
    ∧ ((devD r1 .ext).withPosition (.waitRom 0 0)).pin = (heldLow 480).pin
    ∧ (∀ e ∈ (heldLow 479).devices, e.pin = (heldLow 479).pin → e.drivesLow (heldLow 479).now = false)
    ∧ [480, 479, 15, 14].map (fun n => firstPos (releaseLine (heldLow n)))
      = [some (.waitRom 0 0), some (.waitRom 0 1), some (.waitRom 0 1), some (.waitRom 1 1)] := by decide +kernel

/-- A device that has seen a reset at 0, in position `p`. -/
def resetSeen (p : Pos) : Device := { (devD r1 .ext).withPosition p with presence := some 0 }

/-- The engine drives the line low from `a` to `b`, with a device that has seen a reset at 0. -/
def lowFrom (a b : Nat) : State := releaseLine (passTo b (setLineLow (bound 0 a [resetSeen (.waitRom 0 0)])))

/-- Next to the presence pulse, from 30 to 150: a low period that begins just as the pulse is over is a slot, and so is one that ends
just before it begins; one that the pulse prolongs, or that begins within it, is none. -/
theorem witness_lowPeriod_presence :
    [(150, 160), (20, 29), (20, 30), (149, 160)].map (fun p => firstPos (lowFrom p.1 p.2))
      = [some (.waitRom 1 1), some (.waitRom 1 1), some (.waitRom 0 0), some (.waitRom 0 0)]
    ∧ (setLineLow (bound 0 150 [resetSeen (.waitRom 0 0)])).lineLow = some 150 ∧ (resetSeen (.waitRom 0 0)).presence = some 0 := by
  decide +kernel

/-- 45_reference_device.md rule R307: the line is low without a break from 20 to 505, by the engine to 40, by the presence pulse to
150 and by the engine again from 140 on. That is 485 µs, a reset. -/
theorem test_mergedLow_isReset :
    let s := lowFrom 20 40
    let t := releaseLine (passTo 505 (setLineLow (passTo 140 s)))
    s.lineLow = some 20 ∧ (passTo 140 s).lineLow = some 20 ∧ (passTo 150 s).lineLow = none
      ∧ t.devices.map Device.presence = [some 505] := by decide +kernel

/-- The same with a block reset at 60 (70_reset_and_hazards.md rule R403): the presence pulse holds the line, and the host binds the
pin again and drives it from 140 to 505. -/
theorem test_mergedLow_acrossBlockReset :
    let s := after (.init 4) (blockReset (passTo 60 (lowFrom 20 40)))
    let t := after .release (passTo 505 (after .driveLow (passTo 140 s)))
    s.lineLow = some 20 ∧ t.devices.map Device.presence = [some 505] := by decide +kernel

/-- A device that sends a 0 in the slot that falls at 200 and has released it at `n`. -/
def zeroSlot (n : Nat) : State := passTo n (releaseLine (passTo 206 (setLineLow (bound 0 200 [resetSeen (.tx .scratchpad 1)]))))

/-- 45_reference_device.md rules R309, R311: the line rises when the device stops, at 245; where the engine drives it again before
that, the low period goes on, and at 680 it is a reset. -/
theorem witness_lowPeriod_held :
    (zeroSlot 206).devices.map (fun d => (d.drivesLow 206, d.drivesLow 244, d.drivesLow 245)) = [(true, true, false)]
    ∧ [206, 244, 245].map (fun n => ((zeroSlot n).lineLow, firstPos (zeroSlot n)))
      = [(some 200, some (.tx .scratchpad 1)), (some 200, some (.tx .scratchpad 1)), (none, some (.tx .scratchpad 2))]
    ∧ [679, 680].map (fun n => (releaseLine (passTo n (setLineLow (zeroSlot 240)))).devices.map Device.presence)
      = [[some 0], [some 680]]
    ∧ firstPos (releaseLine (passTo 679 (setLineLow (zeroSlot 240)))) = some (.tx .scratchpad 2) := by decide +kernel

/-- 45_reference_device.md rule R309, 70_reset_and_hazards.md rule R403: a block reset while the device holds its slot changes nothing
of it; one that ends the engine's own drive of a line that nobody else holds moves no device (log entry 9). -/
theorem test_blockReset_inSlot :
    (let s := blockReset (zeroSlot 220)
     s.lineLow = some 200 ∧ (passTo 245 s).lineLow = none ∧ firstPos (passTo 245 s) = some (.tx .scratchpad 2))
    ∧ (let s := blockReset (heldLow 480)
       s.lineLow = none ∧ firstPos s = some (.waitRom 0 0) ∧ s.devices.map Device.presence = [none]) := by decide +kernel

/-- A slot that is released at 206 and driven low again in the same microsecond is two low periods, and so is a presence pulse that
ends at 150 with a drive that begins there; a line that is driven low and released in one microsecond is a slot (log entry 36). -/
theorem test_sameMicrosecond :
    (let s := releaseLine (passTo 206 (setLineLow (bound 0 200 [resetSeen (.waitRom 0 0)])))
     firstPos s = some (.waitRom 1 1) ∧ (setLineLow s).lineLow = some 206)
    ∧ (setLineLow (passTo 150 (lowFrom 20 40))).lineLow = some 150
    ∧ firstPos (lowFrom 200 200) = some (.waitRom 1 1) := by decide +kernel

/-- LowPeriodIsResetOrSlot, the presence pulse prolonging a low period: from 20 to 150, no slot. -/
theorem witness_lowPeriod_heldPresence :
    (lowFrom 20 40).lineLow = some 20 ∧ (lowFrom 20 40).devices.map (fun d => (d.presence, d.drivesLow 40, d.drivesLow 149, d.drivesLow 150))
      = [(some 0, true, true, false)]
    ∧ firstPos (passTo 150 (lowFrom 20 40)) = some (.waitRom 0 0) := by decide +kernel

/-- SendingDeviceHoldsZero: each source, at both ends of the window, with a device whose presence pulse ends as the slot falls; and a
receiving device. -/
theorem witness_sending :
    ((resetSeen (.tx .rom 0)).presence = some 0 ∧ (inPos (.tx .rom 0)).copying = false ∧ romBit r1 0 = false)
    ∧ [150, 194, 195].map ((((resetSeen (.tx .rom 0)).fall 150).drivesLow ·)) = [true, true, false]
    ∧ [150, 194].map (({ (devD r1 .parasite).withPosition (.tx .power 0) with presence := some 0 }.fall 150).drivesLow ·) = [true, true]
    ∧ [150, 194].map (((resetSeen (.tx .power 0)).fall 150).drivesLow ·) = [false, false]
    ∧ (inPos (.tx .scratchpad 1)).converting = false
    ∧ [150, 194].map (((resetSeen (.tx .scratchpad 1)).fall 150).drivesLow ·) = [true, true]
    ∧ ((resetSeen .ignore).fall 150).drivesLow 150 = false := by decide +kernel

/-- LongDriveLowIsAReset at exactly 480 µs, from a released line and from one that is held low already. -/
theorem witness_longDriveLow : Ready .driveLow st1 ∧ Ready .driveLow st1Low
    ∧ [st1, st1Low].map (fun s => firstPos (after .release { after .driveLow s with now := 480 }))
      = [some (.waitRom 0 0), some (.waitRom 0 0)] :=
  ⟨witness_ready _, ⟨rfl, rfl, fun _ => rfl, fun _ => rfl, by decide, rfl, rfl⟩, by decide +kernel⟩

/-- PrimitiveCounts, at the byte with the most and the one with the fewest. -/
theorem witness_primitives : primitives (writeByteProgram 0xFF) = 56 ∧ primitives (writeByteProgram 0x00) = 48
    ∧ primitives (resetProgram ++ addressProgram (List.replicate 8 0xFF) .matchRom ++ writeByteProgram 0xBE ++ receiveScratchpad) = 1210 := by
  decide +kernel

/-- StatusViewLayout: a read that is due at once, one that falls in the second gap, and a masked one. -/
theorem witness_statusView :
    Instr.isRequest (.writeByte 0) = true ∧ drivesLine (.writeByte 0) = true ∧ Instr.writeByte 0 ≠ .driveLow
    ∧ [0, 71].all (fun n => decide ((after (.writeByte 0) { st1 with viewReads := [(n, 0)] }).viewReads = [])) = true
    ∧ Accepts (.writeByte 0) { st1 with viewReads := [(71, 0)] } ∧ State.irqMasked { st1 with viewReads := [(71, 0)] } = false
    ∧ Accepts (.writeByte 0) { st1 with irqMasked := true } ∧ State.irqMasked { st1 with irqMasked := true } = true :=
  ⟨rfl, rfl, nofun, by decide +kernel,
   ⟨⟨rfl, rfl, fun _ => rfl, fun _ => rfl, by decide +kernel, rfl, rfl⟩, nofun⟩, rfl,
   ⟨⟨rfl, rfl, fun _ => rfl, fun _ => rfl, by decide +kernel, rfl, rfl⟩, nofun⟩, rfl⟩

/-- BlockResetValues and CriticalSectionPrimitives: a line held low, a section open. -/
theorem witness_blockReset : (heldLow 480).drive = .drivenLow ∧ (blockReset (heldLow 480)).trace = [(480, .rel)] := by decide

/-- FirstRequestMustBeInit: the first and the last request of the table but INIT, in an unbound state. -/
theorem witness_firstRequest : Instr.isRequest .driveLow = true ∧ (∀ pin, Instr.driveLow ≠ .init pin)
    ∧ Instr.isRequest (.readPowerSupply .matchRom) = true ∧ (∀ pin, Instr.readPowerSupply .matchRom ≠ .init pin)
    ∧ (let s : State := { bound 0 7 [] with bound := false }
       s.bound = false ∧ s.fault = .none ∧ s.busy = false ∧ hostTurn .blockReset s = .next (blockReset s)) :=
  ⟨rfl, nofun, rfl, nofun, rfl, rfl, rfl, rfl⟩

/-- A request that a second one has stopped, with the host's read of the partly filled buffer ready (20_memory.md rule R81). -/
def stopped : State :=
  { bound 0 0 [] with
    busy := true, upc := .running .readRom 100, fault := .concurrentRequest, faultWord := 0x0600, call := .waiting
    romOut := (unwritten 8).setIfInBounds 0 (some 0x28), inbox := [.readRomOut 0] }

theorem witness_hostWaits :
    stopped.inbox = [.readRomOut 0] ∧ (∀ w, HostAction.readRomOut 0 ≠ .request w) ∧ (∀ k, HostAction.readRomOut 0 ≠ .readStatus k)
      ∧ HostAction.readRomOut 0 ≠ .blockReset ∧ stopped.call = .waiting
      ∧ step { stopped with resetsAt := [3] } = .next { blockReset { stopped with now := 3 } with resetsAt := [] } :=
  ⟨rfl, nofun, nofun, nofun, rfl, rfl⟩

/-- The host's read does not happen, and without anything else to come the engine is stuck (60_exceptions.md rule R357). -/
theorem test_hostWaits : step stopped = .fault (.stuck .concurrentRequest) := rfl

/-- A host that has read an unwritten cell and then delivers RELEASE, with a further read to follow. -/
def misread : State := { bound 0 0 [] with bitOut := some true, inbox := [.readByteOut, .request 0x0300, .readBitOut] }

/-- 20_memory.md rule R81, 60_exceptions.md rule R357: the read of the unwritten cell is UNDEFINED_OUTPUT and blocks nobody by itself;
the request then meets a faulted engine, has no response, and the host reads no more. A block reset cuts the call. -/
theorem test_faultedEngine_callerWaits :
    let s := stepped misread
    let t := stepped s
    (s.fault, s.call, t.fault, t.call, t.inbox, t.answer) = (.undefinedOutput, .answered, .undefinedOutput, .waiting, [.readBitOut], none)
      ∧ step t = .fault (.stuck .undefinedOutput)
      ∧ ((blockReset t).call, (stepped (blockReset t)).inbox) = (.cut, []) :=
  ⟨by decide +kernel, rfl, by decide +kernel⟩

/-- Whose turn it is (00_scope.md rule R8). -/
theorem test_turn :
    [(st1.withFetchWord 8 0x44).turn, State.turn { st1 with resetsAt := [0] }, State.turn { st1 with intruders := [(0, 0x0400)] },
     State.turn { st1 with inbox := [.request 0x0400] }, State.turn { st1 with inbox := [.readBitOut] }, st1.turn, stopped.turn]
      = [.device, .platform, .engine, .engine, .host, .platform, .platform] := by decide

/-- The host writes ROM_IN[7] and WDATA.TL. -/
theorem test_hostWrites :
    (match hostTurn (.writeRomIn 7 0x9A) (bound 0 0 []) with
      | .next t => t.romIn.toList
      | _ => []) = [none, none, none, none, none, none, none, some 0x9A]
    ∧ (match hostTurn (.writeTl 0xF6) st1 with
      | .next t => t.wdata
      | _ => default) = { th := some 0x4B, tl := some 0xF6, cfg := some 0x7F } := by decide +kernel

/-- A device that has no command byte to decode, for the machine right after reset. -/
theorem witness_powerOn : ∀ d ∈ [devD r1 .ext, echoDevice], d.command? = none := by decide +kernel

/-- The ten codes of 60_exceptions.md rule R350. -/
theorem test_faultCodes :
    [FaultCode.none, .illegalRequest, .notBound, .concurrentRequest, .badPin, .undefinedInput, .undefinedOutput, .copyHazard,
      .msWaitInCritical, .critUnderflow].map FaultCode.code = [0, 1, 2, 3, 4, 5, 6, 7, 8, 9] := by decide

/-- A state that meets the invariant and takes a step: DRIVE_LOW delivered by the host. -/
theorem witness_invariant :
    let s : State := { st1 with inbox := [.request 0x0200] }
    Inv s ∧ step s = .next (after .driveLow st1) :=
  ⟨⟨rfl, ⟨fun _ => rfl, fun _ => rfl⟩, Nat.zero_le _, ⟨Nat.zero_le _, Nat.zero_le _⟩, nofun, nofun, nofun, rfl, rfl, ⟨by decide, nofun⟩, nofun⟩, rfl⟩

end Sys2Proof.Tests
end

section
/-! PROOFS. Encoding (30_encoding.md): the request decoder and the rows of rule R102, and the waveforms of one write slot and one
read slot as requests. -/

namespace Sys2Proof

/-! ### The rows of rule R102 -/

/-- Each row fixes OP, and an ARG of 0 under its mask (rule R102). -/
theorem requestRows_shape : ∀ r ∈ requestRows, opField r.mask = 255#8 ∧ argField r.pattern = 0 := by decide

/-- A row admits the words with its OP and with an ARG that is 0 under its mask (rules R100, R103). -/
theorem Row.admits_iff_fields {r : Row} (hr : r ∈ requestRows) (w : ReqWord) :
    r.admits w = true ↔ opField w = opField r.pattern ∧ argField w &&& argField r.mask = 0 := by
  obtain ⟨hm, hp⟩ := requestRows_shape r hr
  have hop : opField (w &&& r.mask) = opField w := by
    rw [opField, BitVec.extractLsb'_and]
    change opField w &&& opField r.mask = _
    rw [hm]
    exact BitVec.and_allOnes
  have harg : argField (w &&& r.mask) = argField w &&& argField r.mask := by
    simp only [argField, BitVec.extractLsb'_and]
  rw [Row.admits, decide_eq_true_iff, ← hop, ← harg, ← hp]
  constructor
  · intro h
    rw [h]
    exact ⟨rfl, rfl⟩
  · rintro ⟨h1, h2⟩
    rw [← opWord_fields (w &&& r.mask), h1, h2, opWord_fields]

/-- The OP bytes of the rows, in their order. -/
def rowOps : List Byte := requestRows.map (fun r => opField r.pattern)

theorem rowOps_nodup : rowOps.Nodup := by decide

/-- No two rows admit one word, as no two have one OP byte (rule R104). -/
theorem countP_admits_le_one (w : ReqWord) : requestRows.countP (fun r => r.admits w) ≤ 1 :=
  calc requestRows.countP (fun r => r.admits w)
      ≤ requestRows.countP (fun r => opField r.pattern == opField w) :=
        List.countP_mono_left fun r hr h => by
          obtain ⟨hop, -⟩ := (Row.admits_iff_fields hr w).mp h
          exact beq_iff_eq.mpr hop.symm
    _ = rowOps.count (opField w) := by rw [rowOps, List.count, List.countP_map]; rfl
    _ ≤ 1 := List.nodup_iff_count_le_one.mp rowOps_nodup _

/-! ### What the decoder makes of a word with the OP of a row -/

/-- ARG[7:1] is what the mask of a row with one operand bit holds to 0 (rules R101, R102). -/
theorem and_254_eq_zero_iff (arg : Byte) : arg &&& 254#8 = 0 ↔ arg.extractLsb' 1 7 = 0 := by
  have key : ∀ a : Byte, a &&& 254#8 = 0 ↔ a.extractLsb' 1 7 = 0 := by decide
  exact key arg

theorem argNone_decodes_iff {w : ReqWord} {i : Instr} : (∃ j, argNone w i = .ok j) ↔ argField w &&& 255#8 = 0 := by
  have hand : argField w &&& 255#8 = argField w := BitVec.and_allOnes
  simp [argNone_ok, hand]

theorem argBit_decodes_iff {w : ReqWord} {f : Bool → Instr} : (∃ j, argBit w f = .ok j) ↔ argField w &&& 254#8 = 0 := by
  simp only [argBit_ok, and_254_eq_zero_iff, exists_and_left, exists_eq, and_true]

theorem argNone_error {w : ReqWord} {i : Instr} {e : DecodeError} (h : argNone w i = .error e) : e = .illegalRequest w := by
  unfold argNone at h
  split at h
  · cases h
  · cases h; rfl

theorem argBit_error {w : ReqWord} {f : Bool → Instr} {e : DecodeError} (h : argBit w f = .error e) : e = .illegalRequest w := by
  unfold argBit at h
  split at h
  · cases h
  · cases h; rfl

/-- How the decoder reads a word `w` with the OP of the row `r`: by the operand class of rule R101 that the row's mask shows, ARG
being 0, an operand bit, or an operand byte. -/
inductive ReadsBy (w : ReqWord) (r : Row) : Prop where
  | noOperand (i : Instr) (mask : argField r.mask = 255#8) (reads : decodeRequest w = argNone w i)
      (op : opByte i = opField w) (arg : argByte i = 0)
  | bit (f : Bool → Instr) (mask : argField r.mask = 254#8) (reads : decodeRequest w = argBit w f)
      (op : ∀ b, opByte (f b) = opField w) (arg : ∀ b, argByte (f b) = if b then 1 else 0)
  | byte (i : Instr) (mask : argField r.mask = 0) (reads : decodeRequest w = .ok i)
      (op : opByte i = opField w) (arg : argByte i = argField w)

/-- The decoder has a branch for each row (rule R102). -/
theorem readsBy_of_op {w : ReqWord} : ∀ r ∈ requestRows, opField r.pattern = opField w → ReadsBy w r := by
  have addressed : ∀ b, (if addressingBit (addressingOf b) then 1 else 0 : Byte) = if b then 1 else 0 := by simp
  simp only [requestRows, List.cons_append, List.nil_append, List.forall_mem_cons]
  refine ⟨fun hop => .byte (.init (argField w)) rfl ?_ hop rfl,
    fun hop => .noOperand .driveLow rfl ?_ hop rfl,
    fun hop => .noOperand .release rfl ?_ hop rfl,
    fun hop => .noOperand .resetPulse rfl ?_ hop rfl,
    fun hop => .bit .writeBit rfl ?_ (fun _ => hop) (fun _ => rfl),
    fun hop => .noOperand .readBit rfl ?_ hop rfl,
    fun hop => .byte (.writeByte (argField w)) rfl ?_ hop rfl,
    fun hop => .noOperand .readByte rfl ?_ hop rfl,
    fun hop => .noOperand .readRom rfl ?_ hop rfl,
    fun hop => .noOperand .matchRom rfl ?_ hop rfl,
    fun hop => .noOperand .skipRom rfl ?_ hop rfl,
    fun hop => .noOperand .alarmSearch rfl ?_ hop rfl,
    fun hop => .noOperand .searchRom rfl ?_ hop rfl,
    fun hop => .bit (fun b => .convertT (addressingOf b)) rfl ?_ (fun _ => hop) addressed,
    fun hop => .bit (fun b => .writeScratchpad (addressingOf b)) rfl ?_ (fun _ => hop) addressed,
    fun hop => .bit (fun b => .readScratchpad (addressingOf b)) rfl ?_ (fun _ => hop) addressed,
    fun hop => .bit (fun b => .copyScratchpad (addressingOf b)) rfl ?_ (fun _ => hop) addressed,
    fun hop => .bit (fun b => .recallEeprom (addressingOf b)) rfl ?_ (fun _ => hop) addressed,
    fun hop => .bit (fun b => .readPowerSupply (addressingOf b)) rfl ?_ (fun _ => hop) addressed,
    nofun⟩
  all_goals
    rw [decodeRequest, ← hop]
    rfl

/-- A word whose OP is no row's is ILLEGAL_REQUEST (rule R103). -/
theorem decodeRequest_of_op_notMem {w : ReqWord} (h : opField w ∉ rowOps) : decodeRequest w = .error (.illegalRequest w) := by
  have hn : (opField w).toNat ∉ rowOps.map BitVec.toNat := by
    rwa [List.mem_map_of_injective fun _ _ => BitVec.eq_of_toNat_eq]
  unfold decodeRequest
  split
  case h_20 => rfl
  all_goals
    rename_i hop
    rw [hop] at hn
    exact absurd (by decide) hn

/-- Exactly the words that fit the row's mask decode. -/
theorem ReadsBy.decodes_iff {w : ReqWord} {r : Row} (h : ReadsBy w r) :
    (∃ i, decodeRequest w = .ok i) ↔ argField w &&& argField r.mask = 0 := by
  cases h with
  | noOperand i mask reads => rw [mask, reads, argNone_decodes_iff]
  | bit f mask reads => rw [mask, reads, argBit_decodes_iff]
  | byte i mask reads => simp [mask, reads]

/-- What a word decodes to holds the word's two fields. -/
theorem ReadsBy.fields {w : ReqWord} {r : Row} (h : ReadsBy w r) {i : Instr} (hi : decodeRequest w = .ok i) :
    opByte i = opField w ∧ argByte i = argField w := by
  cases h with
  | noOperand j _ reads op arg =>
    obtain ⟨h0, rfl⟩ := argNone_ok.mp (reads ▸ hi)
    exact ⟨op, arg.trans h0.symm⟩
  | bit f _ reads op arg =>
    obtain ⟨h0, rfl⟩ := argBit_ok.mp (reads ▸ hi)
    exact ⟨op _, (arg _).trans (arg_of_bit h0).symm⟩
  | byte j _ reads op arg =>
    obtain rfl : j = i := by simpa [reads] using hi
    exact ⟨op, arg⟩

/-- What does not decode is ILLEGAL_REQUEST with the word (rule R103). -/
theorem ReadsBy.illegal {w : ReqWord} {r : Row} (h : ReadsBy w r) {e : DecodeError} (he : decodeRequest w = .error e) :
    e = .illegalRequest w := by
  cases h with
  | noOperand i _ reads => exact argNone_error (reads ▸ he)
  | bit f _ reads => exact argBit_error (reads ▸ he)
  | byte i _ reads => simp [reads] at he

theorem decodeRequest_eq_error {w : ReqWord} {e : DecodeError} (he : decodeRequest w = .error e) : e = .illegalRequest w := by
  by_cases hop : opField w ∈ rowOps
  · obtain ⟨r, hr, hrop⟩ := List.mem_map.mp hop
    exact (readsBy_of_op r hr hrop).illegal he
  · simpa [decodeRequest_of_op_notMem hop, eq_comm] using he

/-! ### The rows and the decoder -/

/-- A word that decodes is admitted by a row with the operation's OP (rule R102). -/
theorem exists_row_of_decode {w : ReqWord} {i : Instr} (hi : decodeRequest w = .ok i) :
    ∃ r ∈ requestRows, r.admits w = true ∧ opField r.pattern = opByte i ∧ argField w = argByte i := by
  have hop : opField w ∈ rowOps := by
    by_contra h
    simp [decodeRequest_of_op_notMem h] at hi
  obtain ⟨r, hr, hrop⟩ := List.mem_map.mp hop
  have reads := readsBy_of_op r hr hrop
  obtain ⟨hiop, hiarg⟩ := reads.fields hi
  exact ⟨r, hr, (Row.admits_iff_fields hr w).mpr ⟨hrop.symm, reads.decodes_iff.mp ⟨i, hi⟩⟩, hrop.trans hiop.symm, hiarg.symm⟩

/-- The words that decode are those that a row admits (rule R103). -/
theorem decodes_iff_admitted {w : ReqWord} : (∃ i, decodeRequest w = .ok i) ↔ ∃ r ∈ requestRows, r.admits w = true := by
  constructor
  · rintro ⟨i, hi⟩
    obtain ⟨r, hr, ha, -, -⟩ := exists_row_of_decode hi
    exact ⟨r, hr, ha⟩
  · rintro ⟨r, hr, ha⟩
    obtain ⟨hop, harg⟩ := (Row.admits_iff_fields hr w).mp ha
    exact (readsBy_of_op r hr hop.symm).decodes_iff.mpr harg

/-- Settles O3: the rows have different OP bytes, and the decoder reads a word with a row's OP by that row's operand class. -/
theorem decoderIsTotalAndRowsAreDisjoint : Obligations.DecoderIsTotalAndRowsAreDisjoint := by
  intro w
  have one := countP_admits_le_one w
  refine ⟨one, ?_, fun i => exists_row_of_decode, fun h => ?_⟩
  · rw [decodes_iff_admitted, ← List.countP_pos_iff]
    omega
  · cases hd : decodeRequest w with
    | ok i => exact absurd hd (h i)
    | error e => rw [decodeRequest_eq_error hd]

end Sys2Proof

namespace Sys2Proof.Machine

/-! ### A request that is accepted, and its response -/

/-- An accepted request is live in the reference timing. -/
theorem live_accept {i : Instr} {g : Nat} {s : State} (h : Ready i s) (ht : ReferenceTiming g s) :
    Live g (accept i (clearCopy s)) := by
  obtain ⟨hf, -, -, -, -, hu⟩ := h
  exact ⟨running_accept hf, undisturbed_accept hu, by simpa [ReferenceTiming] using ht⟩

/-- A response ends a live request. -/
theorem respondedWith_respond {g : Nat} {s t : State} (r : Response) (h : Live g t) (hn : s.now ≤ t.now) :
    RespondedWith r s (respond r t) :=
  ⟨((running_iff t).mp h.running).2, rfl, rfl, rfl, rfl, hn, rfl⟩

/-- Settles O29: the request is one write slot, from its acceptance to its response. -/
theorem writeBitWaveform : Obligations.WriteBitWaveform := by
  intro b s g h ht
  have slot := writeSlot_ran b (live_accept h ht)
  have hnow : (run (writeSlot b) (accept (.writeBit b) (clearCopy s))).now = s.now + g + 71 := by
    simp [slot.now, Nat.add_assoc]
  refine ⟨_, congrArg Host.Outcome.next (busOperation_of_ready _ h (nested_writeSlot b)), hnow, ?_, ?_⟩
  · exact respondedWith_respond _ slot.live (by omega)
  · simp [hnow, slot.trace, slotEvents, Slot.events]

/-- The program of READ_BIT: a read slot, then BIT_OUT from its sample (41_bus_driver.md rule R194). -/
theorem readBitProgram_ran {g : Nat} {s : State} (h : Live g s) :
    ∃ l, Ran g [.read l] s (run (readSlot ++ [.storeBit]) s)
      ∧ (run (readSlot ++ [.storeBit]) s).bitOut = some (decide (l = .high)) := by
  obtain ⟨l, slot, hl, -⟩ := readSlot_ran h
  have hrun : run (readSlot ++ [.storeBit]) s = Micro.exec .storeBit (run readSlot s) := by
    rw [run_append, run_cons_running _ _ slot.live.running, run_nil]
  refine ⟨l, slot.silent (h.run rfl) (by rw [hrun]; rfl) (by rw [hrun]; rfl), ?_⟩
  rw [hrun]
  cases l <;> simp [Micro.exec, State.sampledBit, hl, bitOfLevel]

/-- Settles O31: the request is one read slot, from its acceptance to its response with the sampled bit. -/
theorem readBitWaveform : Obligations.ReadBitWaveform := by
  intro s g h ht
  obtain ⟨l, slot, hbit⟩ := readBitProgram_ran (live_accept h ht)
  have hnow : (run (readSlot ++ [.storeBit]) (accept .readBit (clearCopy s))).now = s.now + g + 71 := by
    simp [slot.now, Nat.add_assoc]
  refine ⟨_, l, congrArg Host.Outcome.next (busOperation_of_ready _ h rfl), hbit, hnow, ?_, ?_⟩
  · exact respondedWith_respond _ slot.live (by omega)
  · have hw : requestWord .readBit = 0x0600 := rfl
    simp [hnow, hw, slot.trace, slotEvents, Slot.events]

end Sys2Proof.Machine
end

section
/-! PROOFS. The shim interface (40_shim_interface.md): the critical section. -/

namespace Sys2Proof.Machine

/-- `exit_critical()` in an open section pops the mask (rule R156). -/
theorem exitCritical_of_cons {s : State} {m : Bool} {rest : List Bool} (h : s.critStack = m :: rest) :
    exitCritical s = { s with critStack := rest, irqMasked := m }.emit .critOff := by
  rw [exitCritical, h]

/-- Settles O18: the fields that the push writes, and those of the state that the pop leaves. -/
theorem criticalSectionPrimitives : Obligations.CriticalSectionPrimitives := by
  intro s
  refine ⟨⟨enterCritical_critStack s, enterCritical_irqMasked s, enterCritical_trace s, enterCritical_now s⟩, ?_⟩
  intro m rest h
  simp [exitCritical_of_cons h]

end Sys2Proof.Machine
end

section
/-! PROOFS. The reference device (45_reference_device.md): how it gathers a command byte, the ROM commands, and Match ROM. -/

namespace Sys2Proof.Machine

/-! ### Bits in a row -/

theorem bitsOf_singleton (v : Byte) : bitsOf [v] = (List.range 8).map v.getLsbD := List.flatMap_singleton ..

/-- Slot `k` comes after the slots before it. -/
theorem Ds18b20.receiveBits_range_succ (ends : Nat → Nat) (f : Nat → Bool) (k : Nat) (x : Ds18b20) :
    x.receiveBits ends ((List.range (k + 1)).map f) = (x.receiveBits ends ((List.range k).map f)).slot (ends k) (f k) := by
  simp [Ds18b20.receiveBits, List.range_succ, List.zipIdx_append]

/-- Bits 0 to `k - 1` of `v`, at their places in a register of `w` bits. -/
def lowBits (w : Nat) {m : Nat} (v : BitVec m) (k : Nat) : BitVec w := (v.setWidth k).setWidth w

theorem lowBits_zero (w : Nat) {m : Nat} (v : BitVec m) : lowBits w v 0 = 0 := by
  ext j hj
  simp [lowBits]

theorem lowBits_width {w : Nat} (v : BitVec w) : lowBits w v w = v := by
  simp [lowBits]

/-- Bit `k` arrives at place `k` (rule R310). -/
theorem lowBits_or_bitAt (w : Nat) {m : Nat} (v : BitVec m) (k : Nat) :
    lowBits w v k ||| bitAt w (v.getLsbD k) k = lowBits w v (k + 1) := by
  ext j hj
  rw [← BitVec.getLsbD_eq_getElem, ← BitVec.getLsbD_eq_getElem, BitVec.getLsbD_or, getLsbD_bitAt _ hj]
  by_cases h : k = j
  · subst h
    simp [lowBits, hj]
  · have : j < k + 1 ↔ j < k := by omega
    simp [lowBits, hj, h, this]

/-! ### A device between two slots -/

/-- The device `x` with its last slot ended at `e` and its position at `p`: all that a slot changes of a device that receives. -/
def Ds18b20.atPos (x : Ds18b20) (e : Nat) (p : Pos) : Ds18b20 := { x with slotEnd := e, pos := p }

/-- One slot of a device that does not commit: the position moves, and a complete command byte is decoded. -/
theorem Ds18b20.slot_atPos {x : Ds18b20} (hc : x.copying = false) (e₀ e : Nat) (p : Pos) (bit : Bool) :
    (x.atPos e₀ p).slot e bit = ((x.atPos e p).moveBit bit).decodeCommand :=
  if_neg (Bool.eq_false_iff.mp hc)

/-- A position that holds no complete command byte decodes nothing. -/
theorem Ds18b20.decodeCommand_of_none {x : Ds18b20} (h : x.pos.command? = none) : x.decodeCommand = x := by
  rw [Ds18b20.decodeCommand, h]

/-! ### A command byte -/

/-- The two positions that gather a command byte. -/
def GathersByte (p : Byte → Nat → Pos) : Prop := p = .waitRom ∨ p = .waitFn

section
variable {p : Byte → Nat → Pos} (hp : GathersByte p)
include hp

/-- The received bit goes to its place in the accumulator (rule R310). -/
theorem GathersByte.moveBit (x : Ds18b20) (e : Nat) (acc : Byte) (n : Nat) (bit : Bool) :
    (x.atPos e (p acc n)).moveBit bit = x.atPos e (p (acc ||| bitAt 8 bit n) (n + 1)) := by
  rcases hp with rfl | rfl <;> rfl

theorem GathersByte.command?_eq_none (acc : Byte) {n : Nat} (hn : n < 8) : (p acc n).command? = none := by
  rcases hp with rfl | rfl <;> exact if_neg (by omega)

variable {x : Ds18b20} (hc : x.copying = false) (hx : x.pos = p 0 0) (ends : Nat → Nat) (v : Byte)
include hc hx

/-- A byte cut short after `k` bits leaves them in the accumulator. -/
theorem GathersByte.receiveBits {k : Nat} (hk : k < 8) :
    ∃ e, x.receiveBits ends ((List.range k).map v.getLsbD) = x.atPos e (p (lowBits 8 v k) k) := by
  induction k with
  | zero => exact ⟨x.slotEnd, by rw [lowBits_zero, ← hx]; rfl⟩
  | succ k ih =>
    obtain ⟨e, he⟩ := ih (by omega)
    refine ⟨ends k, ?_⟩
    rw [Ds18b20.receiveBits_range_succ, he, Ds18b20.slot_atPos hc, hp.moveBit, lowBits_or_bitAt]
    exact Ds18b20.decodeCommand_of_none (hp.command?_eq_none _ hk)

/-- The eighth slot completes the byte, and the device decodes it (rules R310, R313). -/
theorem GathersByte.receiveByte :
    x.receiveBits ends (bitsOf [v]) = (x.atPos (ends 7) (p v 8)).decodeCommand := by
  obtain ⟨e, he⟩ := hp.receiveBits hc hx ends v (show 7 < 8 by decide)
  rw [bitsOf_singleton, Ds18b20.receiveBits_range_succ, he, Ds18b20.slot_atPos hc, hp.moveBit, lowBits_or_bitAt, lowBits_width]

end

/-! ### The ROM commands -/

/-- The decoder of command bytes gives the wire instruction of the byte (30_encoding.md rule R110). -/
theorem decodeWire_eq_ok {v : Byte} {i : Instr} (h : decodeWire v = .ok i) : i.isRequest = false ∧ opByte i = v := by
  unfold decodeWire at h
  split at h <;> cases h <;> exact ⟨rfl, BitVec.eq_of_toNat_eq (Eq.symm ‹_›)⟩

theorem Ds18b20.decodeCommand_of_ok {x : Ds18b20} {v : Byte} {i : Instr} (h : x.pos.command? = some v)
    (hd : decodeWire v = .ok i) : x.decodeCommand = x.take i := by
  rw [Ds18b20.decodeCommand, h]
  simp only [hd]

theorem Ds18b20.decodeCommand_of_error {x : Ds18b20} {v : Byte} {err : DecodeError} (h : x.pos.command? = some v)
    (hd : decodeWire v = .error err) : x.decodeCommand = x.takeUnknown := by
  rw [Ds18b20.decodeCommand, h]
  simp only [hd]

/-- Where a byte in WAIT_ROM leads (rule R313's table). -/
def romCommandNext (v : Byte) : Pos :=
  if v = 0x33 then .tx .rom 0 else if v = 0x55 then .matching 0 true else if v = 0xCC then .waitFn 0 0
  else if v = 0xEC ∨ v = 0xF0 then .search else .unknown

/-- A wire instruction in WAIT_ROM: the function commands too lead where the table says, to UNKNOWN. -/
theorem Ds18b20.take_waitRom (x : Ds18b20) (e : Nat) (acc : Byte) (n : Nat) {i : Instr} (hi : i.isRequest = false) :
    (x.atPos e (.waitRom acc n)).take i = x.atPos e (romCommandNext (opByte i)) := by
  cases i <;> cases hi <;> rfl

/-- A byte that the decoder refuses is none that it accepts. -/
theorem ne_of_decodeWire {v w : Byte} {err : DecodeError} {i : Instr} (hv : decodeWire v = .error err) (hw : decodeWire w = .ok i) :
    v ≠ w := by
  rintro rfl
  cases hv.symm.trans hw

theorem romCommandNext_of_error {v : Byte} {err : DecodeError} (hd : decodeWire v = .error err) : romCommandNext v = .unknown := by
  have search : ¬ (v = 0xEC ∨ v = 0xF0) := not_or.mpr ⟨ne_of_decodeWire hd rfl, ne_of_decodeWire hd rfl⟩
  rw [romCommandNext, if_neg (ne_of_decodeWire hd rfl), if_neg (ne_of_decodeWire hd rfl), if_neg (ne_of_decodeWire hd rfl),
    if_neg search]

/-- A complete byte in WAIT_ROM is decoded by the table (rule R313). -/
theorem Ds18b20.decodeCommand_waitRom (x : Ds18b20) (e : Nat) (v : Byte) :
    (x.atPos e (.waitRom v 8)).decodeCommand = x.atPos e (romCommandNext v) := by
  cases hd : decodeWire v with
  | ok i =>
    obtain ⟨hi, hv⟩ := decodeWire_eq_ok hd
    rw [Ds18b20.decodeCommand_of_ok rfl hd, x.take_waitRom e v 8 hi, hv]
  | error err =>
    rw [Ds18b20.decodeCommand_of_error rfl hd, romCommandNext_of_error hd]
    rfl

/-- Settles O40: the byte gathers bit by bit, and the eighth bit decodes it. -/
theorem romCommandTable : Obligations.RomCommandTable := by
  intro x ends v hc hx
  rw [GathersByte.receiveByte (.inl rfl) hc hx]
  exact x.decodeCommand_waitRom (ends 7) v

/-! ### Match ROM -/

/-- The bits of a ROM code in the order in which they travel (rule R316). -/
theorem bitsOf_rom (r : Rom) : bitsOf r.toList = (List.range 64).map (romBit r) := by
  have hr : r.toList = (List.range 8).map (fun i => r[i]?.getD 0) := by
    apply List.ext_getElem
    · simp
    · intro i hi _
      simp [show i < 8 by simpa using hi]
  rw [hr, bitsOf, List.flatMap_map]
  rfl

/-- The first `k` bits of two ROM codes agree. -/
def agreeUpTo (r q : Rom) (k : Nat) : Bool := (List.range k).all (fun j => romBit r j = romBit q j)

theorem agreeUpTo_succ (r q : Rom) (k : Nat) : agreeUpTo r q (k + 1) = (agreeUpTo r q k && decide (romBit r k = romBit q k)) := by
  simp [agreeUpTo, List.range_succ]

/-- The 64 bits of a ROM code are all of it. -/
theorem agreeUpTo_64 (r q : Rom) : agreeUpTo r q 64 = decide (r = q) := by
  rw [Bool.eq_iff_iff, decide_eq_true_iff]
  constructor
  · intro h
    ext i hi j hj
    have hi : i < 8 := hi
    have hb := List.all_eq_true.mp h (8 * i + j) (List.mem_range.mpr (by omega))
    have hq : (8 * i + j) / 8 = i := by omega
    have hr : (8 * i + j) % 8 = j := by omega
    simpa [romBit, hq, hr, hi, hj] using hb
  · rintro rfl
    simp [agreeUpTo]

/-- MATCH before its last bit: it goes on, and remembers whether this bit matched too (rule R316). -/
theorem Ds18b20.moveBit_matching {k : Nat} (hk : k + 1 < 64) (x : Ds18b20) (e : Nat) (ok bit : Bool) :
    (x.atPos e (.matching k ok)).moveBit bit = x.atPos e (.matching (k + 1) (ok && decide (bit = romBit x.rom k))) :=
  if_neg (Nat.not_le.mpr hk)

/-- The last bit of MATCH selects the device or not (rule R316). -/
theorem Ds18b20.moveBit_matching_last (x : Ds18b20) (e : Nat) (ok bit : Bool) :
    (x.atPos e (.matching 63 ok)).moveBit bit
      = x.atPos e (if ok && decide (bit = romBit x.rom 63) then .waitFn 0 0 else .ignore) := rfl

/-- MATCH cut short after `k` bits remembers whether they matched. -/
theorem Ds18b20.receiveBits_matching {x : Ds18b20} (hc : x.copying = false) (hx : x.pos = .matching 0 true) (ends : Nat → Nat)
    (r : Rom) {k : Nat} (hk : k < 64) :
    ∃ e, x.receiveBits ends ((List.range k).map (romBit r)) = x.atPos e (.matching k (agreeUpTo r x.rom k)) := by
  induction k with
  | zero => exact ⟨x.slotEnd, congrArg (x.atPos x.slotEnd) hx⟩
  | succ k ih =>
    obtain ⟨e, he⟩ := ih (by omega)
    refine ⟨ends k, ?_⟩
    rw [Ds18b20.receiveBits_range_succ, he, Ds18b20.slot_atPos hc, Ds18b20.moveBit_matching hk, agreeUpTo_succ]
    exact Ds18b20.decodeCommand_of_none rfl

/-- Settles O44: 63 bits are compared one by one, and the last decides. -/
theorem matchRomSelects : Obligations.MatchRomSelects := by
  intro x ends r hc hx
  obtain ⟨e, he⟩ := Ds18b20.receiveBits_matching hc hx ends r (show 63 < 64 by decide)
  rw [bitsOf_rom, Ds18b20.receiveBits_range_succ, he, Ds18b20.slot_atPos hc, Ds18b20.moveBit_matching_last, ← agreeUpTo_succ,
    agreeUpTo_64]
  simp only [decide_eq_true_eq]
  apply Ds18b20.decodeCommand_of_none
  by_cases h : r = x.rom <;> simp [Ds18b20.atPos, h, Pos.command?]

end Sys2Proof.Machine
end

section
/-! PROOFS. Exceptions (60_exceptions.md): the order in which the prologue raises the faults of a request. -/

namespace Sys2Proof.Machine

/-! ### A request word as its operation -/

/-- What a request word decodes to is encoded by that word (30_encoding.md rules R100 to R102). -/
theorem requestWord_of_decode {w : ReqWord} {i : Instr} (h : decodeRequest w = .ok i) : requestWord i = w := by
  obtain ⟨r, hr, ha, hop, harg⟩ := exists_row_of_decode h
  obtain ⟨hw, -⟩ := (Row.admits_iff_fields hr w).mp ha
  rw [requestWord, ← hop, ← hw, ← harg, opWord_fields]

/-- The engine's decoder gives no wire command (30_encoding.md rule R102). -/
theorem isRequest_of_decode {w : ReqWord} {i : Instr} (h : decodeRequest w = .ok i) : i.isRequest = true := by
  revert i
  unfold decodeRequest
  split <;> simp [argNone_ok, argBit_ok, Instr.isRequest]

/-- A function command is a request (43_function_commands.md rule R260). -/
theorem functionCommand_eq_request (op : Instr) (cmd : Byte) (a : Addressing) (c : OutCells) (data : State → List Micro) :
    ∃ body, ∀ s, functionCommand op cmd a c data s = request op body s :=
  ⟨_, fun _ => by rw [functionCommand, transaction]⟩

/-- Every request is its prologue, then a body of its own (41_bus_driver.md, before rule R180). -/
theorem exec_eq_request {i : Instr} (h : i.isRequest = true) : ∃ body, ∀ s, exec i s = .next (request i body s) := by
  cases i with
  | convertT | writeScratchpad | readScratchpad | copyScratchpad | recallEeprom | readPowerSupply =>
    obtain ⟨body, hbody⟩ := functionCommand_eq_request ..
    exact ⟨body, fun s => congrArg Host.Outcome.next (hbody s)⟩
  | _ => cases h <;> exact ⟨_, fun _ => rfl⟩

theorem deliver_of_ok {w : ReqWord} {i : Instr} (h : decodeRequest w = .ok i) (s : State) : deliver w s = exec i s := by
  simp only [deliver, h]

theorem deliver_of_illegal {w : ReqWord} (h : ∀ i, decodeRequest w ≠ .ok i) (s : State) :
    deliver w s = .next (rejectWord w s) := by
  cases hd : decodeRequest w with
  | ok i => exact absurd hd (h i)
  | error e => simp only [deliver, hd]

/-- A request word that its prologue does not accept does what the prologue does, and no more. -/
theorem deliver_of_not_running {w : ReqWord} {i : Instr} {s : State} (hd : decodeRequest w = .ok i)
    (h : (prologue i s).running = false) : deliver w s = .next (prologue i s) := by
  obtain ⟨body, hbody⟩ := exec_eq_request (isRequest_of_decode hd)
  rw [deliver_of_ok hd, hbody, request_of_not_running body h]

/-! ### Fault entry -/

/-- The first fault is recorded with its word, and nothing else changes (rule R356). -/
theorem raiseFault_of_none (f : FaultCode) (w : ReqWord) {s : State} (h : s.fault = .none) :
    raiseFault f w s = { s with fault := f, faultWord := w } := if_pos h

/-- A fault ends the request in flight (rule R380). -/
theorem running_raiseFault {f : FaultCode} (hf : f ≠ .none) (w : ReqWord) (s : State) : (raiseFault f w s).running = false := by
  by_cases h : s.fault = .none <;> simp [State.running, h, hf]

/-- A fault of the prologue is the whole of what the request word does, but for `copy_until`, which the prologue may have cleared
before (rules R356, R358). -/
theorem deliver_of_prologue_fault {w : ReqWord} {i : Instr} {s t : State} {f : FaultCode} (hd : decodeRequest w = .ok i)
    (ht : t.fault = .none) (h : prologue i s = raiseFault f (requestWord i) t) (hf : f ≠ .none) :
    deliver w s = .next { t with fault := f, faultWord := w } := by
  rw [deliver_of_not_running hd (h ▸ running_raiseFault hf _ t), h, requestWord_of_decode hd, raiseFault_of_none f w ht]

/-! ### The checks of the prologue in their order (rule R353; 41_bus_driver.md rule R184) -/

theorem needsBinding_iff {i : Instr} : needsBinding i = true ↔ ∀ pin, i ≠ .init pin := by
  cases i <;> simp [needsBinding]

theorem drivesLine_iff {i : Instr} : drivesLine i = true ↔ (∀ pin, i ≠ .init pin) ∧ i ≠ .release := by
  cases i <;> simp [drivesLine]

section
variable {i : Instr} {s : State} (hf : s.fault = .none) (hb : s.busy = false)
include hf hb

theorem prologue_of_notBound (hn : needsBinding i = true) (h : s.bound = false) :
    prologue i s = raiseFault .notBound (requestWord i) s := by
  simp [prologue, hf, hb, hn, h]

variable (hn : needsBinding i = true → s.bound = true)
include hn

theorem prologue_of_copyPending (hd : drivesLine i = true) (h : s.copyPending = true) :
    prologue i s = raiseFault .copyHazard (requestWord i) s := by
  have bound : ¬ (needsBinding i = true ∧ s.bound = false) := fun ⟨e, k⟩ => by simp [hn e] at k
  simp [prologue, hf, hb, bound, hd, h]

theorem prologue_of_inputMissing (hc : drivesLine i = true → s.copyPending = false) (h : s.inputMissing i = true) :
    prologue i s = raiseFault .undefinedInput (requestWord i) (clearCopy s) := by
  have bound : ¬ (needsBinding i = true ∧ s.bound = false) := fun ⟨e, k⟩ => by simp [hn e] at k
  have noHazard : ¬ (drivesLine i = true ∧ s.copyPending = true) := fun ⟨e, k⟩ => by simp [hc e] at k
  simp [prologue, hf, hb, bound, noHazard, h]

end

/-- INIT needs no binding, drives no line and reads no input cell, so the prologue accepts it (rules R351, R355). -/
theorem prologue_init (pin : Pin) {s : State} (hf : s.fault = .none) (hb : s.busy = false) :
    prologue (.init pin) s = accept (.init pin) (clearCopy s) := by
  simp [prologue, hf, hb, needsBinding, drivesLine, State.inputMissing, readsRomIn, readsWdata]

/-- INIT with a pin that the platform refuses: BAD_PIN after the prologue (rules R354, R358). -/
theorem exec_init_of_badPin {pin : Pin} {s : State} (hf : s.fault = .none) (hb : s.busy = false) (h : s.validPin pin = false) :
    exec (.init pin) s = .next (raiseFault .badPin (requestWord (.init pin)) (accept (.init pin) (clearCopy s))) := by
  have refused : (accept (.init pin) (clearCopy s)).validPin pin = false := by simpa [State.validPin] using h
  simp only [exec, execInit, request, whileRunning, prologue_init pin hf hb, running_accept hf, refused, if_true,
    Bool.false_eq_true, if_false]

/-! ### What a request word does where a fault applies -/

theorem deliver_of_faulted (w : ReqWord) {s : State} (h : s.fault ≠ .none) : deliver w s = .next s := by
  by_cases hd : ∃ i, decodeRequest w = .ok i
  · obtain ⟨i, hi⟩ := hd
    rw [deliver_of_not_running hi (running_of_rejected (.inl h)), prologue_of_faulted i h]
  · rw [deliver_of_illegal (not_exists.mp hd), rejectWord, if_pos h]

theorem deliver_of_busy (w : ReqWord) {s : State} (hf : s.fault = .none) (hb : s.busy = true) :
    deliver w s = .next { s with fault := .concurrentRequest, faultWord := w } := by
  by_cases hd : ∃ i, decodeRequest w = .ok i
  · obtain ⟨i, hi⟩ := hd
    exact deliver_of_prologue_fault hi hf (prologue_of_busy i hf hb) nofun
  · simp [deliver_of_illegal (not_exists.mp hd), rejectWord, hf, hb, raiseFault]

theorem deliver_illegal_of_idle {w : ReqWord} {s : State} (hw : ∀ i, decodeRequest w ≠ .ok i) (hf : s.fault = .none)
    (hb : s.busy = false) : deliver w s = .next { s with fault := .illegalRequest, faultWord := w } := by
  simp [deliver_of_illegal hw, rejectWord, hf, hb, raiseFault]

/-- Settles O9: each clause is one check of the prologue, reached where the checks before it pass; BAD_PIN comes in the body of
INIT. -/
theorem requestFaultPriority : Obligations.RequestFaultPriority := by
  intro w s
  refine ⟨deliver_of_faulted w, deliver_of_busy w, fun hf hb hw => deliver_illegal_of_idle hw hf hb, ?_⟩
  intro i hd hf hb
  refine ⟨fun hn h => deliver_of_prologue_fault hd hf (prologue_of_notBound hf hb (needsBinding_iff.mpr hn) h) nofun, ?_⟩
  intro hbound
  have bound : needsBinding i = true → s.bound = true := fun e =>
    hbound.resolve_left fun ⟨pin, hi⟩ => needsBinding_iff.mp e pin hi
  refine ⟨?copyHazard, ?undefinedInput, ?badPin⟩
  case copyHazard =>
    intro hi hr h
    exact deliver_of_prologue_fault hd hf (prologue_of_copyPending hf hb bound (drivesLine_iff.mpr ⟨hi, hr⟩) h) nofun
  case undefinedInput =>
    intro hc h
    have noHazard : drivesLine i = true → s.copyPending = false := fun e => by
      obtain ⟨hi, hr⟩ := drivesLine_iff.mp e
      exact (hc.resolve_left fun ⟨pin, k⟩ => hi pin k).resolve_left hr
    have hfault : (clearCopy s).fault = .none := by simp [hf]
    refine ⟨_, deliver_of_prologue_fault hd hfault (prologue_of_inputMissing hf hb bound noHazard h) nofun, ?_⟩
    simp
  case badPin =>
    rintro pin rfl h
    refine ⟨_, (deliver_of_ok hd s).trans (exec_init_of_badPin hf hb h), ?_⟩
    simp [hf, requestWord_of_decode hd]

end Sys2Proof.Machine
end

section
/-! PROOFS. Every request as its prologue, its programs and its response, and what the operations that a request is made of keep. -/

namespace Sys2Proof.Machine

/-! ### The programs of the requests -/

/-- The requests of the Bus Driver that run a program (41_bus_driver.md rules R185 to R199). -/
def isBusProgram : Instr → Bool
  | .resetPulse | .writeBit _ | .readBit | .writeByte _ | .readByte => true
  | _ => false

/-- The program of a Bus Driver request, with the store of its output cell. -/
def busProgram : Instr → List Micro
  | .resetPulse => resetProgram ++ [.storePresence]
  | .writeBit b => writeSlot b
  | .readBit => readSlot ++ [.storeBit]
  | .writeByte v => writeByteProgram v
  | .readByte => readByteProgram ++ [.storeByte]
  | _ => []

/-- The status a Bus Driver request responds with: RESET_PULSE tells the presence, every other answers OK (30_encoding.md rule
R105). -/
def busStatus (i : Instr) (t : State) : Status :=
  match i with
  | .resetPulse => presenceStatus (t.bitOut.getD false)
  | _ => .ok

/-- How a Device Protocol operation sends the bytes of its frame (30_encoding.md rule R112, column "sent"). -/
def sendProgram (s : State) : Instr → List Micro
  | .readRom => writeByteProgram 0x33
  | .matchRom => writeByteProgram 0x55 ++ sendBytes 0 s.romInBytes
  | .skipRom => writeByteProgram 0xCC
  | .alarmSearch => writeByteProgram 0xEC
  | .searchRom => writeByteProgram 0xF0
  | .convertT a => addressProgram s.romInBytes a ++ writeByteProgram 0x44
  | .writeScratchpad a => addressProgram s.romInBytes a ++ writeByteProgram 0x4E ++ sendBytes 0 s.wdataBytes
  | .readScratchpad a => addressProgram s.romInBytes a ++ writeByteProgram 0xBE
  | .copyScratchpad a => addressProgram s.romInBytes a ++ writeByteProgram 0x48
  | .recallEeprom a => addressProgram s.romInBytes a ++ writeByteProgram 0xB8
  | .readPowerSupply a => addressProgram s.romInBytes a ++ writeByteProgram 0xB4
  | _ => []

/-- What a Device Protocol operation does after it has sent its bytes: its read slots with their stores, or the start of the commit
window (30_encoding.md rule R112, column "received"; 43_function_commands.md rule R268). -/
def dataProgram : Instr → List Micro
  | .readRom => receiveRom
  | .readScratchpad _ => receiveScratchpad
  | .readPowerSupply _ => readSlot ++ [.storeBit]
  | .copyScratchpad _ => [.startCopy]
  | _ => []

/-- The frame of a Device Protocol operation after its reset (30_encoding.md rule R111). -/
def frameProgram (i : Instr) (s : State) : List Micro := sendProgram s i ++ dataProgram i

/-- The body of a Bus Driver request that runs a program. -/
def busBody (i : Instr) (s : State) : State :=
  whileRunning (fun t => respond { status := busStatus i t, outputs := responseOutputs i t } t) (run (busProgram i) s)

/-- The body of a Device Protocol operation. -/
def frameBody (i : Instr) (s : State) : State :=
  whileRunning (presenceGate (cellsOf i) (frameProgram i s)) (run resetProgram s)

/-- The body of INIT: it binds an accepted pin and releases the line (rules R180, R181). -/
def initBody (pin : Pin) (s : State) : State :=
  if s.validPin pin then respond { status := .ok, outputs := .none } (Micro.release.exec (bindPin pin s))
  else raiseFault .badPin (requestWord (.init pin)) s

/-- The body of DRIVE_LOW and RELEASE: one shim primitive. -/
def primitiveBody (m : Micro) (s : State) : State := respond { status := .ok, outputs := .none } (m.exec s)

theorem exec_init (pin : Pin) (s : State) : exec (.init pin) s = .next (request (.init pin) (initBody pin) s) := rfl
theorem exec_driveLow (s : State) : exec .driveLow s = .next (request .driveLow (primitiveBody .setLow) s) := rfl
theorem exec_release (s : State) : exec .release s = .next (request .release (primitiveBody .release) s) := rfl

theorem exec_busProgram {i : Instr} (h : isBusProgram i = true) (s : State) : exec i s = .next (request i (busBody i) s) := by
  cases i <;> cases h <;> rfl

theorem transaction_eq_request {i : Instr} {body : State → List Micro} (h : ∀ s, body s = frameProgram i s) (s : State) :
    transaction i (cellsOf i) body s = request i (frameBody i) s := by
  obtain rfl : body = frameProgram i := funext h
  rfl

theorem exec_deviceProtocol {i : Instr} (h : isDeviceProtocol i = true) (s : State) :
    exec i s = .next (request i (frameBody i) s) := by
  cases i with
  | readRom | convertT | readScratchpad | copyScratchpad | recallEeprom | readPowerSupply =>
    exact congrArg Host.Outcome.next (transaction_eq_request (fun _ => rfl) s)
  | matchRom | skipRom | alarmSearch | searchRom | writeScratchpad =>
    exact congrArg Host.Outcome.next (transaction_eq_request (fun _ => (List.append_nil _).symm) s)
  | _ => cases h

/-- The five shapes of a request. -/
inductive RequestShape : Instr → Prop where
  | init (pin : Pin) : RequestShape (.init pin)
  | driveLow : RequestShape .driveLow
  | release : RequestShape .release
  | bus {i : Instr} (h : isBusProgram i = true) : RequestShape i
  | frame {i : Instr} (h : isDeviceProtocol i = true) : RequestShape i

theorem requestShape {i : Instr} (h : i.isRequest = true) : RequestShape i := by
  cases i with
  | init pin => exact .init pin
  | driveLow => exact .driveLow
  | release => exact .release
  | resetPulse | writeBit | readBit | writeByte | readByte => exact .bus rfl
  | readRom | matchRom | skipRom | alarmSearch | searchRom | convertT | writeScratchpad | readScratchpad | copyScratchpad
    | recallEeprom | readPowerSupply => exact .frame rfl
  | _ => cases h

/-! ### Counters in their ranges -/

/-- The counters and the cells that a micro-operation writes are those of its byte or buffer (10_state.md rule R37). -/
def Micro.ranged : Micro → Bool
  | .bitSent k | .collect k => decide (k < 8)
  | .byteIndex k => decide (k < 9)
  | _ => true

/-- Every counter of the program stays in its range. -/
def rangedProgram (p : List Micro) : Bool := p.all Micro.ranged

@[simp] theorem rangedProgram_append (p q : List Micro) : rangedProgram (p ++ q) = (rangedProgram p && rangedProgram q) := by
  simp [rangedProgram]
@[simp] theorem rangedProgram_nil : rangedProgram [] = true := rfl
@[simp] theorem rangedProgram_cons (m : Micro) (p : List Micro) : rangedProgram (m :: p) = (m.ranged && rangedProgram p) := rfl

theorem rangedProgram_flatMap {α : Type} {f : α → List Micro} {l : List α} (h : ∀ a ∈ l, rangedProgram (f a) = true) :
    rangedProgram (l.flatMap f) = true := by
  simp only [rangedProgram, List.all_eq_true, List.mem_flatMap] at h ⊢
  rintro m ⟨a, ha, hm⟩
  exact h a ha m hm

@[simp] theorem ranged_resetProgram : rangedProgram resetProgram = true := rfl
@[simp] theorem ranged_writeSlot (b : Bool) : rangedProgram (writeSlot b) = true := by cases b <;> rfl
@[simp] theorem ranged_readSlot : rangedProgram readSlot = true := rfl
@[simp] theorem ranged_readByteProgram : rangedProgram readByteProgram = true := rfl
@[simp] theorem ranged_receiveRom : rangedProgram receiveRom = true := by
  rw [receiveRom]
  refine rangedProgram_flatMap fun k hk => ?_
  have hk : k < 8 := List.mem_range.mp hk
  have hk' : Micro.ranged (.byteIndex k) = true := decide_eq_true (by omega)
  simp [hk', show (Micro.storeRom k).ranged = true from rfl]
@[simp] theorem ranged_receiveScratchpad : rangedProgram receiveScratchpad = true := by
  rw [receiveScratchpad]
  refine rangedProgram_flatMap fun k hk => ?_
  have hk' : Micro.ranged (.byteIndex k) = true := decide_eq_true (List.mem_range.mp hk)
  simp [hk', show (Micro.storeSp k).ranged = true from rfl]

@[simp] theorem ranged_writeByteProgram (v : Byte) : rangedProgram (writeByteProgram v) = true := by
  refine rangedProgram_flatMap (f := fun k => writeSlot (sentBit v k) ++ [.bitSent k]) fun k hk => ?_
  have hk' : Micro.ranged (.bitSent k) = true := decide_eq_true (List.mem_range.mp hk)
  simp [hk']

@[simp] theorem ranged_addressProgram (rom : List Byte) (a : Addressing) : rangedProgram (addressProgram rom a) = true := by
  cases a
  · exact ranged_writeByteProgram _
  · simpa [addressProgram] using rangedProgram_flatMap fun v _ => ranged_writeByteProgram v

theorem ranged_sendBytes (vs : List Byte) : ∀ k, k + vs.length ≤ 9 → rangedProgram (sendBytes k vs) = true := by
  induction vs with
  | nil => exact fun _ _ => rfl
  | cons v vs ih =>
    intro k hk
    rw [List.length_cons] at hk
    have hk' : k < 9 := by omega
    simp [sendBytes, Micro.ranged, hk', ih (k + 1) (by omega)]

theorem ranged_busProgram (i : Instr) : rangedProgram (busProgram i) = true := by
  cases i <;> simp [busProgram, Micro.ranged]

theorem ranged_frameProgram (i : Instr) (s : State) : rangedProgram (frameProgram i s) = true := by
  have rom : rangedProgram (sendBytes 0 s.romInBytes) = true := ranged_sendBytes _ _ (by simp)
  have wdata : rangedProgram (sendBytes 0 s.wdataBytes) = true := ranged_sendBytes _ _ (by simp)
  cases i <;> simp [frameProgram, sendProgram, dataProgram, rom, wdata, Micro.ranged]

/-! ### Programs of requests are nested -/

@[simp] theorem nested_busProgram (i : Instr) : nested false (busProgram i) = true := by
  cases i with
  | writeBit b => exact nested_writeSlot b
  | writeByte v => exact nested_writeByteProgram v
  | readByte => exact nested_append rfl _ nested_readByteProgram
  | _ => rfl

@[simp] theorem nested_sendProgram (s : State) (i : Instr) : nested false (sendProgram s i) = true := by
  cases i with
  | matchRom => exact nested_append (nested_sendBytes _ _) _ (nested_writeByteProgram _)
  | writeScratchpad a =>
    exact nested_append (nested_sendBytes _ _) _ (nested_append (nested_writeByteProgram _) _ (nested_addressProgram _ a))
  | convertT a | readScratchpad a | copyScratchpad a | recallEeprom a | readPowerSupply a =>
    exact nested_append (nested_writeByteProgram _) _ (nested_addressProgram _ a)
  | readRom | skipRom | alarmSearch | searchRom => exact nested_writeByteProgram _
  | _ => rfl

@[simp] theorem nested_dataProgram (i : Instr) : nested false (dataProgram i) = true := by
  cases i with
  | readRom => exact nested_receiveRom
  | readScratchpad a => exact nested_receiveScratchpad
  | _ => rfl

@[simp] theorem nested_frameProgram (i : Instr) (s : State) : nested false (frameProgram i s) = true :=
  nested_append (nested_dataProgram i) _ (nested_sendProgram s i)

/-! ### What the operations of a request keep, the request keeps -/

/-- Every operation that a request other than INIT is made of keeps `P`. -/
structure OperationKeeps (P : State → Prop) : Prop where
  fault : ∀ f w s, f.ofRequest = true → P s → P (raiseFault f w s)
  clearCopy : ∀ s, P s → P (clearCopy s)
  accept : ∀ i s, P s → P (accept i s)
  primitive : ∀ (m : Micro) s, m = .setLow ∨ m = .release → P s → P (m.exec s)
  program : ∀ p s, nested false p = true → rangedProgram p = true → P s → P (run p s)
  clear : ∀ c s, P s → P (clearOutputs c s)
  respond : ∀ r s, P s → P (respond r s)

/-- Every operation that a request is made of keeps `P`. -/
structure RequestKeeps (P : State → Prop) : Prop extends OperationKeeps P where
  bind : ∀ pin s, P s → P (bindPin pin s)

/-- The programs that the request `i` runs. -/
def ProgramOf (i : Instr) (p : List Micro) : Prop :=
  (isBusProgram i = true ∧ p = busProgram i) ∨ (isDeviceProtocol i = true ∧ (p = resetProgram ∨ ∃ s, p = frameProgram i s))

theorem ProgramOf.nested {i : Instr} {p : List Micro} (h : ProgramOf i p) : nested false p = true := by
  rcases h with ⟨-, rfl⟩ | ⟨-, rfl | ⟨s, rfl⟩⟩
  · exact nested_busProgram i
  · exact nested_resetProgram
  · exact nested_frameProgram i s

theorem ProgramOf.ranged {i : Instr} {p : List Micro} (h : ProgramOf i p) : rangedProgram p = true := by
  rcases h with ⟨-, rfl⟩ | ⟨-, rfl | ⟨s, rfl⟩⟩
  · exact ranged_busProgram i
  · exact ranged_resetProgram
  · exact ranged_frameProgram i s

/-- Every operation that the request `i` is made of after its prologue keeps `P`, and its end gives `Q`. -/
structure InstrKeeps (i : Instr) (P Q : State → Prop) : Prop where
  badPin : ∀ w s, (∃ pin, i = .init pin) → s.running = true → P s → P (raiseFault .badPin w s)
  bind : ∀ pin s, i = .init pin → P s → P (Micro.release.exec (bindPin pin s))
  primitive : ∀ (m : Micro) s, m = .setLow ∨ m = .release → P s → P (m.exec s)
  program : ∀ p s, ProgramOf i p → P s → P (run p s)
  clear : ∀ s, isDeviceProtocol i = true → P s → P (clearOutputs (cellsOf i) s)
  respond : ∀ r s, s.fault = .none → P s → Q (respond r s)
  stopped : ∀ s, s.running = false → P s → Q s

/-- A fault that the prologue raises is a fault of the request (60_exceptions.md rule R353). -/
theorem prologue_fault (i : Instr) {s : State} (h : s.fault = .none) :
    (prologue i s).fault = .none ∨ (prologue i s).fault.ofRequest = true := by
  unfold prologue
  rw [if_neg (by simp [h])]
  split
  · exact .inr (by simp [raiseFault, h, FaultCode.ofRequest])
  · split
    · exact .inr (by simp [raiseFault, h, FaultCode.ofRequest])
    · split
      · exact .inr (by simp [raiseFault, h, FaultCode.ofRequest])
      · split
        · exact .inr (by simp [raiseFault, h, FaultCode.ofRequest])
        · exact .inl (by simp [h])

section
variable {P : State → Prop}

@[simp] theorem bindPin_fault (pin : Pin) (s : State) : (bindPin pin s).fault = s.fault := by
  unfold bindPin
  split <;> rfl

@[simp] theorem clearOutputs_fault (c : OutCells) (s : State) : (clearOutputs c s).fault = s.fault := by
  cases c <;> rfl

/-- What the operations of a request after its prologue keep, the request keeps. -/
theorem InstrKeeps.exec {Q : State → Prop} {i : Instr} (k : InstrKeeps i P Q) (hi : i.isRequest = true) {s t : State} (he : exec i s = .next t)
    (h : P (prologue i s)) : Q t := by
  have idle : ∀ {u : State}, u.running = true → u.fault = .none := fun hr => ((running_iff _).mp hr).2
  have ended : ∀ {f : State → State} {u : State}, P u → (u.running = true → Q (f u)) → Q (whileRunning f u) := by
    intro f u hu hf
    unfold whileRunning
    split
    · next hr => exact hf hr
    · next hr => exact k.stopped u (by simpa using hr) hu
  have next : ∀ {body : State → State}, (∀ u, u.running = true → P u → Q (body u)) →
      Machine.exec i s = .next (Machine.request i body s) → Q t := by
    intro body hb e
    rw [he] at e
    cases e
    exact ended h fun hr => hb _ hr h
  have answered : ∀ (r : State → Response) {u : State}, P u → Q (whileRunning (fun v => Machine.respond (r v) v) u) :=
    fun r u hu => ended hu fun hr => k.respond _ _ (idle hr) hu
  cases requestShape hi with
  | init pin =>
    refine next (fun u hr hu => ?_) (exec_init pin s)
    unfold initBody
    split
    · exact k.respond _ _ (by simpa [Micro.exec] using idle hr) (k.bind _ _ rfl hu)
    · exact k.stopped _ (running_raiseFault (by simp) _ _) (k.badPin _ _ ⟨pin, rfl⟩ hr hu)
  | driveLow =>
    exact next (fun u hr hu => k.respond _ _ (by simpa [Micro.exec] using idle hr) (k.primitive _ _ (.inl rfl) hu)) (exec_driveLow s)
  | release =>
    exact next (fun u hr hu => k.respond _ _ (by simpa [Micro.exec] using idle hr) (k.primitive _ _ (.inr rfl) hu)) (exec_release s)
  | bus hb => exact next (fun u _ hu => answered _ (k.program _ _ (.inl ⟨hb, rfl⟩) hu)) (exec_busProgram hb s)
  | frame hf =>
    refine next (fun u _ hu => ?_) (exec_deviceProtocol hf s)
    have hr := k.program _ _ (.inr ⟨hf, .inl rfl⟩) hu
    refine ended hr fun running => ?_
    unfold presenceGate
    split
    · exact answered _ (k.program _ _ (.inr ⟨hf, .inr ⟨u, rfl⟩⟩) hr)
    · exact k.respond _ _ (by rw [clearOutputs_fault]; exact idle running) (k.clear _ hf hr)

/-- What each micro-operation of a program in its ranges keeps, the program keeps. -/
theorem run_keeps_of_micro (micro : ∀ (m : Micro) (s : State), m.ranged = true → P s → P (m.exec s)) {p : List Micro}
    (hp : rangedProgram p = true) {s : State} (h : P s) : P (run p s) :=
  run_keeps P (fun m hm t => micro m t (List.all_eq_true.mp hp m hm)) s h

theorem OperationKeeps.prologue (k : OperationKeeps P) (i : Instr) {s : State} (h : P s) : P (prologue i s) := by
  rcases prologue_cases i s with ⟨-, e⟩ | ⟨hs, f, hf, e⟩ | ⟨-, -, -, -, -, e⟩
  · rwa [e]
  · have hr : f.ofRequest = true := by
      have hp := prologue_fault i hs
      have : (Machine.prologue i s).fault = f := by rcases e with e | e <;> simp [e, raiseFault, hs]
      rw [this] at hp
      exact hp.resolve_left hf
    rcases e with e | e <;> rw [e]
    · exact k.fault _ _ _ hr h
    · exact k.fault _ _ _ hr (k.clearCopy _ h)
  · rw [e]
    exact k.accept _ _ (k.clearCopy _ h)

theorem OperationKeeps.ofInstr (k : OperationKeeps P) {i : Instr}
    (hb : ∀ pin s, i = .init pin → P s → P (Micro.release.exec (bindPin pin s))) :
    InstrKeeps i P P where
  badPin w s _ _ := k.fault _ w s rfl
  bind := hb
  primitive := k.primitive
  program p s hp := k.program p s hp.nested hp.ranged
  clear s _ := k.clear _ s
  respond r s _ := k.respond r s
  stopped _ _ := id

/-- INIT up to its bind keeps what its operations keep; `Q` is what is known after it. -/
theorem OperationKeeps.exec_init (k : OperationKeeps P) {Q : State → Prop} (weaken : ∀ s, P s → Q s) {pin : Pin}
    (bind : ∀ r s, P s → Q (Machine.respond r (Micro.release.exec (bindPin pin s)))) {s t : State}
    (he : exec (.init pin) s = .next t) (h : P s) : Q t := by
  rw [Machine.exec_init] at he
  cases he
  have hp := k.prologue (.init pin) h
  unfold Machine.request whileRunning
  split
  · unfold initBody
    split
    · exact bind _ _ hp
    · exact weaken _ (k.fault _ _ _ rfl hp)
  · exact weaken _ hp

/-- Every request but INIT keeps what its operations keep. -/
theorem OperationKeeps.exec (k : OperationKeeps P) {i : Instr} (hi : i.isRequest = true) (hn : ∀ pin, i ≠ .init pin) {s t : State}
    (he : exec i s = .next t) (h : P s) : P t :=
  (k.ofInstr fun pin _ e => absurd e (hn pin)).exec hi he (k.prologue i h)

theorem RequestKeeps.exec (k : RequestKeeps P) {i : Instr} (hi : i.isRequest = true) {s t : State} (he : exec i s = .next t)
    (h : P s) : P t :=
  (k.ofInstr fun pin s _ h => k.primitive _ _ (.inr rfl) (k.bind pin s h)).exec hi he (k.prologue i h)

end

end Sys2Proof.Machine
end

section
/-! PROOFS. Encoding (30_encoding.md): the round trips of the encoder and the decoders, and words that decode to nothing. -/

namespace Sys2Proof

/-- Settles O1: for each instruction the decoder's branch for its OP byte reads the operand back from ARG. -/
theorem decodeOfEncode : Obligations.DecodeOfEncode := by
  intro i
  cases i with
  | convertT a | writeScratchpad a | readScratchpad a | copyScratchpad a | recallEeprom a | readPowerSupply a =>
    cases a <;> rfl
  | writeBit b => cases b <;> rfl
  | init pin | writeByte data => simp [encode, Instr.isRequest, decode, decodeRequest, opByte, argByte]
  | _ => rfl

/-- Settles O2: a request word is rebuilt from its row, and a wire byte is its own OP byte. -/
theorem encodeOfDecode : Obligations.EncodeOfDecode :=
  ⟨fun _ _ h => ⟨Machine.isRequest_of_decode h, Machine.requestWord_of_decode h⟩, fun _ _ h => Machine.decodeWire_eq_ok h⟩

/-- Settles O4: eight words written out. -/
theorem sampleWordsDecode : Obligations.SampleWordsDecode := by
  unfold Obligations.SampleWordsDecode
  decide

/-- Settles O5: a word that no row admits decodes to nothing, and the prologue rejects it. -/
theorem illegalWordFaultsAlone : Obligations.IllegalWordFaultsAlone := by
  intro w s hw hf hb
  refine Machine.deliver_illegal_of_idle (fun i hi => ?_) hf hb
  obtain ⟨r, hr, ha⟩ := decodes_iff_admitted.mp ⟨i, hi⟩
  simp [hw r hr] at ha

end Sys2Proof
end

section
/-! PROOFS. What one step is: whose turn it is and what that agent does; then the decoded instruction as the step it makes, and a
faulted engine. -/

namespace Sys2Proof.Machine

/-! ### Wire commands and host actions -/

/-- What a DS18B20 makes of the complete command byte `b` (45_reference_device.md rules R313, R326). -/
def commandOf (b : Byte) : Ds18b20 → Ds18b20 :=
  match decodeWire b with
  | .ok i => Ds18b20.take i
  | .error _ => Ds18b20.takeUnknown

/-- A wire instruction is its byte, taken by every device that holds it. -/
theorem exec_wire {i : Instr} (h : i.isRequest = false) (s : State) :
    exec i s = .next (onCommand (opByte i) (Ds18b20.take i) s) := by
  cases i <;> cases h <;> rfl

theorem deviceTurn_eq (b : Byte) (s : State) : deviceTurn b s = .next (onCommand b (commandOf b) s) := by
  unfold deviceTurn commandOf
  cases hd : decodeWire b with
  | ok i =>
    obtain ⟨hi, hb⟩ := decodeWire_eq_ok hd
    simp only [exec_wire hi, hb]
  | error e => rfl

/-- The host's next action is the first of its list, unless the host waits and the action is its own. -/
theorem nextAction?_eq_some {s : State} {a : HostAction} {rest : List HostAction} :
    s.nextAction? = some (a, rest) ↔ s.inbox = a :: rest ∧ (s.hostWaits = true → a.fromOutside = true) := by
  unfold State.nextAction?
  cases s.inbox with
  | nil => simp
  | cons b tail =>
    dsimp only
    split
    · next h =>
      simp only [Bool.and_eq_true, Bool.not_eq_true'] at h
      simp only [reduceCtorEq, List.cons.injEq, false_iff, not_and]
      rintro ⟨rfl, -⟩ k
      simp [k h.1] at h
    · next h =>
      simp only [Bool.and_eq_true, Bool.not_eq_true', not_and, Bool.not_eq_false] at h
      simp only [Option.some.injEq, Prod.mk.injEq, List.cons.injEq, iff_self_and]
      rintro ⟨rfl, -⟩
      exact h

/-! ### Whose turn it is (00_scope.md rule R8) -/

theorem step_eq_agentTurn (s : State) : step s = agentTurn s := if_pos (by decide)

section
variable {s : State}

theorem step_of_command {b : Byte} (h : s.pendingCommand? = some b) : step s = .next (onCommand b (commandOf b) s) := by
  have turn : s.turn = .device := by simp [State.turn, h]
  rw [step_eq_agentTurn, agentTurn, turn]
  simp only [devicesTurn, h, deviceTurn_eq]

variable (hc : s.pendingCommand? = none)
include hc

theorem step_of_resetDue (h : s.resetDue = true) : step s = .next (advance 0 s) := by
  have turn : s.turn = .platform := by simp [State.turn, hc, h]
  rw [step_eq_agentTurn, agentTurn, turn]
  exact if_pos h

variable (hr : s.resetDue = false)
include hr

theorem step_of_intruder {w : ReqWord} {rest : List (Nat × ReqWord)} (h : s.dueIntruder? = some (w, rest)) :
    step s = callEngine w { s with intruders := rest } := by
  have turn : s.turn = .engine := by simp [State.turn, hc, hr, h]
  rw [step_eq_agentTurn, agentTurn, turn]
  simp only [engineTurn, h]

variable (hi : s.dueIntruder? = none)
include hi

theorem step_of_action {a : HostAction} {rest : List HostAction} (h : s.nextAction? = some (a, rest)) :
    step s = hostTurn a { s with inbox := rest } := by
  obtain ⟨hin, -⟩ := nextAction?_eq_some.mp h
  cases a with
  | request w =>
    have turn : s.turn = .engine := by simp [State.turn, hc, hr, hi, h]
    rw [step_eq_agentTurn, agentTurn, turn]
    simp only [engineTurn, hi, hin]
    rfl
  | _ =>
    have turn : s.turn = .host := by simp [State.turn, hc, hr, hi, h]
    rw [step_eq_agentTurn, agentTurn, turn]
    simp only [hostsTurn, hin]

theorem step_of_idle (h : s.nextAction? = none) : step s = idleTurn s := by
  have turn : s.turn = .platform := by simp [State.turn, hc, hr, hi, h]
  rw [step_eq_agentTurn, agentTurn, turn, platformTurn, if_neg (by simp [hr])]

end

/-- What a step can do. -/
inductive Moves (s t : State) : Prop where
  | command (b : Byte) (h : s.pendingCommand? = some b) (e : t = onCommand b (commandOf b) s)
  | blockReset (h : s.resetDue = true) (e : t = advance 0 s)
  | intruder (w : ReqWord) (rest : List (Nat × ReqWord)) (hr : s.resetDue = false) (h : s.dueIntruder? = some (w, rest))
      (e : callEngine w { s with intruders := rest } = .next t)
  | host (a : HostAction) (rest : List HostAction) (hr : s.resetDue = false) (h : s.inbox = a :: rest)
      (hw : s.hostWaits = true → a.fromOutside = true) (e : hostTurn a { s with inbox := rest } = .next t)
  | time (n : Nat) (hr : s.resetDue = false) (e : t = advance n s)
  | nothing (e : t = s)

theorem step_moves {s t : State} (h : step s = .next t) : Moves s t := by
  cases hc : s.pendingCommand? with
  | some b =>
    rw [step_of_command hc] at h
    exact .command b hc (by cases h; rfl)
  | none =>
    cases hr : s.resetDue
    · cases hi : s.dueIntruder? with
      | some p => exact .intruder p.1 p.2 hr hi (step_of_intruder hc hr hi ▸ h)
      | none =>
        cases ha : s.nextAction? with
        | some p =>
          obtain ⟨hin, hw⟩ := nextAction?_eq_some.mp ha
          exact .host p.1 p.2 hr hin hw (step_of_action hc hr hi ha ▸ h)
        | none =>
          rw [step_of_idle hc hr hi ha, idleTurn] at h
          split at h
          · exact .time _ hr (by cases h; rfl)
          · split at h
            · exact .nothing (by cases h; rfl)
            · cases h
    · rw [step_of_resetDue hc hr] at h
      exact .blockReset hr (by cases h; rfl)

/-! ### A step runs the decoded instruction -/

theorem callEngine_of_ok {w : ReqWord} {i : Instr} (h : decodeRequest w = .ok i) (s : State) :
    callEngine w s = exec i { s with call := .waiting } := deliver_of_ok h _

/-- Settles O6: the step of the engine's turn, with the word decoded. -/
theorem stepRunsDeliveredRequest : Obligations.StepRunsDeliveredRequest := by
  intro s w i hc hr hd
  refine ⟨fun rest hi hin => ?_, fun rest hi => ?_⟩
  · rw [step_of_action hc hr hi (nextAction?_eq_some.mpr ⟨hin, fun _ => rfl⟩)]
    exact callEngine_of_ok hd _
  · rw [step_of_intruder hc hr hi, callEngine_of_ok hd]

/-- Settles O7: the step of the devices' turn, with the byte decoded. -/
theorem stepRunsCommandByte : Obligations.StepRunsCommandByte := by
  intro s b i hc hd
  obtain ⟨hi, hb⟩ := decodeWire_eq_ok hd
  rw [step_of_command hc, exec_wire hi, hb, commandOf, hd]

/-! ### Placing an instruction -/

/-- A device put in a position that is no complete command byte has none to decode. -/
theorem Device.command?_withPosition (p : Pos) (d : Device) :
    (d.withPosition p).command? = if d.isDs18b20 then p.command? else none := by
  cases hk : d.kind <;> simp [Device.withPosition, Device.command?, Device.isDs18b20, Device.romCode?, hk]

/-- The quieted state has no command byte to decode, no block reset that is due, and no request of another context that is. -/
theorem pendingCommand?_quiet (s : State) : (quiet s).pendingCommand? = none := by
  simp only [State.pendingCommand?, quiet, List.findSome?_eq_none_iff, List.forall_mem_map]
  intro d _
  by_cases h : d.command?.isSome = true
  · rw [if_pos h, Device.command?_withPosition]
    split <;> rfl
  · rw [if_neg h]
    simpa using h

theorem resetDue_quiet (s : State) : (quiet s).resetDue = false := by
  unfold State.resetDue
  split
  · next t rest h =>
    have := List.head?_dropWhile_not (fun t => decide (t ≤ s.now)) s.resetsAt
    rw [show s.resetsAt.dropWhile (fun t => decide (t ≤ s.now)) = t :: rest from h] at this
    have : s.now < t := by simpa using this
    exact decide_eq_false (Nat.not_le.mpr this)
  · rfl

theorem dueIntruder?_quiet (s : State) : (quiet s).dueIntruder? = none := by
  unfold State.dueIntruder?
  split
  · next t w rest h =>
    have := List.head?_dropWhile_not (fun p : Nat × ReqWord => decide (p.1 ≤ s.now)) s.intruders
    rw [show s.intruders.dropWhile (fun p => decide (p.1 ≤ s.now)) = (t, w) :: rest from h] at this
    have : s.now < t := by simpa using this
    exact if_neg fun k => Nat.not_le.mpr this k.1
  · rfl

theorem okOf_eq_some {r : Except DecodeError Instr} {i : Instr} : okOf r = some i ↔ r = .ok i := by
  cases r <;> simp [okOf]

/-- The position of a device that has gathered the byte holds it complete. -/
theorem command?_commandPosition (b : Byte) : (commandPosition b).command? = some b := by
  unfold commandPosition
  split <;> rfl

theorem pendingCommand?_placeCommand (b : Byte) (s : State) : (placeCommand b s).pendingCommand? = some b := by
  have placed : ∀ ds : List Device, ds.any Device.isDs18b20 = true →
      (ds.map (Device.withPosition (commandPosition b))).findSome? Device.command? = some b := by
    intro ds
    induction ds with
    | nil => simp
    | cons d ds ih =>
      intro h
      rw [List.map_cons, List.findSome?_cons, Device.command?_withPosition, command?_commandPosition]
      cases hd : d.isDs18b20
      · simpa [hd] using ih (by simpa [hd] using h)
      · rfl
  refine placed _ ?_
  by_cases h : (quiet s).devices.any Device.isDs18b20 = true
  · rwa [if_pos h]
  · rw [if_neg h]
    rfl

/-- Settles O8: the placed word is the host's next action on a quieted state, the placed byte is in every DS18B20. -/
theorem fetchedWordRunsNext : Obligations.FetchedWordRunsNext := by
  intro s w i
  refine ⟨fun hd => ?_, fun hd => ?_⟩
  · have hd : decodeRequest (BitVec.ofNat 16 w) = .ok i := okOf_eq_some.mp hd
    obtain ⟨host, -⟩ := stepRunsDeliveredRequest (placeRequest (BitVec.ofNat 16 w) s) _ i (pendingCommand?_quiet s)
      (resetDue_quiet s) hd
    exact host s.inbox (dueIntruder?_quiet s) rfl
  · exact stepRunsCommandByte _ _ i (pendingCommand?_placeCommand _ s) (okOf_eq_some.mp hd)

/-! ### A faulted engine -/

theorem exec_of_faulted {i : Instr} (hi : i.isRequest = true) {s : State} (h : s.fault ≠ .none) : exec i s = .next s := by
  obtain ⟨body, hb⟩ := exec_eq_request hi
  rw [hb, request_of_faulted i body h]

/-- Settles O11: the prologue of a faulted engine returns the state. -/
theorem faultedEngineTakesNoStep : Obligations.FaultedEngineTakesNoStep :=
  fun _ h => ⟨fun _ hi => exec_of_faulted hi h, fun w => deliver_of_faulted w h⟩

/-- A fault that is recorded stays (60_exceptions.md rule R356). -/
theorem raiseFault_of_faulted (f : FaultCode) (w : ReqWord) {s : State} (h : s.fault ≠ .none) : raiseFault f w s = s := if_neg h

/-- `t` has the fault of `s` and its word, and a caller that waits in `s` waits in `t`. -/
def StaysFaulted (s t : State) : Prop :=
  t.fault = s.fault ∧ t.faultWord = s.faultWord ∧ (s.call = .waiting → t.call = .waiting)

theorem StaysFaulted.refl (s : State) : StaysFaulted s s := ⟨rfl, rfl, id⟩

theorem StaysFaulted.advance (n : Nat) {s u : State} (hu : StaysFaulted s u) (hr : u.resetsAt = []) :
    StaysFaulted s (advance n u) := by
  rw [advance_of_noReset n hr]
  simpa [StaysFaulted] using hu

/-- No action of the host but a block reset takes a fault back. -/
theorem StaysFaulted.hostTurn {s t : State} {a : HostAction} (hs : s.fault ≠ .none) (hr : s.resetsAt = []) (ha : a ≠ .blockReset)
    (h : hostTurn a s = .next t) : StaysFaulted s t := by
  have read : ∀ v, StaysFaulted s (hostRead v s) := by
    intro v
    cases v
    · rw [hostRead, raiseFault_of_faulted _ _ hs]
      exact .refl s
    · exact .refl s
  cases a with
  | blockReset => exact absurd rfl ha
  | request w =>
    rw [Machine.hostTurn, callEngine, deliver_of_faulted w (show State.fault { s with call := .waiting } ≠ .none from hs)] at h
    cases h
    exact ⟨rfl, rfl, fun _ => rfl⟩
  | readRomOut | readSpOut | readBitOut | readByteOut | readTemperature => cases h; exact read _
  | waitUs n => cases h; exact StaysFaulted.advance n (.refl s) hr
  | waitMs n =>
    cases h
    unfold delayMs
    split
    · exact StaysFaulted.advance _ ⟨rfl, rfl, id⟩ hr
    · rw [raiseFault_of_faulted _ _ hs]
      exact .refl s
  | exitCritical =>
    cases h
    rcases exitCritical_cases s with ⟨-, e⟩ | ⟨m, rest, -, e⟩ <;> rw [e]
    · rw [raiseFault_of_faulted _ _ hs]
      exact .refl s
    · exact .refl s
  | _ => cases h; exact .refl s

/-- Settles O12: none of the moves of a step but a block reset writes the fault, and a request finds the engine stopped. -/
theorem faultStaysUntilBlockReset : Obligations.FaultStaysUntilBlockReset := by
  intro s t hs hr ha h
  change StaysFaulted s t
  cases step_moves h with
  | command b _ e => rw [e]; exact .refl s
  | blockReset hd => simp [State.resetDue, hr] at hd
  | intruder w rest _ _ e =>
    rw [(faultedEngineTakesNoStep { s with intruders := rest } hs).2 w] at e
    cases e
    exact ⟨rfl, rfl, fun _ => rfl⟩
  | host a rest _ hin _ e =>
    refine StaysFaulted.hostTurn (s := { s with inbox := rest }) hs hr (fun k => ha ?_) e
    rw [hin, k, List.head?_cons]
  | time n _ e => rw [e]; exact StaysFaulted.advance n (.refl s) hr
  | nothing e => rw [e]; exact .refl s

end Sys2Proof.Machine
end

section
/-! PROOFS. Time, gaps and block resets on every path, and the engine's critical sections (60_exceptions.md rules R359, R371). -/

namespace Sys2Proof.Machine

/-! ### Time with block resets -/

/-- Time passes as a whole, or the next scheduled block reset ends it. -/
theorem advance_cases (d : Nat) (s : State) :
    advance d s = pass (s.now + d) s ∨
    ∃ t rest, s.resetsAt = t :: rest ∧ t ≤ s.now + d ∧
      advance d s = blockReset (pass (max s.now t) { s with resetsAt := rest }) := by
  unfold advance
  split
  · exact .inl rfl
  · next t rest hr =>
    split
    · next h => exact .inr ⟨t, rest, hr, h, rfl⟩
    · exact .inl rfl

/-- A gap is time, and may then be the fault CONCURRENT_REQUEST. -/
theorem passGap_shape (s : State) :
    let u := advance s.gapTime { s with draws := s.draws + 1 }
    passGap s = u ∨ ∃ w rest, u.running = true ∧ u.dueIntruder? = some (w, rest) ∧
      passGap s = raiseFault .concurrentRequest w { u with intruders := rest } := by
  intro u
  by_cases hr : u.running = true
  · cases hd : u.dueIntruder? with
    | none => exact .inl (by simp only [passGap]; rw [if_pos hr, hd])
    | some p => exact .inr ⟨p.1, p.2, hr, rfl, by simp only [passGap]; rw [if_pos hr, hd]⟩
  · exact .inl (by simp only [passGap]; rw [if_neg hr])

/-- A block reset within a passing of time ends the request; otherwise the engine's own fields stay. -/
theorem advance_running {d : Nat} {s : State} (h : (advance d s).running = true) :
    (advance d s).critStack = s.critStack ∧ (advance d s).fault = s.fault := by
  rcases advance_cases d s with e | ⟨t, rest, -, -, e⟩ <;> rw [e] at h ⊢
  · simp
  · simp [State.running] at h

theorem advance_fault (d : Nat) (s : State) : (advance d s).fault = s.fault ∨ (advance d s).fault = .none := by
  rcases advance_cases d s with e | ⟨t, rest, -, -, e⟩ <;> rw [e]
  · exact .inl (by simp)
  · exact .inr rfl

/-! ### Faults of critical sections -/

/-- The fault is not one of a misused critical section (60_exceptions.md rule R359). -/
def FaultCode.NoMisuse (f : FaultCode) : Prop := f ≠ .msWaitInCritical ∧ f ≠ .critUnderflow

theorem FaultCode.noMisuse_of_ofRequest {f : FaultCode} (h : f.ofRequest = true) : f.NoMisuse := by
  constructor <;> rintro rfl <;> cases h

theorem noMisuse_raiseFault {f : FaultCode} {w : ReqWord} {s : State} (hf : f.NoMisuse) (h : s.fault.NoMisuse) :
    (raiseFault f w s).fault.NoMisuse := by
  unfold raiseFault
  split
  · exact hf
  · exact h

theorem noMisuse_advance (d : Nat) {s : State} (h : s.fault.NoMisuse) : (advance d s).fault.NoMisuse := by
  rcases advance_fault d s with e | e <;> rw [e]
  · exact h
  · exact ⟨nofun, nofun⟩

/-- A micro-operation that leaves no critical section it is not in misuses none. -/
theorem Micro.exec_noMisuse (m : Micro) {s : State} (hx : m = .exit → s.critStack ≠ []) (h : s.fault.NoMisuse) :
    (m.exec s).fault.NoMisuse := by
  cases m with
  | gap =>
    have ha : (advance s.gapTime { s with draws := s.draws + 1 }).fault.NoMisuse := noMisuse_advance _ h
    rcases passGap_shape s with e | ⟨w, rest, -, -, e⟩ <;> rw [Micro.exec, e]
    · exact ha
    · exact noMisuse_raiseFault ⟨nofun, nofun⟩ ha
  | exit =>
    rcases exitCritical_cases s with ⟨k, -⟩ | ⟨m, rest, -, e⟩
    · exact absurd k (hx rfl)
    · simpa [Micro.exec, e] using h
  | delay n => exact noMisuse_advance (s := { s with draws := s.draws + 1 }) _ h
  | _ => simpa [Micro.exec] using h

/-- Only the two primitives of critical sections change the stack of a request that goes on. -/
theorem Micro.exec_critStack_of_running (m : Micro) {s : State} (he : m ≠ .enter) (hx : m ≠ .exit)
    (h : (m.exec s).running = true) : (m.exec s).critStack = s.critStack := by
  cases m with
  | enter => exact absurd rfl he
  | exit => exact absurd rfl hx
  | gap =>
    rcases passGap_shape s with e | ⟨w, rest, -, -, e⟩ <;> rw [Micro.exec, e] at h ⊢
    · exact (advance_running h).1
    · simp [running_raiseFault] at h
  | delay n =>
    have h : (advance (s.delayTime n) { s with draws := s.draws + 1 }).running = true := h
    exact (advance_running h).1
  | _ => simp [Micro.exec]

/-- A nested program misuses no critical section, whatever happens in it. -/
theorem run_noMisuse (p : List Micro) : ∀ (inside : Bool) (s : State), nested inside p = true →
    (inside = true → s.running = true → s.critStack ≠ []) → s.fault.NoMisuse → (run p s).fault.NoMisuse := by
  induction p with
  | nil => exact fun _ _ _ _ h => h
  | cons m p ih =>
    intro inside s hn hc h
    cases hr : s.running
    · rwa [run_of_not_running _ hr]
    · rw [run_cons_running _ _ hr]
      have hx : m = .exit → s.critStack ≠ [] := by
        rintro rfl
        simp only [nested, Bool.and_eq_true] at hn
        exact hc hn.1 hr
      have hm := m.exec_noMisuse hx h
      cases m with
      | enter =>
        simp only [nested, Bool.and_eq_true] at hn
        exact ih true _ hn.2 (fun _ _ => by simp [Micro.exec]) hm
      | exit | gap =>
        simp only [nested, Bool.and_eq_true] at hn
        exact ih false _ hn.2 nofun hm
      | _ =>
        refine ih inside _ (by simpa [nested] using hn) (fun hi hr' => ?_) hm
        rw [Micro.exec_critStack_of_running _ (by simp) (by simp) hr']
        exact hc hi hr

/-- Settles O14: the faults that a request can raise are its prologue's, BAD_PIN and CONCURRENT_REQUEST, as its programs are
nested. -/
theorem engineNeverMisusesCriticalSections : Obligations.EngineNeverMisusesCriticalSections := by
  intro i s t hi hf h
  have keeps : RequestKeeps (fun u => u.fault.NoMisuse) :=
    { fault := fun f w s hf h => noMisuse_raiseFault (FaultCode.noMisuse_of_ofRequest hf) h
      clearCopy := fun s h => by simpa using h
      accept := fun i s h => h
      bind := fun pin s h => by unfold bindPin; split <;> exact h
      primitive := fun m s hm h => m.exec_noMisuse (by rintro rfl; simp at hm) h
      program := fun p s hn _ h => run_noMisuse p false s hn nofun h
      clear := fun c s h => by cases c <;> exact h
      respond := fun r s h => h }
  exact keeps.exec hi h (by rw [hf]; exact ⟨nofun, nofun⟩)

end Sys2Proof.Machine
end

section
/-! PROOFS. What no operation changes or takes back: the environment, the devices' identities, the past of the clock, the trace and
the record of view reads; and the host's own buffers and actions. -/

namespace Sys2Proof.Machine

/-! ### A device's identity (45_reference_device.md rule R300) -/

theorem Ds18b20.moveBit_identity (bit : Bool) (x : Ds18b20) :
    (x.moveBit bit).rom = x.rom ∧ (x.moveBit bit).power = x.power := by
  unfold Ds18b20.moveBit Ds18b20.storeWsp
  split <;> (repeat' split) <;> simp

theorem Ds18b20.romCommand_identity (p : Pos) (x : Ds18b20) :
    (x.romCommand p).rom = x.rom ∧ (x.romCommand p).power = x.power := by
  unfold Ds18b20.romCommand
  split <;> simp

theorem Ds18b20.fnCommand_identity {f : Ds18b20 → Ds18b20} (hf : ∀ x, (f x).rom = x.rom ∧ (f x).power = x.power) (x : Ds18b20) :
    (x.fnCommand f).rom = x.rom ∧ (x.fnCommand f).power = x.power := by
  unfold Ds18b20.fnCommand
  split
  · simp
  · exact hf x
  · simp

theorem Ds18b20.take_identity (i : Instr) (x : Ds18b20) : (x.take i).rom = x.rom ∧ (x.take i).power = x.power := by
  cases i with
  | wReadRom | wMatchRom | wSkipRom | wAlarmSearch | wSearchRom => exact x.romCommand_identity _
  | wConvertT | wWriteScratchpad | wReadScratchpad | wCopyScratchpad | wRecallEeprom | wReadPowerSupply =>
    refine Ds18b20.fnCommand_identity (fun y => ?_) x
    exact ⟨rfl, rfl⟩
  | _ => exact ⟨rfl, rfl⟩

theorem commandOf_identity (b : Byte) (x : Ds18b20) : (commandOf b x).rom = x.rom ∧ (commandOf b x).power = x.power := by
  unfold commandOf
  cases decodeWire b
  · exact ⟨rfl, rfl⟩
  · exact x.take_identity _

/-- A device decodes the complete byte it holds, if it holds one. -/
theorem Ds18b20.decodeCommand_cases (x : Ds18b20) : (x.pos.command? = none ∧ x.decodeCommand = x) ∨
    ∃ b, x.pos.command? = some b ∧ x.decodeCommand = commandOf b x := by
  cases h : x.pos.command? with
  | none => exact .inl ⟨rfl, Ds18b20.decodeCommand_of_none h⟩
  | some b =>
    refine .inr ⟨b, rfl, ?_⟩
    cases hd : decodeWire b with
    | ok i => rw [Ds18b20.decodeCommand_of_ok h hd, commandOf, hd]
    | error e => rw [Ds18b20.decodeCommand_of_error h hd, commandOf, hd]

theorem Ds18b20.decodeCommand_identity (x : Ds18b20) : x.decodeCommand.rom = x.rom ∧ x.decodeCommand.power = x.power := by
  rcases x.decodeCommand_cases with ⟨-, e⟩ | ⟨b, -, e⟩ <;> rw [e]
  · exact ⟨rfl, rfl⟩
  · exact commandOf_identity b x

theorem Ds18b20.slot_identity (e : Nat) (bit : Bool) (x : Ds18b20) :
    (x.slot e bit).rom = x.rom ∧ (x.slot e bit).power = x.power := by
  unfold Ds18b20.slot
  split
  · exact ⟨rfl, rfl⟩
  · obtain ⟨mr, mp⟩ := Ds18b20.moveBit_identity bit { x with slotEnd := e }
    obtain ⟨dr, dp⟩ := ({ x with slotEnd := e }.moveBit bit).decodeCommand_identity
    exact ⟨dr.trans mr, dp.trans mp⟩

@[simp] theorem Device.identity_settle (n : Nat) (d : Device) : (d.settle n).identity = d.identity := by
  unfold Device.settle
  split
  · next x hx =>
    obtain ⟨-, hr, hp, -⟩ := Ds18b20.settle_parts n x
    simp [Device.identity, hx, hr, hp]
  · rfl

@[simp] theorem Device.identity_fall (n : Nat) (d : Device) : (d.fall n).identity = d.identity := by
  unfold Device.fall
  split
  · next x hx =>
    obtain ⟨-, hr, hp, -⟩ := Ds18b20.fall_parts n x
    simp [Device.identity, hx, hr, hp]
  · rfl
  · rfl
  · rfl

@[simp] theorem Device.identity_slot (a n : Nat) (d : Device) : (d.slot a n).identity = d.identity := by
  unfold Device.slot
  split
  · rfl
  · cases hk : d.kind with
    | ds18b20 x => simp [Device.identity, hk, Ds18b20.slot_identity]
    | echo e => simp [Device.identity, hk]
    | presenceOnly => simp [Device.identity, hk]

@[simp] theorem Device.identity_busReset (n : Nat) (d : Device) : (d.busReset n).identity = d.identity := by
  cases hk : d.kind <;> simp [Device.busReset, Device.identity, hk]

@[simp] theorem Device.identity_abandon (d : Device) : d.abandon.identity = d.identity := by
  unfold Device.abandon
  split
  · next x hx => simp [Device.identity, hx, Ds18b20.takeUnknown]
  · rfl

theorem Device.identity_onCommand {f : Ds18b20 → Ds18b20} (hf : ∀ x, (f x).rom = x.rom ∧ (f x).power = x.power) (b : Byte)
    (d : Device) : (d.onCommand b f).identity = d.identity := by
  unfold Device.onCommand
  split
  · next x hx =>
    split
    · simp [Device.identity, hx, hf]
    · rfl
  · rfl

theorem identities_map {F : Device → Device} (hF : ∀ d, (F d).identity = d.identity) (ds : List Device) :
    (ds.map F).map Device.identity = ds.map Device.identity := by
  simp [Function.comp_def, hF]

/-! ### Onward: nothing that has happened is taken back -/

/-- `t` can come after `s`: the environment and the devices' identities are the same, and the clock, the trace and the record of
view reads have only grown. -/
def Onward (s t : State) : Prop :=
  t.env = s.env ∧ t.identities = s.identities ∧ s.now ≤ t.now ∧ s.trace <:+ t.trace ∧ s.viewed <:+ t.viewed

theorem Onward.refl (s : State) : Onward s s := ⟨rfl, rfl, Nat.le_refl _, List.suffix_refl _, List.suffix_refl _⟩

theorem Onward.trans {s t u : State} (h : Onward s t) (k : Onward t u) : Onward s u := by
  obtain ⟨he, hi, hn, ht, hv⟩ := h
  obtain ⟨ke, ki, kn, kt, kv⟩ := k
  exact ⟨ke.trans he, ki.trans hi, hn.trans kn, ht.trans kt, hv.trans kv⟩

/-- An operation that leaves clock, trace and record, and maps the devices by `F`. -/
theorem Onward.of_devices {s t : State} {F : Device → Device} (hF : ∀ d, (F d).identity = d.identity)
    (hd : t.devices = s.devices.map F) (he : t.env = s.env) (hn : t.now = s.now) (ht : t.trace = s.trace)
    (hv : t.viewed = s.viewed) : Onward s t :=
  ⟨he, by rw [State.identities, hd, identities_map hF, State.identities], hn.ge, by rw [ht], by rw [hv]⟩

/-- An operation that changes none of the five. -/
theorem Onward.of_same {s t : State} (hd : t.devices = s.devices) (he : t.env = s.env) (hn : t.now = s.now) (ht : t.trace = s.trace)
    (hv : t.viewed = s.viewed) : Onward s t :=
  .of_devices (F := id) (fun _ => rfl) (by simpa using hd) he hn ht hv

theorem onward_emit (e : Event) (s : State) : Onward s (s.emit e) :=
  ⟨rfl, rfl, Nat.le_refl _, List.suffix_cons .., List.suffix_refl _⟩

theorem onward_settleTo {n : Nat} {s : State} (h : s.now ≤ n) : Onward s (settleTo n s) :=
  ⟨rfl, identities_map (Device.identity_settle n) _, h, List.suffix_refl _, List.suffix_refl _⟩

theorem onward_endLow (n : Nat) (s : State) : Onward s (endLow n s) := by
  refine .of_devices (fun d => ?_) (endLow_devices n s) (by simp) (by simp) (by simp) (by simp)
  split
  · split <;> simp
  · rfl

theorem lineRise?_le {s : State} {r : Nat} (h : s.lineRise? = some r) : s.now ≤ r := by
  have := List.mem_filter.mp (List.min?_mem h)
  simp only [Bool.and_eq_true, decide_eq_true_eq] at this
  exact this.2.1

/-- What the rise of the line within a passing of time says. -/
theorem riseBy?_eq_some {s : State} {t start r : Nat} :
    s.riseBy? t = some (start, r) ↔ s.drive = .released ∧ s.lineLow = some start ∧ s.lineRise? = some r ∧ r ≤ t := by
  unfold State.riseBy?
  cases s.drive <;> cases s.lineLow <;> cases s.lineRise? <;> simp
  · next a b =>
    constructor
    · rintro ⟨h, rfl, rfl⟩
      exact ⟨rfl, rfl, h⟩
    · rintro ⟨rfl, rfl, h⟩
      exact ⟨h, rfl, rfl⟩

theorem onward_passTo {n : Nat} {s : State} (h : s.now ≤ n) : Onward s (passTo n s) := by
  unfold passTo
  split
  · next start r hr =>
    obtain ⟨-, -, hrise, hle⟩ := riseBy?_eq_some.mp hr
    exact ((onward_settleTo (lineRise?_le hrise)).trans (onward_endLow start _)).trans (onward_settleTo (by simpa using hle))
  · exact onward_settleTo h

theorem onward_pass {n : Nat} {s : State} (h : s.now ≤ n) : Onward s (pass n s) := by
  obtain ⟨he, hi, hn, ht, hv⟩ := onward_passTo h
  exact ⟨he, hi, by simp [h], ht,
    hv.trans (readViews_suffix _ _).2⟩

theorem onward_blockReset (s : State) : Onward s (blockReset s) := by
  refine ⟨rfl, rfl, Nat.le_refl _, ?_, List.suffix_refl _⟩
  rw [blockReset_trace]
  split
  · exact List.suffix_cons ..
  · exact List.suffix_refl _

theorem onward_advance (d : Nat) (s : State) : Onward s (advance d s) := by
  rcases advance_cases d s with e | ⟨t, rest, -, -, e⟩ <;> rw [e]
  · exact onward_pass (by omega)
  · exact (onward_pass (s := { s with resetsAt := rest }) (Nat.le_max_left _ _)).trans (onward_blockReset _)

theorem onward_raiseFault (f : FaultCode) (w : ReqWord) (s : State) : Onward s (raiseFault f w s) := by
  unfold raiseFault
  split <;> exact .refl s

theorem onward_setLineLow (s : State) : Onward s (setLineLow s) := by
  have devices : ∃ F : Device → Device, (∀ d, (F d).identity = d.identity) ∧ (setLineLow s).devices = s.devices.map F := by
    by_cases h : s.drive = .drivenLow ∨ s.lineLow.isSome = true ∨ (s.devicesLowSince s.now).isSome = true
    · exact ⟨id, fun _ => rfl, by simpa using (setLineLow_noEdge h).1⟩
    · simp only [not_or, Bool.not_eq_true, Option.isSome_eq_false_iff, Option.isNone_iff_eq_none] at h
      obtain ⟨hd, hl, hs⟩ := h
      have hd : s.drive = .released := by cases hv : s.drive <;> simp_all
      refine ⟨_, fun d => ?_, (setLineLow_edge hd hl hs).1⟩
      split <;> simp
  obtain ⟨F, hF, hd⟩ := devices
  refine ⟨by simp, ?_, by simp, by simp, by simp⟩
  rw [State.identities, hd, identities_map hF, State.identities]

theorem onward_releaseLine (s : State) : Onward s (releaseLine s) := by
  unfold releaseLine
  refine Onward.trans ?_ (onward_emit _ _)
  dsimp only
  split
  · exact .refl s
  · next start _ =>
    unfold endDrive
    split
    · exact onward_endLow start { s with drive := .released }
    · exact .refl s

theorem onward_exitCritical (s : State) : Onward s (exitCritical s) := by
  rcases exitCritical_cases s with ⟨-, e⟩ | ⟨m, rest, -, e⟩ <;> rw [e]
  · exact onward_raiseFault ..
  · exact onward_emit _ _

theorem onward_passGap (s : State) : Onward s (passGap s) := by
  have ha : Onward s (advance s.gapTime { s with draws := s.draws + 1 }) := onward_advance _ { s with draws := s.draws + 1 }
  rcases passGap_shape s with e | ⟨w, rest, -, -, e⟩ <;> rw [e]
  · exact ha
  · exact ha.trans (onward_raiseFault _ w { advance s.gapTime { s with draws := s.draws + 1 } with intruders := rest })

theorem onward_delayMs (n : Nat) (s : State) : Onward s (delayMs n s) := by
  unfold delayMs
  split
  · exact (onward_emit (.sleep n) { s with draws := s.draws + 1 }).trans (onward_advance _ _)
  · exact onward_raiseFault ..

theorem Micro.exec_onward (m : Micro) (s : State) : Onward s (m.exec s) := by
  cases m with
  | setLow => exact onward_setLineLow s
  | release => exact onward_releaseLine s
  | sample => exact onward_emit (.smp s.lineLevel) s
  | delay n => exact onward_advance _ { s with draws := s.draws + 1 }
  | enter => exact onward_emit .critOn s
  | exit => exact onward_exitCritical s
  | gap => exact onward_passGap s
  | _ => exact .refl s

theorem onward_bindPin (pin : Pin) (s : State) : Onward s (bindPin pin s) := by
  unfold bindPin
  split
  · exact .refl s
  · refine .of_devices (F := fun d => if s.bound || s.lineLow.isSome then (if d.pin = s.pin then d.abandon else d) else d)
      (fun d => ?_) ?_ rfl rfl rfl rfl
    · split
      · split <;> simp
      · rfl
    · cases s.bound || s.lineLow.isSome <;> simp

theorem requestKeeps_onward (s : State) : RequestKeeps (Onward s) where
  fault f w t _ h := h.trans (onward_raiseFault f w t)
  clearCopy t h := h.trans (.of_same (by simp) (by simp) (by simp) (by simp) (by simp))
  accept i t h := h.trans (onward_emit _ _)
  bind pin t h := h.trans (onward_bindPin pin t)
  primitive m t _ h := h.trans (m.exec_onward t)
  program p t _ hp h := run_keeps_of_micro (fun m t _ h => h.trans (m.exec_onward t)) hp h
  clear c t h := h.trans (by cases c <;> exact .refl t)
  respond r t h := h.trans (onward_emit _ _)

theorem exec_onward {i : Instr} {s t : State} (h : exec i s = .next t) : Onward s t := by
  cases hi : i.isRequest
  · rw [exec_wire hi] at h
    cases h
    exact .of_devices (Device.identity_onCommand (Ds18b20.take_identity i) _) rfl rfl rfl rfl rfl
  · exact (requestKeeps_onward s).exec hi h (.refl s)

theorem callEngine_onward {w : ReqWord} {s t : State} (h : callEngine w s = .next t) : Onward s t := by
  unfold callEngine deliver at h
  split at h
  · exact exec_onward (s := { s with call := .waiting }) h
  · cases h
    unfold rejectWord
    split
    · exact .refl s
    · split <;> exact onward_raiseFault _ w { s with call := .waiting }

theorem onward_hostRead (v : Option Answer) (s : State) : Onward s (hostRead v s) := by
  cases v
  · exact onward_raiseFault ..
  · exact .refl s

theorem hostTurn_onward {a : HostAction} {s t : State} (h : hostTurn a s = .next t) : Onward s t := by
  cases a with
  | request w => exact callEngine_onward h
  | readRomOut | readSpOut | readBitOut | readByteOut | readTemperature => cases h; exact onward_hostRead _ s
  | waitUs n => cases h; exact onward_advance n s
  | waitMs n => cases h; exact onward_delayMs n s
  | enterCritical => cases h; exact onward_emit _ _
  | exitCritical => cases h; exact onward_exitCritical s
  | blockReset => cases h; exact onward_blockReset s
  | _ => cases h; exact .refl s

/-- No step takes back what has happened. -/
theorem step_onward {s t : State} (h : step s = .next t) : Onward s t := by
  cases step_moves h with
  | command b _ e => rw [e]; exact .of_devices (Device.identity_onCommand (commandOf_identity b) b) rfl rfl rfl rfl rfl
  | blockReset _ e => rw [e]; exact onward_advance 0 s
  | intruder w rest _ _ e => exact callEngine_onward (s := { s with intruders := rest }) e
  | host a rest _ _ _ e => exact hostTurn_onward (s := { s with inbox := rest }) e
  | time n _ e => rw [e]; exact onward_advance n s
  | nothing e => rw [e]; exact .refl s

/-- Settles O59: no operation writes the environment, and each maps the devices by a function that keeps their identities. -/
theorem stepKeepsTheEnvironment : Obligations.StepKeepsTheEnvironment := by
  intro s t h
  obtain ⟨he, hi, -⟩ := step_onward h
  exact ⟨he, hi⟩

/-- Settles O60: time only passes, and events and reads are only put on top. -/
theorem timeAndTraceOnlyGrow : Obligations.TimeAndTraceOnlyGrow := by
  intro s t h
  obtain ⟨-, -, hn, ⟨es, ht⟩, hv⟩ := step_onward h
  exact ⟨hn, ⟨es, ht.symm⟩, hv⟩

end Sys2Proof.Machine
end

section
/-! PROOFS. The host's buffers and its other actions, the shim primitives, the status view's temperature, and what stands in every
field after a block reset. -/

namespace Sys2Proof.Machine

/-! ### Buffers -/

theorem memRead_of_lt {n : Nat} (b : Buffer n) {k : Nat} (h : k < n) : memRead b k = b[k] := by simp [memRead, h]

@[simp] theorem memRead_replicate_none (n k : Nat) : memRead (Vector.replicate n none) k = none := by
  by_cases h : k < n
  · rw [memRead_of_lt _ h, Vector.getElem_replicate]
  · simp [memRead, h]

/-- A property of every cell of a buffer, by the cells' indices. -/
theorem all_cells_iff {n : Nat} (b : Buffer n) (p : Option Byte → Bool) :
    b.toList.all p = true ↔ ∀ k < n, p (memRead b k) = true := by
  rw [List.all_eq_true]
  constructor
  · intro h k hk
    rw [memRead_of_lt b hk]
    exact h _ (Vector.mem_toList_iff.mpr (Vector.getElem_mem hk))
  · intro h c hc
    obtain ⟨k, hk, rfl⟩ := Vector.mem_iff_getElem.mp (Vector.mem_toList_iff.mp hc)
    rw [← memRead_of_lt b hk]
    exact h k hk

theorem romInWritten_iff (s : State) : s.romInWritten = true ↔ ∀ k < 8, memRead s.romIn k ≠ none := by
  rw [State.romInWritten, all_cells_iff]
  simp only [Option.isSome_iff_ne_none]

theorem wdataWritten_iff (s : State) : s.wdataWritten = true ↔ s.wdata.th ≠ none ∧ s.wdata.tl ≠ none ∧ s.wdata.cfg ≠ none := by
  simp [State.wdataWritten, Option.isSome_iff_ne_none, and_assoc]

/-- A request lacks an input where an unwritten cell is among those it reads (60_exceptions.md rule R355). -/
theorem inputMissing_iff (i : Instr) (s : State) : s.inputMissing i = true ↔
    (readsRomIn i = true ∧ ∃ k < 8, memRead s.romIn k = none)
      ∨ (readsWdata i = true ∧ (s.wdata.th = none ∨ s.wdata.tl = none ∨ s.wdata.cfg = none)) := by
  have rom : s.romInWritten = false ↔ ∃ k < 8, memRead s.romIn k = none := by
    rw [← Bool.not_eq_true, romInWritten_iff]
    simp
  have wdata : s.wdataWritten = false ↔ s.wdata.th = none ∨ s.wdata.tl = none ∨ s.wdata.cfg = none := by
    rw [← Bool.not_eq_true, wdataWritten_iff]
    simp only [← not_or, not_not]
  simp [State.inputMissing, rom, wdata]

theorem readsRomIn_iff (i : Instr) : readsRomIn i = true ↔
    (i = .matchRom ∨ i = .convertT .matchRom ∨ i = .writeScratchpad .matchRom ∨ i = .readScratchpad .matchRom
      ∨ i = .copyScratchpad .matchRom ∨ i = .recallEeprom .matchRom ∨ i = .readPowerSupply .matchRom) := by
  cases i <;> simp [readsRomIn]

theorem readsWdata_iff (i : Instr) : readsWdata i = true ↔ ∃ a, i = .writeScratchpad a := by
  cases i <;> simp [readsWdata]

/-- Settles O10: the two tables of inputs, and what it means that a cell among them is unwritten. -/
theorem whichInputsAreRead : Obligations.WhichInputsAreRead := by
  intro i s
  rw [inputMissing_iff, readsRomIn_iff, readsWdata_iff]

/-! ### The host's reads and writes -/

theorem hostRead_none {s : State} (h : s.fault = .none) : hostRead none s = { s with fault := .undefinedOutput, faultWord := 0 } :=
  raiseFault_of_none _ _ h

/-- The host's list of actions and its last answer. -/
def SameHost (s t : State) : Prop := t.inbox = s.inbox ∧ t.answer = s.answer

theorem sameHost_advance (d : Nat) (s : State) : SameHost s (advance d s) := by
  rcases advance_cases d s with e | ⟨t, rest, -, -, e⟩ <;> rw [e] <;> constructor <;> simp

theorem sameHost_passGap (s : State) : SameHost s (passGap s) := by
  obtain ⟨hi, ha⟩ := sameHost_advance s.gapTime { s with draws := s.draws + 1 }
  rcases passGap_shape s with e | ⟨w, rest, -, -, e⟩ <;> rw [e]
  · exact ⟨hi, ha⟩
  · exact ⟨by simpa using hi, by simpa using ha⟩

theorem Micro.exec_sameHost (m : Micro) (s : State) : SameHost s (m.exec s) := by
  cases m with
  | gap => exact sameHost_passGap s
  | delay n => exact sameHost_advance _ { s with draws := s.draws + 1 }
  | exit => rcases exitCritical_cases s with ⟨-, e⟩ | ⟨m, rest, -, e⟩ <;> constructor <;> simp [Micro.exec, e]
  | _ => constructor <;> simp [Micro.exec]

theorem requestKeeps_sameHost (s : State) : RequestKeeps (SameHost s) where
  fault f w t _ h := by simpa [SameHost] using h
  clearCopy t h := by simpa [SameHost] using h
  accept i t h := h
  bind pin t h := by unfold bindPin; split <;> exact h
  primitive m t _ h := ⟨(m.exec_sameHost t).1.trans h.1, (m.exec_sameHost t).2.trans h.2⟩
  program p t _ hp h :=
    run_keeps_of_micro (fun m t _ h => ⟨(m.exec_sameHost t).1.trans h.1, (m.exec_sameHost t).2.trans h.2⟩) hp h
  clear c t h := by cases c <;> exact h
  respond r t h := h

theorem callEngine_sameHost {w : ReqWord} {s t : State} (h : callEngine w s = .next t) : SameHost s t := by
  by_cases hd : ∃ i, decodeRequest w = .ok i
  · obtain ⟨i, hi⟩ := hd
    rw [callEngine_of_ok hi] at h
    exact (requestKeeps_sameHost s).exec (isRequest_of_decode hi) h ⟨rfl, rfl⟩
  · rw [callEngine, deliver_of_illegal (not_exists.mp hd)] at h
    cases h
    unfold rejectWord SameHost
    split
    · exact ⟨rfl, rfl⟩
    · split <;> simp

/-- While the host waits, a step takes no action of its own (20_memory.md rule R81). -/
theorem step_sameHost_of_waiting {s t : State} {a : HostAction} {rest : List HostAction} (hin : s.inbox = a :: rest)
    (ha : a.fromOutside = false) (hc : s.call = .waiting) (h : step s = .next t) : SameHost s t := by
  cases step_moves h with
  | command b _ e => rw [e]; exact ⟨rfl, rfl⟩
  | blockReset _ e => rw [e]; exact sameHost_advance 0 s
  | intruder w rest _ _ e => exact callEngine_sameHost (s := { s with intruders := rest }) e
  | host b tail _ hb hw _ =>
    rw [hin] at hb
    cases hb
    simp [hw (by simp [State.hostWaits, hc])] at ha
  | time n _ e => rw [e]; exact sameHost_advance n s
  | nothing e => rw [e]; exact ⟨rfl, rfl⟩

theorem fromOutside_eq_false {a : HostAction} (hr : ∀ w, a ≠ .request w) (hs : ∀ k, a ≠ .readStatus k) (hb : a ≠ .blockReset) :
    a.fromOutside = false := by
  cases a <;> first | rfl | exact absurd rfl (hr _) | exact absurd rfl (hs _) | exact absurd rfl hb

/-- Settles O15: the reads and writes by their definitions, and the waiting host by the moves of a step. -/
theorem hostReadsAndWritesItsCells : Obligations.HostReadsAndWritesItsCells := by
  refine ⟨fun s hf => ?reads, fun s v => ?writes, ?waits⟩
  case reads =>
    have written : ∀ {o : Option Answer} {v : Answer}, o = some v →
        (.next (hostRead o s) : Host.Outcome State Fault Refusal) = .next { s with answer := some v } := by
      rintro _ v rfl
      rfl
    have unwritten : ∀ {o : Option Answer}, o = none →
        (.next (hostRead o s) : Host.Outcome State Fault Refusal) = .next { s with fault := .undefinedOutput, faultWord := 0 } := by
      rintro _ rfl
      rw [hostRead_none hf]
    exact ⟨fun k => ⟨fun v h => written (by rw [h]; rfl), fun h => unwritten (by rw [h]; rfl)⟩,
      fun k => ⟨fun v h => written (by rw [h]; rfl), fun h => unwritten (by rw [h]; rfl)⟩,
      fun b h => written (by rw [h]; rfl), fun h => unwritten (by rw [h]; rfl),
      fun v h => written (by rw [h]; rfl), fun h => unwritten (by rw [h]; rfl)⟩
  case writes =>
    refine ⟨fun k => ⟨_, rfl, rfl, fun j => ?_⟩, rfl, rfl, rfl⟩
    by_cases hj : j = k
    · subst hj
      rw [if_pos rfl]
      exact memRead_memWrite_same _ _ _ j.isLt
    · rw [if_neg hj]
      exact memRead_memWrite_other _ _ _ _ (fun h => hj (Fin.ext h))
  case waits =>
    intro s t a rest hin hr hs hb hc h
    exact step_sameHost_of_waiting hin (fromOutside_eq_false hr hs hb) hc h

/-- Settles O16: outside a request the word in flight is 0x0000. -/
theorem hostMisuseOfCriticalSections : Obligations.HostMisuseOfCriticalSections := by
  intro s n hf hu
  have word : s.wordInFlight = 0 := by simp [State.wordInFlight, hu]
  refine ⟨fun hc => ?_, fun hc => ?_⟩
  · obtain ⟨m, rest, hm⟩ := List.exists_cons_of_ne_nil hc
    simp only [hostTurn, delayMs, hm, word, raiseFault_of_none _ _ hf]
  · simp only [hostTurn, exitCritical, hc, word, raiseFault_of_none _ _ hf]

/-! ### The shim primitives -/

/-- Settles O17: the fields that the line primitives write. -/
theorem linePrimitives : Obligations.LinePrimitives := by
  intro s
  have low : (setLineLow s).lineLevel = .low := by simp [State.lineLevel]
  simp [low]

theorem delayTime_bounds (s : State) (n : Nat) : n ≤ s.delayTime n ∧ s.delayTime n ≤ n + s.jitter := by
  cases ht : s.env.timing with
  | reference g =>
    have time : s.delayTime n = n := by rw [State.delayTime, ht]
    exact ⟨Nat.le_of_eq time.symm, Nat.le_trans (Nat.le_of_eq time) (Nat.le_add_right _ _)⟩
  | general tJit =>
    have time : s.delayTime n = n + Config.freeJitter s.draws % (tJit + 1) := by rw [State.delayTime, ht]
    have jitter : s.jitter = tJit := by rw [State.jitter, ht]
    have := Nat.mod_lt (Config.freeJitter s.draws) (show 0 < tJit + 1 by omega)
    omega

theorem sleepTime_ge (s : State) (n : Nat) : 1000 * n ≤ s.sleepTime n := by
  unfold State.sleepTime
  split <;> omega

theorem delayMs_of_noReset {s : State} (n : Nat) (hr : s.resetsAt = []) (hc : s.critStack = []) :
    delayMs n s = pass (s.now + s.sleepTime n) ({ s with draws := s.draws + 1 }.emit (.sleep n)) := by
  rw [delayMs, hc]
  exact advance_of_noReset _ hr

/-- Settles O19: a delay lasts its argument and at most the platform's excess more. -/
theorem delayBounds : Obligations.DelayBounds := by
  intro s n hr
  obtain ⟨hl, hu⟩ := delayTime_bounds s n
  have hs := sleepTime_ge s n
  refine ⟨?_, fun hc => ?_⟩
  · rw [delayUs_of_noReset n hr]
    refine ⟨?_, ?_, ?_⟩ <;> simp <;> omega
  · rw [delayMs_of_noReset n hr hc]
    refine ⟨?_, ?_⟩ <;> simp
    omega

/-- Settles O20: the wait passes its time, and nothing else is seen. -/
theorem hostWaits : Obligations.HostWaits := by
  intro s n g hr ht
  refine ⟨⟨_, rfl, ?_⟩, fun hc => ⟨_, rfl, ?_⟩⟩
  · rw [advance_of_noReset n hr]
    simp
  · have sleep : s.sleepTime n = 1000 * n := by rw [State.sleepTime, ht]
    rw [delayMs_of_noReset n hr hc, sleep]
    simp

/-! ### The temperature -/

/-- The signed number of two bytes (20_memory.md rule R74). -/
theorem rawTemperature_eq (msb lsb : Byte) : rawTemperature msb lsb = 256 * msb.toInt + lsb.toNat := by
  have hl := lsb.isLt
  have hm := msb.isLt
  have app : (msb ++ lsb : BitVec 16).toNat = 256 * msb.toNat + lsb.toNat := by
    rw [BitVec.toNat_append, ← Nat.shiftLeft_add_eq_or_of_lt lsb.isLt, Nat.shiftLeft_eq]
    omega
  rw [rawTemperature, BitVec.toInt_eq_toNat_cond, BitVec.toInt_eq_toNat_cond, app]
  split <;> split <;> push_cast <;> omega

/-- Settles O36: the two bytes as one signed number, and the fault where one of them is unwritten. -/
theorem temperatureDecoding : Obligations.TemperatureDecoding := by
  refine ⟨fun s lsb msb hl hm => ⟨?_, ?_⟩, fun s hf h => ?_⟩
  · simp only [hostTurn, temperatureAnswer, hl, hm, hostRead, rawTemperature_eq]
  · simp only [decodeTemp, hl, hm, celsius, rawTemperature_eq]
  · have none : temperatureAnswer s = none ∧ decodeTemp s.spOut = none := by
      unfold temperatureAnswer decodeTemp
      rcases h with h | h
      · simp [h]
      · rw [h]
        cases memRead s.spOut 0 <;> simp
    exact ⟨by simp only [hostTurn, none.1, hostRead_none hf], none.2⟩

/-! ### Block reset -/

theorem Device.drivesLow_eq_false {n : Nat} {d : Device} : d.drivesLow n = false ↔ d.lowSince n = none := by
  simp [Device.drivesLow]

/-- No device holds the bound line low exactly when none of its devices drives it low. -/
theorem devicesLowSince_eq_none_iff {s : State} {n : Nat} :
    s.devicesLowSince n = none ↔ ∀ d ∈ s.devices, d.pin = s.pin → d.drivesLow n = false := by
  simp [State.devicesLowSince, State.lineDevices, List.filterMap_eq_nil_iff, Device.drivesLow_eq_false]

/-- Settles O38: the fields of a state after a block reset, and those of the power-on state. -/
theorem blockResetValues : Obligations.BlockResetValues := by
  refine ⟨fun s => ⟨_, rfl, ?_⟩, fun env devices => ⟨_, rfl, ?_⟩, rfl⟩
  · have held : (∃ d ∈ s.devices, d.pin = s.pin ∧ d.drivesLow s.now = true) → s.devicesLowSince s.now ≠ none := by
      rintro ⟨d, hd, hp, hl⟩ h
      simp [devicesLowSince_eq_none_iff.mp h d hd hp] at hl
    refine ⟨rfl, rfl, rfl, rfl, rfl, rfl, rfl, rfl, rfl, rfl, rfl, rfl, rfl, rfl, rfl, rfl, by simp, rfl, rfl, rfl, rfl, rfl, rfl,
      fun h => if_neg (held h), fun h => if_pos (devicesLowSince_eq_none_iff.mpr h), rfl, rfl⟩
  · refine ⟨rfl, rfl, rfl, rfl, rfl, rfl, rfl, rfl, rfl, rfl, rfl, rfl, rfl, rfl, rfl, rfl, rfl, fun k => ?_, rfl, rfl, rfl, rfl, rfl,
      rfl, rfl, rfl⟩
    simp [State.powerOn]

/-- A request that its prologue does not accept is its prologue. -/
theorem exec_of_not_running {i : Instr} (hi : i.isRequest = true) {s : State} (h : (prologue i s).running = false) :
    exec i s = .next (prologue i s) := by
  obtain ⟨body, hb⟩ := exec_eq_request hi
  rw [hb, request_of_not_running body h]

/-- Settles O39: the prologue's check of the binding comes first. -/
theorem firstRequestMustBeInit : Obligations.FirstRequestMustBeInit := by
  refine ⟨fun i s hi hn hb hf hbusy => ?_, fun s t h => by cases h; exact ⟨rfl, rfl, rfl⟩, fun _ _ => ⟨rfl, rfl, rfl⟩⟩
  have hp := prologue_of_notBound hf hbusy (needsBinding_iff.mpr hn) hb
  have rejected : (prologue i s).running = false := by rw [hp]; exact running_raiseFault (by decide) _ s
  rw [exec_of_not_running hi rejected, hp, raiseFault_of_none _ _ hf]

/-- Settles O46: the three activities of a device. -/
theorem activityCompletes : Obligations.ActivityCompletes := by
  intro x n m raw
  refine ⟨fun h => ?_, fun h => ?_, fun h => ?_⟩ <;> simp only [Ds18b20.settle, h]

theorem pendingCommand?_eq_none {s : State} : s.pendingCommand? = none ↔ ∀ d ∈ s.devices, d.command? = none :=
  List.findSome?_eq_none_iff

/-- Settles O57: the fields of the power-on state. -/
theorem invariantHoldsAtReset : Obligations.InvariantHoldsAtReset := by
  have powerOn : ∀ (env : Env) (devices : List Device), (∀ d ∈ devices, d.command? = none) → Inv (State.powerOn env devices) :=
    fun env devices h =>
      { traceInOrder := rfl
        busyMatchesUpc := by simp [BusyMatchesUpc, State.powerOn]
        upcBounded := Nat.zero_le _
        countersInRange := ⟨Nat.zero_le _, Nat.zero_le _⟩
        lowPeriodTracked := nofun
        lowPeriodHeld := nofun
        lowPeriodBegun := nofun
        atRest := rfl
        noPendingCommand := pendingCommand?_eq_none.mpr h
        callerWaits := ⟨fun h => h.elim nofun nofun, nofun⟩
        viewedInPast := nofun }
  exact ⟨powerOn, powerOn _ _ (by simp)⟩

end Sys2Proof.Machine
end

section
/-! PROOFS. A request that is accepted: its response, in every timing (30_encoding.md rule R105), its duration, and the line as it
leaves it. -/

namespace Sys2Proof.Machine

/-! ### The state in which an accepted request runs -/

section
variable {i : Instr} {s : State}

theorem Ready.undisturbed (h : Ready i s) : Undisturbed s := h.2.2.2.2.2

theorem Ready.running_accept (h : Ready i s) : (accept i (clearCopy s)).running = true := Machine.running_accept h.1

theorem Ready.undisturbed_accept (h : Ready i s) : Undisturbed (accept i (clearCopy s)) := Machine.undisturbed_accept h.undisturbed

theorem Ready.fault_of_running {t : State} (h : t.running = true) : t.fault = .none := ((running_iff t).mp h).2

/-- What a request sends does not change as it is accepted. -/
theorem frameProgram_accept (i j : Instr) (s : State) : frameProgram i (accept j (clearCopy s)) = frameProgram i s := by
  have rom : (accept j (clearCopy s)).romInBytes = s.romInBytes := by simp [State.romInBytes]
  have wdata : (accept j (clearCopy s)).wdataBytes = s.wdataBytes := by simp [State.wdataBytes]
  cases i <;> simp only [frameProgram, sendProgram, rom, wdata]

/-! ### What an accepted request does -/

/-- INIT with an accepted pin binds it and releases the line. -/
theorem exec_init_of_ready {pin : Pin} (h : Ready (.init pin) s) (hp : s.validPin pin = true) :
    exec (.init pin) s = .next (respond { status := .ok, outputs := .none }
      (Micro.release.exec (bindPin pin (accept (.init pin) (clearCopy s))))) := by
  have valid : (accept (.init pin) (clearCopy s)).validPin pin = true := by simpa [State.validPin] using hp
  rw [exec_init, request_of_ready _ h, initBody, if_pos valid]

theorem exec_driveLow_of_ready (h : Ready .driveLow s) :
    exec .driveLow s = .next (respond { status := .ok, outputs := .none } (Micro.setLow.exec (accept .driveLow (clearCopy s)))) := by
  rw [exec_driveLow, request_of_ready _ h, primitiveBody]

theorem exec_release_of_ready (h : Ready .release s) :
    exec .release s = .next (respond { status := .ok, outputs := .none } (Micro.release.exec (accept .release (clearCopy s)))) := by
  rw [exec_release, request_of_ready _ h, primitiveBody]

/-- The state at the end of the program of an accepted Bus Driver request. -/
def afterBus (i : Instr) (s : State) : State := run (busProgram i) (accept i (clearCopy s))

theorem running_afterBus (h : Ready i s) : (afterBus i s).running = true :=
  run_running h.undisturbed_accept h.running_accept (nested_busProgram i)

theorem exec_bus_of_ready (hb : isBusProgram i = true) (h : Ready i s) :
    exec i s = .next (respond { status := busStatus i (afterBus i s), outputs := responseOutputs i (afterBus i s) } (afterBus i s)) := by
  rw [exec_busProgram hb, request_of_ready _ h, busBody, whileRunning]
  exact congrArg _ (if_pos (running_afterBus h))

theorem running_afterReset (h : Ready i s) : (afterReset i s).running = true :=
  run_running h.undisturbed_accept h.running_accept nested_resetProgram

theorem undisturbed_afterReset (h : Ready i s) : Undisturbed (afterReset i s) := run_undisturbed _ h.undisturbed_accept

/-- The state at the end of the frame of a Device Protocol operation that found presence. -/
def afterFrame (i : Instr) (s : State) : State := run (frameProgram i s) (afterReset i s)

theorem running_afterFrame (h : Ready i s) : (afterFrame i s).running = true :=
  run_running (undisturbed_afterReset h) (running_afterReset h) (nested_frameProgram i s)

/-- The level that the reset samples decides the presence gate (42_rom_commands.md rule R230). -/
theorem exec_frame_of_ready (hd : isDeviceProtocol i = true) (h : Ready i s) :
    exec i s = .next (if (afterReset i s).pres.getD false then answerWith .ok (cellsOf i) (afterFrame i s)
      else answerWith .noPresence (cellsOf i) (clearOutputs (cellsOf i) (afterReset i s))) := by
  rw [exec_deviceProtocol hd, request_of_ready _ h, frameBody, whileRunning]
  refine congrArg _ ((if_pos (running_afterReset h)).trans ?_)
  rw [presenceGate, frameProgram_accept]
  change (if (afterReset i s).pres.getD false = true then whileRunning _ (afterFrame i s) else _) = _
  by_cases hp : (afterReset i s).pres.getD false = true
  · rw [if_pos hp, if_pos hp]
    exact if_pos (running_afterFrame h)
  · rw [if_neg hp, if_neg hp]
    rfl

theorem responseOutputs_frame (hd : isDeviceProtocol i = true) (t : State) : responseOutputs i t = outputsOf (cellsOf i) t := by
  cases i <;> first | rfl | cases hd

end

@[simp] theorem outputsOf_respond (c : OutCells) (r : Response) (s : State) : outputsOf c (respond r s) = outputsOf c s := by
  cases c <;> rfl

@[simp] theorem responseOutputs_respond (i : Instr) (r : Response) (s : State) :
    responseOutputs i (respond r s) = responseOutputs i s := by
  cases i <;> rfl

/-- Any state that comes after `s` and has no fault can respond to a request of `s`. -/
theorem respondedWith_of_onward {s t : State} (r : Response) (hf : t.fault = .none) (h : Onward s t) :
    RespondedWith r s (respond r t) := by
  obtain ⟨-, -, hn, -⟩ := h
  exact ⟨hf, rfl, rfl, rfl, rfl, hn, rfl⟩

/-! ### The line after a program -/

/-- The last thing a program does to the engine's drive, if it does anything. -/
def driveOf : List Micro → Option Drive
  | [] => none
  | .setLow :: p => (driveOf p).or (some .drivenLow)
  | .release :: p => (driveOf p).or (some .released)
  | _ :: p => driveOf p

theorem driveOf_append (p q : List Micro) : driveOf (p ++ q) = (driveOf q).or (driveOf p) := by
  induction p with
  | nil => simp [driveOf]
  | cons m p ih => cases m <;> simp [driveOf, ih]

/-- The program does not end with the line driven low by the engine, where it is not so at the beginning. -/
def NeverLeftLow (p : List Micro) : Prop := driveOf p ≠ some .drivenLow

theorem NeverLeftLow.append {p q : List Micro} (hp : NeverLeftLow p) (hq : NeverLeftLow q) : NeverLeftLow (p ++ q) := by
  unfold NeverLeftLow at *
  rw [driveOf_append]
  cases h : driveOf q with
  | none => simpa using hp
  | some d => simpa [h] using hq

theorem NeverLeftLow.flatMap {α : Type} {f : α → List Micro} (h : ∀ a, NeverLeftLow (f a)) :
    ∀ l : List α, NeverLeftLow (l.flatMap f)
  | [] => nofun
  | a :: l => by
    rw [List.flatMap_cons]
    exact (h a).append (NeverLeftLow.flatMap h l)

@[simp] theorem driveOf_writeSlot (b : Bool) : driveOf (writeSlot b) = some .released := by cases b <;> rfl

theorem neverLeftLow_writeByteProgram (v : Byte) : NeverLeftLow (writeByteProgram v) := by
  rw [writeByteProgram]
  refine NeverLeftLow.append (p := [.loadByte v]) nofun (NeverLeftLow.flatMap (fun k => ?_) _)
  exact NeverLeftLow.append (by simp [NeverLeftLow]) nofun

theorem neverLeftLow_readByteProgram : NeverLeftLow readByteProgram := by
  have slot : ∀ k, driveOf (readSlot ++ [.collect k]) = some .released := fun _ => rfl
  exact NeverLeftLow.append (p := [.loadByte 0]) nofun (NeverLeftLow.flatMap (fun k => by simp [NeverLeftLow, slot]) _)

theorem neverLeftLow_addressProgram (rom : List Byte) (a : Addressing) : NeverLeftLow (addressProgram rom a) := by
  cases a
  · exact neverLeftLow_writeByteProgram _
  · exact (neverLeftLow_writeByteProgram _).append (NeverLeftLow.flatMap neverLeftLow_writeByteProgram _)

theorem neverLeftLow_sendBytes (vs : List Byte) : ∀ k, NeverLeftLow (sendBytes k vs) := by
  induction vs with
  | nil => exact fun _ => nofun
  | cons v vs ih =>
    exact fun k => NeverLeftLow.append (p := .byteIndex k :: writeByteProgram v) (neverLeftLow_writeByteProgram v) (ih (k + 1))

theorem neverLeftLow_receive (store : Nat → Micro) (hs : ∀ k, NeverLeftLow [store k]) (l : List Nat) :
    NeverLeftLow (l.flatMap (fun k => .byteIndex k :: readByteProgram ++ [store k])) :=
  NeverLeftLow.flatMap
    (fun k => NeverLeftLow.append (p := .byteIndex k :: readByteProgram) neverLeftLow_readByteProgram (hs k)) l

theorem neverLeftLow_frameProgram (i : Instr) (s : State) : NeverLeftLow (frameProgram i s) := by
  have send : NeverLeftLow (sendProgram s i) := by
    cases i with
    | matchRom => exact (neverLeftLow_writeByteProgram _).append (neverLeftLow_sendBytes _ _)
    | writeScratchpad a =>
      exact ((neverLeftLow_addressProgram _ a).append (neverLeftLow_writeByteProgram _)).append (neverLeftLow_sendBytes _ _)
    | convertT a | readScratchpad a | copyScratchpad a | recallEeprom a | readPowerSupply a =>
      exact (neverLeftLow_addressProgram _ a).append (neverLeftLow_writeByteProgram _)
    | readRom | skipRom | alarmSearch | searchRom => exact neverLeftLow_writeByteProgram _
    | _ => exact nofun
  refine send.append ?_
  cases i with
  | readRom => exact neverLeftLow_receive .storeRom (fun _ => nofun) _
  | readScratchpad a => exact neverLeftLow_receive .storeSp (fun _ => nofun) _
  | _ => exact nofun

theorem driveOf_busProgram {i : Instr} (h : isBusProgram i = true) : driveOf (busProgram i) = some .released := by
  cases i with
  | writeBit b => exact driveOf_writeSlot b
  | writeByte v =>
    have last : (List.range 8).flatMap (fun k => writeSlot (sentBit v k) ++ [.bitSent k])
        = (List.range 7).flatMap (fun k => writeSlot (sentBit v k) ++ [.bitSent k]) ++ (writeSlot (sentBit v 7) ++ [.bitSent 7]) := by
      rw [List.range_succ, List.flatMap_append, List.flatMap_singleton]
    rw [busProgram, writeByteProgram, last, ← List.cons_append, driveOf_append, driveOf_append]
    simp [driveOf]
  | resetPulse | readBit | readByte => rfl
  | _ => cases h

theorem Micro.exec_drive (m : Micro) {s : State} (h : s.resetsAt = []) :
    (m.exec s).drive = (driveOf [m]).getD s.drive := by
  cases m with
  | gap => rcases passGap_cases h with e | ⟨w, rest, e⟩ <;> simp [Micro.exec, e, driveOf]
  | exit => rcases exitCritical_cases s with ⟨-, e⟩ | ⟨m, rest, -, e⟩ <;> simp [Micro.exec, e, driveOf]
  | delay n => simp [Micro.exec, delayUs_of_noReset _ h, driveOf]
  | _ => simp [Micro.exec, driveOf]

theorem foldl_drive (p : List Micro) : ∀ d : Drive, p.foldl (fun d m => (driveOf [m]).getD d) d = (driveOf p).getD d := by
  induction p with
  | nil => exact fun _ => rfl
  | cons m p ih =>
    intro d
    rw [List.foldl_cons, ih, show m :: p = [m] ++ p from rfl, driveOf_append]
    cases driveOf p <;> simp

/-- The engine's drive after a nested program that nothing disturbs. -/
theorem run_drive {p : List Micro} {s : State} (hu : Undisturbed s) (hr : s.running = true) (hn : nested false p = true) :
    (run p s).drive = (driveOf p).getD s.drive := by
  have e := (run_follows s.env State.drive (fun m d => (driveOf [m]).getD d) (fun m _ _ hu _ _ => m.exec_drive hu.1)
    p false s rfl hu hr hn (by simp)).2
  rw [e, foldl_drive]

section
variable {i : Instr} {s : State}

theorem drive_afterBus (hb : isBusProgram i = true) (h : Ready i s) : (afterBus i s).drive = .released := by
  rw [afterBus, run_drive h.undisturbed_accept h.running_accept (nested_busProgram i), driveOf_busProgram hb]
  rfl

theorem drive_afterReset (h : Ready i s) : (afterReset i s).drive = .released := by
  rw [afterReset, run_drive h.undisturbed_accept h.running_accept nested_resetProgram]
  rfl

theorem drive_afterFrame (h : Ready i s) : (afterFrame i s).drive = .released := by
  rw [afterFrame, run_drive (undisturbed_afterReset h) (running_afterReset h) (nested_frameProgram i s), drive_afterReset h]
  have := neverLeftLow_frameProgram i s
  unfold NeverLeftLow at this
  cases hd : driveOf (frameProgram i s) with
  | none => rfl
  | some d => cases d <;> simp_all

/-! ### The interrupt mask -/

/-- The mask and its stack (10_state.md rule R42). -/
def SameMask (s t : State) : Prop := t.critStack = s.critStack ∧ t.irqMasked = s.irqMasked

theorem sameMask_run {p : List Micro} {t : State} (hs : SameMask s t) (hr : t.resetsAt = []) (hn : nested false p = true) :
    SameMask s (run p t) := by
  obtain ⟨hc, hm⟩ := run_restores_mask hr hn
  exact ⟨hc.trans hs.1, hm.trans hs.2⟩

theorem sameMask_accept (i : Instr) (s : State) : SameMask s (accept i (clearCopy s)) := by simp [SameMask]

theorem sameMask_afterBus (h : Ready i s) : SameMask s (afterBus i s) :=
  sameMask_run (sameMask_accept i s) h.undisturbed_accept.1 (nested_busProgram i)

theorem sameMask_afterReset (h : Ready i s) : SameMask s (afterReset i s) :=
  sameMask_run (sameMask_accept i s) h.undisturbed_accept.1 nested_resetProgram

theorem sameMask_afterFrame (h : Ready i s) : SameMask s (afterFrame i s) :=
  sameMask_run (sameMask_afterReset h) (undisturbed_afterReset h).1 (nested_frameProgram i s)

/-! ### The clock only goes on -/

theorem onward_accept (i : Instr) (s : State) : Onward s (accept i (clearCopy s)) :=
  (requestKeeps_onward s).accept i _ ((requestKeeps_onward s).clearCopy s (.refl s))

theorem onward_run {p : List Micro} {t : State} (h : Onward s t) : Onward s (run p t) :=
  run_keeps (Onward s) (fun m _ u k => k.trans (m.exec_onward u)) t h

theorem onward_afterBus : Onward s (afterBus i s) := onward_run (onward_accept i s)
theorem onward_afterReset : Onward s (afterReset i s) := onward_run (onward_accept i s)
theorem onward_afterFrame : Onward s (afterFrame i s) := onward_run onward_afterReset

end

/-! ### Output cells that a program writes -/

/-- What one micro-operation of a program achieves and all of them keep holds at the program's end, where it runs to its end. -/
theorem run_achieves {P : State → Prop} {p : List Micro} {m : Micro} (hm : m ∈ p) (achieve : ∀ s, P (m.exec s))
    (keep : ∀ m ∈ p, ∀ s, s.resetsAt = [] → P s → P (m.exec s)) {s : State} (hu : s.resetsAt = [])
    (hr : (run p s).running = true) : P (run p s) := by
  obtain ⟨q, r, rfl⟩ := List.append_of_mem hm
  rw [run_append] at hr ⊢
  have hq : (run q s).running = true := by
    by_contra h
    rw [run_of_not_running _ (by simpa using h)] at hr
    exact h hr
  rw [run_cons_running _ _ hq]
  have noReset : ∀ (m : Micro) {s : State}, s.resetsAt = [] → (m.exec s).resetsAt = [] := fun m _ h =>
    (m.exec_kept h).resetsAt.trans h
  have hu' : (run q s).resetsAt = [] := (run_kept q hu).resetsAt.trans hu
  refine (run_keeps (fun s => s.resetsAt = [] ∧ P s) (fun m hm s h => ⟨noReset m h.1, keep m ?_ s h.1 h.2⟩) _
    ⟨noReset m hu', achieve _⟩).2
  simp [hm]

theorem memRead_memWrite_ne_none {n : Nat} (b : Buffer n) (k j : Nat) (v : Byte) (h : memRead b j ≠ none) :
    memRead (memWrite b k v) j ≠ none := by
  by_cases hj : j = k
  · subst hj
    by_cases hn : j < n
    · simp [hn]
    · simp [memRead, hn] at h
  · rwa [memRead_memWrite_other _ _ _ _ hj]

theorem mem_receive (store : Nat → Micro) {n k : Nat} (hk : k < n) :
    store k ∈ (List.range n).flatMap (fun k => .byteIndex k :: readByteProgram ++ [store k]) :=
  List.mem_flatMap.mpr ⟨k, List.mem_range.mpr hk, by simp⟩

/-- Where no micro-operation of a kind is used, the cells stay; written in a form to be used for one micro-operation. -/
theorem Micro.exec_romOut_written (m : Micro) {k : Nat} {s : State} (hr : s.resetsAt = []) (h : memRead s.romOut k ≠ none) :
    memRead (m.exec s).romOut k ≠ none := by
  by_cases hm : ∃ j, m = .storeRom j
  · obtain ⟨j, rfl⟩ := hm
    exact memRead_memWrite_ne_none _ _ _ _ h
  · rwa [(m.exec_cells hr).romOut (fun j hj => hm ⟨j, (List.mem_singleton.mp hj).symm⟩)]

theorem Micro.exec_spOut_written (m : Micro) {k : Nat} {s : State} (hr : s.resetsAt = []) (h : memRead s.spOut k ≠ none) :
    memRead (m.exec s).spOut k ≠ none := by
  by_cases hm : ∃ j, m = .storeSp j
  · obtain ⟨j, rfl⟩ := hm
    exact memRead_memWrite_ne_none _ _ _ _ h
  · rwa [(m.exec_cells hr).spOut (fun j hj => hm ⟨j, (List.mem_singleton.mp hj).symm⟩)]

/-- Every output cell of a Device Protocol operation is written at the end of its frame (10_state.md rule R44). -/
theorem written_afterFrame {i : Instr} {s : State} (h : Ready i s) : (outputsOf (cellsOf i) (afterFrame i s)).written = true := by
  have hu := (undisturbed_afterReset h).1
  have hr := running_afterFrame h
  cases i with
  | readRom =>
    refine (all_cells_iff _ _).mpr fun k hk => Option.isSome_iff_ne_none.mpr ?_
    exact run_achieves (P := fun t => memRead t.romOut k ≠ none) (m := .storeRom k)
      (List.mem_append_right _ (mem_receive .storeRom hk)) (fun s => by simp [Micro.exec, hk])
      (fun m _ s hr h => m.exec_romOut_written hr h) hu hr
  | readScratchpad a =>
    refine (all_cells_iff _ _).mpr fun k hk => Option.isSome_iff_ne_none.mpr ?_
    exact run_achieves (P := fun t => memRead t.spOut k ≠ none) (m := .storeSp k)
      (List.mem_append_right _ (mem_receive .storeSp hk)) (fun s => by simp [Micro.exec, hk])
      (fun m _ s hr h => m.exec_spOut_written hr h) hu hr
  | readPowerSupply a =>
    have split : afterFrame (.readPowerSupply a) s
        = run [.storeBit] (run (sendProgram s (.readPowerSupply a) ++ readSlot) (afterReset (.readPowerSupply a) s)) := by
      rw [← run_append, List.append_assoc]
      rfl
    have before : (run (sendProgram s (.readPowerSupply a) ++ readSlot) (afterReset (.readPowerSupply a) s)).running = true :=
      run_running (undisturbed_afterReset h) (running_afterReset h) (nested_append nested_readSlot _ (nested_sendProgram s _))
    rw [split, run_cons_running _ _ before]
    rfl
  | _ => rfl

end Sys2Proof.Machine
end

section
/-! PROOFS. Every accepted request: its response and its duration, the Bus Driver requests that pass no time, and the number of shim
primitives (70_reset_and_hazards.md rules R420, R421). -/

namespace Sys2Proof.Machine

/-! ### The response of every accepted request -/

theorem bitOut_afterBus_resetPulse {s : State} (h : Ready .resetPulse s) :
    ∃ p, (afterReset .resetPulse s).pres = some p ∧ (afterBus .resetPulse s).bitOut = some p := by
  obtain ⟨l, -, hp⟩ := pres_afterReset h
  have store : afterBus .resetPulse s = Micro.exec .storePresence (afterReset .resetPulse s) := by
    rw [afterBus, busProgram, run_append]
    exact run_cons_running _ _ (running_afterReset h)
  exact ⟨presenceOfLevel l, hp, by rw [store]; exact hp⟩

/-- Every output cell of a Bus Driver request is written at its response (10_state.md rule R44). -/
theorem written_afterBus {i : Instr} {s : State} (hb : isBusProgram i = true) (h : Ready i s) :
    (responseOutputs i (afterBus i s)).written = true := by
  have ends : ∀ {p : List Micro} {m : Micro}, busProgram i = p ++ [m] → nested false p = true →
      afterBus i s = m.exec (run p (accept i (clearCopy s))) := by
    intro p m e hn
    rw [afterBus, e, run_append]
    exact run_cons_running _ _ (run_running h.undisturbed_accept h.running_accept hn)
  cases i with
  | resetPulse =>
    obtain ⟨p, -, hp⟩ := bitOut_afterBus_resetPulse h
    simp [responseOutputs, Outputs.written, hp]
  | readBit =>
    rw [ends rfl nested_readSlot]
    rfl
  | readByte =>
    have shift : (run readByteProgram (accept .readByte (clearCopy s))).shift.isSome = true :=
      run_achieves (P := fun t => t.shift.isSome = true) (m := .loadByte 0) (List.mem_cons_self ..) (fun _ => rfl)
        (fun m _ t hr ht => by
          cases m with
          | gap => rcases passGap_cases hr with e | ⟨w, rest, e⟩ <;> simpa [Micro.exec, e] using ht
          | exit => rcases exitCritical_cases t with ⟨-, e⟩ | ⟨m, rest, -, e⟩ <;> simpa [Micro.exec, e] using ht
          | delay n => simpa [Micro.exec, delayUs_of_noReset _ hr] using ht
          | loadByte | collect => rfl
          | _ => simpa [Micro.exec] using ht)
        h.undisturbed_accept.1 (run_running h.undisturbed_accept h.running_accept nested_readByteProgram)
    rw [ends rfl nested_readByteProgram]
    exact shift
  | writeBit | writeByte => rfl
  | _ => cases hb

theorem unwritten_replicate (n : Nat) : (unwritten n).toList.all Option.isNone = true := by
  simp [unwritten]

/-- The outputs of an operation that found no presence are unwritten (42_rom_commands.md rule R230). -/
theorem outputsOf_clearOutputs_unwritten (c : OutCells) (s : State) : (outputsOf c (clearOutputs c s)).unwritten = true := by
  cases c with
  | none | bit => rfl
  | rom | scratchpad => exact unwritten_replicate _

theorem clearOutputs_drive (c : OutCells) (s : State) : (clearOutputs c s).drive = s.drive := by cases c <;> rfl
theorem clearOutputs_now (c : OutCells) (s : State) : (clearOutputs c s).now = s.now := by cases c <;> rfl
theorem clearOutputs_trace (c : OutCells) (s : State) : (clearOutputs c s).trace = s.trace := by cases c <;> rfl
theorem clearOutputs_sameMask (c : OutCells) {s t : State} (h : SameMask s t) : SameMask s (clearOutputs c t) := by
  cases c <;> exact h

theorem onward_clearOutputs (c : OutCells) {s t : State} (h : Onward s t) : Onward s (clearOutputs c t) :=
  (requestKeeps_onward s).clear c t h

@[simp] theorem bindPin_critStack (pin : Pin) (s : State) : (bindPin pin s).critStack = s.critStack := by
  unfold bindPin; split <;> rfl
@[simp] theorem bindPin_irqMasked (pin : Pin) (s : State) : (bindPin pin s).irqMasked = s.irqMasked := by
  unfold bindPin; split <;> rfl
@[simp] theorem bindPin_now (pin : Pin) (s : State) : (bindPin pin s).now = s.now := by unfold bindPin; split <;> rfl
@[simp] theorem bindPin_trace (pin : Pin) (s : State) : (bindPin pin s).trace = s.trace := by unfold bindPin; split <;> rfl
@[simp] theorem bindPin_bound (pin : Pin) (s : State) : (bindPin pin s).bound = true := by unfold bindPin; split <;> rfl
@[simp] theorem bindPin_pin (pin : Pin) (s : State) : (bindPin pin s).pin = pin := by
  unfold bindPin
  split
  · next h => exact h
  · rfl
@[simp] theorem bindPin_copyUntil (pin : Pin) (s : State) : (bindPin pin s).copyUntil = s.copyUntil := by
  unfold bindPin; split <;> rfl

/-- Settles O21: by the shape of the request; a program's end has its cells written, and a missing presence leaves them unwritten. -/
theorem everyAcceptedRequestResponds : Obligations.EveryAcceptedRequestResponds := by
  rintro i s hi ⟨h, hpin⟩
  cases requestShape hi with
  | init pin =>
    refine ⟨_, .ok, exec_init_of_ready h (hpin pin rfl), respondedWith_of_onward _ (by simp [Micro.exec, h.1]) ?_, by simp [Micro.exec],
      by simp [Micro.exec], by simp [Micro.exec], fun _ => rfl, nofun⟩
    exact ((onward_accept _ s).trans (onward_bindPin pin _)).trans (Micro.exec_onward _ _)
  | driveLow =>
    exact ⟨_, .ok, exec_driveLow_of_ready h,
      respondedWith_of_onward _ (by simp [Micro.exec, h.1]) ((onward_accept _ s).trans (Micro.exec_onward _ _)), by simp [Micro.exec],
      by simp [Micro.exec], by simp [Micro.exec], fun _ => rfl, nofun⟩
  | release =>
    exact ⟨_, .ok, exec_release_of_ready h,
      respondedWith_of_onward _ (by simp [Micro.exec, h.1]) ((onward_accept _ s).trans (Micro.exec_onward _ _)), by simp [Micro.exec],
      by simp [Micro.exec], by simp [Micro.exec], fun _ => rfl, nofun⟩
  | bus hb =>
    obtain ⟨hc, hm⟩ := sameMask_afterBus h
    refine ⟨_, busStatus i (afterBus i s), exec_bus_of_ready hb h, ?_, ?_, hc, hm, fun _ => ?_, fun hn => .inl ?_⟩
    · simpa using respondedWith_of_onward _ (Ready.fault_of_running (running_afterBus h)) onward_afterBus
    · rw [if_neg (by rintro rfl; cases hb)]
      exact drive_afterBus hb h
    · simpa using written_afterBus hb h
    · cases i with
      | resetPulse =>
        obtain ⟨p, -, hp⟩ := bitOut_afterBus_resetPulse h
        cases p with
        | false => exact ⟨rfl, hp⟩
        | true => simp [busStatus, hp, presenceStatus] at hn
      | _ => cases hn
  | frame hd =>
    have low : i ≠ .driveLow := by rintro rfl; cases hd
    rw [if_neg low]
    simp only [responseOutputs_frame hd]
    by_cases hp : (afterReset i s).pres.getD false = true
    · obtain ⟨hc, hm⟩ := sameMask_afterFrame h
      refine ⟨_, .ok, (exec_frame_of_ready hd h).trans (congrArg _ (if_pos hp)), ?_, drive_afterFrame h, hc, hm, fun _ => ?_, nofun⟩
      · simpa using respondedWith_of_onward _ (Ready.fault_of_running (running_afterFrame h)) onward_afterFrame
      · simpa using written_afterFrame h
    · obtain ⟨hc, hm⟩ := clearOutputs_sameMask (cellsOf i) (sameMask_afterReset h)
      refine ⟨_, .noPresence, (exec_frame_of_ready hd h).trans (congrArg _ (if_neg hp)), ?_, ?_, hc, hm, nofun, fun _ => .inr ⟨hd, ?_⟩⟩
      · simpa using respondedWith_of_onward _
          ((clearOutputs_fault _ _).trans (Ready.fault_of_running (running_afterReset h))) (onward_clearOutputs _ onward_afterReset)
      · exact (clearOutputs_drive _ _).trans (drive_afterReset h)
      · simpa using outputsOf_clearOutputs_unwritten _ _

/-! ### Durations (70_reset_and_hazards.md rule R420) -/

theorem duration_busProgram {i : Instr} (hb : isBusProgram i = true) (g : Nat) :
    duration g (busProgram i) = referenceDuration i + gapCount i * g := by
  cases i <;> cases hb <;> simp [busProgram, referenceDuration, gapCount, Micro.time] <;> omega

theorem duration_frameProgram {i : Instr} (hd : isDeviceProtocol i = true) (g : Nat) (s : State) :
    (g + 960) + duration g (frameProgram i s) = referenceDuration i + gapCount i * g := by
  cases i with
  | convertT a | writeScratchpad a | readScratchpad a | copyScratchpad a | recallEeprom a | readPowerSupply a =>
    cases a <;> simp [frameProgram, sendProgram, dataProgram, referenceDuration, gapCount, Micro.time] <;> omega
  | readRom | matchRom | skipRom | alarmSearch | searchRom =>
    simp [frameProgram, sendProgram, dataProgram, referenceDuration, gapCount]
    omega
  | _ => cases hd

section
variable {i : Instr} {s : State} {g : Nat} (h : Ready i s) (ht : ReferenceTiming g s)
include h ht

theorem live_afterReset : Live g (afterReset i s) := (live_accept h ht).run nested_resetProgram

theorem now_afterReset : (afterReset i s).now = s.now + g + 960 := by
  have e := run_now (live_accept h ht).timing h.undisturbed_accept h.running_accept nested_resetProgram
  rw [afterReset, e, duration_resetProgram, ← Nat.add_assoc]
  simp

theorem now_afterBus (hb : isBusProgram i = true) : (afterBus i s).now = s.now + referenceDuration i + gapCount i * g := by
  have e := run_now (live_accept h ht).timing h.undisturbed_accept h.running_accept (nested_busProgram i)
  rw [afterBus, e, duration_busProgram hb, ← Nat.add_assoc]
  simp

theorem now_afterFrame (hd : isDeviceProtocol i = true) : (afterFrame i s).now = s.now + referenceDuration i + gapCount i * g := by
  have l := live_afterReset h ht
  have e := run_now l.timing l.undisturbed l.running (nested_frameProgram i s)
  have := duration_frameProgram hd g s
  rw [afterFrame, e, now_afterReset h ht]
  omega

end

/-- Settles O24: the duration of the request's programs. -/
theorem requestDurations : Obligations.RequestDurations := by
  rintro i s g hi ⟨h, hpin⟩ ht
  cases requestShape hi with
  | init pin => exact ⟨_, .ok, exec_init_of_ready h (hpin pin rfl), rfl, by simp [Micro.exec, referenceDuration, gapCount]⟩
  | driveLow => exact ⟨_, .ok, exec_driveLow_of_ready h, rfl, by simp [Micro.exec, referenceDuration, gapCount]⟩
  | release => exact ⟨_, .ok, exec_release_of_ready h, rfl, by simp [Micro.exec, referenceDuration, gapCount]⟩
  | bus hb =>
    refine ⟨_, busStatus i (afterBus i s), exec_bus_of_ready hb h, rfl, ?_⟩
    rw [respond_now, now_afterBus h ht hb]
    split
    · next hn =>
      have : i = .resetPulse := by cases i <;> first | rfl | cases hn
      subst this
      simp [referenceDuration, gapCount]
    · rfl
  | frame hd =>
    by_cases hp : (afterReset i s).pres.getD false = true
    · exact ⟨_, .ok, (exec_frame_of_ready hd h).trans (congrArg _ (if_pos hp)), rfl, now_afterFrame h ht hd⟩
    · refine ⟨_, .noPresence, (exec_frame_of_ready hd h).trans (congrArg _ (if_neg hp)), rfl, ?_⟩
      rw [if_pos rfl, answerWith_eq, respond_now, clearOutputs_now, now_afterReset h ht]
      omega

/-! ### Requests that pass no time -/

/-- Settles O26: INIT binds, releases, and responds. -/
theorem initBindsThePin : Obligations.InitBindsThePin := by
  intro pin s h hp
  refine ⟨_, exec_init_of_ready h hp, by simp [Micro.exec], by simp [Micro.exec], by simp [Micro.exec], by simp [Micro.exec], ?_,
    by simp [Micro.exec], fun hc => by simp [Micro.exec, hc]⟩
  exact respondedWith_of_onward _ (by simp [Micro.exec, h.1])
    (((onward_accept _ s).trans (onward_bindPin pin _)).trans (Micro.exec_onward _ _))

/-- Settles O27: one shim primitive and the response. -/
theorem driveLowAndRelease : Obligations.DriveLowAndRelease := by
  have low : requestWord .driveLow = 0x0200 := rfl
  have rel : requestWord .release = 0x0300 := rfl
  refine ⟨fun s h => ⟨_, exec_driveLow_of_ready h, by simp [Micro.exec], by simp [Micro.exec], ?_, by simp [Micro.exec, low]⟩,
    fun s h => ⟨_, exec_release_of_ready h, by simp [Micro.exec], by simp [Micro.exec], ?_, by simp [Micro.exec, rel]⟩⟩ <;>
  exact respondedWith_of_onward _ (by simp [Micro.exec, h.1]) ((onward_accept _ s).trans (Micro.exec_onward _ _))

/-! ### Numbers of shim primitives (70_reset_and_hazards.md rule R421) -/

/-- The 1 bits of a byte are those that are not its 0 bits. -/
theorem ones_eq (v : Byte) : ones v + (List.range 8).countP (fun k => !v.getLsbD k) = 8 := by
  have h := List.length_eq_countP_add_countP (fun k => v.getLsbD k) (l := List.range 8)
  simp only [List.length_range, Bool.not_eq_true, Bool.decide_eq_false] at h
  simp only [ones, sentBit, ← List.countP_eq_length_filter]
  omega

theorem primitives_receive {store : Nat → Micro} (hs : ∀ k, (store k).isPrimitive = false) (l : List Nat) :
    primitives (l.flatMap (fun k => .byteIndex k :: readByteProgram ++ [store k])) = 72 * l.length := by
  induction l with
  | nil => rfl
  | cons k l ih =>
    rw [List.flatMap_cons, primitives_append, ih, List.length_cons]
    have index : Micro.isPrimitive (.byteIndex k) = false := rfl
    simp [hs, index]
    omega

@[simp] theorem primitives_receiveRom : primitives receiveRom = 576 := by
  rw [receiveRom, primitives_receive (fun _ => rfl), List.length_range]
  rfl
@[simp] theorem primitives_receiveScratchpad : primitives receiveScratchpad = 648 := by
  rw [receiveScratchpad, primitives_receive (fun _ => rfl), List.length_range]
  rfl

theorem primitives_writeBytes_le (vs : List Byte) : primitives (vs.flatMap writeByteProgram) ≤ 56 * vs.length := by
  induction vs with
  | nil => simp
  | cons v vs ih =>
    have := ones_le v
    simp only [List.flatMap_cons, primitives_append, primitives_writeByteProgram, List.length_cons]
    omega

/-- Settles O34: the counts of the parts, added up. -/
theorem primitiveCounts : Obligations.PrimitiveCounts := by
  have readRom : ones 0x33#8 = 4 := rfl
  have skip : ones 0xCC#8 = 4 := rfl
  have search : ones 0xEC#8 = 5 := rfl
  have convert : ones 0x44#8 = 2 := rfl
  have readSp : ones 0xBE#8 = 6 := rfl
  have matched : ones 0x55#8 = 4 := rfl
  refine ⟨rfl, fun b => by cases b <;> rfl, rfl, rfl, fun v => ?_, by simp [readRom], by simp [skip], by simp [search],
    by simp [addressProgram, skip, convert], by simp [addressProgram, skip, readSp], fun rom hr => ?_⟩
  · have := ones_eq v
    rw [primitives_writeByteProgram]
    omega
  · have := primitives_writeBytes_le rom
    simp [addressProgram, matched, readSp]
    omega

end Sys2Proof.Machine
end

section
/-! PROOFS. The line events of accepted requests: the reset pulse, the bytes and the frames in the reference timing, the low time of a
written bit in every timing, and the commit window. -/

namespace Sys2Proof.Machine

/-! ### The reset of a request -/

section
variable {i : Instr} {s : State} {g : Nat} (h : Ready i s) (ht : ReferenceTiming g s)
include h ht

/-- The reset of an accepted request: its events, and the level by which presence is decided. -/
theorem afterReset_ran : ∃ l, (afterReset i s).trace
      = (resetEvents (s.now + g) l).reverse ++ (s.now, .req (requestWord i)) :: s.trace
    ∧ (afterReset i s).pres = some (presenceOfLevel l) := by
  obtain ⟨l, -, -, htr, hp⟩ := resetProgram_ran (live_accept h ht)
  refine ⟨l, ?_, hp⟩
  rw [afterReset, htr]
  simp

end

theorem presenceStatus_ofLevel (l : Level) : presenceStatus (presenceOfLevel l) = if l = .low then .ok else .noPresence := by
  cases l <;> rfl

theorem presenceOfLevel_eq (l : Level) : presenceOfLevel l = decide (l = .low) := by cases l <;> rfl

theorem afterBus_resetPulse {s : State} (h : Ready .resetPulse s) :
    afterBus .resetPulse s = Micro.exec .storePresence (afterReset .resetPulse s) := by
  rw [afterBus, busProgram, run_append]
  exact run_cons_running _ _ (running_afterReset h)

/-- Settles O28: the events of the reset, and BIT_OUT from its sample. -/
theorem resetPulseWaveform : Obligations.ResetPulseWaveform := by
  intro s g h ht
  obtain ⟨l, htr, hp⟩ := afterReset_ran h ht
  have store := afterBus_resetPulse h
  have hbit : (afterBus .resetPulse s).bitOut = some (presenceOfLevel l) := by rw [store]; exact hp
  have hnow : (afterBus .resetPulse s).now = s.now + g + 960 := by rw [store]; exact now_afterReset h ht
  have htrace : (afterBus .resetPulse s).trace = (afterReset .resetPulse s).trace := by rw [store]; rfl
  have hstatus : busStatus .resetPulse (afterBus .resetPulse s) = if l = .low then .ok else .noPresence := by
    rw [busStatus, hbit, Option.getD_some, presenceStatus_ofLevel]
  have responded := respondedWith_of_onward (s := s)
    { status := busStatus .resetPulse (afterBus .resetPulse s), outputs := responseOutputs .resetPulse (afterBus .resetPulse s) }
    (Ready.fault_of_running (running_afterBus h)) onward_afterBus
  have hw : requestWord .resetPulse = 0x0400 := rfl
  refine ⟨_, l, exec_bus_of_ready rfl h, hbit.trans (by rw [presenceOfLevel_eq]), hnow, ?_, ?_⟩
  · rw [← hstatus]
    exact responded
  · rw [respond_trace, htrace, htr, hstatus, hw]
    rfl

/-! ### Bytes -/

/-- Slots of one kind in a row, by the time at which each opens (41_bus_driver.md rule R198). -/
theorem slotEvents_range' (g t : Nat) (f : Nat → Slot) (m : Nat) : ∀ n, slotEvents g (t + n * (g + 71)) ((List.range' n m).map f)
    = (List.range' n m).flatMap (fun k => (f k).events (t + (k + 1) * g + 71 * k)) := by
  induction m with
  | zero => exact fun _ => rfl
  | succ m ih =>
    intro n
    have first : t + n * (g + 71) + g = t + (n + 1) * g + 71 * n := by ring
    have next : t + n * (g + 71) + g + 71 = t + (n + 1) * (g + 71) := by ring
    rw [List.range'_succ, List.map_cons, List.flatMap_cons, slotEvents, next, ih (n + 1), first]

theorem busStatus_of_ne {i : Instr} (h : i ≠ .resetPulse) (t : State) : busStatus i t = .ok := by
  cases i <;> first | rfl | exact absurd rfl h

/-- Settles O32: eight write slots in a row. -/
theorem writeByteWaveform : Obligations.WriteByteWaveform := by
  intro v s g h ht
  have slots := writeByte_ran v (live_accept h ht)
  have hnow : (afterBus (.writeByte v) s).now = s.now + 8 * (g + 71) := by
    refine slots.now.trans ?_
    simp [byteSlots]
  have events : slotEvents g s.now (byteSlots [v])
      = (List.range 8).flatMap (fun k => Slot.events (s.now + (k + 1) * g + 71 * k) (.write (v.getLsbD k))) := by
    have e := slotEvents_range' g s.now (fun k => .write (v.getLsbD k)) 8 0
    rw [Nat.zero_mul, Nat.add_zero, ← List.range_eq_range'] at e
    rw [← e, byteSlots, List.flatMap_singleton]
  refine ⟨_, exec_bus_of_ready rfl h, hnow, ?_, ?_⟩
  · exact respondedWith_of_onward _ (Ready.fault_of_running (running_afterBus h)) onward_afterBus
  · rw [respond_trace, ← events, ← busStatus_of_ne (i := .writeByte v) nofun (afterBus (.writeByte v) s)]
    refine congrArg _ (slots.trace.trans ?_)
    simp

/-- The program of READ_BYTE: eight read slots, then BYTE_OUT (41_bus_driver.md rule R199). -/
theorem readByteProgram_stored {g : Nat} {s : State} (h : Live g s) :
    ∃ (ls : List Level) (v : Byte), ls.length = 8 ∧ Ran g (ls.map .read) s (run (readByteProgram ++ [.storeByte]) s)
      ∧ (run (readByteProgram ++ [.storeByte]) s).byteOut = some v ∧ IsReceivedByte ls 0 v := by
  obtain ⟨ls, v, hl, ran, hv, hb⟩ := readByte_ran h
  have store : run (readByteProgram ++ [.storeByte]) s = Micro.exec .storeByte (run readByteProgram s) := by
    rw [run_append]
    exact run_cons_running _ _ ran.live.running
  refine ⟨ls, v, hl, ran.silent (h.run (nested_append rfl _ nested_readByteProgram)) (by rw [store]; rfl) (by rw [store]; rfl), ?_, hb⟩
  rw [store]
  exact hv

/-- Settles O33: eight read slots in a row, and the byte they gather. -/
theorem readByteWaveform : Obligations.ReadByteWaveform := by
  intro s g h ht
  obtain ⟨ls, v, hl, ran, hv, hb⟩ := readByteProgram_stored (live_accept h ht)
  have hv : (afterBus .readByte s).byteOut = some v := hv
  have hnow : (afterBus .readByte s).now = s.now + 8 * (g + 71) := by
    refine ran.now.trans ?_
    simp [hl]
  have outputs : responseOutputs .readByte (afterBus .readByte s) = .byte (some v) := congrArg Outputs.byte hv
  have hw : requestWord .readByte = 0x0800 := rfl
  refine ⟨_, ls, v, exec_bus_of_ready rfl h, hnow, hl, hv, fun k hk => by simpa using hb k hk, ?_, ?_⟩
  · rw [← outputs]
    exact respondedWith_of_onward _ (Ready.fault_of_running (running_afterBus h)) onward_afterBus
  · rw [respond_trace, outputs]
    refine congrArg _ (ran.trace.trans ?_)
    simp [hw]

/-! ### Frames (30_encoding.md rules R111, R112) -/

section
variable {g : Nat} {t : State}

/-- A Device Protocol operation sends the bytes of its row (rule R112, column "sent"). -/
theorem sendProgram_ran (i : Instr) (hd : isDeviceProtocol i = true) (s : State) (h : Live g t) :
    Ran g (byteSlots (bytesSent s i)) t (run (sendProgram s i) t) := by
  have addressed : ∀ (a : Addressing) (cmd : Byte), Ran g (byteSlots (addressBytes s a ++ [cmd])) t
      (run (addressProgram s.romInBytes a ++ writeByteProgram cmd) t) := by
    intro a cmd
    rw [byteSlots_append, run_append]
    have first := addressProgram_ran s a h
    exact first.append (writeByte_ran cmd first.live)
  cases i with
  | readRom | skipRom | alarmSearch | searchRom => exact writeByte_ran _ h
  | convertT a | readScratchpad a | copyScratchpad a | recallEeprom a | readPowerSupply a => exact addressed a _
  | matchRom =>
    rw [sendProgram, run_append]
    have first := writeByte_ran 0x55 h
    show Ran g (byteSlots (0x55 :: s.romInBytes)) t _
    rw [byteSlots_cons]
    exact first.append (sendBytes_ran _ 0 first.live)
  | writeScratchpad a =>
    rw [sendProgram, run_append, bytesSent, byteSlots_append]
    have first := addressed a 0x4E
    exact first.append (sendBytes_ran _ 0 first.live)
  | _ => cases hd

/-- A Device Protocol operation receives the bits of its row (rule R112, column "received"), and its cells hold them. -/
theorem dataProgram_ran (i : Instr) (hd : isDeviceProtocol i = true) (h : Live g t) :
    ∃ ls : List Level, ls.length = bitsReceived i ∧ Ran g (ls.map .read) t (run (dataProgram i) t)
      ∧ HoldsReceived i ls (run (dataProgram i) t) := by
  cases i with
  | readRom => exact receiveRom_ran h
  | readScratchpad a => exact receiveScratchpad_ran h
  | readPowerSupply a =>
    obtain ⟨l, ran, hb⟩ := readBitProgram_ran h
    refine ⟨[l], rfl, ran, hb.trans ?_⟩
    simp
  | copyScratchpad a =>
    refine ⟨[], rfl, (Ran.nil h).silent (h.run rfl) ?_ ?_, trivial⟩ <;>
    · rw [dataProgram, run_cons_running _ _ h.running]
      rfl
  | matchRom | skipRom | alarmSearch | searchRom | convertT | writeScratchpad | recallEeprom =>
    exact ⟨[], rfl, Ran.nil h, trivial⟩
  | _ => cases hd

/-- The frame of a Device Protocol operation: the bytes it sends, then the slots it reads. -/
theorem frameProgram_ran (i : Instr) (hd : isDeviceProtocol i = true) (s : State) (h : Live g t) :
    ∃ ls : List Level, ls.length = bitsReceived i
      ∧ Ran g (byteSlots (bytesSent s i) ++ ls.map .read) t (run (frameProgram i s) t)
      ∧ HoldsReceived i ls (run (frameProgram i s) t) := by
  have sent := sendProgram_ran i hd s h
  obtain ⟨ls, hl, received, holds⟩ := dataProgram_ran i hd sent.live
  rw [frameProgram, run_append]
  exact ⟨ls, hl, sent.append received, holds⟩

end

theorem HoldsReceived.respond {i : Instr} {ls : List Level} {t : State} (h : HoldsReceived i ls t) (r : Response) :
    HoldsReceived i ls (respond r t) := by
  cases i <;> exact h

section
variable {i : Instr} {s : State} {g : Nat} (hd : isDeviceProtocol i = true) (h : Ready i s) (ht : ReferenceTiming g s)
include hd h ht

/-- A Device Protocol operation whose reset shows presence executes its whole frame and responds OK. -/
theorem exec_frame_of_presence {l : Level}
    (htr : (afterReset i s).trace = (resetEvents (s.now + g) l).reverse ++ (s.now, .req (requestWord i)) :: s.trace)
    (hp : (afterReset i s).pres = some true) :
    ∃ (t : State) (ls : List Level), exec i s = .next t ∧ ls.length = bitsReceived i ∧ HoldsReceived i ls t
      ∧ t.now = s.now + referenceDuration i + gapCount i * g
      ∧ RespondedWith { status := .ok, outputs := responseOutputs i t } s t
      ∧ t.trace = (t.now, .resp { status := .ok, outputs := responseOutputs i t })
          :: (resetEvents (s.now + g) l
              ++ slotEvents g (s.now + g + 960) (byteSlots (bytesSent s i) ++ ls.map .read)).reverse
          ++ (s.now, .req (requestWord i)) :: s.trace := by
  obtain ⟨ls, hl, ran, holds⟩ := frameProgram_ran i hd s (live_afterReset h ht)
  refine ⟨_, ls, (exec_frame_of_ready hd h).trans (congrArg _ (if_pos (by rw [hp]; rfl))), hl, HoldsReceived.respond holds _,
    now_afterFrame h ht hd, ?_, ?_⟩
  · rw [answerWith_eq, responseOutputs_respond, responseOutputs_frame hd]
    exact respondedWith_of_onward _ (Ready.fault_of_running (running_afterFrame h)) onward_afterFrame
  · rw [answerWith_eq, responseOutputs_respond, responseOutputs_frame hd, respond_trace, respond_now]
    have htrace : (afterFrame i s).trace = _ := ran.trace
    rw [htrace, htr, now_afterReset h ht, List.reverse_append, List.cons_append, List.append_assoc]

end

/-- A Device Protocol operation whose reset shows no presence ends there, with its outputs unwritten. -/
theorem exec_frame_of_noPresence {i : Instr} {s : State} (hd : isDeviceProtocol i = true) (h : Ready i s)
    (hp : (afterReset i s).pres = some false) :
    ∃ t, exec i s = .next t ∧ (responseOutputs i t).unwritten = true
      ∧ RespondedWith { status := .noPresence, outputs := responseOutputs i t } s t
      ∧ t.trace = (t.now, .resp { status := .noPresence, outputs := responseOutputs i t }) :: (afterReset i s).trace := by
  refine ⟨_, (exec_frame_of_ready hd h).trans (congrArg _ (if_neg (by rw [hp]; nofun))), ?_, ?_, ?_⟩
  all_goals rw [answerWith_eq, responseOutputs_respond, responseOutputs_frame hd]
  · exact outputsOf_clearOutputs_unwritten _ _
  · exact respondedWith_of_onward _ ((clearOutputs_fault _ _).trans (Ready.fault_of_running (running_afterReset h)))
      (onward_clearOutputs _ onward_afterReset)
  · rw [respond_trace, respond_now, clearOutputs_trace]

/-- Settles O25: the level that the reset samples decides between the whole frame and no slot at all. -/
theorem transactionFrames : Obligations.TransactionFrames := by
  rintro i s g hd ⟨h, -⟩ ht
  obtain ⟨l, htr, hp⟩ := afterReset_ran h ht
  cases l with
  | low =>
    obtain ⟨t, ls, he, hl, holds, -, responded, trace⟩ := exec_frame_of_presence hd h ht htr hp
    exact ⟨t, .low, he, fun _ => ⟨ls, hl, holds, responded, trace⟩, nofun⟩
  | high =>
    obtain ⟨t, he, unwritten, responded, trace⟩ := exec_frame_of_noPresence hd h hp
    exact ⟨t, .high, he, nofun, fun _ => ⟨unwritten, responded, by rw [trace, htr]; rfl⟩⟩

/-! ### The low time of a written bit, in every timing (41_bus_driver.md rules R190, R191) -/

/-- An event that changes the engine's drive. -/
def isDriveEvent (e : Nat × Event) : Bool := decide (e.2 = .low ∨ e.2 = .rel)

/-- What a micro-operation does to the clock and to the drive events of the trace, where a delay lasts at most `j` longer than its
argument. -/
structure Micro.DriveEffect (j : Nat) (m : Micro) (s t : State) : Prop where
  onward : s.now ≤ t.now
  still : m ≠ .gap → (∀ n, m ≠ .delay n) → t.now = s.now
  delay : ∀ n, m = .delay n → s.now + n ≤ t.now ∧ t.now ≤ s.now + n + j
  events : t.trace.filter isDriveEvent = (match m with
    | .setLow => [(s.now, .low)]
    | .release => [(s.now, .rel)]
    | _ => []) ++ s.trace.filter isDriveEvent

theorem Micro.exec_driveEffect (m : Micro) {s : State} (hu : Undisturbed s) : m.DriveEffect s.jitter s (m.exec s) := by
  obtain ⟨-, -, onward, -⟩ := m.exec_onward s
  cases m with
  | gap => exact ⟨onward, fun h _ => absurd rfl h, nofun, by simp [Micro.exec, passGap_of_undisturbed hu]⟩
  | exit =>
    rcases exitCritical_cases s with ⟨-, e⟩ | ⟨m, rest, -, e⟩ <;>
      exact ⟨onward, fun _ _ => by simp [Micro.exec, e], nofun, by simp [Micro.exec, e, isDriveEvent]⟩
  | delay n =>
    have bounds := delayTime_bounds s n
    refine ⟨onward, fun _ h => absurd rfl (h n), fun k hk => ?_, by simp [Micro.exec, delayUs_of_noReset _ hu.1]⟩
    cases hk
    simp only [Micro.exec, delayUs_of_noReset _ hu.1, State.count_now, pass_now]
    omega
  | _ => exact ⟨onward, fun _ _ => by simp [Micro.exec], nofun, by simp [Micro.exec, isDriveEvent]⟩

/-- One low pulse of a slot: the engine drives the line low, waits `n`, and releases it; nothing after that drives the line. -/
theorem drivePulse {j n : Nat} {s t : State} {p : List Micro} (hp : driveOf p = none)
    (k : Steps (Micro.DriveEffect j) (.gap :: .enter :: .setLow :: .delay n :: .release :: p) s t) :
    ∃ low rel, s.now ≤ low ∧ low + n ≤ rel ∧ rel ≤ low + n + j
      ∧ t.trace.filter isDriveEvent = [(rel, .rel), (low, .low)] ++ s.trace.filter isDriveEvent := by
  obtain ⟨s1, e1, s2, e2, s3, e3, s4, e4, s5, e5, k⟩ := k
  have rest : ∀ (p : List Micro) (u : State), driveOf p = none → Steps (Micro.DriveEffect j) p u t →
      t.trace.filter isDriveEvent = u.trace.filter isDriveEvent := by
    intro p
    induction p with
    | nil => rintro u - rfl; rfl
    | cons m p ih =>
      rintro u hm ⟨v, e, k⟩
      cases m with
      | setLow | release => simp [driveOf] at hm
      | _ => exact (ih v hm k).trans e.events
  obtain ⟨lower, upper⟩ := e4.delay n rfl
  have still := e3.still nofun nofun
  have o1 := e1.onward
  have o2 := e2.onward
  refine ⟨s2.now, s4.now, by omega, by omega, by omega, ?_⟩
  rw [rest p s5 hp k, e5.events, e4.events, e3.events, e2.events, e1.events]
  rfl

/-- Settles O30: one pulse, as long as its delay. -/
theorem writeBitLowTime : Obligations.WriteBitLowTime := by
  intro b s h
  have jitter : ∀ u : State, u.env = s.env → u.jitter = s.jitter := fun u hu => by simp [State.jitter, hu]
  have steps : Steps (Micro.DriveEffect s.jitter) (writeSlot b) (accept (.writeBit b) (clearCopy s)) (afterBus (.writeBit b) s) :=
    run_steps s.env _ (fun m u he hu _ _ => jitter u he ▸ m.exec_driveEffect hu) _ false _ (by simp) h.undisturbed_accept
      h.running_accept (nested_writeSlot b) nofun
  have pulse : ∃ low rel, (accept (.writeBit b) (clearCopy s)).now ≤ low ∧ low + (if b then 6 else 70) ≤ rel
      ∧ rel ≤ low + (if b then 6 else 70) + s.jitter
      ∧ (afterBus (.writeBit b) s).trace.filter isDriveEvent
        = [(rel, .rel), (low, .low)] ++ (accept (.writeBit b) (clearCopy s)).trace.filter isDriveEvent := by
    cases b
    · exact drivePulse (p := [.delay Config.tRec, .exit]) rfl steps
    · exact drivePulse (p := [.delay (Config.tSlot - Config.tLow1), .delay Config.tRec, .exit]) rfl steps
  obtain ⟨low, rel, hs, hl, hu, events⟩ := pulse
  refine ⟨_, low, rel, exec_bus_of_ready rfl h, by simpa using hs, ?_, hl, hu⟩
  have before : (accept (.writeBit b) (clearCopy s)).trace.filter isDriveEvent = s.trace.filter isDriveEvent := by
    simp [isDriveEvent]
  rw [before] at events
  exact events

/-! ### The commit window (43_function_commands.md rule R268) -/

/-- What an operation sends writes no output cell and opens no window. -/
theorem plain_sendProgram (s : State) (i : Instr) : plainProgram (sendProgram s i) = true := by
  cases i <;> simp [sendProgram] <;> rfl

/-- Settles O35: the window opens in the last micro-operation of the frame, and the prologue has cleared an old one. -/
theorem copyOpensTheCommitWindow : Obligations.CopyOpensTheCommitWindow := by
  intro a s h
  have hu := undisturbed_afterReset h
  have old : (afterReset (.copyScratchpad a) s).copyUntil = none := by
    obtain ⟨-, -, -, -, hc⟩ := run_plain h.undisturbed_accept.1 plain_resetProgram
    rw [afterReset, hc]
    simp [h.2.2.2.1 rfl]
  by_cases hp : (afterReset (.copyScratchpad a) s).pres.getD false = true
  · refine ⟨_, .ok, (exec_frame_of_ready rfl h).trans (congrArg _ (if_pos hp)),
      respondedWith_of_onward _ (Ready.fault_of_running (running_afterFrame h)) onward_afterFrame, ?_⟩
    have sent := run_running hu (running_afterReset h) (nested_sendProgram s (.copyScratchpad a))
    have last : afterFrame (.copyScratchpad a) s
        = Micro.exec .startCopy (run (sendProgram s (.copyScratchpad a)) (afterReset (.copyScratchpad a) s)) := by
      rw [afterFrame, frameProgram, run_append]
      exact run_cons_running _ _ sent
    rw [if_pos rfl, answerWith_eq, respond_copyUntil, respond_now, last]
    rfl
  · refine ⟨_, .noPresence, (exec_frame_of_ready rfl h).trans (congrArg _ (if_neg hp)),
      respondedWith_of_onward _ (Ready.fault_of_running (running_afterReset h)) onward_afterReset, ?_⟩
    rw [if_neg nofun]
    exact old

end Sys2Proof.Machine
end

section
/-! PROOFS. The engine and the devices together: presence, the frames with a device on the line, and the echo device
(45_reference_device.md rules R335, R336). -/

namespace Sys2Proof.Machine

/-! ### The reset of a request, on a line with devices -/

theorem LowPeriodMatchesDrive.tracked {s : State} (h : LowPeriodMatchesDrive s) : LowPeriodTracked s := h.mp

section
variable {i : Instr} {s : State} {g : Nat} (h : Ready i s) (he : ReferenceEnvironment g s)
include h he

/-- The reset of an accepted request: presence is shown exactly when a device is on the line. -/
theorem pres_afterReset_line (hm : LowPeriodTracked s) (hb : LowPeriodBegun s) :
    ∃ l, (afterReset i s).pres = some (presenceOfLevel l) ∧ (l = .low ↔ ∃ d ∈ s.devices, d.pin = s.pin) := by
  have tracked : LowPeriodTracked (accept i (clearCopy s)) := by simpa [LowPeriodTracked] using hm
  have begun : LowPeriodBegun (accept i (clearCopy s)) := by simpa [LowPeriodBegun] using hb
  obtain ⟨f, -, -, -, -, -, l, hl, hpres⟩ := reset_line (live_accept h he.1) (by simpa using he.2) tracked begun
  obtain ⟨l', hl', hp⟩ := pres_afterReset h
  obtain rfl : l' = l := Option.some.inj (hl'.symm.trans hl)
  exact ⟨l', hp, by simpa using hpres⟩

/-- After the reset of a request the one device on the line is at the beginning of a transaction, and drives nothing. -/
theorem solo_afterReset {d : Device} (hm : LowPeriodTracked s) (hb : LowPeriodBegun s) (hd : s.devices = [d]) (hp : d.pin = s.pin) :
    ∃ e, Solo g e (afterReset i s) ∧ e.pin = d.pin ∧ (∀ m, d.kind = .echo m → e.kind = .echo (.receiving 0 0))
      ∧ (LowPeriodMatchesDrive s → AfterReset d e) := by
  have tracked : LowPeriodTracked (accept i (clearCopy s)) := by simpa [LowPeriodTracked] using hm
  have begun : LowPeriodBegun (accept i (clearCopy s)) := by simpa [LowPeriodBegun] using hb
  obtain ⟨f, devices, drive, noLow, pin, after, -⟩ :=
    reset_line (live_accept h he.1) (by simpa using he.2) tracked begun
  obtain ⟨presence, hold, echo, reset⟩ := after d (by simpa using hp)
  have keeps := run_kept resetProgram h.undisturbed_accept.1
  have now : (afterReset i s).now = s.now + g + 960 := now_afterReset h he.1
  refine ⟨f d,
    { live := live_afterReset h he.1
      line := by rw [afterReset, keeps.env]; simpa using he.2
      drive := drive
      noLow := noLow
      devices := by rw [afterReset, devices]; simp [hd]
      pin := by rw [afterReset, keeps.pin, pin, hp]; simp
      presence := fun e k => ?_
      hold := fun a b k => by rw [hold] at k; cases k },
    pin d, echo, fun hmd => reset (by simpa [LowPeriodMatchesDrive] using hmd) (by simp [hd])⟩
  have edge := presence.symm.trans k
  simp only [accept_now, clearCopy_now, Option.some.injEq] at edge
  omega

end

/-- Settles O49: the sample is low exactly when a device answers with its presence pulse. -/
theorem presenceMeansADevice : Obligations.PresenceMeansADevice := by
  intro s g h he hm hb
  obtain ⟨l, hp, hl⟩ := pres_afterReset_line h he hm hb
  have hbit : (afterBus .resetPulse s).bitOut = some (presenceOfLevel l) := by rw [afterBus_resetPulse h]; exact hp
  have responded := respondedWith_of_onward (s := s)
    { status := busStatus .resetPulse (afterBus .resetPulse s), outputs := responseOutputs .resetPulse (afterBus .resetPulse s) }
    (Ready.fault_of_running (running_afterBus h)) onward_afterBus
  have outputs : responseOutputs .resetPulse (afterBus .resetPulse s) = .bit (some (presenceOfLevel l)) := congrArg Outputs.bit hbit
  have status : busStatus .resetPulse (afterBus .resetPulse s) = presenceStatus (presenceOfLevel l) := by
    rw [busStatus, hbit, Option.getD_some]
  refine ⟨_, exec_bus_of_ready rfl h, fun hd => ?_, fun hd => ?_⟩
  · obtain rfl := hl.mpr hd
    rw [outputs, status] at responded ⊢
    exact ⟨responded, hbit⟩
  · obtain rfl : l = .high := by
      cases l
      · rfl
      · obtain ⟨d, hmem, hpin⟩ := hl.mp rfl
        exact absurd hpin (hd d hmem)
    rw [outputs, status] at responded ⊢
    exact ⟨responded, hbit⟩

/-- Settles O50: with a device the reset shows presence, and the frame follows. -/
theorem deviceProtocolCompletesWithADevice : Obligations.DeviceProtocolCompletesWithADevice := by
  intro i s g hd h he hm hb hdev
  obtain ⟨l, hp, hl⟩ := pres_afterReset_line h he hm hb
  obtain rfl := hl.mpr hdev
  obtain ⟨l', htr, hp'⟩ := afterReset_ran h he.1
  obtain rfl : l' = .low := by
    rw [hp] at hp'
    cases l'
    · cases hp'
    · rfl
  exact exec_frame_of_presence hd h he.1 htr hp

/-! ### Between two requests, with one device on the line -/

/-- Between two requests in the reference environment, with the one device `d` on the bound line, which drives nothing any more. -/
structure Rest (g : Nat) (d : Device) (s : State) : Prop where
  fault : s.fault = .none
  busy : s.busy = false
  bound : s.bound = true
  noCopy : s.copyUntil = none
  undisturbed : Undisturbed s
  environment : ReferenceEnvironment g s
  drive : s.drive = .released
  noLow : s.lineLow = none
  devices : s.devices = [d]
  pin : d.pin = s.pin
  presence : ∀ e, d.presence = some e → e + 150 ≤ s.now
  hold : ∀ a b, d.hold = some (a, b) → b ≤ s.now

section
variable {g : Nat} {d : Device} {s : State}

/-- The response of a request leaves the line at rest. -/
theorem Solo.respond (h : Solo g d s) (hb : s.bound = true) (hc : s.copyUntil = none) (r : Response) : Rest g d (respond r s) where
  fault := show s.fault = .none from Ready.fault_of_running h.live.running
  busy := rfl
  bound := hb
  noCopy := hc
  undisturbed := h.live.undisturbed
  environment := ⟨h.live.timing, h.line⟩
  drive := h.drive
  noLow := h.noLow
  devices := h.devices
  pin := h.pin
  presence := h.presence
  hold := h.hold

variable (h : Rest g d s)
include h

theorem Rest.matchesDrive : LowPeriodMatchesDrive s := by simp [LowPeriodMatchesDrive, h.drive, h.noLow]

theorem Rest.begun : LowPeriodBegun s := fun q hq => by simp [h.noLow] at hq

/-- Every request whose input cells are written is accepted. -/
theorem Rest.ready {i : Instr} (hi : s.inputMissing i = false) : Ready i s :=
  ⟨h.fault, h.busy, fun _ => h.bound, fun _ => by simp [State.copyPending, h.noCopy], hi, h.undisturbed⟩

/-- The accepted request finds the device as it was. -/
theorem Rest.accept (i : Instr) : Solo g d (accept i (clearCopy s)) where
  live := ⟨running_accept h.fault, undisturbed_accept h.undisturbed, by simpa using h.environment.1⟩
  line := by simpa using h.environment.2
  drive := by simpa using h.drive
  noLow := by simpa using h.noLow
  devices := by simpa using h.devices
  pin := by simpa using h.pin
  presence := by simpa using h.presence
  hold := by simpa using h.hold

end

theorem copyUntil_accept {i : Instr} {s : State} (h : Ready i s) (hd : drivesLine i = true) :
    (accept i (clearCopy s)).copyUntil = none := by
  simp [h.2.2.2.1 hd]

section
variable {i : Instr} {s : State} (h : Ready i s)
include h

theorem bound_afterBus (hn : needsBinding i = true) : (afterBus i s).bound = true := by
  rw [afterBus, (run_kept _ h.undisturbed_accept.1).bound]
  simpa using h.2.2.1 hn

theorem bound_afterFrame (hn : needsBinding i = true) : (afterFrame i s).bound = true := by
  rw [afterFrame, (run_kept _ (undisturbed_afterReset h).1).bound, afterReset, (run_kept _ h.undisturbed_accept.1).bound]
  simpa using h.2.2.1 hn

theorem copyUntil_afterBus (hd : drivesLine i = true) : (afterBus i s).copyUntil = none := by
  have stores : .startCopy ∉ busProgram i := by
    have plain : ∀ {p : List Micro}, plainProgram p = true → .startCopy ∉ p := fun hp hm => by
      cases List.all_eq_true.mp hp _ hm
    cases i with
    | resetPulse | readBit | readByte => simp [busProgram, plain plain_resetProgram, plain plain_readSlot, plain plain_readByteProgram]
    | writeBit b => exact plain (plain_writeSlot b)
    | writeByte v => exact plain (plain_writeByteProgram v)
    | _ => nofun
  rw [afterBus, (run_cells _ h.undisturbed_accept.1).copyUntil stores, copyUntil_accept h hd]

end

/-! ### The echo device (45_reference_device.md rule R335) -/

/-- Nothing of an echo device completes by itself. -/
theorem Device.settle_of_echo {d : Device} {m : Echo} (hk : d.kind = .echo m) (n : Nat) : d.settle n = d := by
  simp [Device.settle, hk]

/-- A slot of an echo device outside its presence window. -/
theorem Device.slot_of_echo {d : Device} {m : Echo} {a n : Nat} (hk : d.kind = .echo m) (ho : d.presenceOverlaps a n = false) :
    d.slot a n = { d with kind := .echo (m.slot (decide (n - a < 15))) } := by
  rw [Device.slot, if_neg (by simp [ho])]
  simp only [hk]
  rfl

section
variable {d : Device} {t : Nat} (hp : ∀ e, d.presence = some e → e + 150 ≤ t)
include hp

/-- A presence pulse that is over overlaps no later slot (rule R308). -/
theorem Device.presenceOverlaps_of_clear (n : Nat) : d.presenceOverlaps t n = false := by
  have h150 : Config.presenceUntil = 150 := rfl
  unfold Device.presenceOverlaps
  split
  · rfl
  · next e he =>
    have := hp e he
    simp
    omega

/-- A slot of an echo device that receives: its bit, by the length of the low pulse. -/
theorem Device.through_echo_receiving {acc : Byte} {n low : Nat} (hk : d.kind = .echo (.receiving acc n)) (hl : low ≤ 71) :
    d.through t low = { d with hold := none, kind := .echo (Echo.slot (decide (low < 15)) (.receiving acc n)) } := by
  have settle : d.settle t = d := Device.settle_of_echo hk t
  have fall : d.fall t = { d with hold := none } := by simp [Device.fall, hk]
  have rise : d.riseIn t low = t + low := by simp [Device.riseIn, settle, fall]
  have apart : ({ d with hold := none } : Device).presenceOverlaps t (t + low) = false := Device.presenceOverlaps_of_clear hp _
  rw [Device.through, Device.inSlot_from (by omega), rise, settle, fall, Device.settle_of_echo (d := { d with hold := none }) hk,
    Device.slot_of_echo (d := { d with hold := none }) hk apart, Device.settle_of_echo rfl, Nat.add_sub_cancel_left]

/-- A slot of an echo device that sends: it goes on to the next bit, and a read slot samples this one. -/
theorem Device.through_echo_sending {v : Byte} {k : Nat} (hk : d.kind = .echo (.sending v k)) :
    (d.through t 6).kind = .echo (if 8 ≤ k + 1 then .receiving 0 0 else .sending v (k + 1))
      ∧ d.sampledIn t = if v.getLsbD k then .high else .low := by
  have settle : d.settle t = d := Device.settle_of_echo hk t
  have fall : d.fall t = { d with hold := sendWindow t (v.getLsbD k) } := by simp [Device.fall, hk]
  have rise : d.riseIn t 6 ≤ t + 71 := by
    rw [Device.riseIn, settle, fall]
    cases v.getLsbD k <;> simp [sendWindow, Config.zeroHold]
  have apart : ({ d with hold := sendWindow t (v.getLsbD k) } : Device).presenceOverlaps t (d.riseIn t 6) = false :=
    Device.presenceOverlaps_of_clear hp _
  constructor
  · rw [Device.through, Device.inSlot_from rise, settle, fall,
      Device.settle_of_echo (d := { d with hold := sendWindow t (v.getLsbD k) }) hk,
      Device.slot_of_echo (d := { d with hold := sendWindow t (v.getLsbD k) }) hk apart, Device.settle_of_echo rfl]
    rfl
  · rw [Device.sampledIn, settle, fall]
    cases v.getLsbD k <;> simp [sendWindow, Config.zeroHold]

end

section
variable {g : Nat}

/-- The register writes of a program leave the line as it is. -/
theorem Solo.register {d : Device} {s : State} (h : Solo g d s) {m : Micro}
    (hm : ∀ u : State, (m.exec u).running = u.running ∧ (Undisturbed u → Undisturbed (m.exec u)) ∧ (m.exec u).env = u.env
      ∧ (m.exec u).drive = u.drive ∧ (m.exec u).lineLow = u.lineLow ∧ (m.exec u).devices = u.devices ∧ (m.exec u).pin = u.pin
      ∧ (m.exec u).now = u.now) : Solo g d (run [m] s) := by
  rw [run_cons_running _ _ h.live.running, run_nil]
  obtain ⟨running, undisturbed, env, drive, low, devices, pin, now⟩ := hm s
  exact
    { live := ⟨running.trans h.live.running, undisturbed h.live.undisturbed, by rw [env]; exact h.live.timing⟩
      line := by rw [env]; exact h.line
      drive := drive.trans h.drive
      noLow := low.trans h.noLow
      devices := devices.trans h.devices
      pin := h.pin.trans pin.symm
      presence := fun e he => now ▸ h.presence e he
      hold := fun a b hab => now ▸ h.hold a b hab }

theorem Solo.loadByte {d : Device} {s : State} (h : Solo g d s) (v : Byte) : Solo g d (run [.loadByte v] s) :=
  h.register fun _ => ⟨rfl, id, rfl, rfl, rfl, rfl, rfl, rfl⟩
theorem Solo.bitSent {d : Device} {s : State} (h : Solo g d s) (k : Nat) : Solo g d (run [.bitSent k] s) :=
  h.register fun _ => ⟨rfl, id, rfl, rfl, rfl, rfl, rfl, rfl⟩
theorem Solo.collect {d : Device} {s : State} (h : Solo g d s) (k : Nat) : Solo g d (run [.collect k] s) :=
  h.register fun _ => ⟨rfl, id, rfl, rfl, rfl, rfl, rfl, rfl⟩
theorem Solo.byteIndex {d : Device} {s : State} (h : Solo g d s) (k : Nat) : Solo g d (run [.byteIndex k] s) :=
  h.register fun _ => ⟨rfl, id, rfl, rfl, rfl, rfl, rfl, rfl⟩
theorem Solo.storeByte {d : Device} {s : State} (h : Solo g d s) : Solo g d (run [.storeByte] s) :=
  h.register fun _ => ⟨rfl, id, rfl, rfl, rfl, rfl, rfl, rfl⟩
theorem Solo.storeBit {d : Device} {s : State} (h : Solo g d s) : Solo g d (run [.storeBit] s) :=
  h.register fun _ => ⟨rfl, id, rfl, rfl, rfl, rfl, rfl, rfl⟩
theorem Solo.storeRom {d : Device} {s : State} (h : Solo g d s) (k : Nat) : Solo g d (run [.storeRom k] s) :=
  h.register fun _ => ⟨rfl, id, rfl, rfl, rfl, rfl, rfl, rfl⟩
theorem Solo.storeSp {d : Device} {s : State} (h : Solo g d s) (k : Nat) : Solo g d (run [.storeSp k] s) :=
  h.register fun _ => ⟨rfl, id, rfl, rfl, rfl, rfl, rfl, rfl⟩

/-- Before a slot that falls at `s.now + g` the device's presence pulse is over. -/
theorem Solo.clear {d : Device} {s : State} (h : Solo g d s) (e : Nat) (he : d.presence = some e) : e + 150 ≤ s.now + g := by
  have := h.presence e he
  omega

/-- The bits of a written byte, one slot each: a property of the device that each slot moves on, `P k n` at the time `n` before
slot `k`. -/
theorem Solo.writeBits {P : Nat → Nat → Device → Prop} {v : Byte}
    (move : ∀ k < 8, ∀ d n t, n ≤ t → (∀ e, d.presence = some e → e + 150 ≤ t) → P k n d →
      P (k + 1) (t + 71) (d.through t (if v.getLsbD k then 6 else 70)))
    {d : Device} {s : State} (h : Solo g d s) (hd : P 0 s.now d) :
    ∃ e, Solo g e (run (writeByteProgram v) s) ∧ P 8 (run (writeByteProgram v) s).now e := by
  have bits : ∀ n ≤ 8, ∃ e, Solo g e (run ((List.range n).flatMap (fun k => writeSlot (sentBit v k) ++ [.bitSent k]))
      (run [.loadByte v] s))
      ∧ P n (run ((List.range n).flatMap (fun k => writeSlot (sentBit v k) ++ [.bitSent k])) (run [.loadByte v] s)).now e := by
    intro n
    induction n with
    | zero => exact fun _ => ⟨d, h.loadByte v, by rw [run_cons_running _ _ h.live.running]; exact hd⟩
    | succ n ih =>
      intro hn
      obtain ⟨e, he, hp⟩ := ih (by omega)
      have slot := writeSlot_ran (sentBit v n) he.live
      have sent := he.write (sentBit v n)
      rw [List.range_succ, List.flatMap_append, run_append, List.flatMap_singleton, run_append]
      refine ⟨_, sent.bitSent n, ?_⟩
      rw [run_cons_running _ _ sent.live.running]
      change P (n + 1) (run (writeSlot (sentBit v n)) _).now _
      rw [slot.now]
      rw [show [Slot.write (sentBit v n)].length * (g + 71) = g + 71 from Nat.one_mul _, ← Nat.add_assoc]
      exact move n (by omega) e _ _ (Nat.le_add_right _ g) he.clear hp
  rw [writeByteProgram, ← List.singleton_append, run_append]
  exact bits 8 (Nat.le_refl 8)

/-- The bits of a received byte, one read slot each: a property of the device that each slot moves on, where the device sends the bits
of `v`. -/
theorem Solo.readBits {P : Nat → Device → Prop} {v : Byte}
    (move : ∀ k < 8, ∀ d t, (∀ e, d.presence = some e → e + 150 ≤ t) → P k d →
      P (k + 1) (d.through t 6) ∧ d.sampledIn t = if v.getLsbD k then .high else .low)
    {d : Device} {s : State} (h : Solo g d s) (hd : P 0 d) :
    ∃ e, Solo g e (run readByteProgram s) ∧ P 8 e ∧ (run readByteProgram s).shift = some v := by
  have bits : ∀ n ≤ 8, ∃ e, Solo g e (run ((List.range n).flatMap (fun k => readSlot ++ [.collect k])) (run [.loadByte 0] s)) ∧ P n e
      ∧ (run ((List.range n).flatMap (fun k => readSlot ++ [.collect k])) (run [.loadByte 0] s)).shift = some (lowBits 8 v n) := by
    intro n
    induction n with
    | zero =>
      refine fun _ => ⟨d, h.loadByte 0, hd, ?_⟩
      rw [lowBits_zero, run_cons_running _ _ h.live.running]
      rfl
    | succ n ih =>
      intro hn
      obtain ⟨e, he, hp, hs⟩ := ih (by omega)
      obtain ⟨hread, hsample⟩ := he.read
      obtain ⟨hmove, hlevel⟩ := move n (by omega) _ _ he.clear hp
      obtain ⟨-, -, -, hshift⟩ := readSlot_ran he.live
      rw [List.range_succ, List.flatMap_append, run_append, List.flatMap_singleton, run_append]
      refine ⟨_, hread.collect n, hmove, ?_⟩
      rw [run_cons_running _ _ hread.live.running, run_nil]
      simp only [Micro.exec, hshift, hs, State.sampledBit, hsample, hlevel, Option.getD_some, Option.some.injEq, collectBit]
      rw [← lowBits_or_bitAt]
      cases v.getLsbD n <;> rfl
  have all := bits 8 (Nat.le_refl 8)
  rw [lowBits_width] at all
  rw [readByteProgram, ← List.singleton_append, run_append]
  exact all

/-- The echo device receives a written byte (rule R335). -/
theorem Solo.writeByte_echo {d : Device} {s : State} (h : Solo g d s) (hk : d.kind = .echo (.receiving 0 0)) (v : Byte) :
    ∃ e, Solo g e (run (writeByteProgram v) s) ∧ e.kind = .echo (.sending v 0) := by
  have move := Solo.writeBits (g := g) (v := v)
    (P := fun k _ e => e.kind = .echo (if k < 8 then .receiving (lowBits 8 v k) k else .sending v 0))
    (fun k hk e n t _ hp he => by
      rw [if_pos hk] at he
      rw [Device.through_echo_receiving hp he (by split <;> omega)]
      have bit : decide ((if v.getLsbD k then 6 else 70) < 15) = v.getLsbD k := by cases v.getLsbD k <;> rfl
      simp only [Echo.slot, bit, lowBits_or_bitAt]
      by_cases last : 8 ≤ k + 1
      · obtain rfl : k = 7 := by omega
        rw [if_pos last, if_neg (by omega), lowBits_width]
      · rw [if_neg last, if_pos (by omega)])
    h (by rw [hk, if_pos (by omega), lowBits_zero])
  exact move

/-- The echo device sends the byte it has received (rule R335). -/
theorem Solo.readByte_echo {d : Device} {s : State} {v : Byte} (h : Solo g d s) (hk : d.kind = .echo (.sending v 0)) :
    (run readByteProgram s).shift = some v := by
  obtain ⟨-, -, -, hs⟩ := Solo.readBits (g := g) (v := v) (P := fun k e => k < 8 → e.kind = .echo (.sending v k))
    (fun k hk e t hp he => by
      obtain ⟨through, sampled⟩ := Device.through_echo_sending hp (he hk)
      exact ⟨fun last => by rw [through, if_neg (by omega)], sampled⟩)
    h (fun _ => hk)
  exact hs

end

/-- An accepted Bus Driver request leaves the line at rest, with the device as its program left it. -/
theorem Solo.exec_bus {i : Instr} {g : Nat} {d : Device} {s : State} (hs : Solo g d (afterBus i s)) (hb : isBusProgram i = true)
    (h : Ready i s) : ∃ t, exec i s = .next t ∧ Rest g d t := by
  have kinds : needsBinding i = true ∧ drivesLine i = true := by cases i <;> first | exact ⟨rfl, rfl⟩ | cases hb
  exact ⟨_, exec_bus_of_ready hb h, hs.respond (bound_afterBus h kinds.1) (copyUntil_afterBus h kinds.2) _⟩

/-- Settles O51: the device receives the byte in eight slots and sends it in the next eight. -/
theorem loopBack : Obligations.LoopBack := by
  intro s g d m v h he hm hb hd hp hk
  obtain ⟨d1, reset, -, idle, -⟩ := solo_afterReset h he hm hb hd hp
  have solo1 : Solo g d1 (afterBus .resetPulse s) := by
    rw [afterBus, busProgram, run_append]
    exact reset.register fun _ => ⟨rfl, id, rfl, rfl, rfl, rfl, rfl, rfl⟩
  obtain ⟨s1, exec1, rest1⟩ := solo1.exec_bus rfl h
  have ready1 := rest1.ready (i := .writeByte v) rfl
  obtain ⟨d2, solo2, sending⟩ := (rest1.accept (.writeByte v)).writeByte_echo (idle m hk) v
  obtain ⟨s2, exec2, rest2⟩ := Solo.exec_bus (i := .writeByte v) solo2 rfl ready1
  have ready2 := rest2.ready (i := .readByte) rfl
  have shift := (rest2.accept .readByte).readByte_echo sending
  refine ⟨s1, s2, _, exec1, exec2, exec_bus_of_ready rfl ready2, ?_⟩
  have running := run_running ready2.undisturbed_accept ready2.running_accept nested_readByteProgram
  rw [respond_byteOut, afterBus, busProgram, run_append, run_cons_running _ _ running]
  exact shift

end Sys2Proof.Machine
end

section
/-! PROOFS. The reference device: function commands, Write Scratchpad, the command bytes as instructions, and what a device drives in
a slot (45_reference_device.md sections 2 to 4). -/

namespace Sys2Proof.Machine

/-! ### A function command in WAIT_FN -/

/-- A conversion lasts at most `T_CONV` (rule R321). -/
theorem Ds18b20.conversionTime_bounds (x : Ds18b20) : 0 < x.conversionTime ∧ x.conversionTime ≤ 750000 := by
  have bound := Nat.mod_lt ((x.script.conversion.map (· - 1)).getD (Config.freeConversion x.rom x.draws)) (show 0 < Config.tConv by decide)
  have h : Config.tConv = 750000 := rfl
  unfold Ds18b20.conversionTime
  omega

/-- A commit lasts at most `T_COPY` (rule R323). -/
theorem Ds18b20.copyTime_bounds (x : Ds18b20) : 0 < x.copyTime ∧ x.copyTime ≤ 10000 := by
  have bound := Nat.mod_lt ((x.script.copy.map (· - 1)).getD (Config.freeCopy x.rom x.draws)) (show 0 < Config.tCopy by decide)
  have h : Config.tCopy = 10000 := rfl
  unfold Ds18b20.copyTime
  omega

/-- Where a byte in WAIT_FN leads (rules R319 to R326). -/
def functionCommandNext (v : Byte) : Pos :=
  if v = 0x4E then .rxWsp 0 0 else if v = 0xBE then .tx .scratchpad 0 else if v = 0xB4 then .tx .power 0
  else if v = 0x44 ∨ v = 0x48 ∨ v = 0xB8 then .ignore else .unknown

/-- The device `x` that held the byte `v` in WAIT_FN has taken it, and is `y` (rules R319 to R326). -/
structure TookFunction (v : Byte) (x y : Ds18b20) : Prop where
  rom : y.rom = x.rom
  power : y.power = x.power
  ee : y.ee = x.ee
  script : y.script = x.script
  slotEnd : y.slotEnd = x.slotEnd
  pos : y.pos = functionCommandNext v
  sp : y.sp = if v = 0xB8 then { x.sp with th := x.ee.th, tl := x.ee.tl, config := x.ee.cfg } else x.sp
  convert : v = 0x44 → ∃ c raw, 0 < c ∧ c ≤ 750000 ∧ y.act = .converting (x.slotEnd + c) raw ∧ ∀ r, x.script.raw = some r → raw = r
  copy : v = 0x48 → ∃ e, 0 < e ∧ e ≤ 10000 ∧ y.act = .copying (x.slotEnd + e)
  act : v ≠ 0x44 → v ≠ 0x48 → y.act = x.act

theorem functionCommandNext_of_error {v : Byte} {err : DecodeError} (hd : decodeWire v = .error err) :
    functionCommandNext v = .unknown := by
  have none : ¬ (v = 0x44 ∨ v = 0x48 ∨ v = 0xB8) :=
    not_or.mpr ⟨ne_of_decodeWire hd rfl, not_or.mpr ⟨ne_of_decodeWire hd rfl, ne_of_decodeWire hd rfl⟩⟩
  rw [functionCommandNext, if_neg (ne_of_decodeWire hd rfl), if_neg (ne_of_decodeWire hd rfl), if_neg (ne_of_decodeWire hd rfl),
    if_neg none]

/-- A command that changes the position alone. -/
theorem tookFunction_of_pos {v : Byte} (x : Ds18b20) (h44 : v ≠ 0x44) (h48 : v ≠ 0x48) (hB8 : v ≠ 0xB8) :
    TookFunction v x { x with pos := functionCommandNext v } where
  rom := rfl
  power := rfl
  ee := rfl
  script := rfl
  slotEnd := rfl
  pos := rfl
  sp := (if_neg hB8).symm
  convert h := absurd h h44
  copy h := absurd h h48
  act _ _ := rfl

section
variable {x : Ds18b20} {acc : Byte} {n : Nat} (hx : x.pos = .waitFn acc n)
include hx

/-- A ROM command byte in WAIT_FN is no function command (rule R326). -/
theorem Ds18b20.romCommand_waitFn (next : Pos) : x.romCommand next = { x with pos := .unknown } := by
  rw [Ds18b20.romCommand, hx]

/-- A function command in WAIT_FN is taken. -/
theorem Ds18b20.fnCommand_waitFn (f : Ds18b20 → Ds18b20) : x.fnCommand f = f x := by
  rw [Ds18b20.fnCommand, hx]

/-- A wire instruction in WAIT_FN. -/
theorem Ds18b20.take_waitFn {i : Instr} (hi : i.isRequest = false) : TookFunction (opByte i) x (x.take i) := by
  have move : ∀ {v : Byte} {y : Ds18b20}, y = { x with pos := functionCommandNext v } → v ≠ 0x44 → v ≠ 0x48 → v ≠ 0xB8 →
      TookFunction v x y := fun h h44 h48 hB8 => h ▸ tookFunction_of_pos x h44 h48 hB8
  cases i with
  | wConvertT =>
    rw [Ds18b20.take, Ds18b20.takeConvertT, Ds18b20.fnCommand_waitFn hx]
    obtain ⟨pos, le⟩ := x.conversionTime_bounds
    exact ⟨rfl, rfl, rfl, rfl, rfl, rfl, rfl,
      fun _ => ⟨x.conversionTime, x.sensor, pos, le, rfl, fun r hr => by rw [Ds18b20.sensor, hr]; rfl⟩,
      fun h => absurd h (by decide), fun h => absurd rfl h⟩
  | wCopyScratchpad =>
    rw [Ds18b20.take, Ds18b20.takeCopyScratchpad, Ds18b20.fnCommand_waitFn hx]
    obtain ⟨pos, le⟩ := x.copyTime_bounds
    exact ⟨rfl, rfl, rfl, rfl, rfl, rfl, rfl, fun h => absurd h (by decide), fun _ => ⟨x.copyTime, pos, le, rfl⟩,
      fun _ h => absurd rfl h⟩
  | wRecallEeprom =>
    rw [Ds18b20.take, Ds18b20.takeRecallEeprom, Ds18b20.fnCommand_waitFn hx]
    exact ⟨rfl, rfl, rfl, rfl, rfl, rfl, rfl, fun h => absurd h (by decide), fun h => absurd h (by decide), fun _ _ => rfl⟩
  | wWriteScratchpad | wReadScratchpad | wReadPowerSupply =>
    refine move ?_ (by decide) (by decide) (by decide)
    simp only [Ds18b20.take, Ds18b20.takeWriteScratchpad, Ds18b20.takeReadScratchpad, Ds18b20.takeReadPowerSupply,
      Ds18b20.fnCommand_waitFn hx]
    rfl
  | wReadRom | wMatchRom | wSkipRom | wAlarmSearch | wSearchRom =>
    exact move (x.romCommand_waitFn hx _) (by decide) (by decide) (by decide)
  | _ => cases hi

end

/-- A complete byte in WAIT_FN is decoded and taken (rule R326). -/
theorem Ds18b20.decodeCommand_waitFn {x : Ds18b20} {v : Byte} (hx : x.pos = .waitFn v 8) : TookFunction v x x.decodeCommand := by
  have complete : x.pos.command? = some v := by rw [hx]; rfl
  cases hd : decodeWire v with
  | ok i =>
    obtain ⟨hi, rfl⟩ := decodeWire_eq_ok hd
    rw [Ds18b20.decodeCommand_of_ok complete hd]
    exact Ds18b20.take_waitFn hx hi
  | error err =>
    rw [Ds18b20.decodeCommand_of_error complete hd, Ds18b20.takeUnknown, ← functionCommandNext_of_error hd]
    exact tookFunction_of_pos x (ne_of_decodeWire hd (i := .wConvertT) rfl) (ne_of_decodeWire hd (i := .wCopyScratchpad) rfl)
      (ne_of_decodeWire hd (i := .wRecallEeprom) rfl)

/-- Settles O41: the byte gathers bit by bit, and the eighth bit has it taken. -/
theorem functionCommandTable : Obligations.FunctionCommandTable := by
  intro x ends v hc hx
  have took := Ds18b20.decodeCommand_waitFn (x := x.atPos (ends 7) (.waitFn v 8)) rfl
  rw [GathersByte.receiveByte (.inr rfl) hc hx]
  exact ⟨_, rfl, took.rom, took.power, took.ee, took.slotEnd, took.pos, took.sp, took.convert, took.copy, took.act⟩

/-! ### Command bytes as instructions (30_encoding.md rule R110) -/

section
variable {b : Byte} {f : Ds18b20 → Ds18b20} {d : Device}

theorem Device.onCommand_of_pos {x : Ds18b20} (hk : d.kind = .ds18b20 x) (hx : x.pos.command? = some b) :
    d.onCommand b f = { d with kind := .ds18b20 (f x) } := by
  unfold Device.onCommand
  rw [hk]
  exact if_pos hx

theorem Device.onCommand_of_ne (h : d.command? ≠ some b) : d.onCommand b f = d := by
  unfold Device.onCommand
  split
  · next x hx => exact if_neg (by simpa [Device.command?, hx] using h)
  · rfl

theorem Pos.command?_waitRom (acc : Byte) {n : Nat} (h : 8 ≤ n) : (Pos.waitRom acc n).command? = some acc := if_pos h

theorem Pos.command?_waitFn (acc : Byte) {n : Nat} (h : 8 ≤ n) : (Pos.waitFn acc n).command? = some acc := if_pos h

end

/-- What a wire instruction makes of device `k`. -/
theorem onCommand_getElem? {s : State} {k : Nat} {d : Device} (h : s.devices[k]? = some d) (b : Byte) (f : Ds18b20 → Ds18b20) :
    (s.devices.map (Device.onCommand b f))[k]? = some (d.onCommand b f) := by
  rw [List.getElem?_map, h]
  rfl

/-- A wire instruction in WAIT_ROM moves the position by the table (rule R313). -/
theorem Ds18b20.take_of_waitRom {x : Ds18b20} {acc : Byte} {n : Nat} (hx : x.pos = .waitRom acc n) {i : Instr}
    (hi : i.isRequest = false) : x.take i = { x with pos := romCommandNext (opByte i) } := by
  have at' : x.atPos x.slotEnd (.waitRom acc n) = x := by rw [← hx]; rfl
  have move := x.take_waitRom x.slotEnd acc n hi
  rwa [at'] at move

/-- Settles O42: every device takes the instruction by itself. -/
theorem romCommandInstructions : Obligations.RomCommandInstructions := by
  intro i next s hmem
  have kinds : i.isRequest = false ∧ ∀ x : Ds18b20, x.take i = x.romCommand next := by
    simp only [List.mem_cons, Prod.mk.injEq, List.not_mem_nil, or_false] at hmem
    rcases hmem with ⟨rfl, rfl⟩ | ⟨rfl, rfl⟩ | ⟨rfl, rfl⟩ | ⟨rfl, rfl⟩ | ⟨rfl, rfl⟩ <;> exact ⟨rfl, fun _ => rfl⟩
  obtain ⟨wire, take⟩ := kinds
  refine ⟨_, exec_wire wire s, List.length_map .., fun k d hd => ⟨?_, ?_, fun hne => ?_⟩⟩
  · rintro x acc n hk hx hn rfl
    rw [onCommand_getElem? hd, Device.onCommand_of_pos hk (by rw [hx, Pos.command?_waitRom _ hn]), take, Ds18b20.romCommand, hx]
  · rintro x acc n hk hx hn rfl
    rw [onCommand_getElem? hd, Device.onCommand_of_pos hk (by rw [hx, Pos.command?_waitFn _ hn]), take, Ds18b20.romCommand_waitFn hx]
  · rw [onCommand_getElem? hd, Device.onCommand_of_ne hne]

/-- Settles O43: every device takes the instruction by itself. -/
theorem functionCommandInstructions : Obligations.FunctionCommandInstructions := by
  intro i next s hmem
  have kinds : i.isRequest = false ∧ functionCommandNext (opByte i) = next ∧ romCommandNext (opByte i) = .unknown
      ∧ (i = .wRecallEeprom ↔ opByte i = 0xB8) ∧ (i = .wConvertT ↔ opByte i = 0x44) ∧ (i = .wCopyScratchpad ↔ opByte i = 0x48) := by
    simp only [List.mem_cons, Prod.mk.injEq, List.not_mem_nil, or_false] at hmem
    rcases hmem with ⟨rfl, rfl⟩ | ⟨rfl, rfl⟩ | ⟨rfl, rfl⟩ | ⟨rfl, rfl⟩ | ⟨rfl, rfl⟩ | ⟨rfl, rfl⟩ <;> decide
  obtain ⟨wire, rfl, unknown, toRecall, toConvert, toCopy⟩ := kinds
  refine ⟨_, exec_wire wire s, List.length_map .., fun k d hd => ⟨?_, ?_, fun hne => ?_⟩⟩
  · rintro x acc n hk hx hn rfl
    have took := Ds18b20.take_waitFn hx wire
    refine ⟨x.take i, ?_, took.pos, took.rom, took.power, took.ee, took.slotEnd, ?_, fun h => ?_, fun h => took.copy (toCopy.mp h),
      fun h1 h2 => took.act (mt toConvert.mpr h1) (mt toCopy.mpr h2)⟩
    · rw [onCommand_getElem? hd, Device.onCommand_of_pos hk (by rw [hx, Pos.command?_waitFn _ hn])]
    · simp only [toRecall, took.sp]
    · obtain ⟨c, raw, pos, le, act, -⟩ := took.convert (toConvert.mp h)
      exact ⟨c, raw, pos, le, act⟩
  · rintro x acc n hk hx hn rfl
    rw [onCommand_getElem? hd, Device.onCommand_of_pos hk (by rw [hx, Pos.command?_waitRom _ hn]), Ds18b20.take_of_waitRom hx wire, unknown]
  · rw [onCommand_getElem? hd, Device.onCommand_of_ne hne]

/-! ### Write Scratchpad (rule R319) -/

/-- The scratchpad after `n` bits of TH, TL and CONFIG. -/
def Scratchpad.written (sp : Scratchpad) (th tl cfg : Byte) (n : Nat) : Scratchpad :=
  { sp with
    th := if 8 ≤ n then th else sp.th
    tl := if 16 ≤ n then tl else sp.tl
    config := if 24 ≤ n then cfg else sp.config }

/-- The three bytes that Write Scratchpad receives, as one register. -/
def wspWord (th tl cfg : Byte) : BitVec 24 := cfg ++ tl ++ th

theorem getLsbD_wspWord (th tl cfg : Byte) (k : Nat) : (wspWord th tl cfg).getLsbD k
    = if k < 8 then th.getLsbD k else if k < 16 then tl.getLsbD (k - 8) else cfg.getLsbD (k - 16) := by
  simp only [wspWord, BitVec.getLsbD_append]
  by_cases h8 : k < 8
  · simp [h8]
  · by_cases h16 : k < 16
    · simp [h8, h16, show k - 8 < 8 by omega]
    · simp [h8, h16, show ¬ k - 8 < 8 by omega, Nat.sub_sub]

/-- The three bytes travel as one register, its least significant bit first (20_memory.md rules R72, R73). -/
theorem bitsOf_wsp (th tl cfg : Byte) : bitsOf [th, tl, cfg] = (List.range 24).map (wspWord th tl cfg).getLsbD := by
  rw [show (wspWord th tl cfg).getLsbD = _ from funext (getLsbD_wspWord th tl cfg)]
  rfl

/-- Byte `k / 8` of the register is complete with bit `k + 7`. -/
theorem extract_lowBits_wsp (th tl cfg : Byte) :
    (lowBits 24 (wspWord th tl cfg) 8).extractLsb' 0 8 = th ∧ (lowBits 24 (wspWord th tl cfg) 16).extractLsb' 8 8 = tl
      ∧ (lowBits 24 (wspWord th tl cfg) 24).extractLsb' 16 8 = cfg := by
  have bit : ∀ n k, k < n → k < 24 → (lowBits 24 (wspWord th tl cfg) n).getLsbD k = (wspWord th tl cfg).getLsbD k := by
    intro n k hn hk
    simp [lowBits, hn, hk]
  refine ⟨BitVec.eq_of_getLsbD_eq fun j hj => ?_, BitVec.eq_of_getLsbD_eq fun j hj => ?_, BitVec.eq_of_getLsbD_eq fun j hj => ?_⟩
  · rw [BitVec.getLsbD_extractLsb', bit _ _ (by omega) (by omega), getLsbD_wspWord]
    simp [hj]
  · rw [BitVec.getLsbD_extractLsb', bit _ _ (by omega) (by omega), getLsbD_wspWord]
    simp [hj, show 8 + j < 16 by omega]
  · rw [BitVec.getLsbD_extractLsb', bit _ _ (by omega) (by omega), getLsbD_wspWord]
    simp [hj, show ¬ 16 + j < 8 by omega]

/-- The position of Write Scratchpad after `n` bits. -/
def wspPos (th tl cfg : Byte) (n : Nat) : Pos := if 24 ≤ n then .ignore else .rxWsp (lowBits 24 (wspWord th tl cfg) n) n

theorem wspPos_of_lt {th tl cfg : Byte} {n : Nat} (h : n < 24) : wspPos th tl cfg n = .rxWsp (lowBits 24 (wspWord th tl cfg) n) n :=
  if_neg (Nat.not_le.mpr h)

/-- A position of Write Scratchpad holds no complete command byte. -/
theorem wspPos_command? (th tl cfg : Byte) (n : Nat) : (wspPos th tl cfg n).command? = none := by
  unfold wspPos
  split <;> rfl

/-- A bit of Write Scratchpad is gathered, and the eighth of a byte stores it. -/
theorem Ds18b20.storeWsp_written {y : Ds18b20} {sp : Scratchpad} {th tl cfg : Byte} {n : Nat} (hn : n < 24)
    (hy : y.sp = sp.written th tl cfg n) : y.storeWsp (lowBits 24 (wspWord th tl cfg) (n + 1)) (n + 1)
      = { y with sp := sp.written th tl cfg (n + 1), pos := wspPos th tl cfg (n + 1) } := by
  obtain ⟨hth, htl, hcfg⟩ := extract_lowBits_wsp th tl cfg
  by_cases h8 : n + 1 = 8
  · obtain rfl : n = 7 := by omega
    simp [Ds18b20.storeWsp, Scratchpad.written, wspPos, hy, hth]
  · by_cases h16 : n + 1 = 16
    · obtain rfl : n = 15 := by omega
      simp [Ds18b20.storeWsp, Scratchpad.written, wspPos, hy, htl]
    · by_cases h24 : 24 ≤ n + 1
      · obtain rfl : n = 23 := by omega
        simp [Ds18b20.storeWsp, Scratchpad.written, wspPos, hy, hcfg]
      · have same8 : 8 ≤ n + 1 ↔ 8 ≤ n := by omega
        have same16 : 16 ≤ n + 1 ↔ 16 ≤ n := by omega
        have lt : ¬ 24 ≤ n := by omega
        simp [Ds18b20.storeWsp, Scratchpad.written, wspPos, hy, h8, h16, h24, same8, same16, lt]

theorem Ds18b20.moveBit_rxWsp {x : Ds18b20} {acc : BitVec 24} {n : Nat} {bit : Bool} (hx : x.pos = .rxWsp acc n) :
    x.moveBit bit = x.storeWsp (acc ||| bitAt 24 bit n) (n + 1) := by
  rw [Ds18b20.moveBit, hx]

/-- One slot of a device that does not commit: the position moves, and a complete command byte is decoded. -/
theorem Ds18b20.slot_of_idle {x : Ds18b20} (hc : x.copying = false) (e : Nat) (bit : Bool) :
    x.slot e bit = ((x.atPos e x.pos).moveBit bit).decodeCommand :=
  if_neg (Bool.eq_false_iff.mp hc)

/-- A slot of Write Scratchpad, at a device that does not commit. -/
theorem Ds18b20.moveBit_wsp {y : Ds18b20} {sp : Scratchpad} {th tl cfg : Byte} {n : Nat} (hn : n < 24)
    (hp : y.pos = wspPos th tl cfg n) (hy : y.sp = sp.written th tl cfg n) :
    (y.moveBit ((wspWord th tl cfg).getLsbD n)).decodeCommand
      = { y with sp := sp.written th tl cfg (n + 1), pos := wspPos th tl cfg (n + 1) } := by
  rw [Ds18b20.moveBit_rxWsp (hp.trans (wspPos_of_lt hn)), lowBits_or_bitAt, Ds18b20.storeWsp_written hn hy]
  exact Ds18b20.decodeCommand_of_none (wspPos_command? th tl cfg (n + 1))

/-- Write Scratchpad cut short after `n` bits, or complete. -/
theorem Ds18b20.receiveBits_wsp {x : Ds18b20} (hc : x.copying = false) (hx : x.pos = .rxWsp 0 0) (ends : Nat → Nat)
    (th tl cfg : Byte) {n : Nat} (hn : n ≤ 24) :
    ∃ e, x.receiveBits ends ((List.range n).map (wspWord th tl cfg).getLsbD)
      = { x with sp := x.sp.written th tl cfg n, slotEnd := e, pos := wspPos th tl cfg n } := by
  induction n with
  | zero => exact ⟨x.slotEnd, by rw [wspPos_of_lt (by omega), lowBits_zero, ← hx]; rfl⟩
  | succ n ih =>
    obtain ⟨e, he⟩ := ih (by omega)
    refine ⟨ends n, ?_⟩
    rw [Ds18b20.receiveBits_range_succ, he]
    refine (Ds18b20.slot_of_idle ?_ (ends n) _).trans (Ds18b20.moveBit_wsp (by omega) rfl rfl)
    exact hc

/-- Settles O45: each bit is gathered, and each eighth one stores its byte. -/
theorem writeScratchpadStores : Obligations.WriteScratchpadStores := by
  intro x ends th tl cfg n hc hx hn
  obtain ⟨e, he⟩ := Ds18b20.receiveBits_wsp hc hx ends th tl cfg hn
  have bits : (bitsOf [th, tl, cfg]).take n = (List.range n).map (wspWord th tl cfg).getLsbD := by
    rw [bitsOf_wsp, ← List.map_take, List.take_range, Nat.min_eq_left hn]
  rw [bits, he]
  exact ⟨_, rfl, rfl, rfl, rfl, fun h => if_pos (by omega)⟩

/-! ### What a device drives in a slot (rule R311) -/

/-- After its presence pulse a device drives the line low in the window it holds, and nowhere else. -/
theorem Device.drivesLow_of_clear {d : Device} {u : Nat} (hp : ∀ e, d.presence = some e → e + 150 ≤ u) :
    d.drivesLow u = true ↔ ∃ a b, d.hold = some (a, b) ∧ a ≤ u ∧ u < b := by
  rw [Device.drivesLow, Device.lowSince, Device.presenceSince_of_clear hp, Device.holdSince]
  cases d.hold with
  | none => simp
  | some w =>
    obtain ⟨a, b⟩ := w
    by_cases h : a ≤ u ∧ u < b <;> simp [h]

/-- A device that sends `bit` in the slot that falls at `n`. -/
theorem Device.fall_drivesLow_of_send {d : Device} {n u : Nat} {bit : Bool} (hh : (d.fall n).hold = sendWindow n bit)
    (hp : ∀ e, d.presence = some e → e + 150 ≤ n) (hu : n ≤ u) :
    (d.fall n).drivesLow u = true ↔ bit = false ∧ u < n + 45 := by
  rw [Device.drivesLow_of_clear fun e he => by have := hp e (by simpa using he); omega, hh]
  cases bit <;> simp [sendWindow, Config.zeroHold, hu]

/-- The positions that receive, in which a device that does not commit drives nothing (rule R311). -/
def Pos.receives : Pos → Bool
  | .waitRom _ _ | .waitFn _ _ | .matching _ _ | .rxWsp _ _ | .ignore => true
  | .tx _ _ | .search | .unknown => false

theorem Ds18b20.fall_of_receives {x : Ds18b20} (hc : x.copying = false) (n : Nat) (hx : x.pos.receives = true) :
    x.fall n = (none, x) := by
  unfold Ds18b20.fall
  rw [if_neg (by simp [hc])]
  cases hp : x.pos <;> rw [hp] at hx <;> first | rfl | cases hx

section
variable {d : Device} {x : Ds18b20} (hk : d.kind = .ds18b20 x) (hc : x.copying = false) (n : Nat)
include hk hc

/-- The window of a DS18B20 that sends. -/
theorem Device.fall_hold_of_tx {src : TxSource} {k : Nat} (hx : x.pos = .tx src k) : (d.fall n).hold = sendWindow n (x.txBit src k) := by
  simp [Device.fall, hk, Ds18b20.fall, hc, hx]

/-- A DS18B20 that receives holds nothing. -/
theorem Device.fall_of_receives (hx : x.pos.receives = true) : d.fall n = { d with hold := none } := by
  obtain ⟨pin, presence, hold, kind⟩ := d
  obtain rfl : kind = .ds18b20 x := hk
  rw [Device.fall]
  dsimp only
  rw [Ds18b20.fall_of_receives hc n hx]

end

/-- Settles O48: a device that sends 0 has the window of 45 µs, every other device none. -/
theorem sendingDeviceHoldsZero : Obligations.SendingDeviceHoldsZero := by
  intro d x n u hk hc hp hu
  have send : ∀ {src k}, x.pos = .tx src k → ((d.fall n).drivesLow u = true ↔ x.txBit src k = false ∧ u < n + 45) :=
    fun hx => Device.fall_drivesLow_of_send (Device.fall_hold_of_tx hk hc n hx) hp hu
  refine ⟨fun k hx => send hx, fun k hx => ?_, fun k hx hfree => ?_, fun hx => ?_⟩
  · rw [send hx]
    cases hpow : x.power <;> simp [Ds18b20.txBit, hpow]
  · rw [send hx]
    have free : (x.converting && decide (k < 16)) = false := by
      rcases hfree with h | h
      · simp [h]
      · simp [show ¬ k < 16 by omega]
    simp [Ds18b20.txBit, free]
  · have receives : x.pos.receives = true := by
      rcases hx with ⟨acc, k, hx | hx⟩ | ⟨k, ok, hx⟩ | ⟨acc, k, hx⟩ | hx <;> rw [hx] <;> rfl
    rw [Bool.eq_false_iff, Ne, Device.drivesLow_of_clear fun e he => by have := hp e (by simpa using he); omega,
      Device.fall_of_receives hk hc n receives]
    simp

end Sys2Proof.Machine
end

section
/-! PROOFS. One DS18B20 on the line through the frames of a request: what it receives, what it sends, and what the host then has
(42_rom_commands.md section 2, 43_function_commands.md sections 2 to 4 and 7). -/

namespace Sys2Proof.Machine

/-! ### A DS18B20 at two moments -/

/-- `y` is the device `x` at another moment: what never changes is the same, and what a conversion or a commit would change is the
same where none runs. -/
structure Alike (x y : Ds18b20) : Prop where
  rom : y.rom = x.rom
  power : y.power = x.power
  script : y.script = x.script
  idle : x.copying = false → y.copying = false
  still : x.act = .none → y.act = .none ∧ y.sp = x.sp ∧ y.ee = x.ee

theorem Alike.refl (x : Ds18b20) : Alike x x := ⟨rfl, rfl, rfl, id, fun h => ⟨h, rfl, rfl⟩⟩

theorem Alike.trans {x y z : Ds18b20} (h : Alike x y) (k : Alike y z) : Alike x z where
  rom := k.rom.trans h.rom
  power := k.power.trans h.power
  script := k.script.trans h.script
  idle hc := k.idle (h.idle hc)
  still ha := by
    obtain ⟨act, sp, ee⟩ := h.still ha
    obtain ⟨act', sp', ee'⟩ := k.still act
    exact ⟨act', sp'.trans sp, ee'.trans ee⟩

theorem Alike.settle (n : Nat) (x : Ds18b20) : Alike x (x.settle n) := by
  obtain ⟨-, rom, power, script, -, idle, still⟩ := Ds18b20.settle_parts n x
  exact ⟨rom, power, script, idle, fun h => by rw [still h]; exact ⟨h, rfl, rfl⟩⟩

theorem Alike.fall (n : Nat) (x : Ds18b20) : Alike x (x.fall n).2 := by
  obtain ⟨-, rom, power, script, -, act, sp, ee⟩ := Ds18b20.fall_parts n x
  exact ⟨rom, power, script, fun h => by simpa [Ds18b20.copying, act] using h, fun h => ⟨act.trans h, sp, ee⟩⟩

theorem Alike.atPos (e : Nat) (p : Pos) (x : Ds18b20) : Alike x (x.atPos e p) := ⟨rfl, rfl, rfl, id, fun h => ⟨h, rfl, rfl⟩⟩

/-- What the reset of a transaction leaves. -/
theorem AfterReset.alike {d e : Device} (h : AfterReset d e) {x : Ds18b20} (hk : d.kind = .ds18b20 x) :
    ∃ y, e.kind = .ds18b20 y ∧ Alike x y ∧ y.pos = .waitRom 0 0 := by
  obtain ⟨-, ds, -⟩ := h
  obtain ⟨y, hy, pos, rom, power, script, idle, still⟩ := ds x hk
  exact ⟨y, hy, ⟨rom, power, script, idle, still⟩, pos⟩

/-! ### One slot of a DS18B20 -/

section
variable {d : Device} {x : Ds18b20} {t : Nat} (hk : d.kind = .ds18b20 x) (hc : x.copying = false)
  (hp : ∀ e, d.presence = some e → e + 150 ≤ t)
include hk

/-- The device at the falling edge of a slot, and what it drives. -/
theorem Device.fall_settle_ds18b20 : (d.settle t).fall t
    = { d with hold := ((x.settle t).fall t).1, kind := .ds18b20 ((x.settle t).fall t).2 } := by
  simp [Device.settle, Device.fall, hk]

include hc

/-- The slot of a device that receives ends with the engine's release. -/
theorem Device.riseIn_of_receives (hx : x.pos.receives = true) (low : Nat) : d.riseIn t low = t + low := by
  obtain ⟨pos, -, -, -, -, idle, -⟩ := Ds18b20.settle_parts t x
  rw [Device.riseIn, Device.fall_settle_ds18b20 hk, Ds18b20.fall_of_receives (idle hc) t (pos ▸ hx)]
  simp

/-- The level that a read slot samples of a device that sends. -/
theorem Device.sampledIn_of_tx {src : TxSource} {k : Nat} (hx : x.pos = .tx src k) :
    d.sampledIn t = if (x.settle t).txBit src k then .high else .low := by
  obtain ⟨pos, -, -, -, -, idle, -⟩ := Ds18b20.settle_parts t x
  have settled : (d.settle t).kind = .ds18b20 (x.settle t) := by simp [Device.settle, hk]
  rw [Device.sampledIn, Device.fall_hold_of_tx settled (idle hc) t (pos.trans hx)]
  cases (x.settle t).txBit src k <;> simp [sendWindow, Config.zeroHold]

include hp

/-- A slot moves the position of a device by one bit, and a complete command byte is decoded. -/
theorem Device.through_ds18b20 {low : Nat} (hl : low ≤ 71) :
    ∃ y, Alike x y ∧ y.pos = x.pos ∧ y.slotEnd = t + 71
      ∧ (d.through t low).kind = .ds18b20 (((y.moveBit (decide (d.riseIn t low - t < 15))).decodeCommand).settle (t + 71)) := by
  have rise : d.riseIn t low ≤ t + 71 := by
    rw [Device.riseIn]
    cases hh : ((d.settle t).fall t).hold with
    | none => simp; omega
    | some w =>
      have := (Device.fall_hold_within t (d.settle t) (a := w.1) (b := w.2) hh).2
      simp only [Option.map_some, Option.getD_some]
      omega
  rw [Device.through, Device.inSlot_from rise, Device.fall_settle_ds18b20 hk]
  generalize d.riseIn t low = r at rise
  have alike : Alike x (((x.settle t).fall t).2.settle r) := ((Alike.settle t x).trans (Alike.fall t _)).trans (Alike.settle r _)
  have pos : (((x.settle t).fall t).2.settle r).pos = x.pos := by
    rw [(Ds18b20.settle_parts r _).1, (Ds18b20.fall_parts t _).1, (Ds18b20.settle_parts t x).1]
  generalize ((x.settle t).fall t).2 = z at alike pos ⊢
  refine ⟨(z.settle r).atPos (t + 71) (z.settle r).pos, alike.trans (Alike.atPos _ _ _), pos, rfl, ?_⟩
  have apart : ∀ h, ({ d with hold := h, kind := .ds18b20 (z.settle r) } : Device).presenceOverlaps t r = false :=
    fun _ => Device.presenceOverlaps_of_clear hp r
  have slotEnd : max (t + Config.tBit) r = t + 71 := Nat.max_eq_left rise
  have slot := Ds18b20.slot_of_idle (alike.idle hc) (t + 71) (decide (r - t < 15))
  simp only [Device.settle, Device.slot, apart, Bool.false_eq_true, if_false, slotEnd]
  exact congrArg (fun y : Ds18b20 => DeviceKind.ds18b20 (y.settle (t + 71))) slot

/-- A write slot at a device that receives: the bit is the one the engine sends. -/
theorem Device.through_of_receives (hx : x.pos.receives = true) (b : Bool) :
    ∃ y, Alike x y ∧ y.pos = x.pos ∧ y.slotEnd = t + 71
      ∧ (d.through t (if b then 6 else 70)).kind = .ds18b20 (((y.moveBit b).decodeCommand).settle (t + 71)) := by
  obtain ⟨y, alike, pos, slotEnd, kind⟩ := Device.through_ds18b20 hk hc hp (low := if b then 6 else 70) (by split <;> omega)
  have bit : decide (d.riseIn t (if b then 6 else 70) - t < 15) = b := by
    rw [Device.riseIn_of_receives hk hc hx, Nat.add_sub_cancel_left]
    cases b <;> rfl
  rw [bit] at kind
  exact ⟨y, alike, pos, slotEnd, kind⟩

/-- A read slot at a device that sends: it goes on to the next bit. -/
theorem Device.through_of_tx {src : TxSource} {k : Nat} (hx : x.pos = .tx src k) :
    ∃ y, Alike x y ∧ y.pos = (if src.bits ≤ k + 1 then src.next else .tx src (k + 1)) ∧ (d.through t 6).kind = .ds18b20 y := by
  obtain ⟨y, alike, pos, -, kind⟩ := Device.through_ds18b20 hk hc hp (low := 6) (by omega)
  have move : ∀ bit, y.moveBit bit = y.atPos y.slotEnd (if src.bits ≤ k + 1 then src.next else .tx src (k + 1)) := by
    intro bit
    rw [Ds18b20.moveBit, pos.trans hx]
    rfl
  have none : (if src.bits ≤ k + 1 then src.next else .tx src (k + 1) : Pos).command? = none := by
    split
    · cases src <;> rfl
    · rfl
  rw [move, Ds18b20.decodeCommand_of_none none] at kind
  exact ⟨_, (alike.trans (Alike.atPos _ _ y)).trans (Alike.settle (t + 71) _), (Ds18b20.settle_parts _ _).1, kind⟩

end

/-! ### A command byte -/

/-- The device `e` gathers the byte `v` in the position `p`, with `k` bits in; at the time `n` of the eighth it has decoded it. -/
def Gathering (p : Byte → Nat → Pos) (v : Byte) (x : Ds18b20) (k n : Nat) (e : Device) : Prop :=
  if k < 8 then ∃ y, e.kind = .ds18b20 y ∧ Alike x y ∧ y.pos = p (lowBits 8 v k) k
  else ∃ y, e.kind = .ds18b20 (y.decodeCommand.settle n) ∧ Alike x y ∧ y.pos = p v 8 ∧ y.slotEnd = n

section
variable {g : Nat} {d : Device} {s : State} {x : Ds18b20} (h : Solo g d s) (hk : d.kind = .ds18b20 x) (hc : x.copying = false)
include h hk hc

/-- A device gathers a written byte and decodes it. -/
theorem Solo.gather {p : Byte → Nat → Pos} (hp : GathersByte p) (hx : x.pos = p 0 0) (v : Byte) :
    ∃ e y, Solo g e (run (writeByteProgram v) s) ∧ e.kind = .ds18b20 (y.decodeCommand.settle (run (writeByteProgram v) s).now)
      ∧ Alike x y ∧ y.pos = p v 8 ∧ y.slotEnd = (run (writeByteProgram v) s).now := by
  obtain ⟨e, solo, last⟩ := Solo.writeBits (g := g) (v := v) (P := Gathering p v x) (fun k hk8 e n t _ clear he => by
      obtain ⟨y, kind, alike, pos⟩ := (if_pos hk8).mp he
      have receives : y.pos.receives = true := by rcases hp with rfl | rfl <;> rw [pos] <;> rfl
      obtain ⟨z, alike', pos', slotEnd, through⟩ := Device.through_of_receives kind (alike.idle hc) clear receives (v.getLsbD k)
      have move : z.moveBit (v.getLsbD k) = z.atPos z.slotEnd (p (lowBits 8 v (k + 1)) (k + 1)) := by
        rw [← lowBits_or_bitAt, ← hp.moveBit, ← pos, ← pos']
        rfl
      rw [move] at through
      have moved := (alike.trans alike').trans (Alike.atPos z.slotEnd (p (lowBits 8 v (k + 1)) (k + 1)) z)
      by_cases last : k + 1 < 8
      · rw [Ds18b20.decodeCommand_of_none (hp.command?_eq_none _ last)] at through
        exact (if_pos last).mpr ⟨_, through, moved.trans (Alike.settle _ _), (Ds18b20.settle_parts _ _).1⟩
      · obtain rfl : k = 7 := by omega
        exact (if_neg last).mpr ⟨_, through, moved, by rw [lowBits_width]; rfl, slotEnd⟩)
    h ((if_pos (by omega)).mpr ⟨x, hk, .refl x, by rw [lowBits_zero, hx]⟩)
  obtain ⟨y, kind, alike, pos, slotEnd⟩ := (if_neg (by omega)).mp last
  exact ⟨e, y, solo, kind, alike, pos, slotEnd⟩

/-- A ROM command byte moves the position by the table (rule R313). -/
theorem Solo.romCommand (hx : x.pos = .waitRom 0 0) (v : Byte) :
    ∃ e y, Solo g e (run (writeByteProgram v) s) ∧ e.kind = .ds18b20 y ∧ Alike x y ∧ y.pos = romCommandNext v := by
  obtain ⟨e, y, solo, kind, alike, pos, -⟩ := h.gather hk hc (.inl rfl) hx v
  have decoded : y.decodeCommand = y.atPos y.slotEnd (romCommandNext v) := by
    rw [← y.decodeCommand_waitRom, ← pos]
    rfl
  rw [decoded] at kind
  exact ⟨e, _, solo, kind, (alike.trans (Alike.atPos _ _ y)).trans (Alike.settle _ _), (Ds18b20.settle_parts _ _).1⟩

/-- A function command byte is taken at the end of its last slot (rules R319 to R326). -/
theorem Solo.functionCommand (hx : x.pos = .waitFn 0 0) (v : Byte) :
    ∃ e y z, Solo g e (run (writeByteProgram v) s) ∧ e.kind = .ds18b20 (z.settle (run (writeByteProgram v) s).now)
      ∧ Alike x y ∧ y.slotEnd = (run (writeByteProgram v) s).now ∧ TookFunction v y z := by
  obtain ⟨e, y, solo, kind, alike, pos, slotEnd⟩ := h.gather hk hc (.inr rfl) hx v
  exact ⟨e, y, _, solo, kind, alike, slotEnd, Ds18b20.decodeCommand_waitFn pos⟩

/-- A function command that starts nothing and stores nothing. -/
theorem Solo.plainFunctionCommand (hx : x.pos = .waitFn 0 0) {v : Byte} (h44 : v ≠ 0x44) (h48 : v ≠ 0x48) (hB8 : v ≠ 0xB8) :
    ∃ e y, Solo g e (run (writeByteProgram v) s) ∧ e.kind = .ds18b20 y ∧ Alike x y ∧ y.pos = functionCommandNext v := by
  obtain ⟨e, y, z, solo, kind, alike, -, took⟩ := h.functionCommand hk hc hx v
  have act := took.act h44 h48
  have sp : z.sp = y.sp := took.sp.trans (if_neg hB8)
  have taken : Alike y z :=
    ⟨took.rom, took.power, took.script, fun hi => by simpa [Ds18b20.copying, act] using hi, fun ha => ⟨act.trans ha, sp, took.ee⟩⟩
  exact ⟨e, _, solo, kind, (alike.trans taken).trans (Alike.settle _ _), (Ds18b20.settle_parts _ _).1.trans took.pos⟩

end

/-! ### What a device sends -/

/-- The position of a device that has sent `k` bits. -/
def txPos (src : TxSource) (k : Nat) : Pos := if src.bits ≤ k then src.next else .tx src k

/-- The device `e` is `x` after it has sent `k` bits. -/
def Sending (src : TxSource) (x : Ds18b20) (k : Nat) (e : Device) : Prop :=
  ∃ y, e.kind = .ds18b20 y ∧ Alike x y ∧ y.pos = txPos src k

section
variable {g : Nat} {src : TxSource} {x : Ds18b20} (hc : x.copying = false)
include hc

/-- A read slot at a device that sends: the next bit, and the level sampled. -/
theorem Sending.through {k : Nat} (hk : k < src.bits) {d : Device} {t : Nat} (hp : ∀ e, d.presence = some e → e + 150 ≤ t)
    (h : Sending src x k d) : Sending src x (k + 1) (d.through t 6)
      ∧ ∃ y, Alike x y ∧ d.sampledIn t = if y.txBit src k then .high else .low := by
  obtain ⟨y, kind, alike, pos⟩ := h
  rw [txPos, if_neg (by omega)] at pos
  obtain ⟨z, alike', pos', through⟩ := Device.through_of_tx kind (alike.idle hc) hp pos
  exact ⟨⟨z, through, alike.trans alike', pos'⟩, _, alike.trans (Alike.settle t y), Device.sampledIn_of_tx kind (alike.idle hc) pos⟩

/-- A received byte of what a device sends. -/
theorem Solo.readByte_sending {d : Device} {s : State} (h : Solo g d s) {j : Nat} {v : Byte} (hj : 8 * (j + 1) ≤ src.bits)
    (hd : Sending src x (8 * j) d) (hbit : ∀ y, Alike x y → ∀ k < 8, y.txBit src (8 * j + k) = v.getLsbD k) :
    ∃ e, Solo g e (run readByteProgram s) ∧ Sending src x (8 * (j + 1)) e ∧ (run readByteProgram s).shift = some v := by
  have slots := Solo.readBits (g := g) (v := v) (P := fun k e => Sending src x (8 * j + k) e) (fun k hk e t hp he => by
      obtain ⟨next, y, alike, sampled⟩ := he.through hc (by omega) hp
      exact ⟨next, by rw [sampled, hbit y alike k hk]⟩)
    h hd
  exact slots

/-- The bytes that a device sends, received one after another into the cells of a buffer. -/
theorem Solo.receive {w : Nat} (cells : State → Buffer w) (store : Nat → Micro) {byte : Nat → Byte}
    (hstore : ∀ {d k u}, Solo g d u → Solo g d (run [store k] u) ∧ cells (run [store k] u) = memWrite (cells u) k (u.shift.getD 0))
    (hkeep : ∀ u, u.resetsAt = [] → cells (run readByteProgram u) = cells u)
    (hindex : ∀ k u, cells ((Micro.byteIndex k).exec u) = cells u)
    (hbit : ∀ y, Alike x y → ∀ j < w, ∀ k < 8, y.txBit src (8 * j + k) = (byte j).getLsbD k)
    {d : Device} {s : State} (h : Solo g d s) (hd : Sending src x 0 d) :
    ∀ n ≤ w, 8 * n ≤ src.bits → ∃ e,
      Solo g e (run ((List.range n).flatMap (fun k => .byteIndex k :: readByteProgram ++ [store k])) s) ∧ Sending src x (8 * n) e
      ∧ ∀ k < n, memRead (cells (run ((List.range n).flatMap (fun k => .byteIndex k :: readByteProgram ++ [store k])) s)) k
          = some (byte k) := by
  intro n
  induction n with
  | zero => exact fun _ _ => ⟨d, h, hd, fun _ hk => absurd hk (Nat.not_lt_zero _)⟩
  | succ n ih =>
    intro hw hb
    obtain ⟨e, solo, sending, got⟩ := ih (by omega) (by omega)
    rw [List.range_succ, List.flatMap_append, run_append, List.flatMap_singleton]
    generalize run ((List.range n).flatMap (fun k => .byteIndex k :: readByteProgram ++ [store k])) s = u at solo got ⊢
    obtain ⟨f, solo', sending', shift⟩ :=
      (solo.byteIndex n).readByte_sending hc hb sending (fun y alike k hk => hbit y alike n (by omega) k hk)
    have split : run (.byteIndex n :: readByteProgram ++ [store n]) u = run [store n] (run readByteProgram (run [.byteIndex n] u)) := by
      rw [← run_append, ← run_append]
      rfl
    obtain ⟨stored, written⟩ := hstore (k := n) solo'
    have old : cells (run readByteProgram (run [.byteIndex n] u)) = cells u := by
      rw [hkeep _ (solo.byteIndex n).live.undisturbed.1, run_cons_running _ _ solo.live.running]
      exact hindex n u
    rw [split]
    refine ⟨f, stored, sending', fun k hk => ?_⟩
    rw [written, shift, old]
    by_cases last : k = n
    · subst last
      exact memRead_memWrite_same _ _ _ (by omega)
    · rw [memRead_memWrite_other _ _ _ _ last]
      exact got k (by omega)

end

/-! ### What each source sends -/

theorem Alike.txBit_rom {x y : Ds18b20} (h : Alike x y) (j : Nat) {k : Nat} (hk : k < 8) :
    y.txBit .rom (8 * j + k) = (x.rom[j]?.getD 0).getLsbD k := by
  have div : (8 * j + k) / 8 = j := by omega
  have mod : (8 * j + k) % 8 = k := by omega
  rw [Ds18b20.txBit, romBit, h.rom, div, mod]

theorem Alike.spByte {x y : Ds18b20} (h : Alike x y) (ha : x.act = .none) (j : Nat) : y.spByte j = x.spByte j := by
  unfold Ds18b20.spByte Ds18b20.crcByte
  rw [(h.still ha).2.1, h.rom, h.script]

/-- A device in which nothing runs sends its scratchpad, and the CRC of it. -/
theorem Alike.txBit_scratchpad {x y : Ds18b20} (h : Alike x y) (ha : x.act = .none) (j : Nat) {k : Nat} (hk : k < 8) :
    y.txBit .scratchpad (8 * j + k) = (x.spByte j).getLsbD k := by
  have act := (h.still ha).1
  have div : (8 * j + k) / 8 = j := by omega
  have mod : (8 * j + k) % 8 = k := by omega
  simp [Ds18b20.txBit, Ds18b20.converting, act, div, mod, h.spByte ha]

theorem copying_of_act {x : Ds18b20} (h : x.act = .none) : x.copying = false := by
  simp [Ds18b20.copying, h]

section
variable {g : Nat} {d : Device} {s : State} (h : Solo g d s) {x : Ds18b20} (hk : d.kind = .ds18b20 x)
include h hk

/-- READ_ROM's data: the ROM code (rule R235). -/
theorem Solo.receiveRom (hc : x.copying = false) (hx : x.pos = .tx .rom 0) :
    ∃ e, Solo g e (run receiveRom s) ∧ ∀ k < 8, memRead (run Machine.receiveRom s).romOut k = some (x.rom[k]?.getD 0) := by
  obtain ⟨e, solo, -, got⟩ := Solo.receive (src := .rom) hc State.romOut .storeRom (byte := fun k => x.rom[k]?.getD 0)
    (fun {d k u} hu => ⟨hu.storeRom k, by rw [run_cons_running _ _ hu.live.running]; rfl⟩)
    (fun u hu => (run_cells readByteProgram hu).romOut readByteProgram_noStores.1) (fun _ _ => rfl)
    (fun y alike j _ k hk8 => alike.txBit_rom j hk8) h ⟨x, hk, .refl x, hx⟩ 8 (Nat.le_refl _) (Nat.le_refl _)
  exact ⟨e, solo, got⟩

/-- READ_SCRATCHPAD's data: the scratchpad and its CRC (rule R266). -/
theorem Solo.receiveScratchpad (ha : x.act = .none) (hx : x.pos = .tx .scratchpad 0) :
    ∃ e, Solo g e (run receiveScratchpad s) ∧ ∀ k < 9, memRead (run Machine.receiveScratchpad s).spOut k = some (x.spByte k) := by
  obtain ⟨e, solo, -, got⟩ := Solo.receive (src := .scratchpad) (copying_of_act ha) State.spOut .storeSp (byte := x.spByte)
    (fun {d k u} hu => ⟨hu.storeSp k, by rw [run_cons_running _ _ hu.live.running]; rfl⟩)
    (fun u hu => (run_cells readByteProgram hu).spOut readByteProgram_noStores.2) (fun _ _ => rfl)
    (fun y alike j _ k hk8 => alike.txBit_scratchpad ha j hk8) h ⟨x, hk, .refl x, hx⟩ 9 (Nat.le_refl _) (Nat.le_refl _)
  exact ⟨e, solo, got⟩

/-- READ_POWER_SUPPLY's data: one slot (rule R272). -/
theorem Solo.readPower (hc : x.copying = false) (hx : x.pos = .tx .power 0) :
    ∃ e, Solo g e (run (readSlot ++ [.storeBit]) s) ∧ (run (readSlot ++ [.storeBit]) s).bitOut = some (decide (x.power = .ext)) := by
  obtain ⟨read, sample⟩ := h.read
  obtain ⟨-, y, alike, level⟩ := Sending.through (src := .power) (k := 0) hc Nat.one_pos h.clear ⟨x, hk, .refl x, hx⟩
  rw [run_append]
  refine ⟨_, read.storeBit, ?_⟩
  rw [run_cons_running _ _ read.live.running]
  change some (State.sampledBit _) = _
  rw [State.sampledBit, sample, level, Option.getD_some, Ds18b20.txBit, alike.power]
  cases decide (x.power = .ext) <;> rfl

end

/-! ### A transaction with one DS18B20 -/

/-- Only COPY_SCRATCHPAD's frame opens the commit window (43_function_commands.md rule R268). -/
theorem startCopy_notMem_frameProgram {i : Instr} (h : ∀ a, i ≠ .copyScratchpad a) (s : State) : .startCopy ∉ frameProgram i s := by
  have send : .startCopy ∉ sendProgram s i := fun hm => by
    have := List.all_eq_true.mp (plain_sendProgram s i) _ hm
    cases this
  have bytes : .startCopy ∉ readByteProgram := by decide
  have slot : .startCopy ∉ readSlot := by decide
  have data : .startCopy ∉ dataProgram i := by
    cases i with
    | copyScratchpad a => exact absurd rfl (h a)
    | readRom => simp [dataProgram, receiveRom, bytes]
    | readScratchpad a => simp [dataProgram, receiveScratchpad, bytes]
    | readPowerSupply a => simp [dataProgram, slot]
    | _ => exact List.not_mem_nil
  simp [frameProgram, send, data]

section
variable {i : Instr} {g : Nat} {s : State} {d e : Device} (hd : isDeviceProtocol i = true) (h : Ready i s)
include hd h

/-- The frame of a Device Protocol operation leaves the line at rest, with the device as it left it. -/
theorem Solo.rest_frame (hs : Solo g e (afterFrame i s)) (hi : ∀ a, i ≠ .copyScratchpad a) (st : Status) :
    Rest g e (answerWith st (cellsOf i) (afterFrame i s)) := by
  have kinds : needsBinding i = true ∧ drivesLine i = true := by cases i <;> first | exact ⟨rfl, rfl⟩ | cases hd
  rw [answerWith_eq]
  refine hs.respond (bound_afterFrame h kinds.1) ?_ _
  obtain ⟨-, -, -, -, reset⟩ := run_plain h.undisturbed_accept.1 plain_resetProgram
  rw [afterFrame, (run_cells _ (undisturbed_afterReset h).1).copyUntil (startCopy_notMem_frameProgram hi s), afterReset, reset,
    copyUntil_accept h kinds.2]

/-- With a device on the line the operation executes its frame and responds OK. -/
theorem exec_frame_of_device (he : ReferenceEnvironment g s) (hm : LowPeriodTracked s) (hb : LowPeriodBegun s)
    (hdev : s.devices = [d]) (hp : d.pin = s.pin) :
    exec i s = .next (answerWith .ok (cellsOf i) (afterFrame i s))
      ∧ RespondedWith { status := .ok, outputs := outputsOf (cellsOf i) (afterFrame i s) } s
          (answerWith .ok (cellsOf i) (afterFrame i s)) := by
  obtain ⟨l, hl, low⟩ := pres_afterReset_line h he hm hb
  obtain rfl : l = .low := low.mpr ⟨d, by simp [hdev], hp⟩
  refine ⟨(exec_frame_of_ready hd h).trans (congrArg _ (if_pos (by rw [hl]; rfl))), ?_⟩
  rw [answerWith_eq]
  exact respondedWith_of_onward _ (Ready.fault_of_running (running_afterFrame h)) onward_afterFrame

end

/-- One DS18B20 `x` on the bound line that is not committing and holds no slot any more, and a request that is ready. -/
structure OneSensor (i : Instr) (g : Nat) (s : State) (d : Device) (x : Ds18b20) : Prop where
  ready : Ready i s
  environment : ReferenceEnvironment g s
  matchesDrive : LowPeriodMatchesDrive s
  begun : LowPeriodBegun s
  devices : s.devices = [d]
  pin : d.pin = s.pin
  kind : d.kind = .ds18b20 x
  idle : x.copying = false

/-- At rest the device is ready for the next request. -/
theorem Rest.oneSensor {i : Instr} {g : Nat} {s : State} {d : Device} {x : Ds18b20} (h : Rest g d s) (hi : s.inputMissing i = false)
    (hk : d.kind = .ds18b20 x) (hc : x.copying = false) : OneSensor i g s d x :=
  ⟨h.ready hi, h.environment, h.matchesDrive, h.begun, h.devices, h.pin, hk, hc⟩

section
variable {i : Instr} {g : Nat} {s : State} {d : Device} {x : Ds18b20} (h : OneSensor i g s d x)
include h

/-- The reset puts the device in WAIT_ROM. -/
theorem OneSensor.reset : ∃ e y, Solo g e (afterReset i s) ∧ e.kind = .ds18b20 y ∧ Alike x y ∧ y.pos = .waitRom 0 0 := by
  obtain ⟨e, solo, -, -, after⟩ := solo_afterReset h.ready h.environment h.matchesDrive.tracked h.begun h.devices h.pin
  obtain ⟨y, kind, alike, pos⟩ := (after h.matchesDrive).alike h.kind
  exact ⟨e, y, solo, kind, alike, pos⟩

theorem OneSensor.exec_eq (hd : isDeviceProtocol i = true) : exec i s = .next (answerWith .ok (cellsOf i) (afterFrame i s))
      ∧ RespondedWith { status := .ok, outputs := outputsOf (cellsOf i) (afterFrame i s) } s
          (answerWith .ok (cellsOf i) (afterFrame i s)) :=
  exec_frame_of_device hd h.ready h.environment h.matchesDrive.tracked h.begun h.devices h.pin

/-- Skip ROM after the reset leads to WAIT_FN (42_rom_commands.md rule R241). -/
theorem OneSensor.skipRom : ∃ e y, Solo g e (run (writeByteProgram 0xCC) (afterReset i s)) ∧ e.kind = .ds18b20 y ∧ Alike x y
    ∧ y.pos = .waitFn 0 0 := by
  obtain ⟨e, y, solo, kind, alike, pos⟩ := h.reset
  obtain ⟨e', y', solo', kind', alike', pos'⟩ := solo.romCommand kind (alike.idle h.idle) pos 0xCC
  exact ⟨e', y', solo', kind', alike.trans alike', pos'⟩

/-- A function command with Skip ROM that starts nothing and stores nothing. -/
theorem OneSensor.skipRomThen {v : Byte} (h44 : v ≠ 0x44) (h48 : v ≠ 0x48) (hB8 : v ≠ 0xB8) :
    ∃ e y, Solo g e (run (writeByteProgram 0xCC ++ writeByteProgram v) (afterReset i s)) ∧ e.kind = .ds18b20 y ∧ Alike x y
      ∧ y.pos = functionCommandNext v := by
  obtain ⟨e, y, solo, kind, alike, pos⟩ := h.skipRom
  obtain ⟨e', y', solo', kind', alike', pos'⟩ := solo.plainFunctionCommand kind (alike.idle h.idle) pos h44 h48 hB8
  rw [run_append]
  exact ⟨e', y', solo', kind', alike.trans alike', pos'⟩

end

/-- Settles O52: the reset, the command byte, and eight bytes of the ROM code. -/
theorem readRomReturnsTheRom : Obligations.ReadRomReturnsTheRom := by
  intro s g d x hr he hm hb hdev hp hk hc
  have sensor : OneSensor .readRom g s d x := ⟨hr, he, hm, hb, hdev, hp, hk, hc⟩
  obtain ⟨e, y, solo, kind, alike, pos⟩ := sensor.reset
  obtain ⟨f, z, solo', kind', alike', pos'⟩ := solo.romCommand kind (alike.idle hc) pos 0x33
  obtain ⟨-, -, got⟩ := solo'.receiveRom kind' ((alike.trans alike').idle hc) pos'
  obtain ⟨exec, responded⟩ := sensor.exec_eq rfl
  refine ⟨_, exec, responded, fun k => ?_⟩
  have byte := got k k.isLt
  rw [(alike.trans alike').rom, ← run_append] at byte
  rw [answerWith_eq, respond_romOut]
  refine byte.trans ?_
  simp

/-- Settles O53: the command byte, and one slot. -/
theorem readPowerSupplyTellsThePower : Obligations.ReadPowerSupplyTellsThePower := by
  intro s g d x hr he hm hb hdev hp hk hc
  have sensor : OneSensor (.readPowerSupply .skipRom) g s d x := ⟨hr, he, hm, hb, hdev, hp, hk, hc⟩
  obtain ⟨e, y, solo, kind, alike, pos⟩ := sensor.skipRomThen (v := 0xB4) (by decide) (by decide) (by decide)
  obtain ⟨-, -, bit⟩ := solo.readPower kind (alike.idle hc) pos
  obtain ⟨exec, responded⟩ := sensor.exec_eq rfl
  refine ⟨_, exec, ?_, responded⟩
  rw [alike.power, ← run_append] at bit
  rw [answerWith_eq, respond_bitOut]
  exact bit

end Sys2Proof.Machine
end

section
/-! PROOFS. One DS18B20 on the line through two requests: the scratchpad written and read back, and a conversion
(43_function_commands.md rules R265 and R275). -/

namespace Sys2Proof.Machine

/-! ### Write Scratchpad -/

/-- The device `e` is `x` after `n` bits of Write Scratchpad. -/
def StoringWsp (th tl cfg : Byte) (x : Ds18b20) (n : Nat) (e : Device) : Prop :=
  ∃ y, e.kind = .ds18b20 y ∧ Alike { x with sp := x.sp.written th tl cfg n } y ∧ y.pos = wspPos th tl cfg n

section
variable {g : Nat} {x : Ds18b20} {th tl cfg : Byte} (ha : x.act = .none)
include ha

/-- A write slot of Write Scratchpad. -/
theorem StoringWsp.through {n : Nat} (hn : n < 24) {d : Device} {t : Nat} (hp : ∀ e, d.presence = some e → e + 150 ≤ t)
    (h : StoringWsp th tl cfg x n d) :
    StoringWsp th tl cfg x (n + 1) (d.through t (if (wspWord th tl cfg).getLsbD n then 6 else 70)) := by
  obtain ⟨y, kind, alike, pos⟩ := h
  obtain ⟨act, sp, -⟩ := alike.still ha
  have receives : y.pos.receives = true := by rw [pos, wspPos_of_lt hn]; rfl
  obtain ⟨z, alike', pos', -, through⟩ :=
    Device.through_of_receives kind (copying_of_act act) hp receives ((wspWord th tl cfg).getLsbD n)
  obtain ⟨act', sp', ee'⟩ := alike'.still act
  rw [Ds18b20.moveBit_wsp hn (pos'.trans pos) (sp'.trans sp)] at through
  have stored : Alike { x with sp := x.sp.written th tl cfg (n + 1) }
      { z with sp := x.sp.written th tl cfg (n + 1), pos := wspPos th tl cfg (n + 1) } :=
    ⟨alike'.rom.trans alike.rom, alike'.power.trans alike.power, alike'.script.trans alike.script, fun _ => copying_of_act act',
      fun _ => ⟨act', rfl, ee'.trans (alike.still ha).2.2⟩⟩
  exact ⟨_, through, stored.trans (Alike.settle _ _), (Ds18b20.settle_parts _ _).1⟩

/-- A byte of Write Scratchpad. -/
theorem Solo.writeByte_wsp {d : Device} {s : State} (h : Solo g d s) {j : Nat} (hj : j < 3)
    {v : Byte} (hv : ∀ k < 8, (wspWord th tl cfg).getLsbD (8 * j + k) = v.getLsbD k) (hd : StoringWsp th tl cfg x (8 * j) d) :
    ∃ e, Solo g e (run (.byteIndex j :: writeByteProgram v) s) ∧ StoringWsp th tl cfg x (8 * (j + 1)) e := by
  have slots := Solo.writeBits (g := g) (v := v) (P := fun k _ e => StoringWsp th tl cfg x (8 * j + k) e)
    (fun k hk e n t _ hp he => by
      rw [← hv k hk]
      exact StoringWsp.through ha (show 8 * j + k < 24 by omega) hp he)
    (h.byteIndex j) hd
  rw [← List.singleton_append, run_append]
  exact slots

/-- TH, TL and CONFIG are received and stored (rule R264). -/
theorem Solo.sendWsp {d : Device} {s : State} (h : Solo g d s) (hk : d.kind = .ds18b20 x) (hx : x.pos = .rxWsp 0 0) :
    ∃ e y, Solo g e (run (sendBytes 0 [th, tl, cfg]) s) ∧ e.kind = .ds18b20 y
      ∧ Alike { x with sp := x.sp.written th tl cfg 24 } y := by
  have start : StoringWsp th tl cfg x 0 d := ⟨x, hk, .refl x, by rw [wspPos_of_lt (by omega), lowBits_zero, hx]⟩
  obtain ⟨e1, solo1, stored1⟩ := h.writeByte_wsp ha (j := 0) (v := th) (by omega)
    (fun k hk => by rw [getLsbD_wspWord, if_pos (by omega)]; congr 1; omega) start
  obtain ⟨e2, solo2, stored2⟩ := solo1.writeByte_wsp ha (j := 1) (v := tl) (by omega)
    (fun k hk => by rw [getLsbD_wspWord, if_neg (by omega), if_pos (by omega)]; congr 1; omega) stored1
  obtain ⟨e3, solo3, y, kind, alike, -⟩ := solo2.writeByte_wsp ha (j := 2) (v := cfg) (by omega)
    (fun k hk => by rw [getLsbD_wspWord, if_neg (by omega), if_neg (by omega)]; congr 1; omega) stored2
  rw [← run_append, ← run_append] at solo3
  exact ⟨e3, y, by simpa [sendBytes] using solo3, kind, alike⟩

end

/-- READ_SCRATCHPAD with Skip ROM, from a device in which nothing runs. -/
theorem OneSensor.readScratchpad {g : Nat} {s : State} {d : Device} {x : Ds18b20}
    (h : OneSensor (.readScratchpad .skipRom) g s d x) (ha : x.act = .none) :
    ∃ t, exec (.readScratchpad .skipRom) s = .next t ∧ ∀ k < 9, memRead t.spOut k = some (x.spByte k) := by
  obtain ⟨e, y, solo, kind, alike, pos⟩ := h.skipRomThen (v := 0xBE) (by decide) (by decide) (by decide)
  obtain ⟨-, -, got⟩ := solo.receiveScratchpad kind (alike.still ha).1 pos
  obtain ⟨exec, -⟩ := h.exec_eq rfl
  refine ⟨_, exec, fun k hk => ?_⟩
  have byte := got k hk
  rw [alike.spByte ha, ← run_append] at byte
  rw [answerWith_eq, respond_spOut]
  exact byte

/-- Settles O54: three bytes received bit by bit, and nine bytes sent. -/
theorem scratchpadRoundTrip : Obligations.ScratchpadRoundTrip := by
  intro s g d x th tl cfg hr he hm hb hdev hp hk ha hw
  have sensor : OneSensor (.writeScratchpad .skipRom) g s d x := ⟨hr, he, hm, hb, hdev, hp, hk, copying_of_act ha⟩
  obtain ⟨e, y, solo, kind, alike, pos⟩ := sensor.skipRomThen (v := 0x4E) (by decide) (by decide) (by decide)
  obtain ⟨act, sp, -⟩ := alike.still ha
  obtain ⟨f, z, solo', kind', alike'⟩ := solo.sendWsp (th := th) (tl := tl) (cfg := cfg) act kind pos
  obtain ⟨act', sp', -⟩ := alike'.still act
  have frame : Solo g f (afterFrame (.writeScratchpad .skipRom) s) := by
    have bytes : s.wdataBytes = [th, tl, cfg] := by simp [State.wdataBytes, hw]
    have program : frameProgram (.writeScratchpad .skipRom) s
        = writeByteProgram 0xCC ++ writeByteProgram 0x4E ++ sendBytes 0 s.wdataBytes := List.append_nil _
    rwa [afterFrame, program, bytes, run_append]
  have rest := frame.rest_frame rfl hr (fun a => nofun) .ok
  obtain ⟨t, exec', got⟩ := (rest.oneSensor (i := .readScratchpad .skipRom) rfl kind' (copying_of_act act')).readScratchpad act'
  have bytes : z.sp = x.sp.written th tl cfg 24 := by rw [sp', sp]
  refine ⟨_, t, (sensor.exec_eq rfl).1, exec', ?_, ?_, ?_, ?_, ?_⟩ <;> rw [got _ (by omega), Ds18b20.spByte, bytes] <;> rfl

/-! ### A conversion -/

/-- The host waits while the line is at rest. -/
theorem Rest.wait {g : Nat} {d : Device} {s : State} (h : Rest g d s) (n : Nat) :
    hostTurn (.waitUs n) s = .next (pass (s.now + n) s) ∧ Rest g (d.settle (s.now + n)) (pass (s.now + n) s) := by
  refine ⟨congrArg _ (advance_of_noReset n h.undisturbed.1), ?_⟩
  have quiet := passTo_of_noRise (s.now + n) (s := s) (.inr h.noLow)
  exact
    { fault := by simpa using h.fault
      busy := by simpa using h.busy
      bound := by simpa using h.bound
      noCopy := by simpa using h.noCopy
      undisturbed := by simpa [Undisturbed] using h.undisturbed
      environment := by simpa [ReferenceEnvironment] using h.environment
      drive := by simpa using h.drive
      noLow := by rw [pass_lineLow, quiet]; exact h.noLow
      devices := by rw [pass_devices, quiet]; simp [settleTo, h.devices]
      pin := by simpa using h.pin
      presence := fun e he => by
        have := h.presence e (by simpa using he)
        simp
        omega
      hold := fun a b hab => by
        have := h.hold a b (by simpa using hab)
        simp
        omega }

/-- A conversion that is done has stored its temperature (rule R322). -/
theorem Ds18b20.settle_converting {x : Ds18b20} {m t : Nat} {raw : BitVec 16} (h : x.act = .converting m raw) (ht : m ≤ t) :
    (x.settle t).act = .none ∧ (x.settle t).sp.tempLsb = raw.extractLsb' 0 8 ∧ (x.settle t).sp.tempMsb = raw.extractLsb' 8 8 := by
  simp [Ds18b20.settle, h, ht]

/-- CONVERT_T with Skip ROM starts a conversion at its end, of the temperature the sensor shows (rules R262, R321). -/
theorem OneSensor.convertT {g : Nat} {s : State} {d : Device} {x : Ds18b20} (h : OneSensor (.convertT .skipRom) g s d x)
    {raw : BitVec 16} (hraw : x.script.raw = some raw) :
    ∃ (t : State) (e : Device) (z : Ds18b20) (c : Nat), exec (.convertT .skipRom) s = .next t ∧ Rest g e t ∧ e.kind = .ds18b20 (z.settle t.now)
      ∧ z.act = .converting (t.now + c) raw ∧ c ≤ 750000 := by
  obtain ⟨e, y, solo, kind, alike, pos⟩ := h.skipRom
  obtain ⟨f, u, z, solo', kind', alike', slotEnd, took⟩ := solo.functionCommand kind (alike.idle h.idle) pos 0x44
  obtain ⟨c, raw', -, le, act, same⟩ := took.convert rfl
  have raw_eq : raw' = raw := same raw (by rw [alike'.script, alike.script, hraw])
  rw [slotEnd, raw_eq, ← run_append] at act
  rw [← run_append] at solo' kind'
  have program : afterFrame (.convertT .skipRom) s
      = run (writeByteProgram 0xCC ++ writeByteProgram 0x44) (afterReset (.convertT .skipRom) s) :=
    congrArg (run · (afterReset (.convertT .skipRom) s)) (List.append_nil _)
  have now : (answerWith .ok .none (afterFrame (.convertT .skipRom) s)).now = (afterFrame (.convertT .skipRom) s).now := by
    rw [answerWith_eq, respond_now]
  rw [← program] at act solo' kind'
  rw [← now] at act kind'
  exact ⟨_, f, z, c, (h.exec_eq rfl).1, solo'.rest_frame rfl h.ready (fun a => nofun) .ok, kind', act, le⟩

/-- Settles O55: the conversion ends within the wait, and the scratchpad read then holds its temperature. -/
theorem conversionReachesTheHost : Obligations.ConversionReachesTheHost := by
  intro s g d x raw hr he hm hb hdev hp hk hc hraw
  have sensor : OneSensor (.convertT .skipRom) g s d x := ⟨hr, he, hm, hb, hdev, hp, hk, hc⟩
  obtain ⟨s1, e, z, c, exec1, rest1, kind1, act1, le⟩ := sensor.convertT hraw
  obtain ⟨wait, rest2⟩ := rest1.wait 750000
  obtain ⟨act2, lsb, msb⟩ := Ds18b20.settle_converting act1 (show s1.now + c ≤ s1.now + 750000 by omega)
  have kind2 : (e.settle (s1.now + 750000)).kind = .ds18b20 (z.settle (s1.now + 750000)) := by
    simp [Device.settle, kind1, Ds18b20.settle_settle (Nat.le_add_right s1.now 750000)]
  obtain ⟨s3, exec3, got⟩ :=
    (rest2.oneSensor (i := .readScratchpad .skipRom) rfl kind2 (copying_of_act act2)).readScratchpad act2
  have answer : temperatureAnswer s3 = some (.temperature raw.toInt) := by
    have whole : (raw.extractLsb' 8 8 ++ raw.extractLsb' 0 8 : BitVec 16) = raw := opWord_fields raw
    simp only [temperatureAnswer, got 0 (by omega), got 1 (by omega), Ds18b20.spByte, lsb, msb, rawTemperature, whole]
  refine ⟨s1, _, s3, _, exec1, wait, exec3, rfl, ?_⟩
  rw [answer]
  rfl

end Sys2Proof.Machine
end

section
/-! PROOFS. The line: how a low period ends (45_reference_device.md rules R307 to R309), a long low of the host's own (rule R330), and
the other lines (40_shim_interface.md rule R160). -/

namespace Sys2Proof.Machine

/-! ### When the line rises -/

/-- A device that stops driving at `m + 1` has the end of its drive there. -/
theorem Device.mem_driveEnds {d : Device} {m : Nat} (h : d.drivesLow m = true) (h' : d.drivesLow (m + 1) = false) :
    m + 1 ∈ d.driveEnds := by
  have h150 : Config.presenceUntil = 150 := rfl
  have h30 : Config.presenceFrom = 30 := rfl
  rw [Device.drivesLow_eq_false, Device.lowSince] at h'
  have noPresence : d.presenceSince (m + 1) = none := by
    cases hq : d.presenceSince (m + 1) with
    | none => rfl
    | some a => rw [hq] at h'; cases h'
  rw [noPresence] at h'
  rw [Device.driveEnds, List.mem_append]
  cases hq : d.presenceSince m with
  | some a =>
    refine .inl ?_
    unfold Device.presenceSince at hq noPresence
    cases hp : d.presence with
    | none => rw [hp] at hq; cases hq
    | some e =>
      simp only [hp, Option.ite_none_right_eq_some, ite_eq_right_iff, reduceCtorEq, imp_false, not_and, not_lt] at hq noPresence
      have := noPresence (by omega)
      simp
      omega
  | none =>
    refine .inr ?_
    rw [Device.drivesLow, Device.lowSince, hq] at h
    unfold Device.holdSince at h h'
    cases hh : d.hold with
    | none => rw [hh] at h; cases h
    | some w =>
      obtain ⟨a, b⟩ := w
      simp only [hh, ite_eq_right_iff, reduceCtorEq, imp_false, not_and, not_lt] at h h'
      by_cases hw : a ≤ m ∧ m < b
      · have := h' (by omega)
        simp
        omega
      · simp [hw] at h

/-- The line rises at the first time at which no device drives it. -/
theorem lineRise?_eq {s : State} {r : Nat} (hr : s.now < r) (free : s.devicesLowSince r = none)
    (held : ∀ m, s.now ≤ m → m < r → s.devicesLowSince m ≠ none) : s.lineRise? = some r := by
  have last : ∃ d ∈ s.lineDevices, r ∈ d.driveEnds := by
    obtain ⟨m, rfl⟩ : ∃ m, r = m + 1 := ⟨r - 1, by omega⟩
    have driven := held m (by omega) (by omega)
    rw [Ne, devicesLowSince_eq_none_iff] at driven
    push Not at driven
    obtain ⟨d, hd, hp, hl⟩ := driven
    refine ⟨d, by simp [State.lineDevices, hd, hp], Device.mem_driveEnds (by simpa using hl) ?_⟩
    exact devicesLowSince_eq_none_iff.mp free d hd hp
  obtain ⟨d, hd, hmem⟩ := last
  rw [State.lineRise?, List.min?_eq_some_iff]
  refine ⟨List.mem_filter.mpr ⟨List.mem_cons_of_mem _ (List.mem_flatMap.mpr ⟨d, hd, hmem⟩), by simp [free]; omega⟩, fun b hb => ?_⟩
  have hb := (List.mem_filter.mp hb).2
  simp only [Bool.and_eq_true, decide_eq_true_eq] at hb
  by_contra h
  exact held b hb.1 (by omega) hb.2

/-! ### What the end of a low period does to one device -/

theorem presenceOverlaps_eq_true {d : Device} {start n : Nat} :
    d.presenceOverlaps start n = true ↔ ∃ e, d.presence = some e ∧ e + 30 < n ∧ start < e + 150 := by
  unfold Device.presenceOverlaps
  cases d.presence with
  | none => simp
  | some e => simp only [Bool.and_eq_true, decide_eq_true_eq, Option.some.injEq, exists_eq_left']; rfl

theorem presenceOverlaps_eq_false {d : Device} {start n : Nat} :
    d.presenceOverlaps start n = false ↔ ∀ e, d.presence = some e → n ≤ e + 30 ∨ e + 150 ≤ start := by
  rw [← Bool.not_eq_true, presenceOverlaps_eq_true]
  push Not
  refine forall_congr' fun e => imp_congr_right fun _ => ?_
  omega

/-- A slot of a DS18B20 outside its presence window (rules R309, R310). -/
theorem Device.slot_of_ds18b20 {d : Device} {x : Ds18b20} {start n : Nat} (hk : d.kind = .ds18b20 x)
    (ho : d.presenceOverlaps start n = false) (hn : start ≤ n) : d.slot start n
      = { d with kind := .ds18b20 (x.slot (max (start + 71) n) (decide (n < start + 15))) } := by
  have bit : (n - start < Config.bitThreshold) = (n < start + 15) := by
    rw [show Config.bitThreshold = 15 from rfl, eq_iff_iff]
    omega
  rw [Device.slot, if_neg (by simp [ho])]
  simp only [hk, bit]
  rfl

theorem Device.slot_of_overlap {d : Device} {start n : Nat} (ho : d.presenceOverlaps start n = true) : d.slot start n = d := by
  rw [Device.slot, if_pos ho]

theorem Device.settle_of_ds18b20 {d : Device} {x : Ds18b20} (hk : d.kind = .ds18b20 x) (n : Nat) :
    d.settle n = { d with kind := .ds18b20 (x.settle n) } := by
  rw [Device.settle, hk]

@[simp] theorem Device.presenceOverlaps_settle (start n m : Nat) (d : Device) :
    (d.settle m).presenceOverlaps start n = d.presenceOverlaps start n := by
  rw [Device.presenceOverlaps, Device.settle_presence, Device.presenceOverlaps]

/-- After a reset a device drives its presence pulse and nothing else (rule R308). -/
theorem Device.busReset_drivesLow {d : Device} {n u : Nat} : (d.busReset n).drivesLow u = true ↔ n + 30 ≤ u ∧ u < n + 150 := by
  have h150 : Config.presenceUntil = 150 := rfl
  have h30 : Config.presenceFrom = 30 := rfl
  rw [Device.drivesLow, Device.lowSince, Device.presenceSince, Device.holdSince, Device.busReset, h150, h30]
  by_cases h : n + 30 ≤ u ∧ u < n + 150 <;> simp [h]

theorem Device.busReset_kind {d : Device} {x : Ds18b20} (hk : d.kind = .ds18b20 x) (n : Nat) :
    (d.busReset n).kind = .ds18b20 { x with pos := .waitRom 0 0 } := by
  simp [Device.busReset, hk]

section
variable {s : State} {start k : Nat} {d : Device} (hl : s.lineLow = some start) (hd : s.devices[k]? = some d) (hp : d.pin = s.pin)
include hl hd hp

/-- The engine's release where the line rises at once, at device `k`. -/
theorem releaseLine_getElem? (h : Config.resetThreshold ≤ s.now - start ∨ s.devicesLowSince s.now = none) :
    (releaseLine s).devices[k]? = some (if Config.resetThreshold ≤ s.now - start then d.busReset s.now else d.slot start s.now) := by
  rw [(releaseLine_rises hl h).1, List.getElem?_map, hd, Option.map_some, if_pos hp]

/-- The end of the low period at `r`, where a device has held the line, at device `k`. -/
theorem passTo_rise_getElem? (hr : s.drive = .released) {r : Nat} (hrise : s.lineRise? = some r) :
    (passTo r s).lineLow = none ∧ (passTo r s).devices[k]? = some
      (if Config.resetThreshold ≤ r - start then ((d.settle r).busReset r).settle r else (d.settle r).slot start r) := by
  rw [passTo_of_rise hr hl hrise, if_pos (Nat.le_refl r)]
  refine ⟨by simp, ?_⟩
  rw [settleTo_devices, endLow_devices, settleTo_devices, List.map_map, List.map_map, List.getElem?_map, hd]
  by_cases long : Config.resetThreshold ≤ r - start
  · simp [hp, long]
  · simp [hp, long, Device.settle_slot]

end

/-- Settles O47: the engine's release ends the low period or leaves it to the devices, whose first free time ends it. -/
theorem lowPeriodIsResetOrSlot : Obligations.LowPeriodIsResetOrSlot := by
  intro s start k d hl hs hd hp
  have h480 : Config.resetThreshold = 480 := rfl
  refine ⟨?_, fun hn => ?_, fun hn hfree => ?_, fun hn hheld => ?_⟩
  · have still := setLineLow_noEdge (s := s) (.inr (.inl (by simp [hl])))
    exact ⟨by rw [still.2, if_pos (.inr (by simp [hl])), hl], still.1⟩
  · have long : Config.resetThreshold ≤ s.now - start := by omega
    refine ⟨(releaseLine_rises hl (.inl long)).2, d.busReset s.now, ?_, fun n _ => Device.busReset_drivesLow,
      fun x hk => Device.busReset_kind hk _⟩
    rw [releaseLine_getElem? hl hd hp (.inl long), if_pos long]
  · have short : ¬ Config.resetThreshold ≤ s.now - start := by omega
    have free := devicesLowSince_eq_none_iff.mpr hfree
    have device := releaseLine_getElem? hl hd hp (.inr free)
    rw [if_neg short] at device
    refine ⟨(releaseLine_rises hl (.inr free)).2, fun ho => ?_, fun ho x hk => ?_⟩
    · rw [device, Device.slot_of_overlap (presenceOverlaps_eq_true.mpr ho)]
    · rw [device, Device.slot_of_ds18b20 hk (presenceOverlaps_eq_false.mpr ho) hs]
  · have short : ¬ Config.resetThreshold ≤ s.now - start := by omega
    have held : s.devicesLowSince s.now ≠ none := fun none => by
      obtain ⟨e, he, hpe, hle⟩ := hheld
      rw [devicesLowSince_eq_none_iff.mp none e he hpe] at hle
      cases hle
    obtain ⟨devices, low⟩ := releaseLine_held hl short held
    refine ⟨low, devices, fun r hr hfree hdriven => ?_⟩
    have drive : (releaseLine s).drive = .released := by simp
    have since : ∀ m, (releaseLine s).devicesLowSince m = s.devicesLowSince m := fun m => by
      simp [State.devicesLowSince, State.lineDevices, devices]
    have rise : (releaseLine s).lineRise? = some r := by
      refine lineRise?_eq (by simpa using hr) (by rw [since]; exact devicesLowSince_eq_none_iff.mpr hfree) fun m hm hmr none => ?_
      obtain ⟨e, he, hpe, hle⟩ := hdriven m (by simpa using hm) hmr
      rw [since] at none
      rw [devicesLowSince_eq_none_iff.mp none e he hpe] at hle
      cases hle
    obtain ⟨up, device⟩ := passTo_rise_getElem? low (by rw [devices]; exact hd) (by simpa using hp) drive rise
    refine ⟨fun m hm hmr => ?_, up, fun x hk => ⟨fun hn => ?_, fun hn ho => ?_, fun hn ho => ?_⟩⟩
    · rw [passTo_of_rise drive low rise, if_neg (by omega)]
      exact low
    · rw [if_pos (by omega)] at device
      have kind : (d.settle r).kind = .ds18b20 (x.settle r) := by rw [Device.settle_of_ds18b20 hk]
      have settled := Device.settle_of_ds18b20 (Device.busReset_kind kind r) r
      refine ⟨_, device, by simp [Device.busReset], ?_⟩
      rw [settled]
      exact congrArg DeviceKind.ds18b20 (Ds18b20.settle_of_notDue (x.settle_notDue r))
    · rw [if_neg (by omega), Device.slot_of_ds18b20 (by rw [Device.settle_of_ds18b20 hk]) (by simpa using presenceOverlaps_eq_false.mpr ho)
        (by omega), Device.settle_of_ds18b20 hk] at device
      exact device
    · rw [if_neg (by omega), Device.slot_of_overlap (by simpa using presenceOverlaps_eq_true.mpr ho), Device.settle_of_ds18b20 hk] at device
      exact device

/-! ### A line held low by the host (45_reference_device.md rule R330) -/

/-- Settles O56: DRIVE_LOW leaves a low period that began by then, the wait does not end it, and RELEASE ends it as a reset. -/
theorem longDriveLowIsAReset : Obligations.LongDriveLowIsAReset := by
  intro s n h ht hb hn
  let a := accept .driveLow (clearCopy s)
  obtain ⟨q, hq, hlow, -⟩ := setLineLow_line (s := a) (by simpa [LowPeriodTracked, a] using ht) (by simpa [LowPeriodBegun, a] using hb)
  let s1 := respond { status := .ok, outputs := .none } (Micro.setLow.exec a)
  have low1 : s1.lineLow = some q := by simpa [s1, Micro.exec] using hlow
  have now1 : q ≤ s1.now := by simpa [s1, Micro.exec] using hq
  have drive1 : s1.drive = .drivenLow := by simp [s1, Micro.exec]
  have quiet1 : Undisturbed s1 := by simpa [s1, a, Undisturbed, Micro.exec] using h.undisturbed
  let s2 := pass (s1.now + n) s1
  have ready : Ready .release s2 := by
    refine ⟨?_, ?_, fun _ => ?_, nofun, rfl, ?_⟩
    · simpa [s2, s1, a, Micro.exec] using h.1
    · simp [s2, s1]
    · simpa [s2, s1, a, Micro.exec] using h.2.2.1 rfl
    · simpa [s2, Undisturbed] using quiet1
  have low2 : s2.lineLow = some q := by
    rw [pass_lineLow, passTo_of_noRise _ (.inl drive1)]
    exact low1
  have long : Config.resetThreshold ≤ (accept .release (clearCopy s2)).now - q := by
    have h480 : Config.resetThreshold = 480 := rfl
    simp [s2]
    omega
  refine ⟨s1, s2, _, exec_driveLow_of_ready h, congrArg _ (advance_of_noReset n quiet1.1), exec_release_of_ready ready, ?_⟩
  have rises := (releaseLine_rises (s := accept .release (clearCopy s2)) (by simpa using low2) (.inl long)).1
  intro d hd hp
  simp only [respond_devices, Micro.exec, State.count_devices, rises, List.mem_map, if_pos long] at hd
  obtain ⟨e, -, rfl⟩ := hd
  have pin : e.pin = (accept .release (clearCopy s2)).pin := by
    by_contra hne
    rw [if_neg hne] at hp
    exact hne (by simpa [Micro.exec] using hp)
  rw [if_pos pin]
  refine ⟨by simp [Device.busReset, Micro.exec], fun x hx => ?_⟩
  cases hk : e.kind with
  | ds18b20 y =>
    rw [Device.busReset_kind hk] at hx
    cases hx
    rfl
  | _ => simp [Device.busReset, hk] at hx

/-! ### Devices of other lines (40_shim_interface.md rule R160) -/

/-- The device `e` is `d` after nothing but time. -/
def Unseen (d e : Device) : Prop :=
  e.pin = d.pin ∧ e.presence = d.presence ∧ e.hold = d.hold
    ∧ (∀ x, d.kind = .ds18b20 x → ∃ y, e.kind = .ds18b20 y ∧ y.pos = x.pos ∧ y.slotEnd = x.slotEnd)
    ∧ ∀ m, d.kind = .echo m → e.kind = .echo m

theorem Unseen.refl (d : Device) : Unseen d d := ⟨rfl, rfl, rfl, fun x h => ⟨x, h, rfl, rfl⟩, fun _ => id⟩

theorem Unseen.trans {d e f : Device} (h : Unseen d e) (k : Unseen e f) : Unseen d f := by
  obtain ⟨pin, presence, hold, ds, echo⟩ := h
  obtain ⟨pin', presence', hold', ds', echo'⟩ := k
  refine ⟨pin'.trans pin, presence'.trans presence, hold'.trans hold, fun x hx => ?_, fun m hm => echo' m (echo m hm)⟩
  obtain ⟨y, hy, pos, ends⟩ := ds x hx
  obtain ⟨z, hz, pos', ends'⟩ := ds' y hy
  exact ⟨z, hz, pos'.trans pos, ends'.trans ends⟩

theorem unseen_settle (n : Nat) (d : Device) : Unseen d (d.settle n) := by
  refine ⟨by simp, by simp, by simp, fun x hx => ?_, fun m hm => by simp [Device.settle, hm]⟩
  obtain ⟨pos, -, -, -, ends, -⟩ := Ds18b20.settle_parts n x
  exact ⟨x.settle n, by rw [Device.settle_of_ds18b20 hx], pos, ends⟩

/-- The devices of the lines that are not bound in `s` have seen nothing on the way to `t`. -/
def OtherLinesUnseen (s t : State) : Prop :=
  ∀ (k : Nat) (d : Device), s.devices[k]? = some d → d.pin ≠ s.pin → ∃ e, t.devices[k]? = some e ∧ Unseen d e

/-- The same, with the bound line still bound. -/
def LineKept (s t : State) : Prop := t.pin = s.pin ∧ OtherLinesUnseen s t

theorem OtherLinesUnseen.after {s t u : State} (h : LineKept s t) (k : OtherLinesUnseen t u) : OtherLinesUnseen s u := by
  obtain ⟨pin, other⟩ := h
  intro j d hd hp
  obtain ⟨e, he, unseen⟩ := other j d hd hp
  obtain ⟨f, hf, unseen'⟩ := k j e he (by rw [unseen.1, pin]; exact hp)
  exact ⟨f, hf, unseen.trans unseen'⟩

theorem LineKept.trans {s t u : State} (h : LineKept s t) (k : LineKept t u) : LineKept s u :=
  ⟨k.1.trans h.1, OtherLinesUnseen.after h k.2⟩

/-- An operation that maps the devices by a function that leaves those of other lines. -/
theorem OtherLinesUnseen.of_map {s t : State} {F : Device → Device} (hd : t.devices = s.devices.map F)
    (hF : ∀ d, d.pin ≠ s.pin → Unseen d (F d)) : OtherLinesUnseen s t := fun k d hk hp =>
  ⟨F d, by rw [hd, List.getElem?_map, hk]; rfl, hF d hp⟩

theorem LineKept.of_same {s t : State} (hp : t.pin = s.pin) (hd : t.devices = s.devices) : LineKept s t :=
  ⟨hp, OtherLinesUnseen.of_map (F := id) (by simpa using hd) fun d _ => .refl d⟩

theorem LineKept.refl (s : State) : LineKept s s := .of_same rfl rfl

/-- An operation on the devices of the bound line. -/
theorem LineKept.of_onLine {s t : State} {f : Device → Device} (hp : t.pin = s.pin)
    (hd : t.devices = s.devices.map (fun d => if d.pin = s.pin then f d else d)) : LineKept s t :=
  ⟨hp, OtherLinesUnseen.of_map hd fun d hne => by rw [if_neg hne]; exact .refl d⟩

theorem lineKept_settleTo (n : Nat) (s : State) : LineKept s (settleTo n s) :=
  ⟨rfl, OtherLinesUnseen.of_map rfl fun d _ => unseen_settle n d⟩

theorem lineKept_endLow (n : Nat) (s : State) : LineKept s (endLow n s) := .of_onLine (by simp) (endLow_devices n s)

theorem lineKept_pass (n : Nat) (s : State) : LineKept s (pass n s) := by
  refine LineKept.trans (t := passTo n s) ?_ (.of_same (by simp) (by simp))
  unfold passTo
  split
  · exact ((lineKept_settleTo _ s).trans (lineKept_endLow _ _)).trans (lineKept_settleTo n _)
  · exact lineKept_settleTo n s

theorem lineKept_advance (d : Nat) (s : State) : LineKept s (advance d s) := by
  rcases advance_cases d s with e | ⟨t, rest, -, -, e⟩ <;> rw [e]
  · exact lineKept_pass _ s
  · exact (lineKept_pass _ { s with resetsAt := rest }).trans (.of_same rfl rfl)

theorem lineKept_raiseFault (f : FaultCode) (w : ReqWord) (s : State) : LineKept s (raiseFault f w s) := .of_same (by simp) (by simp)

theorem lineKept_setLineLow (s : State) : LineKept s (setLineLow s) := by
  by_cases h : s.drive = .drivenLow ∨ s.lineLow.isSome = true ∨ (s.devicesLowSince s.now).isSome = true
  · exact .of_same (by simp) (setLineLow_noEdge h).1
  · simp only [not_or, Bool.not_eq_true, Option.isSome_eq_false_iff, Option.isNone_iff_eq_none] at h
    obtain ⟨hd, hl, hs⟩ := h
    have hd : s.drive = .released := by cases hv : s.drive <;> simp_all
    exact .of_onLine (by simp) (setLineLow_edge hd hl hs).1

theorem lineKept_releaseLine (s : State) : LineKept s (releaseLine s) := by
  unfold releaseLine
  refine LineKept.trans ?_ (.of_same rfl rfl)
  dsimp only
  split
  · exact .refl s
  · next start _ =>
    unfold endDrive
    split
    · exact lineKept_endLow start { s with drive := .released }
    · exact .refl s

theorem Micro.exec_lineKept (m : Micro) (s : State) : LineKept s (m.exec s) := by
  cases m with
  | setLow => exact lineKept_setLineLow s
  | release => exact lineKept_releaseLine s
  | delay n => exact lineKept_advance _ { s with draws := s.draws + 1 }
  | exit =>
    rcases exitCritical_cases s with ⟨-, e⟩ | ⟨m, rest, -, e⟩ <;> exact .of_same (by simp [Micro.exec, e]) (by simp [Micro.exec, e])
  | gap =>
    have ha : LineKept s (advance s.gapTime { s with draws := s.draws + 1 }) := lineKept_advance _ { s with draws := s.draws + 1 }
    rcases passGap_shape s with e | ⟨w, rest, -, -, e⟩ <;> rw [Micro.exec, e]
    · exact ha
    · exact ha.trans (lineKept_raiseFault _ w { advance s.gapTime { s with draws := s.draws + 1 } with intruders := rest })
  | _ => exact .of_same rfl rfl

/-- Every request but INIT keeps the bound line, and the devices of the other lines see nothing of it. -/
theorem operationKeeps_lineKept (s : State) : OperationKeeps (LineKept s) where
  fault f w t _ h := h.trans (lineKept_raiseFault f w t)
  clearCopy t h := h.trans (.of_same (by simp) (by simp))
  accept i t h := h.trans (.of_same rfl rfl)
  primitive m t _ h := h.trans (m.exec_lineKept t)
  program p t _ hp h := run_keeps_of_micro (fun m t _ h => h.trans (m.exec_lineKept t)) hp h
  clear c t h := h.trans (by cases c <;> exact .refl t)
  respond r t h := h.trans (.of_same rfl rfl)

/-- Binding another pin leaves a line behind: only its own devices are abandoned, and the release that follows meets no low
period. -/
theorem otherLinesUnseen_release_bindPin {pin : Pin} {s : State} : OtherLinesUnseen s (Micro.release.exec (bindPin pin s)) := by
  by_cases h : s.pin = pin
  · have same : bindPin pin s = { s with bound := true } := if_pos h
    rw [same]
    exact (Micro.exec_lineKept .release { s with bound := true }).2
  · let F : Device → Device := fun d => if s.bound || s.lineLow.isSome then (if d.pin = s.pin then d.abandon else d) else d
    have devices : (Micro.release.exec (bindPin pin s)).devices = s.devices.map F := by
      cases hc : (s.bound || s.lineLow.isSome) <;> simp [Micro.exec, bindPin, h, releaseLine, hc, F]
    refine OtherLinesUnseen.of_map devices fun d hne => ?_
    have kept : F d = d := by simp [F, hne]
    rw [kept]
    exact .refl d

/-- Settles O23: every operation but INIT's bind works on the bound line alone, or is time. -/
theorem otherLinesSeeNothing : Obligations.OtherLinesSeeNothing := by
  intro i s t k d hi he hd hp
  have unseen : OtherLinesUnseen s t := by
    by_cases hn : ∃ pin, i = .init pin
    · obtain ⟨pin, rfl⟩ := hn
      exact (operationKeeps_lineKept s).exec_init (fun u hu => hu.2)
        (fun r u hu => OtherLinesUnseen.after hu otherLinesUnseen_release_bindPin) he (.refl s)
    · exact ((operationKeeps_lineKept s).exec hi (not_exists.mp hn) he (.refl s)).2
  exact unseen k d hd hp

end Sys2Proof.Machine
end

section
/-! PROOFS. The frame of a request: what it leaves as it was (10_state.md sections 1 and 4). -/

namespace Sys2Proof.Machine

/-! ### What a request's programs write -/

/-- Does a program of the request `i` have this micro-operation, if it is one that writes an output cell, `copy_until`, `byteidx` or
`pres`? -/
def mayWrite (i : Instr) : Micro → Bool
  | .storeRom _ => decide (i = .readRom)
  | .storeSp _ => match i with | .readScratchpad _ => true | _ => false
  | .storeBit => match i with | .readBit | .readPowerSupply _ => true | _ => false
  | .storePresence => decide (i = .resetPulse)
  | .storeByte => decide (i = .readByte)
  | .startCopy => match i with | .copyScratchpad _ => true | _ => false
  | .byteIndex _ => isDeviceProtocol i
  | .presence => isDeviceProtocol i || decide (i = .resetPulse)
  | _ => true

/-- The program writes what the request may write. -/
def writesFor (i : Instr) (p : List Micro) : Bool := p.all (mayWrite i)

section
variable (i : Instr)

@[simp] theorem writesFor_nil : writesFor i [] = true := rfl
@[simp] theorem writesFor_append (p q : List Micro) : writesFor i (p ++ q) = (writesFor i p && writesFor i q) := by simp [writesFor]
@[simp] theorem writesFor_cons (m : Micro) (p : List Micro) : writesFor i (m :: p) = (mayWrite i m && writesFor i p) := rfl

theorem writesFor_flatMap {α : Type} {f : α → List Micro} (h : ∀ a, writesFor i (f a) = true) (l : List α) :
    writesFor i (l.flatMap f) = true := by
  simp only [writesFor, List.all_eq_true, List.mem_flatMap] at h ⊢
  rintro m ⟨a, -, hm⟩
  exact h a m hm

@[simp] theorem writesFor_writeSlot (b : Bool) : writesFor i (writeSlot b) = true := by cases b <;> rfl
@[simp] theorem writesFor_readSlot : writesFor i readSlot = true := rfl
@[simp] theorem writesFor_readByteProgram : writesFor i readByteProgram = true := rfl

@[simp] theorem writesFor_writeByteProgram (v : Byte) : writesFor i (writeByteProgram v) = true := by
  refine writesFor_flatMap i (f := fun k => writeSlot (sentBit v k) ++ [.bitSent k]) (fun k => ?_) _
  rw [writesFor_append, writesFor_writeSlot]
  rfl

@[simp] theorem writesFor_addressProgram (rom : List Byte) (a : Addressing) : writesFor i (addressProgram rom a) = true := by
  cases a
  · exact writesFor_writeByteProgram i _
  · rw [addressProgram, writesFor_append, writesFor_writeByteProgram]
    exact writesFor_flatMap i (writesFor_writeByteProgram i) rom

theorem writesFor_sendBytes (hd : isDeviceProtocol i = true) (vs : List Byte) : ∀ k, writesFor i (sendBytes k vs) = true := by
  induction vs with
  | nil => exact fun _ => rfl
  | cons v vs ih => exact fun k => by simp [sendBytes, mayWrite, hd, ih (k + 1)]

theorem writesFor_receive (hd : isDeviceProtocol i = true) {store : Nat → Micro} (hs : ∀ k, mayWrite i (store k) = true)
    (l : List Nat) : writesFor i (l.flatMap (fun k => .byteIndex k :: readByteProgram ++ [store k])) = true :=
  writesFor_flatMap i (fun k => by
    have index : mayWrite i (.byteIndex k) = true := hd
    simp [index, hs]) l

end

theorem ProgramOf.writesFor {i : Instr} {p : List Micro} (h : ProgramOf i p) : writesFor i p = true := by
  rcases h with ⟨hb, rfl⟩ | ⟨hd, rfl | ⟨s, rfl⟩⟩
  · cases i <;> cases hb <;> simp [busProgram, resetProgram, mayWrite]
  · simp [resetProgram, mayWrite, hd]
  · have send : Machine.writesFor i (sendProgram s i) = true := by
      have bytes := fun vs => writesFor_sendBytes i hd vs 0
      cases i <;> simp [sendProgram, bytes]
    have data : Machine.writesFor i (dataProgram i) = true := by
      cases i with
      | readRom => exact writesFor_receive _ rfl (fun _ => rfl) _
      | readScratchpad a => exact writesFor_receive _ rfl (fun _ => rfl) _
      | _ => rfl
    rw [frameProgram, writesFor_append, send, data]
    rfl

/-! ### Registers and records -/

/-- What a program keeps of the call, the working registers it does not write, and the reads of the status view. -/
structure RegistersKept (p : List Micro) (s t : State) : Prop where
  call : t.call = s.call
  viewReads : t.viewReads <:+ s.viewReads
  byteidx : (∀ k, .byteIndex k ∉ p) → t.byteidx = s.byteidx
  pres : .presence ∉ p → t.pres = s.pres

theorem Micro.exec_registers (m : Micro) {s : State} (h : s.resetsAt = []) : RegistersKept [m] s (m.exec s) := by
  have time : ∀ n, (pass n { s with draws := s.draws + 1 }).viewReads <:+ s.viewReads := fun n => by
    have views := (readViews_suffix s.now (passTo n { s with draws := s.draws + 1 })).1
    simpa [pass] using views
  cases m with
  | gap =>
    rcases passGap_cases h with e | ⟨w, rest, e⟩ <;> constructor <;> intros <;> simp [Micro.exec, e, time]
  | exit =>
    rcases exitCritical_cases s with ⟨-, e⟩ | ⟨m, rest, -, e⟩ <;> constructor <;> intros <;> simp [Micro.exec, e]
  | delay us => constructor <;> intros <;> simp [Micro.exec, delayUs_of_noReset _ h, time]
  | _ => constructor <;> intros <;> simp_all [Micro.exec]

theorem run_registers (p : List Micro) {s : State} (h : s.resetsAt = []) : RegistersKept p s (run p s) := by
  induction p generalizing s with
  | nil => exact ⟨rfl, List.suffix_refl _, fun _ => rfl, fun _ => rfl⟩
  | cons m p ih =>
    cases hr : s.running
    · rw [run_of_not_running _ hr]
      exact ⟨rfl, List.suffix_refl _, fun _ => rfl, fun _ => rfl⟩
    · rw [run_cons_running _ _ hr]
      have a := m.exec_registers h
      have b := ih ((m.exec_kept h).resetsAt.trans h)
      refine ⟨b.call.trans a.call, b.viewReads.trans a.viewReads, fun n => ?_, fun n => ?_⟩
      · simp only [List.mem_cons, not_or] at n
        exact (b.byteidx fun k => (n k).2).trans (a.byteidx fun k => by simpa using (n k).1)
      · simp only [List.mem_cons, not_or] at n
        exact (b.pres n.2).trans (a.pres (by simpa using n.1))

/-! ### The frame -/

/-- What the request `i` leaves as it was in `s`, at a state `t` of it. -/
structure Frame (i : Instr) (s t : State) : Prop where
  romIn : t.romIn = s.romIn
  wdata : t.wdata = s.wdata
  env : t.env = s.env
  inbox : t.inbox = s.inbox
  answer : t.answer = s.answer
  resetsAt : t.resetsAt = s.resetsAt
  mask : SameMask s t
  identities : t.identities = s.identities
  viewReads : t.viewReads <:+ s.viewReads
  viewed : s.viewed <:+ t.viewed
  bound : (∀ pin, i ≠ .init pin) → t.bound = s.bound ∧ t.pin = s.pin
  romOut : i ≠ .readRom → t.romOut = s.romOut
  spOut : (∀ a, i ≠ .readScratchpad a) → t.spOut = s.spOut
  bitOut : i ≠ .resetPulse → i ≠ .readBit → (∀ a, i ≠ .readPowerSupply a) → t.bitOut = s.bitOut
  byteOut : i ≠ .readByte → t.byteOut = s.byteOut
  copyUntil : (∀ a, i ≠ .copyScratchpad a) → t.copyUntil = s.copyUntil
  registers : drivesLine i = false ∨ i = .driveLow → t.shift = s.shift ∧ t.bitcnt = s.bitcnt ∧ t.pres = s.pres ∧ t.smpl = s.smpl
  byteidx : isDeviceProtocol i = false → t.byteidx = s.byteidx ∧ (i ≠ .resetPulse → t.pres = s.pres)

section
variable {i : Instr} {s t u : State}

theorem Frame.trans (h : Frame i s t) (k : Frame i t u) : Frame i s u where
  romIn := k.romIn.trans h.romIn
  wdata := k.wdata.trans h.wdata
  env := k.env.trans h.env
  inbox := k.inbox.trans h.inbox
  answer := k.answer.trans h.answer
  resetsAt := k.resetsAt.trans h.resetsAt
  mask := ⟨k.mask.1.trans h.mask.1, k.mask.2.trans h.mask.2⟩
  identities := k.identities.trans h.identities
  viewReads := k.viewReads.trans h.viewReads
  viewed := h.viewed.trans k.viewed
  bound hn := ⟨(k.bound hn).1.trans (h.bound hn).1, (k.bound hn).2.trans (h.bound hn).2⟩
  romOut hn := (k.romOut hn).trans (h.romOut hn)
  spOut hn := (k.spOut hn).trans (h.spOut hn)
  bitOut h1 h2 h3 := (k.bitOut h1 h2 h3).trans (h.bitOut h1 h2 h3)
  byteOut hn := (k.byteOut hn).trans (h.byteOut hn)
  copyUntil hn := (k.copyUntil hn).trans (h.copyUntil hn)
  registers hn := by
    obtain ⟨a, b, c, d⟩ := h.registers hn
    obtain ⟨a', b', c', d'⟩ := k.registers hn
    exact ⟨a'.trans a, b'.trans b, c'.trans c, d'.trans d⟩
  byteidx hn := ⟨(k.byteidx hn).1.trans (h.byteidx hn).1, fun hr => ((k.byteidx hn).2 hr).trans ((h.byteidx hn).2 hr)⟩

/-- A program of the request. -/
theorem frame_run {p : List Micro} (hp : ProgramOf i p) (hr : s.resetsAt = []) : Frame i s (run p s) := by
  have kept := run_kept p hr
  have cells := run_cells p hr
  have regs := run_registers p hr
  obtain ⟨-, ids, -, -, viewed⟩ := onward_run (p := p) (Onward.refl s)
  have only : ∀ m, mayWrite i m = false → m ∉ p := fun m hm hin => by
    rw [List.all_eq_true.mp hp.writesFor m hin] at hm
    cases hm
  have quiet : ¬ (drivesLine i = false ∨ i = .driveLow) := by
    rcases hp with ⟨hb, -⟩ | ⟨hd, -⟩
    · cases i <;> cases hb <;> simp [drivesLine]
    · cases i <;> cases hd <;> simp [drivesLine]
  exact
    { romIn := kept.romIn, wdata := kept.wdata, env := kept.env, inbox := kept.inbox, answer := kept.answer, resetsAt := kept.resetsAt
      mask := run_restores_mask hr hp.nested
      identities := ids
      viewReads := regs.viewReads
      viewed := viewed
      bound := fun _ => ⟨kept.bound, kept.pin⟩
      romOut := fun hn => cells.romOut fun k => only _ (by simp [mayWrite, hn])
      spOut := fun hn => cells.spOut fun k => only _ (by cases i <;> simp_all [mayWrite])
      bitOut := fun h1 h2 h3 => cells.bitOut (only _ (by cases i <;> simp_all [mayWrite])) (only _ (by simp [mayWrite, h1]))
      byteOut := fun hn => cells.byteOut (only _ (by simp [mayWrite, hn]))
      copyUntil := fun hn => cells.copyUntil (only _ (by cases i <;> simp_all [mayWrite]))
      registers := fun hn => absurd hn quiet
      byteidx := fun hn => ⟨regs.byteidx fun k => only _ hn, fun h1 => regs.pres (only _ (by simp [mayWrite, hn, h1]))⟩ }

theorem Frame.refl (i : Instr) (s : State) : Frame i s s := by
  constructor <;> intros <;> first | rfl | exact ⟨rfl, rfl⟩ | exact List.suffix_refl _ | simp

/-- A fault leaves everything but itself. -/
theorem frame_raiseFault (f : FaultCode) (w : ReqWord) : Frame i s (raiseFault f w s) := by
  unfold raiseFault
  split
  · exact { Frame.refl i s with }
  · exact .refl i s

theorem frame_accept : Frame i s (accept i s) := { Frame.refl i s with }

theorem frame_respond (r : Response) : Frame i s (respond r s) := { Frame.refl i s with }

/-- The bind of INIT. -/
theorem frame_bindPin {pin : Pin} (hi : i = .init pin) : Frame i s (bindPin pin s) := by
  subst hi
  have onward := onward_bindPin pin s
  unfold bindPin at onward ⊢
  split at onward
  · next h => rw [if_pos h]; exact { Frame.refl _ s with bound := fun hn => absurd rfl (hn pin) }
  · next h => rw [if_neg h]; exact { Frame.refl _ s with bound := fun hn => absurd rfl (hn pin), identities := onward.2.1 }

/-- The primitive of INIT, DRIVE_LOW or RELEASE. -/
theorem frame_primitive {m : Micro} (hm : m = .setLow ∨ m = .release) : Frame i s (m.exec s) := by
  obtain ⟨-, ids, -⟩ := m.exec_onward s
  rcases hm with rfl | rfl <;> constructor
  case inl.identities | inr.identities => exact ids
  all_goals intros; simp [Micro.exec, SameMask]

/-- The output cells of an operation that found no presence. -/
theorem frame_clear : Frame i s (clearOutputs (cellsOf i) s) := by
  cases i with
  | readRom => exact { Frame.refl _ s with romOut := fun h => absurd rfl h }
  | readScratchpad a => exact { Frame.refl _ s with spOut := fun h => absurd rfl (h a) }
  | readPowerSupply a => exact { Frame.refl _ s with bitOut := fun _ _ h => absurd rfl (h a) }
  | _ => exact .refl _ s

/-- Before its response a request leaves its frame, the status and the call as they were, once the prologue has cleared an old commit
window or not. -/
def Framed (i : Instr) (s u : State) : Prop :=
  ∃ s', (s' = s ∨ s' = clearCopy s) ∧ Frame i s' u ∧ u.rstat = s.rstat ∧ u.call = s.call

theorem Framed.step (h : Framed i s t) (k : Frame i t u) (hr : u.rstat = t.rstat) (hc : u.call = t.call) : Framed i s u := by
  obtain ⟨s', hs, frame, rstat, call⟩ := h
  exact ⟨s', hs, frame.trans k, hr.trans rstat, hc.trans call⟩

theorem framed_prologue (i : Instr) (s : State) : Framed i s (prologue i s) := by
  rcases prologue_cases i s with ⟨-, e⟩ | ⟨-, f, -, e | e⟩ | ⟨-, -, -, -, -, e⟩ <;> rw [e]
  · exact ⟨s, .inl rfl, .refl i s, rfl, rfl⟩
  · exact ⟨s, .inl rfl, frame_raiseFault f _, by simp, by simp⟩
  · exact ⟨clearCopy s, .inr rfl, frame_raiseFault f _, by simp, by simp⟩
  · exact ⟨clearCopy s, .inr rfl, frame_accept, by simp, by simp⟩

/-- A request, where no block reset is scheduled, keeps its frame, and without a response the status and the call. -/
theorem instrKeeps_framed (hr : s.resetsAt = []) :
    InstrKeeps i (Framed i s) (fun t => ∃ s', (s' = s ∨ s' = clearCopy s) ∧ Frame i s' t
      ∧ (t.fault ≠ .none → t.rstat = s.rstat ∧ t.call = s.call)) where
  badPin w u _ _ h := h.step (frame_raiseFault _ w) (by simp) (by simp)
  bind pin u hi h := by
    have bound : Framed i s (bindPin pin u) := h.step (frame_bindPin hi) (by unfold bindPin; split <;> rfl) (by unfold bindPin; split <;> rfl)
    exact bound.step (frame_primitive (.inr rfl)) (by simp [Micro.exec]) (by simp [Micro.exec])
  primitive m u hm h := h.step (frame_primitive hm) (by rcases hm with rfl | rfl <;> simp [Micro.exec])
    (by rcases hm with rfl | rfl <;> simp [Micro.exec])
  program p u hp h := by
    have hu : u.resetsAt = [] := by
      obtain ⟨s', hs, frame, -, -⟩ := h
      rw [frame.resetsAt]
      rcases hs with rfl | rfl
      · exact hr
      · simpa using hr
    exact h.step (frame_run hp hu) (run_kept p hu).rstat (run_registers p hu).call
  clear u _ h := h.step frame_clear (by cases cellsOf i <;> rfl) (by cases cellsOf i <;> rfl)
  respond r u hf h := by
    obtain ⟨s', hs, frame, -, -⟩ := h
    exact ⟨s', hs, frame.trans (frame_respond r), fun hn => absurd hf hn⟩
  stopped u _ h := by
    obtain ⟨s', hs, frame, rstat, call⟩ := h
    exact ⟨s', hs, frame, fun _ => ⟨rstat, call⟩⟩

/-- The prologue clears `copy_until` only when no commit is pending any more. -/
theorem clearCopy_copyUntil_cases (s : State) :
    (clearCopy s).copyUntil = s.copyUntil ∨ ((clearCopy s).copyUntil = none ∧ s.copyPending = false) := by
  unfold clearCopy State.copyPending
  cases h : s.copyUntil with
  | none => exact .inl h
  | some t =>
    by_cases hn : t ≤ s.now
    · exact .inr ⟨by simp [hn], by simpa using hn⟩
    · exact .inl (by simp [hn, h])

/-- Clearing an old commit window changes nothing else. -/
theorem clearCopy_eq (s : State) : ∃ c, clearCopy s = { s with copyUntil := c } := by
  unfold clearCopy
  split
  · split
    · exact ⟨none, rfl⟩
    · exact ⟨s.copyUntil, rfl⟩
  · exact ⟨s.copyUntil, rfl⟩

end

/-- Settles O22: each operation of a request keeps the frame, and only its response changes the status and the call. -/
theorem requestFrame : Obligations.RequestFrame := by
  intro i s t hi hr he
  obtain ⟨s', hs, frame, answered⟩ := (instrKeeps_framed hr).exec hi he (framed_prologue i s)
  have same : ∃ c, s' = { s with copyUntil := c } := by
    rcases hs with rfl | rfl
    · exact ⟨s'.copyUntil, rfl⟩
    · exact clearCopy_eq s
  have window : s'.copyUntil = s.copyUntil ∨ (s'.copyUntil = none ∧ s.copyPending = false) := by
    rcases hs with rfl | rfl
    · exact .inl rfl
    · exact clearCopy_copyUntil_cases s
  obtain ⟨c, rfl⟩ := same
  refine ⟨frame.romIn, frame.wdata, frame.env, frame.inbox, frame.answer, frame.resetsAt.trans hr, frame.mask.1, frame.mask.2,
    frame.identities, frame.viewReads, frame.viewed, frame.bound, frame.romOut, frame.spOut, frame.bitOut, frame.byteOut,
    fun hn => ?_, frame.registers, frame.byteidx, answered⟩
  rw [frame.copyUntil hn]
  exact window

end Sys2Proof.Machine
end

section
/-! PROOFS. The invariant of the machine, field by field: the records, the engine, and the line (70_reset_and_hazards.md, 10_state.md). -/

namespace Sys2Proof.Machine

/-! ### The trace and the reads of the status view -/

/-- Neither the trace nor the record of view reads is out of time. -/
structure RecordsInTime (s : State) : Prop where
  trace : TraceInOrder s
  viewed : ViewedInPast s

theorem traceOrdered_mono {m n : Nat} (h : m ≤ n) : ∀ {es : List (Nat × Event)}, traceOrdered m es = true → traceOrdered n es = true
  | [], _ => rfl
  | e :: es, ho => by
    simp only [traceOrdered, Bool.and_eq_true, decide_eq_true_eq] at ho ⊢
    exact ⟨by omega, ho.2⟩

section
variable {s t : State}

theorem RecordsInTime.of_same (h : RecordsInTime s) (hn : t.now = s.now) (ht : t.trace = s.trace) (hv : t.viewed = s.viewed) :
    RecordsInTime t := by
  obtain ⟨trace, viewed⟩ := h
  exact ⟨by rw [TraceInOrder, hn, ht]; exact trace, by rw [ViewedInPast, hn, hv]; exact viewed⟩

theorem RecordsInTime.of_event (h : RecordsInTime s) {e : Event} (hn : t.now = s.now) (ht : t.trace = (s.now, e) :: s.trace)
    (hv : t.viewed = s.viewed) : RecordsInTime t := by
  obtain ⟨trace, viewed⟩ := h
  refine ⟨?_, by rw [ViewedInPast, hn, hv]; exact viewed⟩
  rw [TraceInOrder, ht, hn, traceOrdered, decide_eq_true (Nat.le_refl _), Bool.true_and]
  exact trace

/-- Time passes, and reads of the view are made by then. -/
theorem RecordsInTime.pass (h : RecordsInTime s) {n : Nat} (hn : s.now ≤ n) : RecordsInTime (pass n s) := by
  obtain ⟨trace, viewed⟩ := h
  have made : ∀ {l : List (Nat × Nat)} {p : Nat × Nat}, p ∈ l.takeWhile (fun p => decide (p.1 ≤ n)) → p.1 ≤ n := fun hp => by
    simpa using List.mem_takeWhile_imp hp
  refine ⟨?_, fun v hv => ?_⟩
  · rw [TraceInOrder, pass_trace, pass_now]
    exact traceOrdered_mono hn trace
  · rw [pass_now]
    simp only [Machine.pass, readViews, List.mem_append, List.mem_reverse, List.mem_map, passTo_viewed] at hv
    rcases hv with ⟨p, hp, rfl⟩ | hv
    · have due : p.1 ≤ n := by
        unfold State.dueViews at hp
        split at hp
        · cases hp
        · exact made (by simpa using hp)
      exact Nat.max_le.mpr ⟨hn, due⟩
    · exact Nat.le_trans (viewed v hv) hn

theorem RecordsInTime.blockReset (h : RecordsInTime s) : RecordsInTime (blockReset s) := by
  by_cases hd : s.drive = .drivenLow
  · exact h.of_event (e := .rel) rfl (by simp [blockReset_trace, hd]) rfl
  · exact h.of_same rfl (by simp [blockReset_trace, hd]) rfl

theorem RecordsInTime.advance (h : RecordsInTime s) (d : Nat) : RecordsInTime (advance d s) := by
  rcases advance_cases d s with e | ⟨t, rest, -, -, e⟩ <;> rw [e]
  · exact h.pass (Nat.le_add_right _ _)
  · exact RecordsInTime.blockReset ((h.of_same (t := { s with resetsAt := rest }) rfl rfl rfl).pass (Nat.le_max_left _ _))

theorem RecordsInTime.raiseFault (h : RecordsInTime s) (f : FaultCode) (w : ReqWord) : RecordsInTime (raiseFault f w s) :=
  h.of_same (by simp) (by simp) (by simp)

theorem RecordsInTime.exitCritical (h : RecordsInTime s) : RecordsInTime (exitCritical s) := by
  rcases exitCritical_cases s with ⟨-, e⟩ | ⟨m, rest, -, e⟩ <;> rw [e]
  · exact h.raiseFault _ _
  · exact h.of_event rfl rfl rfl

theorem RecordsInTime.delayMs (h : RecordsInTime s) (n : Nat) : RecordsInTime (delayMs n s) := by
  unfold Machine.delayMs
  split
  · exact (h.of_event (t := ({ s with draws := s.draws + 1 } : State).emit (.sleep n)) rfl rfl rfl).advance _
  · exact h.raiseFault _ _

theorem RecordsInTime.micro (h : RecordsInTime s) (m : Micro) : RecordsInTime (m.exec s) := by
  cases m with
  | gap =>
    have time : RecordsInTime (Machine.advance s.gapTime { s with draws := s.draws + 1 }) :=
      (h.of_same (t := { s with draws := s.draws + 1 }) rfl rfl rfl).advance _
    rcases passGap_shape s with e | ⟨w, rest, -, -, e⟩ <;> rw [Micro.exec, e]
    · exact time
    · exact RecordsInTime.raiseFault (time.of_same (t := { Machine.advance s.gapTime _ with intruders := rest }) rfl rfl rfl) _ _
  | delay n => exact ((h.of_same (t := { s with draws := s.draws + 1 }) rfl rfl rfl).advance _).of_same rfl rfl rfl
  | exit => exact h.exitCritical.of_same (by simp [Micro.exec]) (by simp [Micro.exec]) (by simp [Micro.exec])
  | setLow => exact h.of_event (e := .low) (by simp [Micro.exec]) (by simp [Micro.exec]) (by simp [Micro.exec])
  | release => exact h.of_event (e := .rel) (by simp [Micro.exec]) (by simp [Micro.exec]) (by simp [Micro.exec])
  | sample => exact h.of_event (e := .smp s.lineLevel) rfl rfl rfl
  | enter => exact h.of_event (e := .critOn) rfl rfl rfl
  | _ => exact h.of_same rfl rfl rfl

end

/-! ### The engine -/

/-- What the invariant says of the engine and of the caller of a request, at every moment of a step. -/
structure EngineConsistent (s : State) : Prop where
  upc : BusyMatchesUpc s
  counters : CountersInRange s
  waiting : s.busy = true ∨ s.fault.ofRequest = true → s.call = .waiting
  waits : s.call = .waiting → s.busy = true ∨ s.fault ≠ .none

section
variable {s t : State}

theorem EngineConsistent.of_same (h : EngineConsistent s) (hb : t.busy = s.busy) (hu : t.upc = s.upc) (hc : t.bitcnt = s.bitcnt)
    (hi : t.byteidx = s.byteidx) (hf : t.fault = s.fault) (hw : t.call = s.call) : EngineConsistent t := by
  obtain ⟨upc, counters, waiting, waits⟩ := h
  exact ⟨by rw [BusyMatchesUpc, hb, hu]; exact upc, by rw [CountersInRange, hc, hi]; exact counters,
    by rw [hb, hf, hw]; exact waiting, by rw [hb, hf, hw]; exact waits⟩

/-- A fault is raised: one of a request in a call only. -/
theorem EngineConsistent.raiseFault (h : EngineConsistent s) {f : FaultCode} (hf : f ≠ .none)
    (hw : f.ofRequest = true → s.fault = .none → s.call = .waiting) (w : ReqWord) : EngineConsistent (raiseFault f w s) := by
  unfold Machine.raiseFault
  split
  · next hn =>
    exact ⟨h.upc, h.counters, fun hc => hc.elim (fun hb => h.waiting (.inl hb)) (fun hr => hw hr hn), fun _ => .inr hf⟩
  · exact h

theorem EngineConsistent.pass (h : EngineConsistent s) (n : Nat) : EngineConsistent (pass n s) :=
  h.of_same (by simp) (by simp) (by simp) (by simp) (by simp) (by simp)

/-- A block reset leaves no request in flight, and no caller. -/
theorem engineConsistent_blockReset (s : State) : EngineConsistent (blockReset s) := by
  refine ⟨by simp [BusyMatchesUpc, blockReset], by simp [CountersInRange, blockReset], by simp [blockReset, FaultCode.ofRequest], ?_⟩
  intro hw
  simp only [blockReset] at hw
  split at hw
  · cases hw
  · next hn => exact absurd hw hn

theorem EngineConsistent.advance (h : EngineConsistent s) (d : Nat) : EngineConsistent (advance d s) := by
  rcases advance_cases d s with e | ⟨t, rest, -, -, e⟩ <;> rw [e]
  · exact h.pass _
  · exact engineConsistent_blockReset _

theorem EngineConsistent.exitCritical (h : EngineConsistent s) : EngineConsistent (exitCritical s) := by
  rcases exitCritical_cases s with ⟨-, e⟩ | ⟨m, rest, -, e⟩ <;> rw [e]
  · exact h.raiseFault (by simp) (fun hr => by cases hr) _
  · exact h.of_same rfl rfl rfl rfl rfl rfl

theorem EngineConsistent.delayMs (h : EngineConsistent s) (n : Nat) : EngineConsistent (delayMs n s) := by
  unfold Machine.delayMs
  split
  · exact (h.of_same (t := ({ s with draws := s.draws + 1 } : State).emit (.sleep n)) rfl rfl rfl rfl rfl rfl).advance _
  · exact h.raiseFault (by simp) (fun hr => by cases hr) _

/-- Counting a primitive keeps `upc` at IDLE or away from it. -/
theorem EngineConsistent.count (h : EngineConsistent s) : EngineConsistent s.count := by
  obtain ⟨upc, counters, waiting, waits⟩ := h
  refine ⟨?_, counters, waiting, waits⟩
  rw [BusyMatchesUpc, State.count]
  dsimp only
  split
  · rw [show s.busy = false ↔ s.upc = .idle from upc]
    cases s.upc <;> simp [Upc.bump]
  · exact upc

/-- A write of the working registers, with its counters in their ranges. -/
theorem EngineConsistent.counted (h : EngineConsistent s) {b i : Option Nat} (hb : b.getD 0 ≤ 8) (hi : i.getD 0 ≤ 9)
    (hs : t.busy = s.busy ∧ t.upc = s.upc ∧ t.fault = s.fault ∧ t.call = s.call) (htb : t.bitcnt = b) (hti : t.byteidx = i) :
    EngineConsistent t := by
  obtain ⟨busy, upc, fault, call⟩ := hs
  exact ⟨by rw [BusyMatchesUpc, busy, upc]; exact h.upc, by rw [CountersInRange, htb, hti]; exact ⟨hb, hi⟩,
    by rw [busy, fault, call]; exact h.waiting, by rw [busy, fault, call]; exact h.waits⟩

theorem EngineConsistent.micro (h : EngineConsistent s) {m : Micro} (hm : m.ranged = true) : EngineConsistent (m.exec s) := by
  have quiet : EngineConsistent { s with draws := s.draws + 1 } := h.of_same rfl rfl rfl rfl rfl rfl
  have range : ∀ {k n : Nat}, decide (k < n) = true → k + 1 ≤ n := fun hk => of_decide_eq_true hk
  cases m with
  | gap =>
    have time := quiet.advance s.gapTime
    rcases passGap_shape s with e | ⟨w, rest, hr, -, e⟩ <;> rw [Micro.exec, e]
    · exact time
    · refine EngineConsistent.raiseFault (s := { Machine.advance s.gapTime _ with intruders := rest })
        (time.of_same rfl rfl rfl rfl rfl rfl) (by simp) (fun _ _ => time.waiting (.inl ((running_iff _).mp hr).1)) w
  | delay n => exact (quiet.advance _).count
  | exit => exact h.exitCritical.count
  | setLow =>
    exact EngineConsistent.count (h.of_same (t := setLineLow s) (by simp) (by simp) (by simp) (by simp) (by simp) (by simp))
  | release =>
    exact EngineConsistent.count (h.of_same (t := releaseLine s) (by simp) (by simp) (by simp) (by simp) (by simp) (by simp))
  | sample => exact EngineConsistent.count (h.of_same (t := sampleLine s) rfl rfl rfl rfl rfl rfl)
  | enter => exact EngineConsistent.count (h.of_same (t := enterCritical s) rfl rfl rfl rfl rfl rfl)
  | loadByte v => exact h.counted (b := some 0) (Nat.zero_le _) h.counters.2 ⟨rfl, rfl, rfl, rfl⟩ rfl rfl
  | bitSent k => exact h.counted (b := some (k + 1)) (range hm) h.counters.2 ⟨rfl, rfl, rfl, rfl⟩ rfl rfl
  | collect k => exact h.counted (b := some (k + 1)) (range hm) h.counters.2 ⟨rfl, rfl, rfl, rfl⟩ rfl rfl
  | byteIndex k => exact h.counted (i := some k) h.counters.1 (Nat.le_of_lt (range hm)) ⟨rfl, rfl, rfl, rfl⟩ rfl rfl
  | _ => exact h.of_same rfl rfl rfl rfl rfl rfl

end

/-! ### The line -/

/-- What the invariant says of the line and of the devices, at every moment of a step. -/
structure LineConsistent (s : State) : Prop where
  tracked : LowPeriodTracked s
  held : LowPeriodHeld s
  begun : LowPeriodBegun s
  noCommand : NoPendingCommand s

/-! Command bytes: a byte that a slot completes is decoded at once (45_reference_device.md rule R313). -/

theorem romCommandNext_command? (v : Byte) : (romCommandNext v).command? = none := by
  unfold romCommandNext
  repeat' split
  all_goals rfl

theorem functionCommandNext_command? (v : Byte) : (functionCommandNext v).command? = none := by
  unfold functionCommandNext
  repeat' split
  all_goals rfl

/-- A complete command byte stands in WAIT_ROM or WAIT_FN. -/
theorem Pos.command?_eq_some {p : Pos} {b : Byte} (h : p.command? = some b) : ∃ n, p = .waitRom b n ∨ p = .waitFn b n := by
  unfold Pos.command? at h
  split at h
  · next acc n =>
    split at h <;> cases h
    exact ⟨n, .inl rfl⟩
  · next acc n =>
    split at h <;> cases h
    exact ⟨n, .inr rfl⟩
  · cases h

/-- A device that has decoded its command byte holds none. -/
theorem Ds18b20.decodeCommand_command? (x : Ds18b20) : x.decodeCommand.pos.command? = none := by
  cases h : x.pos.command? with
  | none => rw [Ds18b20.decodeCommand_of_none h, h]
  | some b =>
    cases hd : decodeWire b with
    | error e => rw [Ds18b20.decodeCommand_of_error h hd]; rfl
    | ok i =>
      obtain ⟨hi, -⟩ := decodeWire_eq_ok hd
      rw [Ds18b20.decodeCommand_of_ok h hd]
      obtain ⟨n, hp | hp⟩ := Pos.command?_eq_some h
      · rw [Ds18b20.take_of_waitRom hp hi]
        exact romCommandNext_command? _
      · rw [(Ds18b20.take_waitFn hp hi).pos]
        exact functionCommandNext_command? _

theorem Ds18b20.slot_command? (e : Nat) (bit : Bool) (x : Ds18b20) : (x.slot e bit).pos.command? = none := by
  cases hc : x.copying
  · rw [Ds18b20.slot_of_idle hc]
    exact Ds18b20.decodeCommand_command? _
  · rw [Ds18b20.slot, if_pos hc]
    change (Pos.settled _).command? = none
    unfold Pos.settled
    split
    · rfl
    · next h => simpa using h

/-- The operation leaves no device with a command byte to decode. -/
def KeepsNoCommand (F : Device → Device) : Prop := ∀ d, d.command? = none → (F d).command? = none

theorem Device.command?_of_ds18b20 {d : Device} {x : Ds18b20} (hk : d.kind = .ds18b20 x) : d.command? = x.pos.command? := by
  rw [Device.command?, hk]

theorem keepsNoCommand_settle (n : Nat) : KeepsNoCommand (Device.settle n) := by
  intro d h
  unfold Device.settle
  split
  · next x hk =>
    rw [Device.command?_of_ds18b20 hk] at h
    rw [Device.command?_of_ds18b20 rfl, (Ds18b20.settle_parts n x).1, h]
  · exact h

theorem keepsNoCommand_fall (n : Nat) : KeepsNoCommand (Device.fall n) := by
  intro d h
  unfold Device.fall
  split
  · next x hk =>
    rw [Device.command?_of_ds18b20 hk] at h
    rw [Device.command?_of_ds18b20 rfl, (Ds18b20.fall_parts n x).1, h]
  all_goals exact h

theorem keepsNoCommand_slot (start n : Nat) : KeepsNoCommand (Device.slot start n) := by
  intro d h
  unfold Device.slot
  split
  · exact h
  · cases hk : d.kind with
    | ds18b20 x => exact x.slot_command? _ _
    | echo e => rfl
    | presenceOnly => exact h

theorem keepsNoCommand_busReset (n : Nat) : KeepsNoCommand (Device.busReset n) := by
  intro d _
  cases hk : d.kind <;> simp [Device.busReset, hk, Device.command?, Pos.command?]

theorem keepsNoCommand_abandon : KeepsNoCommand Device.abandon := by
  intro d h
  unfold Device.abandon
  split
  · rfl
  · exact h

/-- An operation on the devices of one line. -/
theorem KeepsNoCommand.onLine {F : Device → Device} (hF : KeepsNoCommand F) (q : Pin) :
    KeepsNoCommand (fun d => if d.pin = q then F d else d) := by
  intro d h
  dsimp only
  split
  · exact hF d h
  · exact h

/-- The end of a low period, a reset or a slot. -/
theorem keepsNoCommand_endLow (q : Pin) (start n : Nat) (c : Prop) [Decidable c] :
    KeepsNoCommand (fun d => if d.pin = q then (if c then d.busReset n else d.slot start n) else d) := by
  refine KeepsNoCommand.onLine (F := fun d => if c then d.busReset n else d.slot start n) (fun d h => ?_) q
  dsimp only
  split
  · exact keepsNoCommand_busReset n d h
  · exact keepsNoCommand_slot start n d h

section
variable {s t : State}

theorem NoPendingCommand.map (h : NoPendingCommand s) {F : Device → Device} (hd : t.devices = s.devices.map F)
    (hF : KeepsNoCommand F) : NoPendingCommand t := by
  rw [NoPendingCommand, pendingCommand?_eq_none] at h ⊢
  rw [hd]
  intro d hmem
  obtain ⟨e, he, rfl⟩ := List.mem_map.mp hmem
  exact hF e (h e he)

theorem NoPendingCommand.of_same (h : NoPendingCommand s) (hd : t.devices = s.devices) : NoPendingCommand t :=
  h.map (F := id) (by simpa using hd) fun _ => id

theorem LineConsistent.of_same (h : LineConsistent s) (hv : t.drive = s.drive) (hl : t.lineLow = s.lineLow) (hn : t.now = s.now)
    (hp : t.pin = s.pin) (hd : t.devices = s.devices) : LineConsistent t := by
  obtain ⟨tracked, held, begun, noCommand⟩ := h
  have since : t.devicesLowSince t.now = s.devicesLowSince s.now := by
    rw [State.devicesLowSince, State.lineDevices, hd, hp, hn]
    rfl
  exact ⟨by rw [LowPeriodTracked, hv, hl]; exact tracked, by rw [LowPeriodHeld, hv, hl, since]; exact held,
    by rw [LowPeriodBegun, hl, hn]; exact begun, noCommand.of_same hd⟩

/-- The line is released and high. -/
theorem LineConsistent.of_high (hv : t.drive = .released) (hl : t.lineLow = none) (hc : NoPendingCommand t) : LineConsistent t :=
  ⟨by simp [LowPeriodTracked, hv], by simp [LowPeriodHeld, hl], by simp [LowPeriodBegun, hl], hc⟩

theorem Device.drivesLow_settle (m n : Nat) (d : Device) : (d.settle m).drivesLow n = d.drivesLow n := by
  simp [Device.drivesLow, Device.lowSince, Device.presenceSince, Device.holdSince]

theorem devicesLowSince_settleTo (m n : Nat) (s : State) :
    (settleTo m s).devicesLowSince n = none ↔ s.devicesLowSince n = none := by
  simp [devicesLowSince_eq_none_iff, Device.drivesLow_settle]

/-- While devices hold a low period to itself, the line rises at some time, if it is free at one. -/
theorem exists_lineRise? {n : Nat} (hn : s.now ≤ n) (held : s.devicesLowSince s.now ≠ none) (free : s.devicesLowSince n = none) :
    ∃ r ≤ n, s.lineRise? = some r := by
  have ex : ∃ r, s.now ≤ r ∧ s.devicesLowSince r = none := ⟨n, hn, free⟩
  obtain ⟨hr, hfree⟩ := Nat.find_spec ex
  refine ⟨Nat.find ex, Nat.find_le ⟨hn, free⟩, lineRise?_eq ?_ hfree fun m hm hlt none => Nat.find_min ex hlt ⟨hm, none⟩⟩
  rcases Nat.lt_or_eq_of_le hr with h | h
  · exact h
  · rw [← h] at hfree
    exact absurd hfree held

/-- Time passes: the line rises where no device holds it any more. -/
theorem LineConsistent.passTo (h : LineConsistent s) {n : Nat} (hn : s.now ≤ n) : LineConsistent (passTo n s) := by
  obtain ⟨tracked, held, begun, noCommand⟩ := h
  unfold Machine.passTo
  split
  · next start r hr =>
    obtain ⟨hv, -, -, -⟩ := riseBy?_eq_some.mp hr
    refine .of_high (by simp [hv]) (by simp) ?_
    have settled : NoPendingCommand (settleTo r s) := noCommand.map rfl (keepsNoCommand_settle r)
    have ended : NoPendingCommand (endLow start (settleTo r s)) :=
      settled.map (endLow_devices start _) (keepsNoCommand_endLow _ _ _ _)
    exact ended.map rfl (keepsNoCommand_settle n)
  · next hr =>
    refine ⟨tracked, fun hl => ?_, fun q hq => Nat.le_trans (begun q hq) hn, noCommand.map rfl (keepsNoCommand_settle n)⟩
    rcases held hl with hv | hs
    · exact .inl hv
    · by_contra hnot
      obtain ⟨hv, free⟩ := not_or.mp hnot
      have hv : s.drive = .released := by
        cases hd : s.drive
        · rfl
        · exact absurd hd hv
      obtain ⟨start, hstart⟩ := Option.isSome_iff_exists.mp hl
      have free : s.devicesLowSince n = none := (devicesLowSince_settleTo n n s).mp (by simpa using free)
      obtain ⟨r, hle, hrise⟩ := exists_lineRise? hn (by simpa [Option.isSome_iff_ne_none] using hs) free
      rw [riseBy?_eq_some.mpr ⟨hv, hstart, hrise, hle⟩] at hr
      cases hr

theorem LineConsistent.pass (h : LineConsistent s) {n : Nat} (hn : s.now ≤ n) : LineConsistent (pass n s) :=
  (h.passTo hn).of_same (by simp) (by simp) (by simp) (by simp) (by simp)

theorem LineConsistent.blockReset (h : LineConsistent s) : LineConsistent (blockReset s) := by
  refine ⟨nofun, fun hl => ?_, fun q hq => ?_, h.noCommand⟩
  · simp only [Machine.blockReset] at hl
    split at hl
    · cases hl
    · next hs => exact .inr (Option.isSome_iff_ne_none.mpr hs)
  · simp only [Machine.blockReset] at hq
    split at hq
    · cases hq
    · exact h.begun q hq

theorem LineConsistent.advance (h : LineConsistent s) (d : Nat) : LineConsistent (advance d s) := by
  rcases advance_cases d s with e | ⟨t, rest, -, -, e⟩ <;> rw [e]
  · exact h.pass (Nat.le_add_right _ _)
  · exact LineConsistent.blockReset ((h.of_same (t := { s with resetsAt := rest }) rfl rfl rfl rfl rfl).pass (Nat.le_max_left _ _))

theorem LineConsistent.raiseFault (h : LineConsistent s) (f : FaultCode) (w : ReqWord) : LineConsistent (raiseFault f w s) :=
  h.of_same (by simp) (by simp) (by simp) (by simp) (by simp)

theorem LineConsistent.exitCritical (h : LineConsistent s) : LineConsistent (exitCritical s) := by
  rcases exitCritical_cases s with ⟨-, e⟩ | ⟨m, rest, -, e⟩ <;> rw [e]
  · exact h.raiseFault _ _
  · exact h.of_same rfl rfl rfl rfl rfl

theorem LineConsistent.delayMs (h : LineConsistent s) (n : Nat) : LineConsistent (delayMs n s) := by
  unfold Machine.delayMs
  split
  · exact (h.of_same (t := ({ s with draws := s.draws + 1 } : State).emit (.sleep n)) rfl rfl rfl rfl rfl).advance _
  · exact h.raiseFault _ _

theorem LineConsistent.setLineLow (h : LineConsistent s) : LineConsistent (setLineLow s) := by
  obtain ⟨q, hq, low, -⟩ := setLineLow_line h.tracked h.begun
  refine ⟨fun _ => by rw [low]; rfl, fun _ => .inl (by simp), fun p hp => ?_, ?_⟩
  · rw [low] at hp
    cases hp
    simpa using hq
  · by_cases hn : s.drive = .drivenLow ∨ s.lineLow.isSome = true ∨ (s.devicesLowSince s.now).isSome = true
    · exact h.noCommand.of_same (setLineLow_noEdge hn).1
    · simp only [not_or, Bool.not_eq_true, Option.isSome_eq_false_iff, Option.isNone_iff_eq_none] at hn
      obtain ⟨hd, hl, hs⟩ := hn
      have hd : s.drive = .released := by cases hv : s.drive <;> simp_all
      exact h.noCommand.map (setLineLow_edge hd hl hs).1 ((keepsNoCommand_fall s.now).onLine s.pin)

/-- The engine's release: the line rises, or the devices hold the low period. -/
theorem lineConsistent_releaseLine (begun : LowPeriodBegun s) (noCommand : NoPendingCommand s) : LineConsistent (releaseLine s) := by
  cases hl : s.lineLow with
  | none =>
    have high : releaseLine s = ({ s with drive := .released } : State).emit .rel := by
      unfold releaseLine
      simp [hl]
    rw [high]
    exact .of_high rfl hl (noCommand.of_same rfl)
  | some start =>
    by_cases hr : Config.resetThreshold ≤ s.now - start ∨ s.devicesLowSince s.now = none
    · obtain ⟨devices, low⟩ := releaseLine_rises hl hr
      exact .of_high (by simp) low (noCommand.map devices (keepsNoCommand_endLow _ _ _ _))
    · obtain ⟨hn, hs⟩ := not_or.mp hr
      obtain ⟨devices, low⟩ := releaseLine_held hl hn hs
      refine ⟨fun hv => by simp at hv, fun _ => .inr ?_, fun q hq => ?_, noCommand.of_same devices⟩
      · rw [Option.isSome_iff_ne_none]
        simpa [State.devicesLowSince, State.lineDevices, devices] using hs
      · rw [low] at hq
        cases hq
        simpa using begun start hl

theorem LineConsistent.micro (h : LineConsistent s) (m : Micro) : LineConsistent (m.exec s) := by
  have quiet : LineConsistent { s with draws := s.draws + 1 } := h.of_same rfl rfl rfl rfl rfl
  cases m with
  | gap =>
    have time := quiet.advance s.gapTime
    rcases passGap_shape s with e | ⟨w, rest, -, -, e⟩ <;> rw [Micro.exec, e]
    · exact time
    · exact LineConsistent.raiseFault (time.of_same (t := { Machine.advance s.gapTime _ with intruders := rest }) rfl rfl rfl rfl rfl) _ _
  | delay n => exact (quiet.advance _).of_same rfl rfl rfl rfl rfl
  | exit => exact h.exitCritical.of_same rfl rfl rfl rfl rfl
  | setLow => exact h.setLineLow.of_same rfl rfl rfl rfl rfl
  | release => exact (lineConsistent_releaseLine h.begun h.noCommand).of_same rfl rfl rfl rfl rfl
  | _ => exact h.of_same rfl rfl rfl rfl rfl

/-- INIT binds a pin and releases the line. -/
theorem LineConsistent.bind (h : LineConsistent s) (pin : Pin) : LineConsistent (Micro.release.exec (bindPin pin s)) := by
  have bound : LowPeriodBegun (bindPin pin s) ∧ NoPendingCommand (bindPin pin s) := by
    unfold bindPin
    split
    · exact ⟨h.begun, h.noCommand.of_same rfl⟩
    · refine ⟨nofun, h.noCommand.map (F := fun d => if s.bound || s.lineLow.isSome then (if d.pin = s.pin then d.abandon else d) else d)
        ?_ fun d hd => ?_⟩
      · cases s.bound || s.lineLow.isSome <;> simp
      · dsimp only
        split
        · exact keepsNoCommand_abandon.onLine s.pin d hd
        · exact hd
  exact (lineConsistent_releaseLine bound.1 bound.2).of_same rfl rfl rfl rfl rfl

end

end Sys2Proof.Machine
end

section
/-! PROOFS. Every step keeps the invariant of the machine. -/

namespace Sys2Proof.Machine

/-! ### The parts that hold at every moment of a step -/

/-- What the invariant says of the records, the engine and the line, at every moment of a step. -/
structure Sound (s : State) : Prop where
  records : RecordsInTime s
  engine : EngineConsistent s
  line : LineConsistent s

section
variable {s : State}

theorem Sound.raiseFault (h : Sound s) {f : FaultCode} (hf : f ≠ .none)
    (hw : f.ofRequest = true → s.fault = .none → s.call = .waiting) (w : ReqWord) : Sound (raiseFault f w s) :=
  ⟨h.records.raiseFault f w, h.engine.raiseFault hf hw w, h.line.raiseFault f w⟩

theorem Sound.advance (h : Sound s) (d : Nat) : Sound (advance d s) :=
  ⟨h.records.advance d, h.engine.advance d, h.line.advance d⟩

theorem Sound.exitCritical (h : Sound s) : Sound (exitCritical s) :=
  ⟨h.records.exitCritical, h.engine.exitCritical, h.line.exitCritical⟩

theorem Sound.delayMs (h : Sound s) (n : Nat) : Sound (delayMs n s) :=
  ⟨h.records.delayMs n, h.engine.delayMs n, h.line.delayMs n⟩

theorem Sound.enterCritical (h : Sound s) : Sound (enterCritical s) :=
  ⟨h.records.of_event rfl rfl rfl, h.engine.of_same rfl rfl rfl rfl rfl rfl, h.line.of_same rfl rfl rfl rfl rfl⟩

theorem Sound.blockReset (h : Sound s) : Sound (blockReset s) :=
  ⟨h.records.blockReset, engineConsistent_blockReset s, h.line.blockReset⟩

theorem Sound.micro (h : Sound s) {m : Micro} (hm : m.ranged = true) : Sound (m.exec s) :=
  ⟨h.records.micro m, h.engine.micro hm, h.line.micro m⟩

/-- The commit window is none of the invariant's. -/
theorem Sound.window (h : Sound s) (c : Option Nat) : Sound { s with copyUntil := c } :=
  ⟨h.records.of_same rfl rfl rfl, h.engine.of_same rfl rfl rfl rfl rfl rfl, h.line.of_same rfl rfl rfl rfl rfl⟩

theorem Sound.clearOutputs (h : Sound s) (c : OutCells) : Sound (clearOutputs c s) := by
  obtain ⟨records, engine, line⟩ := h
  cases c <;>
  exact ⟨records.of_same rfl rfl rfl, engine.of_same rfl rfl rfl rfl rfl rfl, line.of_same rfl rfl rfl rfl rfl⟩

/-- The caller's request is accepted. -/
theorem Sound.accept (h : Sound s) (i : Instr) : Sound (accept i { s with call := .waiting }) :=
  ⟨h.records.of_event rfl rfl rfl,
    ⟨by simp [BusyMatchesUpc, Machine.accept], h.engine.counters, fun _ => rfl, fun _ => .inl rfl⟩,
    h.line.of_same rfl rfl rfl rfl rfl⟩

/-- The caller's request meets a fault. -/
theorem Sound.refused (h : Sound s) {f : FaultCode} (hf : f ≠ .none) (w : ReqWord) :
    Sound (Machine.raiseFault f w { s with call := .waiting }) := by
  refine ⟨h.records.of_same (by simp) (by simp) (by simp), ?_, h.line.of_same (by simp) (by simp) (by simp) (by simp) (by simp)⟩
  obtain ⟨upc, counters, -, -⟩ := h.engine
  unfold Machine.raiseFault
  split
  · exact ⟨upc, counters, fun _ => rfl, fun _ => .inr hf⟩
  · next hn => exact ⟨upc, counters, fun _ => rfl, fun _ => .inr hn⟩

/-- A response ends the call; no fault of a request is recorded then. -/
theorem Sound.respond (h : Sound s) (hf : s.fault = .none) (r : Response) : Sound (respond r s) :=
  ⟨h.records.of_event rfl rfl rfl,
    ⟨by simp [BusyMatchesUpc, Machine.respond], h.engine.counters, by simp [hf, FaultCode.ofRequest], by simp [Machine.respond]⟩,
    h.line.of_same rfl rfl rfl rfl rfl⟩

theorem Sound.bind (h : Sound s) (pin : Pin) : Sound (Micro.release.exec (bindPin pin s)) := by
  refine ⟨?_, ?_, h.line.bind pin⟩
  · refine RecordsInTime.micro (h.records.of_same ?_ ?_ ?_) _ <;> unfold bindPin <;> split <;> rfl
  · refine EngineConsistent.micro (h.engine.of_same ?_ ?_ ?_ ?_ ?_ ?_) rfl <;> unfold bindPin <;> split <;> rfl

/-- The prologue of a request that its caller delivers. -/
theorem Sound.prologue (h : Sound s) (hf : s.fault = .none) (i : Instr) : Sound (prologue i { s with call := .waiting }) := by
  obtain ⟨c, hc⟩ := clearCopy_eq { s with call := .waiting }
  rcases prologue_cases i { s with call := .waiting } with ⟨hn, -⟩ | ⟨-, f, hn, e⟩ | ⟨-, -, -, -, -, e⟩
  · exact absurd hf hn
  · rcases e with e | e <;> rw [e]
    · exact h.refused hn _
    · rw [hc]
      exact (h.window c).refused hn _
  · rw [e, hc]
    exact (h.window c).accept i

theorem instrKeeps_sound (i : Instr) : InstrKeeps i Sound Sound where
  badPin w s _ hr h := h.raiseFault (by simp) (fun _ _ => h.engine.waiting (.inl ((running_iff s).mp hr).1)) w
  bind pin s _ h := h.bind pin
  primitive m s hm h := h.micro (by rcases hm with rfl | rfl <;> rfl)
  program p s hp h := run_keeps_of_micro (fun m t hm h => h.micro hm) hp.ranged h
  clear s _ h := h.clearOutputs _
  respond r s hf h := h.respond hf r
  stopped _ _ := id

end

/-! ### Rest: no request is left in flight -/

theorem instrKeeps_rest (i : Instr) : InstrKeeps i (fun _ => True) AtRest where
  badPin _ _ _ _ _ := trivial
  bind _ _ _ _ := trivial
  primitive _ _ _ _ := trivial
  program _ _ _ _ := trivial
  clear _ _ _ := trivial
  respond _ _ _ _ := rfl
  stopped _ h _ := h

theorem AtRest.raiseFault {s : State} {f : FaultCode} (hf : f ≠ .none) (w : ReqWord) : AtRest (raiseFault f w s) :=
  running_raiseFault hf w s

theorem AtRest.advance {s : State} (h : AtRest s) (d : Nat) : AtRest (advance d s) := by
  rcases advance_cases d s with e | ⟨t, rest, -, -, e⟩ <;> rw [e]
  · simpa [AtRest, State.running] using h
  · rfl

/-! ### The bound of `upc` (70_reset_and_hazards.md rule R421) -/

theorem steps_advance_le (d : Nat) (s : State) : (advance d s).upc.steps ≤ s.upc.steps := by
  rcases advance_cases d s with e | ⟨t, rest, -, -, e⟩ <;> rw [e]
  · simp
  · exact Nat.zero_le _

theorem steps_count_le (s : State) : s.count.upc.steps ≤ s.upc.steps + 1 := by
  rw [State.count_upc]
  split
  · cases s.upc <;> simp [Upc.bump, Upc.steps]
  · exact Nat.le_succ _

/-- A micro-operation counts itself when it is a shim primitive. -/
theorem Micro.exec_steps_le (m : Micro) (s : State) : (m.exec s).upc.steps ≤ s.upc.steps + (if m.isPrimitive then 1 else 0) := by
  have counted : ∀ t : State, t.upc.steps ≤ s.upc.steps → t.count.upc.steps ≤ s.upc.steps + 1 := fun t h =>
    Nat.le_trans (steps_count_le t) (Nat.succ_le_succ h)
  have same : ∀ t : State, t.upc = s.upc → t.count.upc.steps ≤ s.upc.steps + 1 := fun t h => counted t (by rw [h])
  cases m with
  | gap =>
    have time := steps_advance_le s.gapTime { s with draws := s.draws + 1 }
    rcases passGap_shape s with e | ⟨w, rest, -, -, e⟩ <;> rw [Micro.exec, e]
    · exact time
    · rw [raiseFault_upc]
      exact time
  | delay n => exact counted _ (steps_advance_le _ { s with draws := s.draws + 1 })
  | exit => exact same _ (by rcases exitCritical_cases s with ⟨-, e⟩ | ⟨m, rest, -, e⟩ <;> rw [e] <;> simp)
  | setLow => exact same _ (setLineLow_upc s)
  | release => exact same _ (releaseLine_upc s)
  | sample => exact same _ rfl
  | enter => exact same _ rfl
  | _ => exact Nat.le_refl _

theorem run_steps_le (p : List Micro) : ∀ s : State, (run p s).upc.steps ≤ s.upc.steps + primitives p := by
  induction p with
  | nil => exact fun s => Nat.le_refl _
  | cons m p ih =>
    intro s
    have one := m.exec_steps_le s
    have rest := ih (m.exec s)
    rw [primitives_cons]
    by_cases hr : s.running = true
    · rw [run_cons_running m p hr]
      omega
    · rw [run_of_not_running _ (by simpa using hr)]
      omega

theorem primitives_sendBytes (vs : List Byte) : ∀ k, primitives (sendBytes k vs) = primitives (vs.flatMap writeByteProgram) := by
  induction vs with
  | nil => exact fun _ => rfl
  | cons v vs ih =>
    intro k
    have index : ∀ k, Micro.isPrimitive (.byteIndex k) = false := fun _ => rfl
    simp [sendBytes, ih, index]

/-- The frame of an operation after its reset. -/
theorem primitives_frameProgram_le (i : Instr) (s : State) : primitives (frameProgram i s) ≤ 1202 := by
  have byte : ∀ v : Byte, primitives (writeByteProgram v) ≤ 56 := fun v => by
    have := ones_le v
    rw [primitives_writeByteProgram]
    omega
  have rom : primitives (sendBytes 0 s.romInBytes) ≤ 448 := by
    rw [primitives_sendBytes]
    exact Nat.le_trans (primitives_writeBytes_le _) (by simp)
  have wdata : primitives (sendBytes 0 s.wdataBytes) ≤ 168 := by
    rw [primitives_sendBytes]
    exact Nat.le_trans (primitives_writeBytes_le _) (by simp)
  have matched : primitives (writeByteProgram 0x55) = 52 := rfl
  have read : primitives (writeByteProgram 0xBE) = 54 := rfl
  have address : ∀ a, primitives (addressProgram s.romInBytes a) ≤ 500 := fun a => by
    cases a with
    | skipRom => exact Nat.le_trans (byte _) (by decide)
    | matchRom =>
      rw [primitives_sendBytes] at rom
      rw [addressProgram, primitives_append, matched]
      omega
  have sent : primitives (sendProgram s i) ≤ 724 := by
    cases i with
    | readRom | skipRom | alarmSearch | searchRom => exact Nat.le_trans (byte _) (by decide)
    | matchRom =>
      rw [sendProgram, primitives_append, matched]
      omega
    | writeScratchpad a =>
      have := address a
      have := byte 0x4E
      rw [sendProgram, primitives_append, primitives_append]
      omega
    | convertT a | readScratchpad a | copyScratchpad a | recallEeprom a | readPowerSupply a =>
      rw [sendProgram, primitives_append]
      exact Nat.le_trans (Nat.add_le_add (address a) (byte _)) (by decide)
    | _ => exact Nat.zero_le _
  rw [frameProgram, primitives_append]
  cases i with
  | readRom =>
    rw [sendProgram, dataProgram, primitives_receiveRom]
    exact Nat.add_le_add_right (byte _) _ |>.trans (by decide)
  | readScratchpad a =>
    have := address a
    rw [sendProgram, dataProgram, primitives_receiveScratchpad, primitives_append, read]
    omega
  | readPowerSupply a => exact Nat.add_le_add sent (Nat.le_refl 9) |>.trans (by decide)
  | _ => exact Nat.add_le_add_right sent 0 |>.trans (by decide)

theorem primitives_busProgram_le (i : Instr) : primitives (busProgram i) ≤ 1210 := by
  cases i with
  | writeBit b => cases b <;> decide
  | writeByte v =>
    have := ones_le v
    rw [busProgram, primitives_writeByteProgram]
    omega
  | resetPulse | readBit | readByte => decide
  | _ => exact Nat.zero_le _

theorem UpcBounded.respond (r : Response) (s : State) : UpcBounded (respond r s) := Nat.zero_le _

theorem UpcBounded.whileRunning {f : State → State} {s : State} (h : UpcBounded s) (hf : UpcBounded (f s)) :
    UpcBounded (whileRunning f s) := by
  unfold Machine.whileRunning
  split
  · exact hf
  · exact h

/-- The body of a request, from its acceptance on. -/
theorem UpcBounded.of_accepted {i : Instr} (hi : i.isRequest = true) {s t u : State} (h : exec i s = .next t)
    (hp : prologue i s = u) (hu : u.upc.steps = 0) : UpcBounded t := by
  have start : UpcBounded u := by simp [UpcBounded, hu]
  have ofBody : ∀ {body : State → State}, exec i s = .next (request i body s) → UpcBounded (body u) → UpcBounded t := by
    intro body e hb
    rw [h] at e
    cases e
    rw [request, hp]
    exact start.whileRunning hb
  have program : ∀ p, primitives p ≤ 1210 → UpcBounded (run p u) := fun p hle => by
    have := run_steps_le p u
    simp only [UpcBounded]
    omega
  cases requestShape hi with
  | init pin =>
    refine ofBody (exec_init pin s) ?_
    unfold initBody
    split
    · exact .respond _ _
    · rwa [UpcBounded, raiseFault_upc]
  | driveLow => exact ofBody (exec_driveLow s) (.respond _ _)
  | release => exact ofBody (exec_release s) (.respond _ _)
  | bus hb =>
    exact ofBody (exec_busProgram hb s) ((program _ (primitives_busProgram_le i)).whileRunning (.respond _ _))
  | frame hf =>
    refine ofBody (exec_deviceProtocol hf s) ((program resetProgram (by decide)).whileRunning ?_)
    unfold presenceGate
    split
    · refine UpcBounded.whileRunning ?_ (.respond _ _)
      rw [← run_append]
      refine program _ ?_
      have := primitives_frameProgram_le i u
      rw [primitives_append, primitives_resetProgram]
      omega
    · exact .respond _ _

theorem exec_upcBounded {i : Instr} (hi : i.isRequest = true) {s t : State} (h : exec i s = .next t) (hs : UpcBounded s)
    (hr : s.running = false) : UpcBounded t := by
  have refused : prologue i s = s ∨ (prologue i s).running = false → (prologue i s).upc = s.upc → UpcBounded t := by
    intro hp hu
    obtain ⟨body, hb⟩ := exec_eq_request hi
    rw [hb] at h
    cases h
    have stopped : (prologue i s).running = false := hp.elim (fun e => by rw [e]; exact hr) id
    rw [request, whileRunning, stopped]
    simpa [UpcBounded, hu] using hs
  rcases prologue_cases i s with ⟨-, e⟩ | ⟨-, f, hf, e | e⟩ | ⟨-, -, -, -, -, e⟩
  · exact refused (.inl e) (by rw [e])
  · exact refused (.inr (by rw [e]; exact running_raiseFault hf _ _)) (by simp [e])
  · exact refused (.inr (by rw [e]; exact running_raiseFault hf _ _)) (by simp [e])
  · exact .of_accepted hi h e rfl

/-! ### The invariant between two steps -/

theorem inv_iff (s : State) : Inv s ↔ Sound s ∧ UpcBounded s ∧ AtRest s := by
  constructor
  · intro h
    obtain ⟨trace, upc, bounded, counters, tracked, held, begun, rest, noCommand, caller, viewed⟩ := h
    exact ⟨⟨⟨trace, viewed⟩, ⟨upc, counters, caller.1, fun hw => .inr (caller.2 hw)⟩, ⟨tracked, held, begun, noCommand⟩⟩, bounded, rest⟩
  · rintro ⟨⟨⟨trace, viewed⟩, ⟨upc, counters, waiting, waits⟩, ⟨tracked, held, begun, noCommand⟩⟩, bounded, rest⟩
    have faulted : s.call = .waiting → s.fault ≠ .none := fun hw hf =>
      (waits hw).elim (fun hb => by simp [AtRest, State.running, hb, hf] at rest) fun hn => hn hf
    exact ⟨trace, upc, bounded, counters, tracked, held, begun, rest, noCommand, ⟨waiting, faulted⟩, viewed⟩

section
variable {s t : State}

/-- A change of what the invariant does not speak of. -/
theorem Inv.of_same (h : Inv s) (hn : t.now = s.now) (ht : t.trace = s.trace) (hv : t.viewed = s.viewed) (hb : t.busy = s.busy)
    (hu : t.upc = s.upc) (hc : t.bitcnt = s.bitcnt) (hi : t.byteidx = s.byteidx) (hf : t.fault = s.fault) (hw : t.call = s.call)
    (hd : t.drive = s.drive) (hl : t.lineLow = s.lineLow) (hp : t.pin = s.pin) (hds : t.devices = s.devices) : Inv t := by
  obtain ⟨⟨records, engine, line⟩, bounded, rest⟩ := (inv_iff s).mp h
  exact (inv_iff t).mpr ⟨⟨records.of_same hn ht hv, engine.of_same hb hu hc hi hf hw, line.of_same hd hl hn hp hds⟩,
    by rw [UpcBounded, hu]; exact bounded, by rw [AtRest, State.running, hb, hf]; exact rest⟩

/-- A fault is raised outside a request. -/
theorem Inv.raiseFault (h : Inv s) {f : FaultCode} (hf : f ≠ .none) (hr : f.ofRequest = true → s.call = .waiting) (w : ReqWord) :
    Inv (raiseFault f w s) := by
  obtain ⟨sound, bounded, rest⟩ := (inv_iff s).mp h
  exact (inv_iff _).mpr ⟨sound.raiseFault hf (fun hc _ => hr hc) w, by rwa [UpcBounded, raiseFault_upc], .raiseFault hf w⟩

theorem Inv.advance (h : Inv s) (d : Nat) : Inv (advance d s) := by
  obtain ⟨sound, bounded, rest⟩ := (inv_iff s).mp h
  exact (inv_iff _).mpr ⟨sound.advance d, Nat.le_trans (steps_advance_le d s) bounded, rest.advance d⟩

/-- A caller delivers a request word. -/
theorem Inv.callEngine (h : Inv s) {w : ReqWord} (hc : callEngine w s = .next t) : Inv t := by
  obtain ⟨sound, bounded, rest⟩ := (inv_iff s).mp h
  have rest' : AtRest { s with call := .waiting } := rest
  by_cases hf : s.fault = .none
  · have idle : s.busy = false := by simpa [AtRest, State.running, hf] using rest
    cases hd : decodeRequest w with
    | ok i =>
      have hi := isRequest_of_decode hd
      rw [callEngine_of_ok hd] at hc
      have pro := sound.prologue hf i
      exact (inv_iff t).mpr ⟨(instrKeeps_sound i).exec hi hc pro, exec_upcBounded hi hc bounded rest,
        (instrKeeps_rest i).exec hi hc trivial⟩
    | error e =>
      have refused : rejectWord w { s with call := .waiting } = Machine.raiseFault .illegalRequest w { s with call := .waiting } := by
        simp [rejectWord, hf, idle]
      simp only [Machine.callEngine, deliver, hd, refused, Host.Outcome.next.injEq] at hc
      subst hc
      exact (inv_iff _).mpr ⟨sound.refused (by simp) w, by rwa [UpcBounded, raiseFault_upc], .raiseFault (by simp) w⟩
  · rw [Machine.callEngine, deliver_of_faulted w (show State.fault { s with call := .waiting } ≠ .none from hf)] at hc
    cases hc
    have same : Machine.raiseFault .illegalRequest w { s with call := .waiting } = { s with call := .waiting } :=
      raiseFault_of_faulted _ _ hf
    exact (inv_iff _).mpr ⟨same ▸ sound.refused (f := .illegalRequest) (by simp) w, bounded, rest⟩

theorem Inv.exitCritical (h : Inv s) : Inv (exitCritical s) := by
  obtain ⟨sound, bounded, rest⟩ := (inv_iff s).mp h
  rcases exitCritical_cases s with ⟨-, e⟩ | ⟨m, l, -, e⟩
  · rw [e]
    exact h.raiseFault (by simp) (fun hr => by cases hr) _
  · refine (inv_iff _).mpr ⟨sound.exitCritical, ?_, ?_⟩ <;> rw [e] <;> assumption

theorem Inv.delayMs (h : Inv s) (n : Nat) : Inv (delayMs n s) := by
  obtain ⟨sound, bounded, rest⟩ := (inv_iff s).mp h
  cases hc : s.critStack with
  | nil =>
    have e : Machine.delayMs n s = Machine.advance (s.sleepTime n) (({ s with draws := s.draws + 1 } : State).emit (.sleep n)) := by
      simp [Machine.delayMs, hc]
    refine (inv_iff _).mpr ⟨sound.delayMs n, ?_, ?_⟩ <;> rw [e]
    · exact Nat.le_trans (steps_advance_le _ _) bounded
    · exact AtRest.advance (s := ({ s with draws := s.draws + 1 } : State).emit (.sleep n)) rest _
  | cons m l =>
    have e : Machine.delayMs n s = Machine.raiseFault .msWaitInCritical s.wordInFlight s := by simp [Machine.delayMs, hc]
    rw [e]
    exact h.raiseFault (by simp) (fun hr => by cases hr) _

theorem Inv.hostRead (h : Inv s) (v : Option Answer) : Inv (hostRead v s) := by
  cases v with
  | none => exact h.raiseFault (by simp) (fun hr => by cases hr) _
  | some a => exact h.of_same rfl rfl rfl rfl rfl rfl rfl rfl rfl rfl rfl rfl rfl

theorem Inv.hostTurn (h : Inv s) {a : HostAction} (ht : hostTurn a s = .next t) : Inv t := by
  obtain ⟨sound, bounded, rest⟩ := (inv_iff s).mp h
  cases a with
  | request w => exact h.callEngine ht
  | readRomOut | readSpOut | readBitOut | readByteOut | readTemperature => cases ht; exact h.hostRead _
  | waitUs n => cases ht; exact h.advance n
  | waitMs n => cases ht; exact h.delayMs n
  | enterCritical => cases ht; exact (inv_iff _).mpr ⟨sound.enterCritical, bounded, rest⟩
  | exitCritical => cases ht; exact h.exitCritical
  | blockReset => cases ht; exact (inv_iff _).mpr ⟨sound.blockReset, Nat.zero_le _, rfl⟩
  | _ => cases ht; exact h.of_same rfl rfl rfl rfl rfl rfl rfl rfl rfl rfl rfl rfl rfl

end

/-- Settles O58: each turn of a step keeps the invariant; no device has a command byte to decode, so that turn does not come. -/
theorem stepKeepsTheInvariant : Obligations.StepKeepsTheInvariant := by
  intro s t h hs
  cases step_moves hs with
  | command b hc _ => exact absurd (h.noPendingCommand.symm.trans hc) nofun
  | blockReset _ e => rw [e]; exact h.advance 0
  | intruder w rest _ _ e =>
    exact Inv.callEngine (s := { s with intruders := rest }) (h.of_same rfl rfl rfl rfl rfl rfl rfl rfl rfl rfl rfl rfl rfl) e
  | host a rest _ _ _ e =>
    exact Inv.hostTurn (s := { s with inbox := rest }) (h.of_same rfl rfl rfl rfl rfl rfl rfl rfl rfl rfl rfl rfl rfl) e
  | time n _ e => rw [e]; exact h.advance n
  | nothing e => rw [e]; exact h

end Sys2Proof.Machine
end

section
/-! PROOFS. The requests of other contexts and the reads of the status view, as two lists that stand beside the machine: no operation
but time and the gap reads or writes them. -/

namespace Sys2Proof.Machine

/-! ### Operations that are blind to what stands beside the machine -/

/-- The state with other requests of other contexts, other reads of the view to come, and other reads made. -/
def State.aside (l : List (Nat × ReqWord)) (r : List (Nat × Nat)) (v : List Viewed) (s : State) : State :=
  { s with intruders := l, viewReads := r, viewed := v }

/-- The operation neither reads nor writes the requests of other contexts and the reads of the view. -/
def Blind (F : State → State) : Prop := ∀ l r v s, F (s.aside l r v) = (F s).aside l r v

section
variable {F G : State → State}

theorem Blind.comp (hG : Blind G) (hF : Blind F) : Blind (fun s => G (F s)) := fun l r v s => by
  dsimp only
  rw [hF, hG]

/-- What a blind operation does not write. -/
theorem Blind.keeps (h : Blind F) (s : State) :
    (F s).intruders = s.intruders ∧ (F s).viewReads = s.viewReads ∧ (F s).viewed = s.viewed := by
  have e : F s = (F s).aside s.intruders s.viewReads s.viewed := h s.intruders s.viewReads s.viewed s
  rw [e]
  exact ⟨rfl, rfl, rfl⟩

end

theorem blind_count : Blind State.count := fun _ _ _ _ => rfl
theorem blind_settleTo (n : Nat) : Blind (settleTo n) := fun _ _ _ _ => rfl
theorem blind_blockReset : Blind blockReset := fun _ _ _ _ => rfl
theorem blind_enterCritical : Blind enterCritical := fun _ _ _ _ => rfl
theorem blind_sampleLine : Blind sampleLine := fun _ _ _ _ => rfl
theorem blind_accept (i : Instr) : Blind (accept i) := fun _ _ _ _ => rfl
theorem blind_respond (r : Response) : Blind (respond r) := fun _ _ _ _ => rfl

theorem blind_clearOutputs (c : OutCells) : Blind (clearOutputs c) := fun _ _ _ _ => by cases c <;> rfl

theorem blind_raiseFault (f : FaultCode) (w : ReqWord) : Blind (raiseFault f w) := fun l r v s => by
  have fault : (s.aside l r v).fault = s.fault := rfl
  unfold raiseFault
  rw [fault]
  split <;> rfl

theorem blind_endLow (start : Nat) : Blind (endLow start) := fun l r v s => by
  have now : (s.aside l r v).now = s.now := rfl
  unfold endLow
  rw [now]
  dsimp only
  split <;> rfl

theorem blind_endDrive (start : Nat) : Blind (endDrive start) := fun l r v s => by
  have threshold : (Config.resetThreshold ≤ (s.aside l r v).now - start ∨ (s.aside l r v).devicesLowSince (s.aside l r v).now = none)
      = (Config.resetThreshold ≤ s.now - start ∨ s.devicesLowSince s.now = none) := rfl
  unfold endDrive
  simp only [threshold]
  split
  · exact blind_endLow start l r v s
  · rfl

theorem blind_beginLow : Blind beginLow := fun l r v s => by
  have low : (s.aside l r v).lineLow = s.lineLow := rfl
  have since : (s.aside l r v).devicesLowSince (s.aside l r v).now = s.devicesLowSince s.now := rfl
  unfold beginLow
  rw [low, since]
  cases s.lineLow with
  | some _ => rfl
  | none => cases s.devicesLowSince s.now <;> rfl

theorem blind_setLineLow : Blind setLineLow := fun l r v s => by
  have drive : (s.aside l r v).drive = s.drive := rfl
  unfold setLineLow
  rw [drive]
  cases s.drive with
  | drivenLow => rfl
  | released => exact congrArg (State.emit .low) (blind_beginLow l r v { s with drive := .drivenLow })

theorem releaseLine_of_low {s : State} {start : Nat} (h : s.lineLow = some start) :
    releaseLine s = (endDrive start { s with drive := .released }).emit .rel := by
  unfold releaseLine
  dsimp only
  split
  · next hn => exact absurd (h.symm.trans hn) nofun
  · next start' hs =>
    obtain rfl : start = start' := Option.some.inj (h.symm.trans hs)
    rfl

theorem releaseLine_of_high {s : State} (h : s.lineLow = none) : releaseLine s = ({ s with drive := .released } : State).emit .rel := by
  unfold releaseLine
  dsimp only
  split
  · rfl
  · next start' hs => exact absurd (h.symm.trans hs) nofun

theorem blind_releaseLine : Blind releaseLine := fun l r v s => by
  cases h : s.lineLow with
  | none =>
    rw [releaseLine_of_high h, releaseLine_of_high (s := s.aside l r v) h]
    rfl
  | some start =>
    rw [releaseLine_of_low h, releaseLine_of_low (s := s.aside l r v) h]
    exact congrArg (State.emit .rel) (blind_endDrive start l r v { s with drive := .released })

theorem blind_passTo (n : Nat) : Blind (passTo n) := fun l r v s => by
  have rise : (s.aside l r v).riseBy? n = s.riseBy? n := rfl
  unfold passTo
  rw [rise]
  split
  · next start t _ =>
    rw [blind_settleTo, blind_endLow, blind_settleTo]
  · rfl

theorem blind_exitCritical : Blind exitCritical := fun l r v s => by
  have stack : (s.aside l r v).critStack = s.critStack := rfl
  unfold exitCritical
  rw [stack]
  cases s.critStack with
  | nil => exact blind_raiseFault _ _ l r v s
  | cons m rest => rfl

theorem blind_clearCopy : Blind clearCopy := fun l r v s => by
  have window : (s.aside l r v).copyUntil = s.copyUntil := rfl
  have now : (s.aside l r v).now = s.now := rfl
  unfold clearCopy
  rw [window, now]
  split
  · split <;> rfl
  · rfl

theorem blind_bindPin (pin : Pin) : Blind (bindPin pin) := fun l r v s => by
  have samePin : (s.aside l r v).pin = s.pin := rfl
  unfold bindPin
  rw [samePin]
  split <;> rfl

theorem blind_prologue (i : Instr) : Blind (prologue i) := fun l r v s => by
  have fault : (s.aside l r v).fault = s.fault := rfl
  have busy : (s.aside l r v).busy = s.busy := rfl
  have bound : (s.aside l r v).bound = s.bound := rfl
  have pending : (s.aside l r v).copyPending = s.copyPending := rfl
  have missing : ((clearCopy s).aside l r v).inputMissing i = (clearCopy s).inputMissing i := rfl
  unfold prologue
  rw [blind_clearCopy, fault, busy, bound, pending, missing]
  repeat' split
  · rfl
  · exact blind_raiseFault ..
  · exact blind_raiseFault ..
  · exact blind_raiseFault ..
  · exact blind_raiseFault ..
  · exact blind_accept ..

/-! ### Maps that change only what stands beside the machine -/

/-- `h` changes only what stands beside the machine, and so that a reading of the view commutes with it. -/
structure Beside (h : State → State) : Prop where
  blind : ∀ {F : State → State}, Blind F → ∀ s, F (h s) = h (F s)
  read : ∀ n s, readViews n (h s) = h (readViews n s)
  shape : ∀ s, ∃ l r v, h s = s.aside l r v

/-- The state with no read of the view, neither made nor to come. -/
def State.eraseViews (s : State) : State := s.aside s.intruders [] []

/-- The state with the requests `l` of other contexts. -/
def State.withIntruders (l : List (Nat × ReqWord)) (s : State) : State := s.aside l s.viewReads s.viewed

theorem beside_eraseViews : Beside State.eraseViews where
  blind hF s := by
    obtain ⟨hi, -, -⟩ := hF.keeps s
    rw [State.eraseViews, hF, State.eraseViews, hi]
  read n s := by
    have none : s.eraseViews.dueViews = [] := ite_self _
    simp only [readViews, none]
    rfl
  shape s := ⟨_, _, _, rfl⟩

theorem beside_withIntruders (l : List (Nat × ReqWord)) : Beside (State.withIntruders l) where
  blind hF s := by
    obtain ⟨-, hr, hv⟩ := hF.keeps s
    rw [State.withIntruders, hF, State.withIntruders, hr, hv]
  read n s := rfl
  shape s := ⟨_, _, _, rfl⟩

/-- The state with the block resets `rest` still to come. -/
def State.withResets (rest : List Nat) (s : State) : State := { s with resetsAt := rest }

/-- The state with the next free value drawn. -/
def State.drawn (s : State) : State := { s with draws := s.draws + 1 }

theorem blind_withResets (rest : List Nat) : Blind (State.withResets rest) := fun _ _ _ _ => rfl
theorem blind_drawn : Blind State.drawn := fun _ _ _ _ => rfl

theorem delayUs_eq (n : Nat) (s : State) : delayUs n s = advance (s.delayTime n) s.drawn := rfl

theorem advance_of_reset {s : State} {d t : Nat} {rest : List Nat} (h : s.resetsAt = t :: rest) (ht : t ≤ s.now + d) :
    advance d s = blockReset (pass (max s.now t) (s.withResets rest)) := by
  unfold advance
  rw [h]
  exact if_pos ht

theorem advance_of_laterReset {s : State} {d t : Nat} {rest : List Nat} (h : s.resetsAt = t :: rest) (ht : ¬ t ≤ s.now + d) :
    advance d s = pass (s.now + d) s := by
  unfold advance
  rw [h]
  exact if_neg ht

section
variable {h : State → State} (k : Beside h)
include k

theorem Beside.advance (d : Nat) (s : State) : advance d (h s) = h (advance d s) := by
  have pass : ∀ n u, Machine.pass n (h u) = h (Machine.pass n u) := fun n u => by
    have now : (h u).now = u.now := by obtain ⟨l, r, v, e⟩ := k.shape u; rw [e]; rfl
    rw [Machine.pass, k.blind (blind_passTo n), now, k.read]
    rfl
  have resets : (h s).resetsAt = s.resetsAt := by obtain ⟨l, r, v, e⟩ := k.shape s; rw [e]; rfl
  have now : (h s).now = s.now := by obtain ⟨l, r, v, e⟩ := k.shape s; rw [e]; rfl
  cases hr : s.resetsAt with
  | nil => rw [advance_of_noReset d hr, advance_of_noReset d (resets.trans hr), now, pass]
  | cons t rest =>
    by_cases ht : t ≤ s.now + d
    · rw [advance_of_reset hr ht, advance_of_reset (resets.trans hr) (by rwa [now]), now, k.blind (blind_withResets rest), pass,
        k.blind blind_blockReset]
    · rw [advance_of_laterReset hr ht, advance_of_laterReset (resets.trans hr) (by rwa [now]), now, pass]

theorem Beside.micro {m : Micro} (hg : m ≠ .gap) (s : State) : m.exec (h s) = h (m.exec s) := by
  cases m with
  | gap => exact absurd rfl hg
  | delay n =>
    have time : (h s).delayTime n = s.delayTime n := by obtain ⟨l, r, v, e⟩ := k.shape s; rw [e]; rfl
    rw [Micro.exec, delayUs_eq, time, k.blind blind_drawn, k.advance, k.blind blind_count]
    rfl
  | setLow => exact k.blind (blind_count.comp blind_setLineLow) s
  | release => exact k.blind (blind_count.comp blind_releaseLine) s
  | sample => exact k.blind (blind_count.comp blind_sampleLine) s
  | enter => exact k.blind (blind_count.comp blind_enterCritical) s
  | exit => exact k.blind (blind_count.comp blind_exitCritical) s
  | _ => exact k.blind (fun _ _ _ _ => rfl) s

theorem Beside.running (s : State) : (h s).running = s.running := by
  obtain ⟨l, r, v, e⟩ := k.shape s
  rw [e]
  rfl

theorem Beside.whileRunning {F : State → State} {s : State} (hF : F (h s) = h (F s)) :
    whileRunning F (h s) = h (whileRunning F s) := by
  unfold Machine.whileRunning
  rw [k.running]
  split
  · exact hF
  · rfl

/-- Where each micro-operation commutes with `h`, so does a program. -/
theorem Beside.run {p : List Micro} (hp : ∀ m ∈ p, ∀ s, m.exec (h s) = h (m.exec s)) : ∀ s, run p (h s) = h (run p s) := by
  induction p with
  | nil => exact fun _ => rfl
  | cons m p ih =>
    intro s
    obtain ⟨hm, hp⟩ := List.forall_mem_cons.mp hp
    by_cases hr : s.running = true
    · rw [run_cons_running m p hr, run_cons_running m p ((k.running s).trans hr), hm, ih hp]
    · have hr : s.running = false := by simpa using hr
      rw [run_of_not_running _ hr, run_of_not_running _ ((k.running s).trans hr)]

theorem Beside.run_noGap {p : List Micro} (hp : .gap ∉ p) (s : State) : Machine.run p (h s) = h (Machine.run p s) :=
  k.run (fun _ hm => k.micro fun e => hp (e ▸ hm)) s

theorem Beside.frameProgram (i : Instr) (s : State) : frameProgram i (h s) = frameProgram i s := by
  obtain ⟨l, r, v, e⟩ := k.shape s
  rw [e]
  cases i <;> rfl

theorem Beside.busStatus (i : Instr) (s : State) : busStatus i (h s) = busStatus i s := by
  obtain ⟨l, r, v, e⟩ := k.shape s
  rw [e]
  cases i <;> rfl

theorem Beside.responseOutputs (i : Instr) (s : State) : responseOutputs i (h s) = responseOutputs i s := by
  obtain ⟨l, r, v, e⟩ := k.shape s
  rw [e]
  cases i <;> rfl

theorem Beside.busAnswer (i : Instr) (s : State) :
    respond { status := Machine.busStatus i (h s), outputs := Machine.responseOutputs i (h s) } (h s)
      = h (respond { status := Machine.busStatus i s, outputs := Machine.responseOutputs i s } s) := by
  rw [k.busStatus, k.responseOutputs, k.blind (blind_respond _)]

theorem Beside.answerWith (st : Status) (c : OutCells) (s : State) : answerWith st c (h s) = h (answerWith st c s) := by
  have outputs : outputsOf c (h s) = outputsOf c s := by
    obtain ⟨l, r, v, e⟩ := k.shape s
    rw [e]
    cases c <;> rfl
  rw [answerWith_eq, answerWith_eq, outputs, k.blind (blind_respond _)]

/-- The presence gate after the reset. -/
theorem Beside.presenceGate {c : OutCells} {p : List Micro} {s : State} (hp : Machine.run p (h s) = h (Machine.run p s)) :
    presenceGate c p (h s) = h (presenceGate c p s) := by
  have pres : (h s).pres = s.pres := by
    obtain ⟨l, r, v, e⟩ := k.shape s
    rw [e]
    rfl
  unfold Machine.presenceGate
  rw [pres]
  split
  · rw [hp, k.whileRunning (k.answerWith _ _ _)]
  · rw [k.blind (blind_clearOutputs c), k.answerWith]

theorem Beside.initBody (pin : Pin) (s : State) : initBody pin (h s) = h (initBody pin s) := by
  have valid : (h s).validPin pin = s.validPin pin := by
    obtain ⟨l, r, v, e⟩ := k.shape s
    rw [e]
    rfl
  unfold Machine.initBody
  rw [valid]
  split
  · rw [k.blind (blind_bindPin pin), k.micro (by simp), k.blind (blind_respond _)]
  · rw [k.blind (blind_raiseFault _ _)]

/-- Where the gaps commute with `h`, so does every instruction. -/
theorem Beside.exec (gap : ∀ s, passGap (h s) = h (passGap s)) {i : Instr} {s t : State} (he : exec i s = .next t) :
    exec i (h s) = .next (h t) := by
  have program : ∀ p s, Machine.run p (h s) = h (Machine.run p s) := fun p => k.run fun m _ u => by
    by_cases hm : m = .gap
    · rw [hm]
      exact gap u
    · exact k.micro hm u
  have request : ∀ {body : State → State}, (∀ u, body (h u) = h (body u)) → (∀ u, Machine.exec i u = .next (request i body u)) →
      Machine.exec i (h s) = .next (h t) := by
    intro body hb e
    rw [e] at he ⊢
    cases he
    rw [Machine.request, Machine.request, k.blind (blind_prologue i), k.whileRunning (hb _)]
  cases hi : i.isRequest with
  | false =>
    rw [exec_wire hi] at he ⊢
    cases he
    rw [k.blind (F := onCommand (opByte i) (Ds18b20.take i)) fun _ _ _ _ => rfl]
  | true =>
    cases requestShape hi with
    | init pin => exact request (k.initBody pin) (exec_init pin)
    | driveLow => exact request (fun u => by rw [primitiveBody, k.micro (by simp), k.blind (blind_respond _)]; rfl) exec_driveLow
    | release => exact request (fun u => by rw [primitiveBody, k.micro (by simp), k.blind (blind_respond _)]; rfl) exec_release
    | bus hb =>
      exact request (fun u => by rw [busBody, program, k.whileRunning (k.busAnswer i _)]; rfl) (exec_busProgram hb)
    | frame hf =>
      exact request (fun u => by
        rw [frameBody, program, k.frameProgram, k.whileRunning (k.presenceGate (program _ _))]; rfl) (exec_deviceProtocol hf)

end

/-! ### Reads of the view have no side effect (10_state.md rule R45) -/

/-- The end of a gap: a second request that is due is the fault CONCURRENT_REQUEST (60_exceptions.md rule R352). -/
def endGap (s : State) : State :=
  if s.running then
    match s.dueIntruder? with
    | some (w, rest) => raiseFault .concurrentRequest w { s with intruders := rest }
    | none => s
  else s

theorem passGap_eq (s : State) : passGap s = endGap (advance s.gapTime s.drawn) := rfl

theorem endGap_of_none {s : State} (h : s.dueIntruder? = none) : endGap s = s := by
  unfold endGap
  rw [h]
  exact ite_self _

/-- The fault CONCURRENT_REQUEST with its word; the requests `rest` still wait. -/
def stopWith (w : ReqWord) (rest : List (Nat × ReqWord)) (s : State) : State :=
  { s with intruders := rest, fault := .concurrentRequest, faultWord := w }

theorem endGap_of_due {s : State} {w : ReqWord} {rest : List (Nat × ReqWord)} (hr : s.running = true)
    (h : s.dueIntruder? = some (w, rest)) :
    endGap s = stopWith w rest s := by
  unfold endGap
  rw [if_pos hr, h]
  exact if_pos ((running_iff s).mp hr).2

theorem endGap_of_not_running {s : State} (h : s.running = false) : endGap s = s := if_neg (by simp [h])

theorem eraseViews_endGap (s : State) : endGap s.eraseViews = (endGap s).eraseViews := by
  have due : s.eraseViews.dueIntruder? = s.dueIntruder? := rfl
  cases hr : s.running
  · rw [endGap_of_not_running hr, endGap_of_not_running (s := s.eraseViews) hr]
  · cases hd : s.dueIntruder? with
    | none => rw [endGap_of_none hd, endGap_of_none (due.trans hd)]
    | some p =>
      rw [endGap_of_due hr hd, endGap_of_due (s := s.eraseViews) hr (due.trans hd)]
      rfl

theorem eraseViews_passGap (s : State) : passGap s.eraseViews = (passGap s).eraseViews := by
  have time : s.eraseViews.gapTime = s.gapTime := rfl
  rw [passGap_eq, passGap_eq, time, beside_eraseViews.blind blind_drawn, beside_eraseViews.advance, eraseViews_endGap]

/-- No instruction is refused. -/
theorem exec_total (i : Instr) (s : State) : ∃ t, exec i s = .next t := by
  cases hi : i.isRequest with
  | false => exact ⟨_, exec_wire hi s⟩
  | true =>
    obtain ⟨body, hb⟩ := exec_eq_request hi
    exact ⟨_, hb s⟩

/-- Two states that differ only in their reads of the view go on so. -/
theorem exec_eraseViews {i : Instr} {s s' t : State} (hs : s'.eraseViews = s.eraseViews) (h : exec i s = .next t) :
    ∃ u, exec i s' = .next u ∧ u.eraseViews = t.eraseViews := by
  obtain ⟨u, hu⟩ := exec_total i s'
  refine ⟨u, hu, ?_⟩
  have a := beside_eraseViews.exec eraseViews_passGap h
  have b := beside_eraseViews.exec eraseViews_passGap hu
  rw [hs, a] at b
  exact (Host.Outcome.next.inj b).symm

end Sys2Proof.Machine
end

section
/-! PROOFS. The engine's programs as slots: each slot is a gap and then a critical section, and between slots no time passes
(41_bus_driver.md rules R185 to R199, 60_exceptions.md rule R371). -/

namespace Sys2Proof.Machine

/-! ### Programs as slots -/

/-- The micro-operation writes a working register or a cell. -/
def Micro.isRegister : Micro → Bool
  | .gap => false
  | m => !m.isPrimitive

/-- The micro-operation stands in a critical section: a line primitive or a delay. -/
def Micro.inSlot : Micro → Bool
  | .setLow | .release | .sample | .delay _ => true
  | _ => false

/-- The program is a list of slots, with writes of registers and cells between them. -/
inductive Slotted : List Micro → Prop
  | nil : Slotted []
  | register {m : Micro} {p : List Micro} (hm : m.isRegister = true) (hp : Slotted p) : Slotted (m :: p)
  | slot {q p : List Micro} (hq : ∀ m ∈ q, m.inSlot = true) (hd : driveOf q = some .released) (hp : Slotted p) :
    Slotted (.gap :: .enter :: (q ++ .exit :: p))

theorem Slotted.append {p q : List Micro} (hp : Slotted p) (hq : Slotted q) : Slotted (p ++ q) := by
  induction hp with
  | nil => exact hq
  | register hm _ ih => exact .register hm ih
  | slot hs hd _ ih => simpa using Slotted.slot hs hd ih

theorem Slotted.flatMap {α : Type} {f : α → List Micro} (h : ∀ a, Slotted (f a)) : ∀ l : List α, Slotted (l.flatMap f)
  | [] => .nil
  | a :: l => by
    rw [List.flatMap_cons]
    exact (h a).append (Slotted.flatMap h l)

theorem slotted_resetProgram : Slotted resetProgram :=
  .slot (q := [.setLow, .delay Config.tRstl, .release, .delay Config.tPds, .sample, .delay Config.tRstr]) (by decide) rfl
    (.register rfl .nil)

theorem slotted_writeSlot (b : Bool) : Slotted (writeSlot b) := by
  cases b with
  | true =>
    exact .slot (q := [.setLow, .delay Config.tLow1, .release, .delay (Config.tSlot - Config.tLow1), .delay Config.tRec])
      (by decide) rfl .nil
  | false =>
    exact .slot (q := [.setLow, .delay Config.tLow0, .release, .delay Config.tRec]) (by decide) rfl .nil

theorem slotted_readSlot : Slotted readSlot :=
  .slot (q := [.setLow, .delay Config.tRl, .release, .delay (Config.tMsr - Config.tRl), .sample, .delay (Config.tSlot - Config.tMsr),
    .delay Config.tRec]) (by decide) rfl .nil

theorem slotted_writeByteProgram (v : Byte) : Slotted (writeByteProgram v) :=
  .register rfl (Slotted.flatMap (fun _ => (slotted_writeSlot _).append (.register rfl .nil)) _)

theorem slotted_readByteProgram : Slotted readByteProgram :=
  .register rfl (Slotted.flatMap (fun _ => slotted_readSlot.append (.register rfl .nil)) _)

theorem slotted_addressProgram (rom : List Byte) (a : Addressing) : Slotted (addressProgram rom a) := by
  cases a
  · exact slotted_writeByteProgram _
  · exact (slotted_writeByteProgram _).append (Slotted.flatMap slotted_writeByteProgram _)

theorem slotted_sendBytes (vs : List Byte) : ∀ k, Slotted (sendBytes k vs) := by
  induction vs with
  | nil => exact fun _ => .nil
  | cons v vs ih => exact fun k => .register rfl ((slotted_writeByteProgram v).append (ih (k + 1)))

theorem slotted_receive {store : Nat → Micro} (hs : ∀ k, (store k).isRegister = true) (l : List Nat) :
    Slotted (l.flatMap (fun k => .byteIndex k :: readByteProgram ++ [store k])) :=
  Slotted.flatMap (fun k => .register rfl (slotted_readByteProgram.append (.register (hs k) .nil))) l

theorem slotted_sendProgram (s : State) (i : Instr) : Slotted (sendProgram s i) := by
  cases i with
  | matchRom => exact (slotted_writeByteProgram _).append (slotted_sendBytes _ _)
  | writeScratchpad a => exact ((slotted_addressProgram _ a).append (slotted_writeByteProgram _)).append (slotted_sendBytes _ _)
  | convertT a | readScratchpad a | copyScratchpad a | recallEeprom a | readPowerSupply a =>
    exact (slotted_addressProgram _ a).append (slotted_writeByteProgram _)
  | readRom | skipRom | alarmSearch | searchRom => exact slotted_writeByteProgram _
  | _ => exact .nil

theorem slotted_dataProgram (i : Instr) : Slotted (dataProgram i) := by
  cases i with
  | readRom => exact slotted_receive (fun _ => rfl) _
  | readScratchpad a => exact slotted_receive (fun _ => rfl) _
  | readPowerSupply a => exact slotted_readSlot.append (.register rfl .nil)
  | copyScratchpad a => exact .register rfl .nil
  | _ => exact .nil

theorem slotted_frameProgram (i : Instr) (s : State) : Slotted (frameProgram i s) :=
  (slotted_sendProgram s i).append (slotted_dataProgram i)

theorem slotted_busProgram (i : Instr) : Slotted (busProgram i) := by
  cases i with
  | resetPulse => exact slotted_resetProgram.append (.register rfl .nil)
  | writeBit b => exact slotted_writeSlot b
  | readBit => exact slotted_readSlot.append (.register rfl .nil)
  | writeByte v => exact slotted_writeByteProgram v
  | readByte => exact slotted_readByteProgram.append (.register rfl .nil)
  | _ => exact .nil

/-! ### One slot -/

/-- What is so in `t`, within the critical section that was entered in `g`. -/
structure InSection (g t : State) : Prop where
  stack : t.critStack = g.irqMasked :: g.critStack
  masked : t.irqMasked = true
  fault : t.fault = g.fault
  faultWord : t.faultWord = g.faultWord
  viewReads : t.viewReads = g.viewReads
  viewed : t.viewed = g.viewed
  events : ∃ es, t.trace = es ++ (g.now, .critOn) :: g.trace ∧ ∀ m, (m, .critOn) ∉ es
  time : g.now ≤ t.now

theorem inSection_enter (g : State) : InSection g (Micro.enter.exec g) :=
  ⟨rfl, rfl, rfl, rfl, rfl, rfl, ⟨[], rfl, by simp⟩, Nat.le_refl _⟩

theorem InSection.micro {g t : State} (h : InSection g t) (hr : t.resetsAt = []) {m : Micro} (hm : m.inSlot = true) :
    InSection g (m.exec t) := by
  obtain ⟨stack, masked, fault, faultWord, viewReads, viewed, ⟨es, trace, none⟩, time⟩ := h
  cases m with
  | setLow =>
    refine ⟨by simpa [Micro.exec], by simpa [Micro.exec], by simpa [Micro.exec], by simpa [Micro.exec], by simpa [Micro.exec],
      by simpa [Micro.exec], ⟨(t.now, .low) :: es, by simp [Micro.exec, trace], by simpa⟩, by simpa [Micro.exec]⟩
  | release =>
    refine ⟨by simpa [Micro.exec], by simpa [Micro.exec], by simpa [Micro.exec], by simpa [Micro.exec], by simpa [Micro.exec],
      by simpa [Micro.exec], ⟨(t.now, .rel) :: es, by simp [Micro.exec, trace], by simpa⟩, by simpa [Micro.exec]⟩
  | sample =>
    refine ⟨by simpa [Micro.exec], by simpa [Micro.exec], by simpa [Micro.exec], by simpa [Micro.exec], by simpa [Micro.exec],
      by simpa [Micro.exec], ⟨(t.now, .smp t.lineLevel) :: es, by simp [Micro.exec, trace], by simpa⟩, by simpa [Micro.exec]⟩
  | delay n =>
    have passed : ∀ k, Machine.pass k { t with draws := t.draws + 1 } = Machine.passTo k { t with draws := t.draws + 1 } := fun k =>
      readViews_of_masked _ (by simpa using masked)
    simp only [Micro.exec, delayUs_of_noReset _ hr, passed]
    exact ⟨by simpa, by simpa, by simpa, by simpa, by simpa, by simpa, ⟨es, by simpa, none⟩, by simp; omega⟩
  | _ => cases hm

/-- A slot after its gap: the critical section with the micro-operations `q`. -/
def slotSection (q : List Micro) : List Micro := .enter :: (q ++ [.exit])

section
variable {q : List Micro} (hq : ∀ m ∈ q, m.inSlot = true)
include hq

theorem nested_slotSection : nested false (slotSection q) = true := by
  have inside : ∀ r : List Micro, (∀ m ∈ r, m.inSlot = true) → nested true (r ++ [.exit]) = true := by
    intro r
    induction r with
    | nil => exact fun _ => rfl
    | cons m r ih =>
      intro h
      obtain ⟨hm, hr⟩ := List.forall_mem_cons.mp h
      cases m with
      | setLow | release | sample | delay n => exact ih hr
      | _ => cases hm
  exact inside q hq

theorem gap_notMem_slotSection : .gap ∉ slotSection q := by
  simp only [slotSection, List.mem_cons, List.mem_append, reduceCtorEq, List.not_mem_nil, or_false, false_or]
  exact fun h => by cases hq _ h

theorem InSection.run {g : State} (hr : g.resetsAt = []) : InSection g (run q (Micro.enter.exec g)) := by
  have both := run_keeps (fun t => InSection g t ∧ t.resetsAt = [])
    (fun m hm t ⟨h, hr⟩ => ⟨h.micro hr (hq m hm), (m.exec_kept hr).resetsAt.trans hr⟩) (Micro.enter.exec g)
    ⟨inSection_enter g, ((Micro.exec_kept .enter hr).resetsAt).trans hr⟩
  exact both.1

end

/-- What the critical section of a slot leaves behind, where the gap before it has ended in `g`. -/
structure SlotDone (g b : State) : Prop where
  running : b.running = true
  undisturbed : Undisturbed b
  stack : b.critStack = g.critStack
  masked : b.irqMasked = g.irqMasked
  drive : b.drive = .released
  faultWord : b.faultWord = g.faultWord
  viewReads : b.viewReads = g.viewReads
  viewed : b.viewed = g.viewed
  events : ∃ es, b.trace = es ++ (g.now, .critOn) :: g.trace ∧ ∀ m, (m, .critOn) ∉ es
  time : g.now ≤ b.now
  kept : Kept g b
  upc : ∀ i k, g.upc = .running i k → ∃ k', b.upc = .running i k'

theorem slotDone {q : List Micro} (hq : ∀ m ∈ q, m.inSlot = true) (hd : driveOf q = some .released) {g : State}
    (hu : Undisturbed g) (hr : g.running = true) : SlotDone g (run (slotSection q) g) := by
  have nest := nested_slotSection hq
  have running := run_running hu hr nest
  have drive : (run (slotSection q) g).drive = .released := by
    have e : driveOf (slotSection q) = some .released := by
      change driveOf (q ++ [.exit]) = _
      rw [driveOf_append, hd]
      rfl
    rw [run_drive hu hr nest, e]
    rfl
  obtain ⟨stack, masked, fault, faultWord, viewReads, viewed, ⟨es, trace, none⟩, time⟩ := InSection.run hq hu.1
  have goes : (run q (Micro.enter.exec g)).running = true := by
    rw [running_iff] at hr ⊢
    exact ⟨((run_kept q ((Micro.exec_kept .enter hu.1).resetsAt.trans hu.1)).busy.trans (Micro.exec_kept .enter hu.1).busy).trans hr.1,
      fault.trans hr.2⟩
  have last : run (slotSection q) g = (exitCritical (run q (Micro.enter.exec g))).count := by
    rw [slotSection, run_cons_running _ _ hr, run_append, run_cons_running _ _ goes, run_nil]
    rfl
  have left := exitCritical_cases (run q (Micro.enter.exec g))
  rw [stack] at left
  obtain ⟨m, rest, hs, e⟩ := left.resolve_left (fun h => absurd h.1 (List.cons_ne_nil _ _))
  obtain ⟨rfl, rfl⟩ := List.cons.inj hs
  rw [e] at last
  have upc : ∀ i k, g.upc = .running i k → ∃ k', (run (slotSection q) g).upc = .running i k' := fun i k h => ⟨_, run_upc hu hr nest h⟩
  refine ⟨running, run_undisturbed _ hu, ?_, ?_, drive, ?_, ?_, ?_, ?_, ?_, run_kept _ hu.1, upc⟩ <;> rw [last]
  · rfl
  · rfl
  · exact faultWord
  · exact viewReads
  · exact viewed
  · exact ⟨(_, .critOff) :: es, congrArg _ trace, by simpa using none⟩
  · exact time

/-! ### The gap before a slot -/

/-- A gap that nothing disturbs, from `a` to `g`. -/
structure GapDone (a g : State) : Prop where
  running : g.running = true
  undisturbed : Undisturbed g
  stack : g.critStack = a.critStack
  masked : g.irqMasked = a.irqMasked
  drive : g.drive = a.drive
  trace : g.trace = a.trace
  upc : g.upc = a.upc
  faultWord : g.faultWord = a.faultWord
  time : a.now ≤ g.now
  kept : Kept a g

theorem gapDone {a : State} (hu : Undisturbed a) (hr : a.running = true) : GapDone a (passGap a) := by
  have e := passGap_of_undisturbed hu
  refine ⟨?_, (Micro.exec_undisturbed .gap hu), by simp [e], by simp [e], by simp [e], by simp [e], by simp [e], by simp [e], by simp [e],
    passGap_kept hu.1⟩
  rw [running_iff] at hr ⊢
  simpa [e] using hr

/-- A program that begins with a slot. -/
theorem run_slot {a : State} (hr : a.running = true) (q p : List Micro) :
    run (.gap :: .enter :: (q ++ .exit :: p)) a = run p (run (slotSection q) (passGap a)) := by
  have e : .enter :: (q ++ .exit :: p) = slotSection q ++ p := by simp [slotSection]
  rw [run_cons_running _ _ hr, e, run_append]
  rfl

/-- A write of a register or a cell, outside the critical sections. -/
structure RegisterDone (a b : State) : Prop where
  running : b.running = a.running
  stack : b.critStack = a.critStack
  masked : b.irqMasked = a.irqMasked
  drive : b.drive = a.drive
  trace : b.trace = a.trace
  upc : b.upc = a.upc
  faultWord : b.faultWord = a.faultWord
  now : b.now = a.now
  viewReads : b.viewReads = a.viewReads
  viewed : b.viewed = a.viewed
  kept : Kept a b

theorem Micro.registerDone {m : Micro} (hm : m.isRegister = true) (a : State) : RegisterDone a (m.exec a) := by
  cases m with
  | gap | setLow | release | sample | delay n | enter | exit => cases hm
  | _ => exact ⟨rfl, rfl, rfl, rfl, rfl, rfl, rfl, rfl, rfl, rfl, by constructor <;> rfl⟩

end Sys2Proof.Machine
end

section
/-! PROOFS. A second request in a gap (60_exceptions.md rules R352, R358, R373): the machine with requests of other contexts runs as
it does alone, up to the gap in which one is delivered. -/

namespace Sys2Proof.Machine

/-! ### A program with requests of other contexts that wait -/

/-- What the machine has done from `a` to `c` with the events `new`, where a request that is due at `n` waits: no slot has begun at
or after `n`, unless interrupts are masked. -/
structure Passed (n : Nat) (a c : State) (new : List (Nat × Event)) : Prop where
  trace : c.trace = new ++ a.trace
  before : a.irqMasked = false → ∀ m, (m, .critOn) ∈ new → m < n
  stack : c.critStack = a.critStack
  masked : c.irqMasked = a.irqMasked
  drive : c.drive = if new = [] then a.drive else .released
  upc : ∀ i k, a.upc = .running i k → ∃ k', c.upc = .running i k'

/-- The second request `w`, due at `n`, has stopped the request in `t`, where alone it goes on to `b`. -/
structure Stopped (n : Nat) (w : ReqWord) (rest : List (Nat × ReqWord)) (b t : State) : Prop where
  fault : t.fault = .concurrentRequest
  faultWord : t.faultWord = w
  busy : t.busy = true
  intruders : t.intruders = rest
  masked : t.irqMasked = false
  due : n ≤ t.now
  next : ∃ es, b.trace = es ++ (t.now, .critOn) :: t.trace

/-- From `a` the machine goes to `b` alone, and to `t` where the request `w` is due at `n`. -/
def Meets (n : Nat) (w : ReqWord) (rest : List (Nat × ReqWord)) (a b t : State) : Prop :=
  ∃ new, Passed n a t new ∧ (t = b.withIntruders ((n, w) :: rest) ∨ Stopped n w rest b t)

section
variable {n : Nat} {w : ReqWord} {rest : List (Nat × ReqWord)} {a b c d t : State} {new more : List (Nat × Event)}

theorem Passed.refl (n : Nat) (a : State) : Passed n a a [] :=
  ⟨rfl, fun _ _ h => (List.not_mem_nil h).elim, rfl, rfl, rfl, fun _ k h => ⟨k, h⟩⟩

theorem Passed.withIntruders (h : Passed n a c new) (l : List (Nat × ReqWord)) : Passed n a (c.withIntruders l) new := by
  obtain ⟨trace, before, stack, masked, drive, upc⟩ := h
  exact ⟨trace, before, stack, masked, drive, upc⟩

theorem Passed.trans (h : Passed n a c new) (k : Passed n c d more) : Passed n a d (more ++ new) := by
  refine ⟨by rw [k.trace, h.trace, List.append_assoc], fun hm m hc => ?_, k.stack.trans h.stack, k.masked.trans h.masked, ?_, ?_⟩
  · rcases List.mem_append.mp hc with hc | hc
    · exact k.before (h.masked.trans hm) m hc
    · exact h.before hm m hc
  · rw [k.drive, h.drive]
    by_cases hk : more = []
    · simp [hk]
    · simp [hk]
  · intro i j hj
    obtain ⟨j', hj'⟩ := h.upc i j hj
    exact k.upc i j' hj'

theorem Passed.meets (h : Passed n a c new) (k : Meets n w rest c b t) : Meets n w rest a b t := by
  obtain ⟨more, passed, outcome⟩ := k
  exact ⟨_, h.trans passed, outcome⟩

theorem passed_register {m : Micro} (hm : m.isRegister = true) (n : Nat) (a : State) : Passed n a (m.exec a) [] := by
  have r := m.registerDone hm a
  exact ⟨r.trace, fun _ _ h => (List.not_mem_nil h).elim, r.stack, r.masked, r.drive, fun i k h => ⟨k, r.upc.trans h⟩⟩

/-- A slot whose gap ends before `n`, or with interrupts masked. -/
theorem passed_slot {g : State} (hg : GapDone a g) (hb : SlotDone g b) (hn : a.irqMasked = false → g.now < n) :
    ∃ new, Passed n a b new := by
  obtain ⟨es, trace, none⟩ := hb.events
  refine ⟨es ++ [(g.now, .critOn)], by simp [trace, hg.trace], fun hm m h => ?_, hb.stack.trans hg.stack, hb.masked.trans hg.masked,
    by simp [hb.drive], fun i k h => hb.upc i k (hg.upc.trans h)⟩
  rcases List.mem_append.mp h with h | h
  · exact absurd h (none m)
  · obtain rfl : m = g.now := by simpa using h
    exact hn hm

end

theorem running_withIntruders (l : List (Nat × ReqWord)) (s : State) : (s.withIntruders l).running = s.running := rfl

theorem dueIntruder?_withIntruders (n : Nat) (w : ReqWord) (rest : List (Nat × ReqWord)) (s : State) :
    (s.withIntruders ((n, w) :: rest)).dueIntruder? = if n ≤ s.now ∧ s.irqMasked = false then some (w, rest) else none := rfl

/-- The gap passes as it does alone; then the second request may be due. -/
theorem passGap_withIntruders {a : State} (hu : Undisturbed a) (l : List (Nat × ReqWord)) :
    passGap (a.withIntruders l) = endGap ((passGap a).withIntruders l) := by
  have time : (a.withIntruders l).gapTime = a.gapTime := rfl
  have alone : passGap a = advance a.gapTime a.drawn := by
    rw [passGap_eq, endGap_of_none]
    refine dueIntruder?_of_nil ?_
    rw [advance_of_noReset _ (show a.drawn.resetsAt = [] from hu.1), pass_intruders]
    exact hu.2
  rw [passGap_eq, time, (beside_withIntruders l).blind blind_drawn, (beside_withIntruders l).advance, alone]

section
variable {n : Nat} {w : ReqWord} {rest : List (Nat × ReqWord)} {a : State} (hu : Undisturbed a) (hr : a.running = true)
include hu hr

theorem passGap_waits (h : ¬ (n ≤ (passGap a).now ∧ a.irqMasked = false)) :
    passGap (a.withIntruders ((n, w) :: rest)) = (passGap a).withIntruders ((n, w) :: rest) := by
  rw [passGap_withIntruders hu, endGap_of_none]
  rw [dueIntruder?_withIntruders, (gapDone hu hr).masked, if_neg h]

theorem passGap_stops (hn : n ≤ (passGap a).now) (hm : a.irqMasked = false) :
    passGap (a.withIntruders ((n, w) :: rest))
      = stopWith w rest (passGap a) := by
  rw [passGap_withIntruders hu, endGap_of_due (w := w) (rest := rest)]
  · rfl
  · exact (gapDone hu hr).running
  · rw [dueIntruder?_withIntruders, (gapDone hu hr).masked, if_pos ⟨hn, hm⟩]

/-- A second request in the gap of a slot stops the program there. -/
theorem run_slot_stops (hn : n ≤ (passGap a).now) (hm : a.irqMasked = false) (q p : List Micro) :
    run (.gap :: .enter :: (q ++ .exit :: p)) (a.withIntruders ((n, w) :: rest))
      = stopWith w rest (passGap a) := by
  rw [run_cons_running _ _ ((running_withIntruders _ a).trans hr), Micro.exec, passGap_stops hu hr hn hm]
  exact run_of_not_running _ (by simp [State.running, stopWith])

end

section
variable {n : Nat} {w : ReqWord} {rest : List (Nat × ReqWord)}

/-- A program meets the second request in one of its gaps, or not at all. -/
theorem run_meets {p : List Micro} (hp : Slotted p) : ∀ {a : State}, Undisturbed a → a.running = true →
    Meets n w rest a (run p a) (run p (a.withIntruders ((n, w) :: rest))) := by
  induction hp with
  | nil => exact fun _ _ => ⟨[], (Passed.refl n _).withIntruders _, .inl rfl⟩
  | @register m p hm _ ih =>
    intro a hu hr
    have next := (beside_withIntruders ((n, w) :: rest)).micro (m := m) (by rintro rfl; cases hm) a
    rw [run_cons_running _ _ hr, run_cons_running _ _ ((running_withIntruders _ a).trans hr), next]
    exact (passed_register hm n a).meets (ih (m.exec_undisturbed hu) ((m.registerDone hm a).running.trans hr))
  | @slot q p hq hd _ ih =>
    intro a hu hr
    have gap := gapDone hu hr
    have slot := slotDone hq hd gap.undisturbed gap.running
    by_cases h : n ≤ (passGap a).now ∧ a.irqMasked = false
    · obtain ⟨hn, hm⟩ := h
      rw [run_slot hr, run_slot_stops hu hr hn hm]
      obtain ⟨es, trace, -⟩ := slot.events
      obtain ⟨-, -, -, ⟨es', later⟩, -⟩ := onward_run (p := p) (.refl (run (slotSection q) (passGap a)))
      refine ⟨[], ⟨gap.trace, fun _ _ h => (List.not_mem_nil h).elim, gap.stack, gap.masked, gap.drive, fun i k h => ⟨k, gap.upc.trans h⟩⟩,
        .inr ⟨rfl, rfl, ((running_iff _).mp gap.running).1, rfl, gap.masked.trans hm, hn, es' ++ es, ?_⟩⟩
      rw [List.append_assoc, ← later, trace]
      rfl
    · have waits : run (.gap :: .enter :: (q ++ .exit :: p)) (a.withIntruders ((n, w) :: rest))
          = run p ((run (slotSection q) (passGap a)).withIntruders ((n, w) :: rest)) := by
        have e : .enter :: (q ++ .exit :: p) = slotSection q ++ p := by simp [slotSection]
        rw [run_cons_running _ _ ((running_withIntruders _ a).trans hr), Micro.exec, passGap_waits hu hr h, e, run_append,
          (beside_withIntruders _).run_noGap (gap_notMem_slotSection hq)]
      rw [run_slot hr, waits]
      obtain ⟨new, passed⟩ := passed_slot gap slot fun hm => Nat.lt_of_not_le fun hn => h ⟨hn, hm⟩
      exact passed.meets (ih slot.undisturbed slot.running)

/-- A request that is due already is delivered in the first gap. -/
theorem run_meets_at_once {p : List Micro} (hp : Slotted p) : ∀ {a : State}, .gap ∈ p → Undisturbed a → a.running = true →
    a.irqMasked = false → n ≤ a.now → ∃ t, run p (a.withIntruders ((n, w) :: rest)) = t ∧ t.fault = .concurrentRequest
      ∧ t.upc = a.upc ∧ t.trace = a.trace := by
  induction hp with
  | nil => exact fun h => (List.not_mem_nil h).elim
  | @register m p hm _ ih =>
    intro a hg hu hr hi hn
    have r := m.registerDone hm a
    have next := (beside_withIntruders ((n, w) :: rest)).micro (m := m) (by rintro rfl; cases hm) a
    have hg : .gap ∈ p := (List.mem_cons.mp hg).resolve_left (by rintro rfl; cases hm)
    rw [run_cons_running _ _ ((running_withIntruders _ a).trans hr), next, ← r.upc, ← r.trace]
    exact ih hg (m.exec_undisturbed hu) (r.running.trans hr) (r.masked.trans hi) (by rwa [r.now])
  | @slot q p hq hd _ _ =>
    intro a _ hu hr hi hn
    have gap := gapDone hu hr
    exact ⟨_, run_slot_stops hu hr (Nat.le_trans hn gap.time) hi q p, rfl, gap.upc, gap.trace⟩

end

theorem whileRunning_of_running {f : State → State} {s : State} (h : s.running = true) : whileRunning f s = f s := if_pos h

theorem whileRunning_of_not_running {f : State → State} {s : State} (h : s.running = false) : whileRunning f s = s :=
  if_neg (by simp [h])

theorem presenceGate_of_presence {c : OutCells} {p : List Micro} {s : State} (h : s.pres.getD false = true) :
    presenceGate c p s = whileRunning (answerWith .ok c) (run p s) := if_pos h

theorem presenceGate_of_absence {c : OutCells} {p : List Micro} {s : State} (h : ¬ s.pres.getD false = true) :
    presenceGate c p s = answerWith .noPresence c (clearOutputs c s) := if_neg h

theorem gap_mem_busProgram {i : Instr} (h : isBusProgram i = true) : .gap ∈ busProgram i := by
  cases i with
  | writeBit b => cases b <;> exact List.mem_cons_self ..
  | writeByte v =>
    refine List.mem_cons_of_mem _ (List.mem_flatMap.mpr ⟨0, by decide, List.mem_append_left _ ?_⟩)
    cases sentBit v 0 <;> exact List.mem_cons_self ..
  | resetPulse | readBit | readByte => decide
  | _ => cases h

/-! ### The request with requests of other contexts that wait -/

/-- How a request that begins in `a` and ends alone in `alone` ends in `t`. -/
def MeetsInRequest (n : Nat) (w : ReqWord) (rest : List (Nat × ReqWord)) (a alone t : State) : Prop :=
  ∃ new, t.trace = new ++ a.trace ∧ (a.irqMasked = false → ∀ m, (m, .critOn) ∈ new → m < n)
    ∧ (t = alone.withIntruders ((n, w) :: rest) ∨ (Passed n a t new ∧ Stopped n w rest alone t))

section
variable {n : Nat} {w : ReqWord} {rest : List (Nat × ReqWord)} {a b u alone t : State}

theorem Stopped.not_running (h : Stopped n w rest b t) : t.running = false := by simp [State.running, h.fault]

theorem Stopped.later (h : Stopped n w rest b t) (later : ∃ es, alone.trace = es ++ b.trace) : Stopped n w rest alone t := by
  obtain ⟨fault, faultWord, busy, intruders, masked, due, es, next⟩ := h
  obtain ⟨es', more⟩ := later
  exact ⟨fault, faultWord, busy, intruders, masked, due, es' ++ es, by rw [more, next, List.append_assoc]⟩

/-- The programs of the request are run; it responds where they were run to their end. -/
theorem Meets.respond (h : Meets n w rest a b u) {r : Response} {c : State}
    (ends : u = b.withIntruders ((n, w) :: rest) → t = (Machine.respond r c).withIntruders ((n, w) :: rest))
    (same : c.trace = b.trace) (stops : u.running = false → t = u) : MeetsInRequest n w rest a (Machine.respond r c) t := by
  obtain ⟨new, passed, hw | hs⟩ := h
  · have e := ends hw
    refine ⟨(c.now, .resp r) :: new, ?_, fun hm m h => passed.before hm m (by simpa using h), .inl e⟩
    have before : u.trace = b.trace := by rw [hw]; rfl
    rw [e, List.cons_append, ← passed.trace, before, ← same]
    rfl
  · rw [stops hs.not_running]
    exact ⟨new, passed.trace, passed.before, .inr ⟨passed, hs.later ⟨[(c.now, .resp r)], congrArg _ same⟩⟩⟩

end

section
variable {n : Nat} {w : ReqWord} {rest : List (Nat × ReqWord)} {i : Instr} {s : State} (h : Ready i s)
include h

theorem prologue_withIntruders (l : List (Nat × ReqWord)) :
    prologue i (s.withIntruders l) = (accept i (clearCopy s)).withIntruders l := by
  rw [(beside_withIntruders l).blind (blind_prologue i), prologue_of_ready h]

theorem exec_bus_meets (hb : isBusProgram i = true) : ∃ t alone, exec i (s.withIntruders ((n, w) :: rest)) = .next t
    ∧ exec i s = .next alone ∧ MeetsInRequest n w rest (accept i (clearCopy s)) alone t := by
  have k := beside_withIntruders ((n, w) :: rest)
  have meets : Meets n w rest (accept i (clearCopy s)) (afterBus i s) _ :=
    run_meets (slotted_busProgram i) h.undisturbed_accept h.running_accept
  refine ⟨_, _, exec_busProgram hb _, exec_bus_of_ready hb h, meets.respond (fun e => ?_) rfl fun hs => ?_⟩
  · rw [request, prologue_withIntruders h, whileRunning_of_running ((k.running _).trans h.running_accept), busBody, e,
      whileRunning_of_running ((k.running _).trans (running_afterBus h))]
    exact k.busAnswer i (afterBus i s)
  · rw [request, prologue_withIntruders h, whileRunning_of_running ((k.running _).trans h.running_accept), busBody,
      whileRunning_of_not_running hs]

theorem exec_frame_meets (hd : isDeviceProtocol i = true) : ∃ t alone, exec i (s.withIntruders ((n, w) :: rest)) = .next t
    ∧ exec i s = .next alone ∧ MeetsInRequest n w rest (accept i (clearCopy s)) alone t := by
  have k := beside_withIntruders ((n, w) :: rest)
  have reset : Meets n w rest (accept i (clearCopy s)) (afterReset i s) _ :=
    run_meets slotted_resetProgram h.undisturbed_accept h.running_accept
  have frame : Meets n w rest (afterReset i s) (afterFrame i s) _ :=
    run_meets (slotted_frameProgram i s) (undisturbed_afterReset h) (running_afterReset h)
  have body : exec i (s.withIntruders ((n, w) :: rest)) = .next (frameBody i ((accept i (clearCopy s)).withIntruders ((n, w) :: rest))) := by
    rw [exec_deviceProtocol hd, request, prologue_withIntruders h, whileRunning_of_running ((k.running _).trans h.running_accept)]
  refine ⟨_, _, body, exec_frame_of_ready hd h, ?_⟩
  rw [frameBody, k.frameProgram, frameProgram_accept]
  have gate : ∀ f : State → State, run resetProgram ((accept i (clearCopy s)).withIntruders ((n, w) :: rest))
      = (afterReset i s).withIntruders ((n, w) :: rest) →
      whileRunning f (run resetProgram ((accept i (clearCopy s)).withIntruders ((n, w) :: rest)))
        = f ((afterReset i s).withIntruders ((n, w) :: rest)) := fun f e => by
    rw [e, whileRunning_of_running ((k.running _).trans (running_afterReset h))]
  by_cases hp : (afterReset i s).pres.getD false = true
  · rw [if_pos hp]
    obtain ⟨new, passed, hw | hs⟩ := reset
    · rw [gate _ hw, presenceGate_of_presence (s := (afterReset i s).withIntruders ((n, w) :: rest)) hp]
      have passed : Passed n (accept i (clearCopy s)) (afterReset i s) new := by
        rw [hw] at passed
        exact passed.withIntruders (afterReset i s).intruders
      refine (passed.meets frame).respond (fun e => ?_) rfl fun hs => whileRunning_of_not_running hs
      rw [e, whileRunning_of_running ((k.running _).trans (running_afterFrame h))]
      exact k.answerWith _ _ _
    · rw [whileRunning_of_not_running hs.not_running]
      obtain ⟨-, -, -, ⟨es, later⟩, -⟩ := onward_run (p := frameProgram i s) (.refl (afterReset i s))
      exact ⟨new, passed.trace, passed.before, .inr ⟨passed, hs.later ⟨_ :: es, congrArg _ later.symm⟩⟩⟩
  · rw [if_neg hp]
    refine reset.respond (fun e => ?_) (clearOutputs_trace _ _) fun hs => whileRunning_of_not_running hs
    rw [gate _ e, presenceGate_of_absence (s := (afterReset i s).withIntruders ((n, w) :: rest)) hp,
      k.blind (blind_clearOutputs _), k.answerWith]
    rfl

/-- A request that is due already is delivered in the first gap: nothing has happened on the line, and no shim primitive was run. -/
theorem exec_meets_at_once (hb : isBusProgram i = true ∨ isDeviceProtocol i = true) (hm : s.irqMasked = false) (hn : n ≤ s.now) :
    ∃ t, exec i (s.withIntruders ((n, w) :: rest)) = .next t ∧ t.fault = .concurrentRequest ∧ t.upc = .running i 0
      ∧ t.trace = (accept i (clearCopy s)).trace := by
  have accepted : ((accept i (clearCopy s)).withIntruders ((n, w) :: rest)).running = true := h.running_accept
  have first : ∀ {p : List Micro} (f : State → State), Slotted p → .gap ∈ p →
      ∃ t, whileRunning f (run p ((accept i (clearCopy s)).withIntruders ((n, w) :: rest))) = t ∧ t.fault = .concurrentRequest
        ∧ t.upc = .running i 0 ∧ t.trace = (accept i (clearCopy s)).trace := by
    intro p f hp hg
    obtain ⟨t, e, fault, upc, trace⟩ := run_meets_at_once (n := n) (w := w) (rest := rest) hp hg h.undisturbed_accept h.running_accept
      (by simpa using hm) (by simpa using hn)
    exact ⟨t, by rw [e, whileRunning_of_not_running (by simp [State.running, fault])], fault, upc, trace⟩
  rcases hb with hb | hd
  · obtain ⟨t, e, outcome⟩ := first _ (slotted_busProgram i) (gap_mem_busProgram hb)
    refine ⟨t, ?_, outcome⟩
    rw [exec_busProgram hb, request, prologue_withIntruders h, whileRunning_of_running accepted, busBody, e]
  · obtain ⟨t, e, outcome⟩ := first _ slotted_resetProgram (List.mem_cons_self ..)
    refine ⟨t, ?_, outcome⟩
    rw [exec_deviceProtocol hd, request, prologue_withIntruders h, whileRunning_of_running accepted, frameBody, e]

end

/-- The requests that have a gap. -/
theorem isBusProgram_or_isDeviceProtocol {i : Instr} (hi : i.isRequest = true) (hl : drivesLine i = true) (hn : i ≠ .driveLow) :
    isBusProgram i = true ∨ isDeviceProtocol i = true := by
  cases requestShape hi with
  | init pin => cases hl
  | driveLow => exact absurd rfl hn
  | release => cases hl
  | bus hb => exact .inl hb
  | frame hd => exact .inr hd

/-- Settles O13: the run is compared, slot by slot, with the run without the second request. -/
theorem secondRequestInGapFaults : Obligations.SecondRequestInGapFaults := by
  intro i s n w rest hi hl hd _ hin h
  have shape := isBusProgram_or_isDeviceProtocol hi hl hd
  have whole : ({ s with intruders := [] } : State).withIntruders ((n, w) :: rest) = s := by rw [← hin]; rfl
  have met := shape.elim (fun hb => exec_bus_meets (n := n) (w := w) (rest := rest) h hb) fun hf => exec_frame_meets h hf
  rw [whole] at met
  obtain ⟨t, alone, ht, ha, new, trace, before, outcome⟩ := met
  have start : (accept i (clearCopy { s with intruders := [] })).trace = (s.now, .req (requestWord i)) :: s.trace := by simp
  rw [start] at trace
  refine ⟨fun hm => ⟨t, alone, new, ht, ha, trace, before (by simpa using hm), ?_, fun hn => ?_⟩, fun hm => ?_⟩
  · rw [hin]
    refine outcome.imp id fun ⟨passed, stopped⟩ => ?_
    refine ⟨stopped.fault, stopped.faultWord, stopped.busy, stopped.intruders, passed.upc i 0 rfl, by simpa using passed.drive,
      by simpa using passed.stack, stopped.masked, stopped.due, stopped.next⟩
  · obtain ⟨u, hu, fault, upc, none⟩ := exec_meets_at_once (n := n) (w := w) (rest := rest) h shape hm hn
    rw [whole, ht] at hu
    cases hu
    rw [start, trace] at none
    exact ⟨fault, upc, by simpa using none⟩
  · have e : t = alone.withIntruders ((n, w) :: rest) := outcome.resolve_right fun ⟨passed, stopped⟩ => by
      have := passed.masked.symm.trans stopped.masked
      simp [hm] at this
    have noInit : ∀ pin, i = .init pin → State.validPin { s with intruders := [] } pin = true := by
      rintro pin rfl
      cases hl
    obtain ⟨u, st, hu, responded, -⟩ := everyAcceptedRequestResponds i { s with intruders := [] } hi ⟨h, noInit⟩
    rw [ha] at hu
    cases hu
    rw [e] at ht
    exact ⟨_, _, ht, responded, hin.symm⟩

end Sys2Proof.Machine
end

section
/-! PROOFS. The status view (10_state.md rule R45): its bytes, and the reads that other contexts make of it. -/

namespace Sys2Proof.Machine

/-! ### The bytes of the view -/

theorem getLsbD_statByte (s : State) {k : Nat} (hk : k < 8) : (statByte s).getLsbD k
    = ((decide (0 = k) && s.bound) || (decide (1 = k) && decide (s.drive = .drivenLow)) || (decide (2 = k) && s.busy)
      || (decide (3 = k) && decide (s.fault ≠ .none))) := by
  simp only [statByte, BitVec.getLsbD_or, getLsbD_bitAt _ hk]

/-- STAT bit by bit. -/
theorem statusView_stat (s : State) :
    (statusView s 0).getLsbD 0 = s.bound ∧ (statusView s 0).getLsbD 1 = decide (s.drive = .drivenLow)
      ∧ (statusView s 0).getLsbD 2 = s.busy ∧ (statusView s 0).getLsbD 3 = decide (s.fault ≠ .none)
      ∧ ∀ k, 4 ≤ k → (statusView s 0).getLsbD k = false := by
  have bit : ∀ {k}, k < 8 → (statusView s 0).getLsbD k = _ := fun hk => getLsbD_statByte s hk
  refine ⟨?_, ?_, ?_, ?_, fun k hk => ?_⟩
  · simpa using bit (k := 0) (by decide)
  · simpa using bit (k := 1) (by decide)
  · simpa using bit (k := 2) (by decide)
  · simpa using bit (k := 3) (by decide)
  · rcases Nat.lt_or_ge k 8 with h | h
    · rw [bit h, decide_eq_false (show 0 ≠ k by omega), decide_eq_false (show 1 ≠ k by omega), decide_eq_false (show 2 ≠ k by omega),
        decide_eq_false (show 3 ≠ k by omega)]
      rfl
    · exact BitVec.getLsbD_of_ge _ _ h

/-- INFO in its two bytes. -/
theorem statusView_info (s : State) : (statusView s 5 ++ statusView s 4 : BitVec 16) = s.faultWord := by
  change (s.faultWord.extractLsb' 8 8 ++ s.faultWord.extractLsb' 0 8 : BitVec 16) = _
  rw [BitVec.extractLsb'_append_extractLsb'_eq_extractLsb' (by decide)]
  exact BitVec.extractLsb'_eq_self

theorem statusView_above (s : State) {k : Nat} (hk : 5 < k) : statusView s k = 0 := by
  obtain ⟨j, rfl⟩ : ∃ j, k = j + 6 := ⟨k - 6, by omega⟩
  rfl

theorem statusView_powerOn (env : Env) (devices : List Device) :
    (List.range 6).map (statusView (State.powerOn env devices)) = [0x00, 0x00, 0x00, 0xFF, 0x00, 0x00] := by
  have offsets : List.range 6 = [0, 1, 2, 3, 4, 5] := rfl
  simp [offsets, statusView, statByte, bitAt, State.powerOn, FaultCode.code, RStat.code]

/-- The fields that the view shows. -/
structure SameView (s t : State) : Prop where
  bound : t.bound = s.bound
  pin : t.pin = s.pin
  drive : t.drive = s.drive
  busy : t.busy = s.busy
  fault : t.fault = s.fault
  rstat : t.rstat = s.rstat
  faultWord : t.faultWord = s.faultWord

theorem SameView.statusView {s t : State} (h : SameView s t) (k : Nat) : statusView t k = statusView s k := by
  obtain ⟨bound, pin, drive, busy, fault, rstat, faultWord⟩ := h
  unfold Machine.statusView statByte
  rw [bound, pin, drive, busy, fault, rstat, faultWord]

/-! ### Reads of the view in a program -/

/-- No read of the view can be made: interrupts are masked, or none waits. -/
def NoRead (a : State) : Prop := a.irqMasked = true ∨ a.viewReads = []

/-- The read of byte `k`, due at `n`, still waits in `t`, or it was made between `a` and `t`, at the line's level in `a` or released. -/
def ReadOnce (n k : Nat) (a t : State) : Prop :=
  (t.viewReads = [(n, k)] ∧ t.viewed = a.viewed)
    ∨ (t.viewReads = [] ∧ ∃ m v, t.viewed = ⟨m, k, v⟩ :: a.viewed ∧ n ≤ m ∧ a.now ≤ m ∧ m ≤ t.now
      ∧ (v = statusView a k ∨ v = statusView { a with drive := .released } k))

section
variable {a b c g t : State} {n k : Nat}

theorem SameView.of_kept (h : Kept a b) (hf : b.fault = a.fault) (hw : b.faultWord = a.faultWord) (hd : b.drive = a.drive) :
    SameView a b := ⟨h.bound, h.pin, hd, h.busy, hf, h.rstat, hw⟩

theorem fault_eq_of_running (ha : a.running = true) (hb : b.running = true) : b.fault = a.fault :=
  ((running_iff _).mp hb).2.trans ((running_iff _).mp ha).2.symm

/-- The view after a slot: only DRV may have changed. -/
theorem sameView_slot (hr : a.running = true) (hg : GapDone a g) (hb : SlotDone g b) : SameView { a with drive := .released } b := by
  have kept := hg.kept.trans hb.kept
  exact ⟨kept.bound, kept.pin, hb.drive, kept.busy, fault_eq_of_running hr hb.running, kept.rstat, hb.faultWord.trans hg.faultWord⟩

theorem sameView_register {m : Micro} (hm : m.isRegister = true) (hr : a.running = true) : SameView a (m.exec a) := by
  have r := m.registerDone hm a
  exact .of_kept r.kept (fault_eq_of_running hr (r.running.trans hr)) r.faultWord r.drive

/-- A gap is time and then the reads of the view. -/
theorem passGap_eq_readViews (hu : Undisturbed a) : passGap a = readViews a.now (passTo (a.now + a.gapTime) a.drawn) :=
  passGap_of_undisturbed hu

/-- Time passes with no read. -/
theorem passGap_noRead (hu : Undisturbed a) (h : NoRead a) : (passGap a).viewReads = a.viewReads ∧ (passGap a).viewed = a.viewed := by
  have none : passGap a = passTo (a.now + a.gapTime) a.drawn := by
    rw [passGap_eq_readViews hu]
    refine h.elim (fun hm => readViews_of_masked _ ?_) fun hv => readViews_of_none _ ?_
    · rwa [passTo_irqMasked]
    · rwa [passTo_viewReads]
  rw [none, passTo_viewReads, passTo_viewed]
  exact ⟨rfl, rfl⟩

theorem dueViews_single (hm : a.irqMasked = false) (hv : a.viewReads = [(n, k)]) :
    a.dueViews = if n ≤ a.now then [(n, k)] else [] := by
  rw [State.dueViews, if_neg (by simp [hm]), hv]
  by_cases h : n ≤ a.now
  · simp [h]
  · simp [h, List.takeWhile]

/-- The read waits until a gap by whose end it is due. -/
theorem passGap_waitsToRead (hu : Undisturbed a) (hm : a.irqMasked = false) (hv : a.viewReads = [(n, k)]) (hn : ¬ n ≤ (passGap a).now) :
    (passGap a).viewReads = [(n, k)] ∧ (passGap a).viewed = a.viewed := by
  rw [passGap_eq_readViews hu] at hn ⊢
  have none : (passTo (a.now + a.gapTime) a.drawn).dueViews = [] := by
    rw [dueViews_single (n := n) (k := k) (by rwa [passTo_irqMasked]) (by rwa [passTo_viewReads])]
    exact if_neg hn
  rw [readViews_of_noneDue _ none, passTo_viewReads, passTo_viewed]
  exact ⟨hv, rfl⟩

/-- The read is made in that gap: the view has not changed since the gap began. -/
theorem passGap_reads (hu : Undisturbed a) (hm : a.irqMasked = false) (hv : a.viewReads = [(n, k)]) (hn : n ≤ (passGap a).now) :
    (passGap a).viewReads = [] ∧ (passGap a).viewed = ⟨max a.now n, k, statusView a k⟩ :: a.viewed := by
  rw [passGap_eq_readViews hu] at hn ⊢
  have due : (passTo (a.now + a.gapTime) a.drawn).dueViews = [(n, k)] := by
    rw [dueViews_single (n := n) (k := k) (by rwa [passTo_irqMasked]) (by rwa [passTo_viewReads])]
    exact if_pos hn
  have view : SameView a (passTo (a.now + a.gapTime) a.drawn) := by
    constructor <;> simp [State.drawn]
  have reads : (passTo (a.now + a.gapTime) a.drawn).viewReads = [(n, k)] := by rwa [passTo_viewReads]
  simp only [readViews, due, reads, passTo_viewed]
  exact ⟨rfl, congrArg (fun v => (⟨max a.now n, k, v⟩ : Viewed) :: a.viewed) (view.statusView k)⟩

/-- A program in which no read can be made. -/
theorem run_noRead {p : List Micro} (hp : Slotted p) : ∀ {a : State}, Undisturbed a → a.running = true → NoRead a →
    (run p a).viewReads = a.viewReads ∧ (run p a).viewed = a.viewed := by
  induction hp with
  | nil => exact fun _ _ _ => ⟨rfl, rfl⟩
  | @register m p hm _ ih =>
    intro a hu hr h
    have r := m.registerDone hm a
    have still : NoRead (m.exec a) := by rw [NoRead, r.masked, r.viewReads]; exact h
    rw [run_cons_running _ _ hr, ← r.viewReads, ← r.viewed]
    exact ih (m.exec_undisturbed hu) (r.running.trans hr) still
  | @slot q p hq hd _ ih =>
    intro a hu hr h
    have gap := gapDone hu hr
    have slot := slotDone hq hd gap.undisturbed gap.running
    obtain ⟨reads, viewed⟩ := passGap_noRead hu h
    have reads := slot.viewReads.trans reads
    have still : NoRead (run (slotSection q) (passGap a)) := by
      rw [NoRead, slot.masked.trans gap.masked, reads]
      exact h
    rw [run_slot hr, ← reads, ← slot.viewed.trans viewed]
    exact ih slot.undisturbed slot.running still

/-- What is read after `c` was to be read after `a`, where nothing was read between. -/
theorem ReadOnce.after (hv : c.viewed = a.viewed) (hn : a.now ≤ c.now) (hs : SameView a c ∨ SameView { a with drive := .released } c)
    (h : ReadOnce n k c t) : ReadOnce n k a t := by
  rcases h with ⟨reads, viewed⟩ | ⟨reads, m, v, viewed, due, since, upTo, view⟩
  · exact .inl ⟨reads, viewed.trans hv⟩
  · refine .inr ⟨reads, m, v, by rw [viewed, hv], due, Nat.le_trans hn since, upTo, ?_⟩
    have low : ∀ j, statusView { c with drive := .released } j = statusView { a with drive := .released } j := fun j =>
      SameView.statusView (by rcases hs with hs | hs <;> exact ⟨hs.bound, hs.pin, rfl, hs.busy, hs.fault, hs.rstat, hs.faultWord⟩) j
    rcases view with rfl | rfl
    · exact hs.imp (fun h => h.statusView k) fun h => h.statusView k
    · exact .inr (low k)

end

/-- A program makes the read in one of its gaps, or not at all. -/
theorem run_readsOnce {n k : Nat} {p : List Micro} (hp : Slotted p) : ∀ {a : State}, Undisturbed a → a.running = true →
    a.irqMasked = false → a.viewReads = [(n, k)] → ReadOnce n k a (run p a) := by
  induction hp with
  | nil => exact fun _ _ _ hv => .inl ⟨hv, rfl⟩
  | @register m p hm _ ih =>
    intro a hu hr hi hv
    have r := m.registerDone hm a
    rw [run_cons_running _ _ hr]
    exact (ih (m.exec_undisturbed hu) (r.running.trans hr) (r.masked.trans hi) (r.viewReads.trans hv)).after r.viewed
      (Nat.le_of_eq r.now.symm) (.inl (sameView_register hm hr))
  | @slot q p hq hd hp ih =>
    intro a hu hr hi hv
    have gap := gapDone hu hr
    have slot := slotDone hq hd gap.undisturbed gap.running
    rw [run_slot hr]
    by_cases hn : n ≤ (passGap a).now
    · obtain ⟨reads, viewed⟩ := passGap_reads hu hi hv hn
      have none := slot.viewReads.trans reads
      obtain ⟨reads', viewed'⟩ := run_noRead hp slot.undisturbed slot.running (.inr none)
      obtain ⟨-, -, later, -⟩ := onward_run (p := p) (.refl (run (slotSection q) (passGap a)))
      have ended : (passGap a).now ≤ (run p (run (slotSection q) (passGap a))).now := Nat.le_trans slot.time later
      exact .inr ⟨reads'.trans none, _, _, viewed'.trans (slot.viewed.trans viewed), Nat.le_max_right _ _, Nat.le_max_left _ _,
        Nat.max_le.mpr ⟨Nat.le_trans gap.time ended, Nat.le_trans hn ended⟩, .inl rfl⟩
    · obtain ⟨reads, viewed⟩ := passGap_waitsToRead hu hi hv hn
      exact (ih slot.undisturbed slot.running ((slot.masked.trans gap.masked).trans hi) (slot.viewReads.trans reads)).after
        (slot.viewed.trans viewed) (Nat.le_trans gap.time slot.time) (.inr (sameView_slot hr gap slot))

theorem run_faultWord {p : List Micro} (hp : Slotted p) : ∀ {a : State}, Undisturbed a → a.running = true →
    (run p a).faultWord = a.faultWord := by
  induction hp with
  | nil => exact fun _ _ => rfl
  | @register m p hm _ ih =>
    intro a hu hr
    have r := m.registerDone hm a
    rw [run_cons_running _ _ hr, ← r.faultWord]
    exact ih (m.exec_undisturbed hu) (r.running.trans hr)
  | @slot q p hq hd _ ih =>
    intro a hu hr
    have gap := gapDone hu hr
    have slot := slotDone hq hd gap.undisturbed gap.running
    rw [run_slot hr, ← slot.faultWord.trans gap.faultWord]
    exact ih slot.undisturbed slot.running

/-! ### Reads of the view in a request -/

/-- The read of byte `k` was made between `a` and `t`, as early as can be. -/
def ReadAtOnce (k : Nat) (a t : State) : Prop := t.viewReads = [] ∧ t.viewed = ⟨a.now, k, statusView a k⟩ :: a.viewed

/-- The read of byte `k`, due at `n`, between `a` and `t`. -/
def Reads (n k : Nat) (a t : State) : Prop := ReadOnce n k a t ∧ (n ≤ a.now → ReadAtOnce k a t)

section
variable {n k : Nat} {p : List Micro} {a c t : State}

/-- A read that is due already is made in the first gap. -/
theorem run_readsAtOnce (hp : Slotted p) : ∀ {a : State}, .gap ∈ p → Undisturbed a → a.running = true →
    a.irqMasked = false → a.viewReads = [(n, k)] → n ≤ a.now → ReadAtOnce k a (run p a) := by
  induction hp with
  | nil => exact fun h => (List.not_mem_nil h).elim
  | @register m p hm _ ih =>
    intro a hg hu hr hi hv hn
    have r := m.registerDone hm a
    have hg : .gap ∈ p := (List.mem_cons.mp hg).resolve_left (by rintro rfl; cases hm)
    rw [run_cons_running _ _ hr, ReadAtOnce, ← r.now, ← r.viewed, ← (sameView_register hm hr).statusView k]
    exact ih hg (m.exec_undisturbed hu) (r.running.trans hr) (r.masked.trans hi) (r.viewReads.trans hv) (by rwa [r.now])
  | @slot q p hq hd hp _ =>
    intro a _ hu hr hi hv hn
    have gap := gapDone hu hr
    have slot := slotDone hq hd gap.undisturbed gap.running
    obtain ⟨reads, viewed⟩ := passGap_reads hu hi hv (Nat.le_trans hn gap.time)
    have none := slot.viewReads.trans reads
    obtain ⟨reads', viewed'⟩ := run_noRead hp slot.undisturbed slot.running (.inr none)
    rw [run_slot hr]
    refine ⟨reads'.trans none, ?_⟩
    rw [viewed', slot.viewed, viewed, Nat.max_eq_left hn]

theorem run_reads (hp : Slotted p) (hg : .gap ∈ p) (hu : Undisturbed a) (hr : a.running = true) (hi : a.irqMasked = false)
    (hv : a.viewReads = [(n, k)]) : Reads n k a (run p a) :=
  ⟨run_readsOnce hp hu hr hi hv, run_readsAtOnce hp hg hu hr hi hv⟩

/-- The program `p` goes on from `c`. -/
theorem Reads.run (h : Reads n k a c) (hp : Slotted p) (hu : Undisturbed c) (hr : c.running = true) (hi : c.irqMasked = false)
    (hn : a.now ≤ c.now) (hs : SameView { a with drive := .released } c) : Reads n k a (Machine.run p c) := by
  obtain ⟨once, atOnce⟩ := h
  have done : c.viewReads = [] → (Machine.run p c).viewReads = [] ∧ (Machine.run p c).viewed = c.viewed := fun none => by
    obtain ⟨reads, viewed⟩ := run_noRead hp hu hr (.inr none)
    exact ⟨reads.trans none, viewed⟩
  obtain ⟨-, -, later, -⟩ := onward_run (p := p) (.refl c)
  refine ⟨?_, fun due => ?_⟩
  · rcases once with ⟨waits, viewed⟩ | ⟨reads, m, v, viewed, due, since, upTo, view⟩
    · exact (run_readsOnce hp hu hr hi waits).after viewed hn (.inr hs)
    · obtain ⟨reads', viewed'⟩ := done reads
      exact .inr ⟨reads', m, v, viewed'.trans viewed, due, since, Nat.le_trans upTo later, view⟩
  · obtain ⟨reads, viewed⟩ := atOnce due
    obtain ⟨reads', viewed'⟩ := done reads
    exact ⟨reads', viewed'.trans viewed⟩

/-- The end of a request reads no view. -/
theorem Reads.congr (h : Reads n k a c) (hr : t.viewReads = c.viewReads) (hv : t.viewed = c.viewed) (hn : t.now = c.now) :
    Reads n k a t := by
  unfold Reads ReadOnce ReadAtOnce at *
  rw [hr, hv, hn]
  exact h

end

theorem clearOutputs_views (c : OutCells) (s : State) :
    (clearOutputs c s).viewReads = s.viewReads ∧ (clearOutputs c s).viewed = s.viewed := by
  obtain ⟨-, reads, viewed⟩ := (blind_clearOutputs c).keeps s
  exact ⟨reads, viewed⟩

theorem sameView_accept (i : Instr) (s : State) : SameView { s with busy := true } (accept i (clearCopy s)) := by
  constructor <;> simp

section
variable {i : Instr} {s : State} (h : Ready i s)
include h

theorem sameView_afterReset : SameView { accept i (clearCopy s) with drive := .released } (afterReset i s) := by
  have kept : Kept (accept i (clearCopy s)) (afterReset i s) := run_kept _ h.undisturbed_accept.1
  exact ⟨kept.bound, kept.pin, drive_afterReset h, kept.busy, fault_eq_of_running h.running_accept (running_afterReset h), kept.rstat,
    run_faultWord slotted_resetProgram h.undisturbed_accept h.running_accept⟩

/-- A request that drives the line, with one read of the view that waits. -/
theorem exec_reads {n k : Nat} (hb : isBusProgram i = true ∨ isDeviceProtocol i = true) (hm : s.irqMasked = false)
    (hv : s.viewReads = [(n, k)]) : ∃ t, exec i s = .next t ∧ Reads n k (accept i (clearCopy s)) t := by
  have gapOpen : (accept i (clearCopy s)).irqMasked = false := by simpa using hm
  have waits : (accept i (clearCopy s)).viewReads = [(n, k)] := by simpa using hv
  rcases hb with hb | hd
  · exact ⟨_, exec_bus_of_ready hb h, (run_reads (slotted_busProgram i) (gap_mem_busProgram hb) h.undisturbed_accept h.running_accept
      gapOpen waits).congr rfl rfl rfl⟩
  · have reset : Reads n k (accept i (clearCopy s)) (afterReset i s) :=
      run_reads slotted_resetProgram (List.mem_cons_self ..) h.undisturbed_accept h.running_accept gapOpen waits
    refine ⟨_, exec_frame_of_ready hd h, ?_⟩
    split
    · obtain ⟨-, -, later, -⟩ := onward_run (p := resetProgram) (.refl (accept i (clearCopy s)))
      exact (reset.run (slotted_frameProgram i s) (undisturbed_afterReset h) (running_afterReset h)
        ((sameMask_afterReset h).2.trans hm) later (sameView_afterReset h)).congr rfl rfl rfl
    · obtain ⟨reads, viewed⟩ := clearOutputs_views (cellsOf i) (afterReset i s)
      exact reset.congr reads viewed (clearOutputs_now _ _)

/-- While interrupts are masked no request has a gap in which the view could be read. -/
theorem exec_masked_reads_nothing (hi : i.isRequest = true) (hp : ∀ pin, i = .init pin → s.validPin pin = true) (hm : s.irqMasked = true) :
    ∃ t, exec i s = .next t ∧ t.viewReads = s.viewReads ∧ t.viewed = s.viewed := by
  have masked : NoRead (accept i (clearCopy s)) := .inl (by simpa using hm)
  have sameReads : (accept i (clearCopy s)).viewReads = s.viewReads := by simp
  have sameViewed : (accept i (clearCopy s)).viewed = s.viewed := by simp
  cases requestShape hi with
  | init pin =>
    obtain ⟨-, reads, viewed⟩ := (blind_bindPin pin).keeps (accept (.init pin) (clearCopy s))
    exact ⟨_, exec_init_of_ready h (hp pin rfl), by simpa [Micro.exec] using reads, by simpa [Micro.exec] using viewed⟩
  | driveLow => exact ⟨_, exec_driveLow_of_ready h, by simp [Micro.exec], by simp [Micro.exec]⟩
  | release => exact ⟨_, exec_release_of_ready h, by simp [Micro.exec], by simp [Micro.exec]⟩
  | bus hb =>
    obtain ⟨reads, viewed⟩ := run_noRead (slotted_busProgram i) h.undisturbed_accept h.running_accept masked
    exact ⟨_, exec_bus_of_ready hb h, reads.trans sameReads, viewed.trans sameViewed⟩
  | frame hd =>
    obtain ⟨reads, viewed⟩ := run_noRead slotted_resetProgram h.undisturbed_accept h.running_accept masked
    refine ⟨_, exec_frame_of_ready hd h, ?_⟩
    split
    · have masked' : NoRead (afterReset i s) := .inl ((sameMask_afterReset h).2.trans hm)
      obtain ⟨reads', viewed'⟩ := run_noRead (slotted_frameProgram i s) (undisturbed_afterReset h) (running_afterReset h) masked'
      exact ⟨(reads'.trans reads).trans sameReads, (viewed'.trans viewed).trans sameViewed⟩
    · obtain ⟨reads', viewed'⟩ := clearOutputs_views (cellsOf i) (afterReset i s)
      exact ⟨(reads'.trans reads).trans sameReads, (viewed'.trans viewed).trans sameViewed⟩

end

/-- Settles O37: the bytes by their definition; a read in the gap that makes it; a machine without reads runs as one with any. -/
theorem statusViewLayout : Obligations.StatusViewLayout := by
  refine ⟨fun s => ⟨statusView_stat s, rfl, rfl, rfl, ?_, statusView_info s, fun k => statusView_above s, fun k => rfl⟩,
    statusView_powerOn, ?_, ?_, ?_⟩
  · cases h : s.rstat with
    | noneYet => simp [statusView, h, RStat.code]
    | last st => cases st <;> simp [statusView, h, RStat.code, Status.code]
  · rintro i s n k hi hl hd ⟨h, -⟩ hm hv
    obtain ⟨t, ht, once, atOnce⟩ := exec_reads h (isBusProgram_or_isDeviceProtocol hi hl hd) hm hv
    have view := (sameView_accept i s).statusView k
    have low : statusView { accept i (clearCopy s) with drive := .released } k = statusView { s with busy := true, drive := .released } k :=
      SameView.statusView (by constructor <;> simp) k
    have now : (accept i (clearCopy s)).now = s.now := by simp
    have viewed : (accept i (clearCopy s)).viewed = s.viewed := by simp
    rw [ReadOnce, view, low, now, viewed] at once
    rw [ReadAtOnce, view, now, viewed] at atOnce
    exact ⟨t, ht, once, atOnce⟩
  · rintro i s hi ⟨h, hp⟩ hm
    exact exec_masked_reads_nothing h hi hp hm
  · intro i s reads seen
    obtain ⟨t, ht⟩ := exec_total i s
    obtain ⟨u, hu, e⟩ := exec_eraseViews (s := s) (s' := { s with viewReads := reads, viewed := seen }) rfl ht
    refine ⟨t, u, ht, hu, ?_⟩
    calc u = { u.eraseViews with viewReads := u.viewReads, viewed := u.viewed } := rfl
      _ = { t.eraseViews with viewReads := u.viewReads, viewed := u.viewed } := by rw [e]
      _ = { t with viewReads := u.viewReads, viewed := u.viewed } := rfl

end Sys2Proof.Machine
end
